-- ==== Sys2Proof/Word.lean ====
section
/-! DEFINITION. The word types of the META HTP core: 32-bit registers and addresses, 64-bit transfers, thread numbers. -/

namespace Sys2Proof

/-- A 32-bit register value, linear address or physical address (00_scope.md R5, 10_state.md R31). -/
abbrev Word := BitVec 32

/-- A 64-bit transfer: a pair of registers, a coprocessor value, a read pipeline entry. -/
abbrev DWord := BitVec 64

/-- A byte of memory. -/
abbrev Byte := BitVec 8

/-- A thread number; at most four threads exist (10_state.md R30). -/
abbrev Tid := Fin 4

end Sys2Proof
end

