-- ==== Sys2Proof/Syntax.lean ====
section
/-! DEFINITION. The abstract instruction set of 30_encoding.md R424: one constructor for every row of the opcode table. -/

namespace Sys2Proof

/-- The register units of 30_encoding.md R425 and R426, in the order of their unit numbers. -/
inductive UnitId where
  | ct | d0 | d1 | a0 | a1 | pc | port | tr | tt | fx
deriving DecidableEq, Repr

/-- A register operand `Ux.n`. -/
structure Reg where
  unit : UnitId
  num  : BitVec 5
deriving DecidableEq, Repr

/-- The sixteen conditions of 30_encoding.md R427, in the order of their codes; `al` is A, `lo` is CS or LO,
`hs` is CC or HS. -/
inductive Cond where
  | al | eq | ne | lo | hs | mi | pl | vs | vc | hi | ls | ge | lt | gt | le | nv
deriving DecidableEq, Repr

/-- The access widths B, W, D, L (20_memory.md R275). -/
inductive Width where
  | byte | word | dword | lword
deriving DecidableEq, Repr

/-- A register or an immediate already extended to 32 bits (41_alu.md R501). -/
inductive Src where
  | reg (r : Reg)
  | imm (v : Word)
deriving DecidableEq, Repr

/-- A source of an address unit operation; `cpc` is the address of the instruction (41_alu.md R511). -/
inductive AuSrc where
  | reg (r : Reg)
  | imm (v : Word)
  | cpc
deriving DecidableEq, Repr

/-- The base update of an addressing mode (40_data_movement.md R468). -/
inductive Update where
  | none | pre | post
deriving DecidableEq, Repr

/-- The abstract memory operand of 40_data_movement.md R468. -/
structure MemMode where
  base   : Reg
  off    : Src
  update : Update
deriving DecidableEq, Repr

/-- The read address ports of 40_data_movement.md R473, in the order D0 prints them. -/
inductive ReadPort where
  | ra | rapf | rabz | rawz | radz | rabx | rawx | radx | ram8x | ram16x | ram8x32
deriving DecidableEq, Repr

/-- `OPcc{S} Ud.d, src1, src2` (41_alu.md R501). -/
structure AluArgs where
  cc : Cond
  s  : Bool
  d  : Reg
  a  : Reg
  b  : Src
deriving DecidableEq, Repr

/-- `TSTcc src1, src2` and `CMPcc src1, src2` (41_alu.md R509, R510). -/
structure TestArgs where
  cc : Cond
  a  : Reg
  b  : Src
deriving DecidableEq, Repr

/-- Address unit ADD and SUB (41_alu.md R511). -/
structure AuArgs where
  cc : Cond
  d  : Reg
  a  : AuSrc
  b  : AuSrc
deriving DecidableEq, Repr

/-- A load or store of one register (40_data_movement.md R466, R467). -/
structure MemArgs where
  cc  : Cond
  r   : Reg
  mem : MemMode
deriving DecidableEq, Repr

/-- A 64-bit load or store of the pair `RegA, RegB` (40_data_movement.md R464). -/
structure PairArgs where
  cc  : Cond
  ra  : Reg
  rb  : Reg
  mem : MemMode
deriving DecidableEq, Repr

/-- The data unit operations of 41_alu.md R505 to R508. -/
inductive AluOp where
  | add | sub | and | or | xor | lsl | lsr | asr | mulw | muld
deriving DecidableEq, Repr

/-- The address unit operations of 41_alu.md R511. -/
inductive AuOp where
  | add | sub
deriving DecidableEq, Repr

/-- What a read of RD writes: one register, or a pair that takes all 64 bits, the first register the low word (40_data_movement.md R472,
R464). -/
inductive RdDest where
  | one (d : Reg)
  | pair (ra rb : Reg)
deriving DecidableEq, Repr

/-- Whose translation a CACHERL consults (43_sync_system.md R575). -/
inductive CacheSide where
  | data | instruction
deriving DecidableEq, Repr

/-- Every instruction of spec/opcode_table.json (30_encoding.md R424). `repeatForm i` is `i` with the boolean `repeat` of 42_control_flow.md
R535 set. Which rows carry a condition, where 41_alu.md R504 says that most can and lists none, is DESIGN CHOICE (log 80). -/
inductive Instr where
  | lock0
  | lock1
  | lock2
  | rti
  | nop
  | switch (cc : Cond) (imm : BitVec 24)
  | bcc (cc : Cond) (imm : BitVec 19)
  | mov (cc : Cond) (d s : Reg)
  | swap (cc : Cond) (a b : Reg)
  | movImm (cc : Cond) (d : Reg) (imm : Word)
  | getb (x : MemArgs)
  | getw (x : MemArgs)
  | getd (x : MemArgs)
  | getl (x : PairArgs)
  | setb (x : MemArgs)
  | setw (x : MemArgs)
  | setd (x : MemArgs)
  | setl (x : PairArgs)
  | mgetd (base : Reg) (regs : List Reg)
  | mgetl (base : Reg) (regs : List (Reg × Reg))
  | msetd (base : Reg) (regs : List Reg)
  | msetl (base : Reg) (regs : List (Reg × Reg))
  | memToMem
  | movRa (cc : Cond) (s : Reg)
  | movRapf (cc : Cond) (s : Reg)
  | movRabz (cc : Cond) (s : Reg)
  | movRawz (cc : Cond) (s : Reg)
  | movRadz (cc : Cond) (s : Reg)
  | movRabx (cc : Cond) (s : Reg)
  | movRawx (cc : Cond) (s : Reg)
  | movRadx (cc : Cond) (s : Reg)
  | movRam8x (cc : Cond) (s : Reg)
  | movRam16x (cc : Cond) (s : Reg)
  | movRam8x32 (cc : Cond) (s : Reg)
  | movRd (cc : Cond) (d : RdDest)
  | xfr
  | coprocRead (p : Fin 8) (ra : Reg) (rb : Option Reg)
  | coprocWrite (p : Fin 8) (ra : Reg) (rb : Option Reg)
  | add (x : AluArgs)
  | sub (x : AluArgs)
  | and (x : AluArgs)
  | or (x : AluArgs)
  | xor (x : AluArgs)
  | lsl (x : AluArgs)
  | lsr (x : AluArgs)
  | asr (x : AluArgs)
  | mulw (x : AluArgs)
  | muld (x : AluArgs)
  | tst (x : TestArgs)
  | cmp (x : TestArgs)
  | auAdd (x : AuArgs)
  | auSub (x : AuArgs)
  | callr (d : Reg) (imm : Word)
  | jump (b : Reg) (off : Word)
  | call (d b : Reg) (off : Word)
  | movPc (cc : Cond) (s : Reg)
  | repeatForm (i : Instr)
  | hardwareLoop
  | lnkgetd (d b : Reg)
  | lnkgetl (ra rb b : Reg)
  | lnksetd (cc : Cond) (b s : Reg)
  | lnksetl (cc : Cond) (b ra rb : Reg)
  | defrTxstat (d : Reg)
  | defrTxpoll (d : Reg)
  | defrTxstati (d : Reg)
  | defrTxpolli (d : Reg)
  | cacherl (side : CacheSide) (ra rb b : Reg)
  | dcache (b : Reg)
  | cachew (b s : Reg)
  | icache (base : AuSrc) (off : Word) (lines : Nat)
deriving DecidableEq, Repr

end Sys2Proof
end

