-- ==== Sys2Proof/Config.lean ====
section
/-! DEFINITION. The build parameters of 00_scope.md R5 and the named parameters of 92_eei_decisions.md, one default build, and the free value. -/

namespace Sys2Proof

/-- A range of physical addresses with memory behind it (20_memory.md R252: supplied by the platform). -/
structure PhysRange where
  base : Nat
  size : Nat
deriving DecidableEq, Repr

/-- The build. No step changes it. Its default is DESIGN CHOICE (log 5). -/
structure Config where
  /-- NTHREADS, 1 to 4. -/
  nThreads : Nat
  /-- TCAPS of each thread (10_state.md R42). -/
  caps : Vector (BitVec 4) 4
  /-- CORE_CONFIG2.GLOBAL_DU_REGISTERS: code of the number of global data registers. -/
  duGlobalCode : BitVec 3
  /-- CORE_CONFIG2.GLOBAL_AU_REGISTERS: code of the number of global address registers. -/
  auGlobalCode : BitVec 3
  /-- CORE_CONFIG2.GLOBAL_ACCUMULATORS. -/
  globalAccumulators : BitVec 2
  /-- CORE_ID.DSP_TYPE. -/
  dspType : BitVec 3
  /-- CORE_CONFIG2.BASELINE_DSP. -/
  baselineDsp : Bool
  /-- CORE_ID.FPU_TYPE. -/
  fpuType : BitVec 2
  /-- CORE_ID.CACHE_TYPE. -/
  cacheType : BitVec 3
  /-- CORE_ID.GLOB_CACHE_COH: false is 'Included'. -/
  globCacheNotCoherent : Bool
  /-- CORE_CONFIG2.SEG_MMU. -/
  segMmu : Bool
  /-- CORE_CONFIG2.DCACHE_WB. -/
  dcacheWriteBack : Bool
  dcacheSmall : Bool
  icacheSmall : Bool
  dcacheSizeNp : BitVec 3
  icacheSizeNp : BitVec 3
  dcacheSizeCode : BitVec 3
  icacheSizeCode : BitVec 3
  /-- CORE_CONFIG2.BREAKPOINTS: code of the number of code breakpoints. -/
  breakpointsCode : BitVec 2
  /-- CORE_CONFIG2.WATCHPOINTS: code of the number of data watchpoints. -/
  watchpointsCode : BitVec 2
  /-- CORE_CONFIG2.REAL_TIME_TRACE: true is 'not present'. -/
  noTrace : Bool
  coreDebugType : BitVec 2
  /-- COPROC_READ_PORTS. That ports 0 to n-1 exist, where R5 gives the count only, is DESIGN CHOICE (log 82). -/
  coprocReadPorts : Nat
  /-- COPROC_WRITE_PORTS. That ports 0 to n-1 exist, where R5 gives the count only, is DESIGN CHOICE (log 82). -/
  coprocWritePorts : Nat
  /-- READ_PIPELINE_DEPTH. -/
  readPipelineDepth : Nat
  /-- N_EXT_TRIGGERS in blocks of 32, 0 to 4. -/
  extTriggerBlocks : Nat
  hasWriteCombiner : Bool
  coreCodeMemSize : Nat
  coreDataMemSize : Nat
  dcacheSkew : Bool
  icacheSkew : Bool
  /-- BOOT_MODE: true is self boot. -/
  selfBoot : Bool
  /-- BOOT_PC (92_eei_decisions.md D4). -/
  bootPc : Word
  /-- THREAD_START_PC of each thread (D52). -/
  startPc : Vector Word 4
  /-- METAC_ID maintenance byte. -/
  maintRev : Byte
  /-- CORE_REV designer code. -/
  designer : Byte
  /-- CORE_ID.IMG_META_CORE_ID. -/
  coreIdByte : Byte
  /-- ATP_SLOT(t, g) for t = 0..3 then the global slots of t = 0..3; none: no parameter given (D15). -/
  atpSlot : Option (Vector (BitVec 3) 8)
  /-- RA_WIDTH is 8 bytes (D35); false is 4 bytes. -/
  raWidth8 : Bool
  /-- LNK_SPURIOUS_FAIL (D47). -/
  lnkSpuriousFail : Bool
  /-- The physical addresses with memory behind them. -/
  platform : List PhysRange
  /-- The Decode parameter on the words 30_encoding.md R426 does not fix (R422, D3). -/
  isa : List (Word × Instr)
deriving DecidableEq, Repr

/-- One default build: DESIGN CHOICE (log 5). Four GP threads with all globals, four breakpoints, two watchpoints,
coherent write-through caches of 16 Kbyte, eight coprocessor ports each way, a read pipeline of six entries, 128 external triggers, a write
combiner, 64 Kbyte core memories, self boot at 0x80000000. -/
def Config.default : Config where
  nThreads := 4
  caps := #v[0xC#4, 0xC#4, 0xC#4, 0xC#4]
  duGlobalCode := 5#3
  auGlobalCode := 4#3
  globalAccumulators := 0#2
  dspType := 1#3
  baselineDsp := false
  fpuType := 0#2
  cacheType := 0#3
  globCacheNotCoherent := false
  segMmu := false
  dcacheWriteBack := false
  dcacheSmall := false
  icacheSmall := false
  dcacheSizeNp := 0#3
  icacheSizeNp := 0#3
  dcacheSizeCode := 2#3
  icacheSizeCode := 2#3
  breakpointsCode := 2#2
  watchpointsCode := 1#2
  noTrace := true
  coreDebugType := 0#2
  coprocReadPorts := 8
  coprocWritePorts := 8
  readPipelineDepth := 6
  extTriggerBlocks := 4
  hasWriteCombiner := true
  coreCodeMemSize := 0x10000
  coreDataMemSize := 0x10000
  dcacheSkew := false
  icacheSkew := false
  selfBoot := true
  bootPc := 0x80000000#32
  startPc := #v[0#32, 0#32, 0#32, 0#32]
  maintRev := 0#8
  designer := 0#8
  coreIdByte := 0#8
  atpSlot := none
  raWidth8 := false
  lnkSpuriousFail := false
  platform := [⟨0x08000000, 0xF8000000⟩]
  isa := []

/-- The values the spec leaves open (log 9): `State.freeCtr` says which one is used next. It has no body, so nothing
can be proved of any of its values. -/
opaque Config.free : Nat → DWord

end Sys2Proof
end

