-- ==== Sys2Proof/WellFormed.lean ====
section
/-! DEFINITION. Which abstract instructions are forms of the instruction set: the operand kinds the family rules of spec/ give each row. -/

namespace Sys2Proof

/-- D0, D1, A0 or A1: the register execution units with an ALU (10_state.md R31). -/
def Reg.isGeneral (r : Reg) : Bool :=
  match r.unit with
  | .d0 | .d1 | .a0 | .a1 => true
  | .ct | .pc | .port | .tr | .tt | .fx => false

/-- D0 or D1. -/
def Reg.isData (r : Reg) : Bool := r.unit == .d0 || r.unit == .d1

/-- A0 or A1. -/
def Reg.isAddress (r : Reg) : Bool := r.unit == .a0 || r.unit == .a1

/-- The input port RD (30_encoding.md R426: port unit, source register 0). -/
def Reg.isRd (r : Reg) : Bool := r.unit == .port && r.num == 0#5

/-- The register PC of the PC unit. -/
def Reg.isPc (r : Reg) : Bool := r.unit == .pc && r.num == 0#5

/-- The output port with this register number (30_encoding.md R426: 16 is RA, 17 RAPF, and on in D0's order). -/
def ReadPort.ofNum (n : BitVec 5) : Option ReadPort :=
  match n.toNat with
  | 16 => some .ra | 17 => some .rapf | 18 => some .rabz | 19 => some .rawz | 20 => some .radz | 21 => some .rabx
  | 22 => some .rawx | 23 => some .radx | 24 => some .ram8x | 25 => some .ram16x | 26 => some .ram8x32
  | _ => none

/-- The register number of an output port. -/
def ReadPort.num : ReadPort → BitVec 5
  | .ra => 16#5 | .rapf => 17#5 | .rabz => 18#5 | .rawz => 19#5 | .radz => 20#5 | .rabx => 21#5
  | .rawx => 22#5 | .radx => 23#5 | .ram8x => 24#5 | .ram16x => 25#5 | .ram8x32 => 26#5

/-- The output port a register operand names, if it names one. -/
def Reg.outPort (r : Reg) : Option ReadPort := if r.unit = .port then ReadPort.ofNum r.num else none

/-- `RegA, RegB` of a 64-bit transfer: one register in unit 0 and one in unit 1 of the same kind, either first, with one
number (40_data_movement.md R464, 60_exceptions.md R656). -/
def pairOk (ra rb : Reg) : Bool :=
  ra.num == rb.num &&
    match ra.unit, rb.unit with
    | .d0, .d1 | .d1, .d0 | .a0, .a1 | .a1, .a0 => true
    | _, _ => false

/-- A source of a data unit operation: a data or address register, or RD; never the PC (41_alu.md R501, 10_state.md R38). -/
def Src.aluOk : Src → Bool
  | .reg r => r.isGeneral || r.isRd
  | .imm _ => true

/-- A source of an operation of address unit `u` (41_alu.md R511). -/
def AuSrc.okFor (u : UnitId) : AuSrc → Bool
  | .reg r => r.unit == u
  | .imm _ => true
  | .cpc => true

/-- `(Ub.b, off, update)`: a register offset is of the base's unit (40_data_movement.md R468). Which units a base may be 'is not stated'
(30_encoding.md R425): a data or address register, DESIGN CHOICE (log 69). -/
def MemMode.ok (m : MemMode) : Bool :=
  m.base.isGeneral &&
    match m.off with
    | .reg r => r.unit == m.base.unit
    | .imm _ => true

/-- A load destination: the units R466 defines. -/
def Reg.isLoadDest (r : Reg) : Bool :=
  r.isGeneral || r.unit == .pc || r.unit == .ct || r.unit == .tr

/-- A store source: any unit that holds registers, or RD (40_data_movement.md R467, R472). -/
def Reg.isStoreSrc (r : Reg) : Bool := r.isLoadDest || r.isRd

/-- `OPcc{S} Ud.d, src1, src2` (41_alu.md R501), which does not say which units may meet: a result in D0 or D1, each source in D0, D1, A0 or
A1 or RD, in any mix, DESIGN CHOICE (log 69). -/
def AluArgs.ok (x : AluArgs) : Bool := x.d.isData && (Src.reg x.a).aluOk && x.b.aluOk

/-- The sources of TST and CMP, as those of `AluArgs.ok` (log 69). -/
def TestArgs.ok (x : TestArgs) : Bool := (Src.reg x.a).aluOk && x.b.aluOk

def AuArgs.ok (x : AuArgs) : Bool := x.d.isAddress && x.a.okFor x.d.unit && x.b.okFor x.d.unit

def MemArgs.loadOk (x : MemArgs) : Bool := x.r.isLoadDest && x.mem.ok

def MemArgs.storeOk (x : MemArgs) : Bool := x.r.isStoreSrc && x.mem.ok

def PairArgs.ok (x : PairArgs) : Bool := pairOk x.ra x.rb && x.mem.ok

/-- A destination that is neither the PC nor an output port: those moves are rows of their own. -/
def Reg.plainDest (d : Reg) : Bool := !d.isPc && d.outPort.isNone

/-- A register list of one to eight registers (40_data_movement.md R469). R469 has no operand list from D0: `Instr.wf` lets it name data and
address registers, DESIGN CHOICE (log 69). -/
def listOk {α : Type} (ok : α → Bool) (l : List α) : Bool := !l.isEmpty && decide (l.length ≤ 8) && l.all ok

/-- The destination of a coprocessor read or the source of a coprocessor write. R476 has no operand forms from D0: one data or address
register or a pair of them, with no condition, DESIGN CHOICE (log 70). -/
def coprocOk (ra : Reg) (rb : Option Reg) : Bool :=
  match rb with
  | none => ra.isGeneral
  | some r => pairOk ra r

/-- The destination of a read of RD: a register other than the PC and the ports, or a pair (40_data_movement.md R472). -/
def RdDest.ok : RdDest → Bool
  | .one d => d.plainDest
  | .pair ra rb => pairOk ra rb

/-- The instruction has its repeat bit set (42_control_flow.md R535). -/
def Instr.isRepeat : Instr → Bool
  | .repeatForm _ => true
  | _ => false

/-- The forms of the instruction set. R531 and R532 of 42_control_flow.md limit neither the unit of the link register nor that of the base, and
R535 limits no instruction that may repeat; which of them have a word is the Decode parameter's. The register of LNKGETD, LNKSETD, DEFR and CACHEW,
whose units 43_sync_system.md R566, R567, R571 and R577 do not give, is a data or address register: DESIGN CHOICE (log 69). -/
def Instr.wf : Instr → Bool
  | .lock0 | .lock1 | .lock2 | .rti | .nop => true
  | .switch _ _ => true
  | .bcc c imm => !(c == .nv && imm == 0x7FFFF#19)
  | .mov _ d s => d.plainDest && !s.isRd
  | .swap _ _ _ => true
  | .movImm _ d _ => d.isGeneral
  | .getb x | .getw x | .getd x => x.loadOk
  | .getl x => x.ok
  | .setb x | .setw x | .setd x => x.storeOk
  | .setl x => x.ok
  | .mgetd b l | .msetd b l => b.isGeneral && listOk Reg.isGeneral l
  | .mgetl b l | .msetl b l => b.isGeneral && listOk (fun p => pairOk p.1 p.2) l
  | .memToMem | .xfr | .hardwareLoop => true
  | .movRa _ _ | .movRapf _ _ | .movRabz _ _ | .movRawz _ _ | .movRadz _ _ | .movRabx _ _ | .movRawx _ _
  | .movRadx _ _ | .movRam8x _ _ | .movRam16x _ _ | .movRam8x32 _ _ => true
  | .movRd _ d => d.ok
  | .coprocRead _ ra rb | .coprocWrite _ ra rb => coprocOk ra rb
  | .add x | .sub x | .and x | .or x | .xor x | .lsl x | .lsr x | .asr x | .mulw x | .muld x => x.ok
  | .tst x | .cmp x => x.ok
  | .auAdd x | .auSub x => x.ok
  | .callr _ _ | .jump _ _ | .call _ _ _ => true
  | .movPc _ _ => true
  | .repeatForm i => i.wf && !i.isRepeat
  | .lnkgetd d b => d.isGeneral && b.isGeneral
  | .lnkgetl ra rb b => pairOk ra rb && b.isGeneral
  | .lnksetd _ b s => b.isGeneral && s.isGeneral
  | .lnksetl _ b ra rb => b.isGeneral && pairOk ra rb
  | .defrTxstat d | .defrTxpoll d | .defrTxstati d | .defrTxpolli d => d.isGeneral
  | .cacherl _ ra rb b => pairOk ra rb && b.isGeneral
  | .dcache b => b.isGeneral
  | .cachew b s => b.isGeneral && s.isGeneral
  | .icache base _ _ => match base with | .reg r => r.isGeneral | .imm _ | .cpc => true

end Sys2Proof
end

