-- ==== Sys2Proof/Decode.lean ====
section
/-! DEFINITION. From a 32-bit instruction word to an instruction and back: the patterns of 30_encoding.md R426, then the Decode parameter (R422, D3). -/

namespace Sys2Proof

/-- Bits `lo+n-1 : lo` of a word. -/
def fieldOf (w : Word) (lo n : Nat) : BitVec n := w.extractLsb' lo n

/-- The unit with this 4-bit number; 10 to 15 name none (30_encoding.md R426). -/
def UnitId.ofCode (c : BitVec 4) : Option UnitId :=
  match c.toNat with
  | 0 => some .ct | 1 => some .d0 | 2 => some .d1 | 3 => some .a0 | 4 => some .a1
  | 5 => some .pc | 6 => some .port | 7 => some .tr | 8 => some .tt | 9 => some .fx
  | _ => none

/-- The unit number (30_encoding.md R426). -/
def UnitId.code : UnitId → BitVec 4
  | .ct => 0#4 | .d0 => 1#4 | .d1 => 2#4 | .a0 => 3#4 | .a1 => 4#4
  | .pc => 5#4 | .port => 6#4 | .tr => 7#4 | .tt => 8#4 | .fx => 9#4

/-- The condition with this code (30_encoding.md R427). -/
def Cond.ofCode (c : BitVec 4) : Cond :=
  match c.toNat with
  | 0 => .al | 1 => .eq | 2 => .ne | 3 => .lo | 4 => .hs | 5 => .mi | 6 => .pl | 7 => .vs
  | 8 => .vc | 9 => .hi | 10 => .ls | 11 => .ge | 12 => .lt | 13 => .gt | 14 => .le
  | _ => .nv

/-- The condition field value (30_encoding.md R427). -/
def Cond.code : Cond → BitVec 4
  | .al => 0#4 | .eq => 1#4 | .ne => 2#4 | .lo => 3#4 | .hs => 4#4 | .mi => 5#4 | .pl => 6#4 | .vs => 7#4
  | .vc => 8#4 | .hi => 9#4 | .ls => 10#4 | .ge => 11#4 | .lt => 12#4 | .gt => 13#4 | .le => 14#4 | .nv => 15#4

/-- Why a word is no instruction. The machine answers every one with UnknownInstruction (30_encoding.md R423). -/
inductive Reject where
  /-- A MOV or SWAP word with a unit number 10 to 15. -/
  | noSuchUnit
  /-- A word no pattern of R426 fits and the Decode parameter does not list. -/
  | unknownWord
  /-- A word the Decode parameter maps to a term that is no form of the instruction set. -/
  | illFormed
  /-- Fewer than four bytes. -/
  | truncated
deriving DecidableEq, Repr

/-- The instruction of a read issue to a port. -/
def Instr.issueTo (p : ReadPort) (c : Cond) (s : Reg) : Instr :=
  match p with
  | .ra => .movRa c s | .rapf => .movRapf c s | .rabz => .movRabz c s | .rawz => .movRawz c s
  | .radz => .movRadz c s | .rabx => .movRabx c s | .rawx => .movRawx c s | .radx => .movRadx c s
  | .ram8x => .movRam8x c s | .ram16x => .movRam16x c s | .ram8x32 => .movRam8x32 c s

/-- Which row a unit-to-unit move is: a destination PC or an output port, or the source RD, has a row of its own. -/
def moveOf (c : Cond) (d s : Reg) : Instr :=
  if d.isPc then .movPc c s
  else match d.outPort with
    | some p => .issueTo p c s
    | none => if s.isRd then .movRd c (.one d) else .mov c d s

/-- The words R426 fixes; `none` is a word outside every pattern. R426 names the units 0 to 9: a MOV or SWAP word with a unit 10 to 15 is
unknown, the table not asked, DESIGN CHOICE (log 18). -/
def decodeFixed (w : Word) : Option (Except Reject Instr) :=
  if w = 0xA3FFFFFF#32 then some (.ok .rti)
  else if w = 0xA0FFFFFE#32 then some (.ok .nop)
  else if w = 0xA8000000#32 then some (.ok .lock0)
  else if w = 0xA8000001#32 then some (.ok .lock1)
  else if w = 0xA8000003#32 then some (.ok .lock2)
  else if fieldOf w 24 8 = 0xAF#8 then some (.ok (.switch .al (fieldOf w 0 24)))
  else if fieldOf w 24 8 = 0xA0#8 ∧ fieldOf w 0 1 = 0#1 then
    some (.ok (.bcc (Cond.ofCode (fieldOf w 1 4)) (fieldOf w 5 19)))
  else if fieldOf w 24 8 = 0xA3#8 ∧ fieldOf w 0 1 = 0#1 then
    match UnitId.ofCode (fieldOf w 10 4), UnitId.ofCode (fieldOf w 5 4) with
    | some us, some ud =>
      let s : Reg := ⟨us, fieldOf w 19 5⟩
      let d : Reg := ⟨ud, fieldOf w 14 5⟩
      let c := Cond.ofCode (fieldOf w 1 4)
      some (.ok (if fieldOf w 9 1 = 1#1 then .swap c d s else moveOf c d s))
    | _, _ => some (.error .noSuchUnit)
  else none

/-- `Decode` of R422: the fixed patterns first, then the build's table. -/
def decodeWith (tbl : List (Word × Instr)) (w : Word) : Except Reject Instr :=
  match decodeFixed w with
  | some r => r
  | none =>
    match tbl.lookup w with
    | some i => if i.wf then .ok i else .error .illFormed
    | none => .error .unknownWord

/-- The value of four bytes, the first at the lowest address (20_memory.md R274). -/
def wordOfBytes (b0 b1 b2 b3 : Byte) : Word := b3 ++ b2 ++ b1 ++ b0

/-- The four bytes of a word, lowest address first. -/
def bytesOfWord (w : Word) : List Byte :=
  [w.extractLsb' 0 8, w.extractLsb' 8 8, w.extractLsb' 16 8, w.extractLsb' 24 8]

/-- Decoding from bytes: four bytes are one instruction (30_encoding.md R420); the rest is handed back. -/
def decodeBytes (tbl : List (Word × Instr)) : List Byte → Except Reject (Instr × List Byte)
  | b0 :: b1 :: b2 :: b3 :: rest =>
    match decodeWith tbl (wordOfBytes b0 b1 b2 b3) with
    | .ok i => .ok (i, rest)
    | .error e => .error e
  | _ => .error .truncated

/-- A MOV or SWAP word (R426). -/
def moveWord (sw : BitVec 1) (c : Cond) (d s : Reg) : Word :=
  0xA3#8 ++ s.num ++ d.num ++ s.unit.code ++ sw ++ d.unit.code ++ c.code ++ 0#1

/-- The word of an instruction that R426 gives one; the abstract rows have none (R424, opcode_table.json). -/
def encode : Instr → Option Word
  | .lock0 => some 0xA8000000#32
  | .lock1 => some 0xA8000001#32
  | .lock2 => some 0xA8000003#32
  | .rti => some 0xA3FFFFFF#32
  | .nop => some 0xA0FFFFFE#32
  | .switch c imm => if c = .al then some (0xAF#8 ++ imm) else none
  | .bcc c imm => some (0xA0#8 ++ imm ++ c.code ++ 0#1)
  | .mov c d s => some (moveWord 0#1 c d s)
  | .swap c a b => some (moveWord 1#1 c a b)
  | .movPc c s => some (moveWord 0#1 c ⟨.pc, 0#5⟩ s)
  | .movRd c (.one d) => some (moveWord 0#1 c d ⟨.port, 0#5⟩)
  | .movRd _ (.pair _ _) => none
  | .movRa c s => some (moveWord 0#1 c ⟨.port, 16#5⟩ s)
  | .movRapf c s => some (moveWord 0#1 c ⟨.port, 17#5⟩ s)
  | .movRabz c s => some (moveWord 0#1 c ⟨.port, 18#5⟩ s)
  | .movRawz c s => some (moveWord 0#1 c ⟨.port, 19#5⟩ s)
  | .movRadz c s => some (moveWord 0#1 c ⟨.port, 20#5⟩ s)
  | .movRabx c s => some (moveWord 0#1 c ⟨.port, 21#5⟩ s)
  | .movRawx c s => some (moveWord 0#1 c ⟨.port, 22#5⟩ s)
  | .movRadx c s => some (moveWord 0#1 c ⟨.port, 23#5⟩ s)
  | .movRam8x c s => some (moveWord 0#1 c ⟨.port, 24#5⟩ s)
  | .movRam16x c s => some (moveWord 0#1 c ⟨.port, 25#5⟩ s)
  | .movRam8x32 c s => some (moveWord 0#1 c ⟨.port, 26#5⟩ s)
  | .movImm _ _ _ | .getb _ | .getw _ | .getd _ | .getl _ | .setb _ | .setw _ | .setd _ | .setl _ => none
  | .mgetd _ _ | .mgetl _ _ | .msetd _ _ | .msetl _ _ | .memToMem | .xfr => none
  | .coprocRead _ _ _ | .coprocWrite _ _ _ => none
  | .add _ | .sub _ | .and _ | .or _ | .xor _ | .lsl _ | .lsr _ | .asr _ | .mulw _ | .muld _ => none
  | .tst _ | .cmp _ | .auAdd _ | .auSub _ => none
  | .callr _ _ | .jump _ _ | .call _ _ _ | .repeatForm _ | .hardwareLoop => none
  | .lnkgetd _ _ | .lnkgetl _ _ _ | .lnksetd _ _ _ | .lnksetl _ _ _ _ => none
  | .defrTxstat _ | .defrTxpoll _ | .defrTxstati _ | .defrTxpolli _ => none
  | .cacherl _ _ _ _ | .dcache _ | .cachew _ _ | .icache _ _ _ => none

/-- The instruction read from an opcode-table row's bits: the word's bytes go through the decoder with the default
build's table. -/
def decodeTableWord (nbits w : Nat) : Option Instr :=
  let v : Word := BitVec.ofNat 32 (w % 2 ^ nbits)
  match decodeBytes Config.default.isa (bytesOfWord v) with
  | .ok (i, _) => some i
  | .error _ => none

end Sys2Proof
end

