-- ==== Sys2Proof/Machine/Bits.lean ====
section
/-! DEFINITION. Bit fields, masks, extension and byte access, in one place. -/

namespace Sys2Proof.Machine

/-- Bit `i` of a word (00_scope.md R9). -/
def bitOf {n : Nat} (w : BitVec n) (i : Nat) : Bool := w.getLsbD i

/-- Bits `hi:lo` of a word as a number of `n` bits, `n = hi - lo + 1`. -/
def bitsOf {k : Nat} (w : BitVec k) (lo n : Nat) : BitVec n := w.extractLsb' lo n

/-- The old value with the bits of the mask taken from the new one: a register whose other bits ignore writes. -/
def maskWrite (old new mask : Word) : Word := (old &&& ~~~mask) ||| (new &&& mask)

/-- The word with bit `i` made `b`. -/
def withBit (w : Word) (i : Nat) (b : Bool) : Word :=
  let one : Word := 1#32 <<< i
  if b then w ||| one else w &&& ~~~one

/-- The word with the `n` bits from `lo` replaced by `v`. -/
def withBits (w : Word) (lo n : Nat) (v : BitVec n) : Word :=
  let m : Word := (BitVec.allOnes n).setWidth 32 <<< lo
  maskWrite w (v.setWidth 32 <<< lo) m

/-- A Bool as one bit. -/
def b1 (b : Bool) : BitVec 1 := BitVec.ofBool b

/-- Byte `k` of a value, byte 0 holding bits 7:0 (20_memory.md R274). -/
def byteOf {n : Nat} (v : BitVec n) (k : Nat) : Byte := v.extractLsb' (8 * k) 8

/-- The bytes an access of this width moves (20_memory.md R275). -/
def widthBytes : Width → Nat
  | .byte => 1 | .word => 2 | .dword => 4 | .lword => 8

/-- The transfer width code of TXCATCH0.ReqSB bits 1:0 (10_state.md R52). -/
def widthCode : Width → BitVec 2
  | .byte => 0#2 | .word => 1#2 | .dword => 2#2 | .lword => 3#2

/-- The width with this code. -/
def widthOfCode (c : BitVec 2) : Width :=
  match c.toNat with
  | 0 => .byte | 1 => .word | 2 => .dword | _ => .lword

/-- The low `8 n` bits of a value, the rest zero. -/
def zextBytes (n : Nat) (v : DWord) : DWord := (v.setWidth (8 * n)).setWidth 64

/-- The low `8 n` bits of a value, sign extended. -/
def sextBytes (n : Nat) (v : DWord) : DWord := (v.setWidth (8 * n)).signExtend 64

/-- Bits 31:0 of a 64-bit value. -/
def loWord (v : DWord) : Word := v.extractLsb' 0 32

/-- Bits 63:32 of a 64-bit value. -/
def hiWord (v : DWord) : Word := v.extractLsb' 32 32

/-- `{hi, lo}`. -/
def joinWords (hi lo : Word) : DWord := hi ++ lo

/-- The address with its low `log2 n` bits cleared, for `n` a power of two (20_memory.md R259). -/
def alignDown (a : Word) (n : Nat) : Word := a - BitVec.ofNat 32 (a.toNat % n)

/-- The number of the 64-byte line of an address (21_mmu_cache.md R355). -/
def lineOf (pa : Word) : Nat := pa.toNat / 64

end Sys2Proof.Machine
end

