-- ==== Sys2Proof/Machine/Memory.lean ====
section
/-! DEFINITION. Byte memories as one canonical list of cells, and the read and write of one byte and of n bytes. -/

namespace Sys2Proof.Machine

/-- A memory: cells with strictly rising addresses, none of them holding what an unlisted address reads as. -/
abbrev Memory := List Host.Cell

/-- What an address nothing has written reads as: DESIGN CHOICE 0 (log 4; 70_reset_and_hazards.md R781 gives none). -/
def unlistedByte : Byte := 0#8

/-- The byte at an address. -/
def Memory.read : Memory → Nat → Byte
  | [], _ => unlistedByte
  | (b, v) :: m, a => if a = b then v else Memory.read m a

/-- The memory with one byte changed, still canonical. -/
def Memory.write : Memory → Nat → Byte → Memory
  | [], a, v => if v = unlistedByte then [] else [(a, v)]
  | (b, x) :: m, a, v =>
    if a < b then (if v = unlistedByte then (b, x) :: m else (a, v) :: (b, x) :: m)
    else if a = b then (if v = unlistedByte then m else (a, v) :: m)
    else (b, x) :: Memory.write m a v

/-- Every address of the list is above `lo`, the addresses rise strictly, and no cell holds the unlisted byte. -/
def Memory.wfFrom : Option Nat → Memory → Bool
  | _, [] => true
  | lo, (a, v) :: m =>
    (match lo with | none => true | some l => decide (l < a)) && v != unlistedByte && Memory.wfFrom (some a) m

/-- The canonical form. -/
def Memory.wf (m : Memory) : Bool := Memory.wfFrom none m

/-- `n` bytes from an address as a little-endian value (20_memory.md R274). -/
def Memory.readN (m : Memory) (a : Nat) : Nat → DWord
  | 0 => 0#64
  | n + 1 => (Memory.read m a).setWidth 64 ||| (Memory.readN m (a + 1) n <<< 8)

/-- Write the low `n` bytes of a value from an address (20_memory.md R274). -/
def Memory.writeN (m : Memory) (a : Nat) (v : DWord) : Nat → Memory
  | 0 => m
  | n + 1 => Memory.writeN (Memory.write m a (byteOf v 0)) (a + 1) (v >>> 8) n

/-- A sparse byte buffer (the write combiner): the newest byte of each address. -/
abbrev ByteBuf := List Host.Cell

/-- The byte the buffer holds for an address. -/
def ByteBuf.find (b : ByteBuf) (a : Nat) : Option Byte := (b.find? (fun c => c.1 == a)).map Prod.snd

/-- A later byte replaces an earlier one (20_memory.md R276). -/
def ByteBuf.put (b : ByteBuf) (a : Nat) (v : Byte) : ByteBuf := (a, v) :: b.filter (fun c => c.1 != a)

/-- Put the low `n` bytes of a value. -/
def ByteBuf.putN (b : ByteBuf) (a : Nat) (v : DWord) : Nat → ByteBuf
  | 0 => b
  | n + 1 => ByteBuf.putN (ByteBuf.put b a (byteOf v 0)) (a + 1) (v >>> 8) n

/-- Some byte of `a .. a+n-1` is held. -/
def ByteBuf.overlaps (b : ByteBuf) (a n : Nat) : Bool := b.any (fun c => decide (a ≤ c.1) && decide (c.1 < a + n))

/-- The `n` bytes from `a` of a value, with the bytes the buffer holds in their place. -/
def ByteBuf.mergeN (b : ByteBuf) (a : Nat) (v : DWord) : Nat → DWord
  | 0 => 0#64
  | n + 1 =>
    let x : Byte := match ByteBuf.find b a with | some y => y | none => byteOf v 0
    x.setWidth 64 ||| (ByteBuf.mergeN b (a + 1) (v >>> 8) n <<< 8)

/-- A 64-byte cache line's content. -/
abbrev LineData := BitVec 512

/-- The 64 bytes from a line-aligned address. -/
def Memory.readLine (m : Memory) (a : Nat) : Nat → LineData
  | 0 => 0#512
  | n + 1 => (Memory.read m a).setWidth 512 ||| (Memory.readLine m (a + 1) n <<< 8)

/-- A line with the bytes the buffer holds in their place. -/
def ByteBuf.mergeLine (b : ByteBuf) (a : Nat) (v : LineData) : Nat → LineData
  | 0 => 0#512
  | n + 1 =>
    let x : Byte := match ByteBuf.find b a with | some y => y | none => byteOf v 0
    x.setWidth 512 ||| (ByteBuf.mergeLine b (a + 1) (v >>> 8) n <<< 8)

/-- The `n` bytes at an offset of a line. -/
def lineRead (l : LineData) (off n : Nat) : DWord := zextBytes n (l.extractLsb' (8 * off) 64)

/-- The line with `n` bytes at an offset replaced. -/
def lineWrite (l : LineData) (off n : Nat) (v : DWord) : LineData :=
  let mask : LineData := ((BitVec.allOnes (8 * n)).setWidth 512) <<< (8 * off)
  (l &&& ~~~mask) ||| ((zextBytes n v).setWidth 512 <<< (8 * off))

end Sys2Proof.Machine
end

