-- ==== Sys2Proof/Machine/State.lean ====
section
/-! DEFINITION. The state of the machine as plain data, its reset value, and the reasons a step can stop. -/

namespace Sys2Proof.Machine

/-- Why the machine stops. -/
inductive Fault where
  /-- Raised by step: the build's parameters lie outside the legal values of 00_scope.md R5 (safe: no such core exists). -/
  | unsupportedBuild
deriving DecidableEq, Repr

/-- What the model gives no meaning to; every row is a 'refuse' of the spec. All are safe: the run ends. -/
inductive Refusal where
  /-- An instruction whose meaning is not written yet, by its mnemonic (safe). -/
  | notModelled (mnemonic : String)
  /-- Raised by the memory-to-memory transfer: 40_data_movement.md R470 (safe). -/
  | memoryToMemoryTransfer
  /-- Raised by XFR: 40_data_movement.md R475 (safe). -/
  | xfr
  /-- Raised by a hardware loop: 42_control_flow.md R536 (safe). -/
  | hardwareLoop
  /-- Raised by the MX read ports on a DSP thread: 40_data_movement.md R473 (safe). -/
  | dspPort
  /-- Raised by a data or address unit operation of a DSP thread with DSP bits of TXMODE set: 41_alu.md R500 (safe). -/
  | dspMode
  /-- Raised by a condition tested with SCC = 1: 41_alu.md R504 (safe). -/
  | splitConditions
  /-- Raised by step: a thread with MinimEnable = 1 is to execute, 30_encoding.md R420 (safe). -/
  | miniM
  /-- Raised by an access to a reserved control register: 93_implementation_defined.md U2 (safe). -/
  | reservedControl
  /-- Raised by an access to an unassigned trigger register: U2 (safe). -/
  | reservedTrigger
  /-- Raised by an access to the trace unit of a build that has one: 61_privilege_platform.md R750 (safe). -/
  | traceUnit
  /-- Raised by an access to the FX unit of a build that has one: 40_data_movement.md R461 (safe). -/
  | fpuUnit
  /-- Raised by an access to an unlisted core register address or of a width other than 32 bits: D21, U10 (safe). -/
  | coreRegister
  /-- Raised by a store to the system event region that is no 32-bit store or names no command address: U14 (safe). -/
  | eventRegion
  /-- Raised by WR-ATOMIC lock outside LOCK2 or by a second thread: U15 (safe). -/
  | atomicOutsideLock
  /-- Raised by a write to the flush region that U16 names (safe). -/
  | flushRegion
  /-- Raised by a write of 1, 3 or 5 to SYSC_CACHE_MMU_CONFIG: U18 (safe). -/
  | mmuMode
  /-- Raised by entering active mode with ATP tables, by selecting them in active mode, and by a translation through them, in a build
  without the ATP_SLOT parameter: D15 (safe). -/
  | atpTable
  /-- Raised by a linked access outside external memory: 43_sync_system.md R570 (safe). -/
  | linkedRegion
  /-- Raised by a multiple transfer whose LSM_STEP is past its list: 40_data_movement.md R469 gives no effect (safe, log 17). -/
  | lsmStep
  /-- Raised by the replay of a catch state no transfer of R656 leaves (safe, log 46). -/
  | catchState
  /-- Raised by step: a write-back data cache, 21_mmu_cache.md R358 (safe). -/
  | writeBackCache
  /-- Raised by step: a build whose CACHE_TYPE is not FULLMMU, 00_scope.md R5 (safe). -/
  | cacheTypeNotDescribed
deriving DecidableEq, Repr

/-- The thread master states of 10_state.md R74 with their numbers in order. -/
inductive TState where
  | off | run | cbRestore | tidyOff | tidyHalt | tidyIrq | halted
deriving DecidableEq, Repr

/-- The local registers of one thread (10_state.md R32, R33, R36). -/
structure Units where
  d0  : Vector Word 16
  d1  : Vector Word 16
  a0  : Vector Word 8
  a1  : Vector Word 8
  pc  : Word
  pcx : Word
deriving DecidableEq, Repr

/-- The control unit of one thread (10_state.md R40 to R58). -/
structure Ctrl where
  /-- TXENABLE.ThreadEnable. -/
  enabled    : Bool
  /-- TXENABLE.TStopped. -/
  stopped    : Bool
  txmode     : Word
  txstatus   : Word
  txrpt      : Word
  txtimer    : Word
  txtimeri   : Word
  txcatch0   : Word
  txcatch1   : Word
  txcatch2   : Word
  txcatch3   : Word
  txdefr     : Word
  txdivtime  : Word
  txprivext  : Word
  txtactcyc  : BitVec 24
deriving DecidableEq, Repr

/-- The trigger unit of one thread (10_state.md R61 to R70). -/
structure Trig where
  mask         : BitVec 16
  maski        : BitVec 16
  kick         : BitVec 16
  kicki        : BitVec 16
  timerTrig    : Bool
  timerTrigI   : Bool
  haltTrig     : Bool
deriving DecidableEq, Repr

/-- The memory-mapped registers one thread has a copy of (11_core_registers.md). -/
structure ThreadRegs where
  amaReg4      : Word
  /-- TnAMAREG5 bits 31:27; bits 26:0 are not storage (R133). -/
  amaReg5      : Word
  amaReg6      : Word
  privCore     : Word
  privSysr     : Word
  pioReg       : Word
  psyReg       : Word
  wrComb       : Word
  dcPart       : Word
  icPart       : Word
  ebwcCtrl     : Word
  localPhys0   : Word
  localPhys1   : Word
  globalPhys0  : Word
  globalPhys1  : Word
  vecB         : BitVec 4
  vecI         : BitVec 4
  vecP         : BitVec 4
deriving DecidableEq, Repr

/-- One entry of a read pipeline (10_state.md R67): the address, the port and the extended data. -/
structure RpEntry where
  addr : Word
  port : ReadPort
  data : DWord
deriving DecidableEq, Repr

/-- A remembered table entry (21_mmu_cache.md R349): the physical address it was read from, the linear region it
was used for, and the entry. -/
structure TlbEntry where
  addr : Word
  base : Word
  mask : Word
  val  : Word
deriving DecidableEq, Repr

/-- Both levels of one TLB. -/
structure Tlb where
  l1 : List TlbEntry
  l2 : List TlbEntry
deriving DecidableEq, Repr

/-- A cached line (21_mmu_cache.md R358): its physical line number, its place in the cache, its bytes. -/
structure CacheLine where
  line : Nat
  slot : Nat
  data : LineData
deriving DecidableEq, Repr

/-- A requested fill (21_mmu_cache.md R367): the physical line, whether it goes to the global partition, and whether its
WIN mode lets the cache keep it (R356). -/
structure FillReq where
  line  : Nat
  glob  : Bool
  alloc : Bool
deriving DecidableEq, Repr

/-- A monitored physical range (43_sync_system.md R568), and the EX-MODE attribute of the mapping the linked read went through
(21_mmu_cache.md R336). -/
structure Monitor where
  pa  : Word
  len : Nat
  exm : Bool
deriving DecidableEq, Repr

/-- State of a thread a program sees only indirectly (10_state.md R67 to R76). -/
structure Hidden where
  tstate   : TState
  link     : Bool
  mon      : Option Monitor
  rp       : List RpEntry
  prescale : BitVec 8
  lineFill : Bool
  /-- PF: the outstanding data prefetch. -/
  pf       : Option FillReq
  /-- Instruction cache preloads not yet filled. -/
  ipf      : List FillReq
  /-- The fetch engine's prefetch buffer: fetch address and word. -/
  fetchBuf : List (Word × Word)
  /-- The model's own: the instruction at PC has been fetched and is blocked (log 13). -/
  waiting  : Bool
  wc       : ByteBuf
  /-- The held bytes that were stored through the global range: their cached copy is in the global partition. -/
  wcGlob   : List Nat
  tlbD     : Tlb
  tlbI     : Tlb
  dcLocal  : List CacheLine
  icLocal  : List CacheLine
deriving DecidableEq, Repr

/-- One hardware thread (10_state.md R30). -/
structure Thread where
  u  : Units
  ct : Ctrl
  tr : Trig
  mm : ThreadRegs
  h  : Hidden
deriving DecidableEq, Repr

/-- What all threads share inside the core (61_privilege_platform.md R731). -/
structure Shared where
  /-- D0.16 to D0.31. -/
  d0     : Vector Word 16
  d1     : Vector Word 16
  /-- A0.8 to A0.15. -/
  a0     : Vector Word 8
  a1     : Vector Word 8
  /-- HWTRIG in bits 15:4. -/
  hwtrig : BitVec 16
  idlecyc : BitVec 24
  lock1  : Option Tid
  lock2  : Option Tid
  /-- ATOMIC_OWNER (20_memory.md R271). -/
  atomicOwner : Option Tid
deriving DecidableEq, Repr

/-- A code breakpoint (11_core_registers.md R138, R139). -/
structure CodeBreakpoint where
  addr : Word
  ctrl : Word
deriving DecidableEq, Repr

/-- A data watchpoint (11_core_registers.md R140 to R142). -/
structure Watchpoint where
  addr   : Word
  ctrl   : Word
  match0 : Word
  match1 : Word
  mask0  : Word
  mask1  : Word
deriving DecidableEq, Repr

/-- A performance counter's registers (11_core_registers.md R143 to R145, R158). -/
structure PerfRegs where
  icore : Word
  count : Word
  chan  : Word
  vec   : BitVec 4
deriving DecidableEq, Repr

/-- A block of 32 external triggers (11_core_registers.md R154 to R156). -/
structure ExtBlock where
  stat  : Word
  level : Word
  mask  : Word
deriving DecidableEq, Repr

/-- The memory-mapped core registers that belong to no thread (11_core_registers.md). -/
structure CoreRegs where
  codeb        : Vector CodeBreakpoint 4
  dataw        : Vector Watchpoint 2
  perf         : Vector PerfRegs 2
  hwstatmeta   : Word
  ext          : Vector ExtBlock 4
  hwvec        : Vector (BitVec 4) 128
  tablePhys    : Word
  dcacheCtrl   : Word
  icacheCtrl   : Word
  /-- SYSC_CACHE_MMU_CONFIG bits 2:0. -/
  mmuConfig    : BitVec 3
  jtagPriv     : Bool
  slaveThread  : Tid
  debugThread  : Tid
  dcacheFlush  : Word
  icacheFlush  : Word
  localEbCtrl  : Word
  globalEbCtrl : Word
  directMap    : Vector Word 4
deriving DecidableEq, Repr

/-- A bus response token on its way (20_memory.md R281); `linked` marks the answer to a linked write. -/
structure Token where
  tid    : Tid
  instr  : Bool
  state  : BitVec 6
  linked : Bool
deriving DecidableEq, Repr

/-- The two host ports (61_privilege_platform.md R745, R746). -/
inductive HostPort where
  | debug | slave
deriving DecidableEq, Repr

/-- A cache partition: a thread's local one, or the global one a thread uses (21_mmu_cache.md R358, R359). -/
inductive Part where
  | loc (t : Tid)
  | glob (t : Tid)
deriving DecidableEq, Repr

/-- What the core lets the outside see. -/
inductive OutEvent where
  /-- deliver(1): the debug port host (60_exceptions.md R617). -/
  | debugTrigger
  /-- deliver(2), deliver(3): the slave port host. -/
  | slaveTrigger (line : BitVec 4)
  /-- A system event on the bus: the thread and the command's low five bits (20_memory.md R268 to R270). -/
  | busEvent (t : Tid) (cmd : BitVec 5)
  /-- The read, or the write that succeeds, of a linked pair whose mapping has EX-MODE set, as the devices of the system see it: its thread and
  its physical address (21_mmu_cache.md R336, log 66). -/
  | exclusive (t : Tid) (write : Bool) (pa : Word)
  /-- A coprocessor write (40_data_movement.md R476). -/
  | coproc (p : Fin 8) (v : DWord)
  /-- What a host read returned; none when the access was refused (61_privilege_platform.md R746). -/
  | hostRead (p : HostPort) (a : Word) (v : Option Word)
  /-- What a host read of a unit register of an OFF thread returned (R747 (d)). -/
  | hostReg (t : Tid) (r : Reg) (v : Option Word)
deriving DecidableEq, Repr

/-- One step of one agent of 00_scope.md R8. -/
inductive Action where
  /-- Thread `t` takes a step. -/
  | thread (t : Tid)
  /-- One tick of the base timer clock (61_privilege_platform.md R718). -/
  | timerTick
  /-- External line `i` is driven to a level (R748). -/
  | extLine (i : Fin 128) (level : Bool)
  | hostRead (p : HostPort) (a : Word)
  | hostWrite (p : HostPort) (a v : Word)
  | hostSelect (p : HostPort) (t : Tid)
  | hostGetReg (t : Tid) (r : Reg)
  | hostSetReg (t : Tid) (r : Reg) (v : Word)
  /-- The bus delivers the oldest token of thread `t`. -/
  | deliverToken (t : Tid)
  /-- The bus owes thread `t` a further token (20_memory.md R281). -/
  | busToken (t : Tid) (instr : Bool) (state : BitVec 6)
  /-- Another bus master writes physical memory (R277). -/
  | dmaWrite (pa : Word) (bytes : List Byte)
  /-- The write combiner of thread `t` drains (R276). -/
  | drain (t : Tid)
  /-- The outstanding data prefetch of thread `t` fills (21_mmu_cache.md R367). -/
  | prefetchFill (t : Tid)
  /-- The oldest instruction preload of thread `t` fills (43_sync_system.md R578). -/
  | icacheFill (t : Tid)
  /-- The fetch engine of thread `t` reads a linear address: TLB and instruction cache fills (21_mmu_cache.md R366). -/
  | specFetch (t : Tid) (a : Word)
  /-- The fetch engine of thread `t` keeps the word of a linear address in its prefetch buffer (20_memory.md R279). -/
  | specWord (t : Tid) (a : Word)
  /-- A data or instruction cache line is replaced (21_mmu_cache.md R358). -/
  | dropLine (side : CacheSide) (p : Part) (line : Nat)
  /-- A TLB entry read from a table address is forgotten (R349). -/
  | tlbForget (side : CacheSide) (t : Tid) (a : Word)
  /-- A coprocessor supplies a value (40_data_movement.md R476). -/
  | coprocSupply (p : Fin 8) (v : DWord)
  /-- A coprocessor can or cannot accept a value. -/
  | coprocReady (p : Fin 8) (ready : Bool)
  /-- A performance counter counts one event (61_privilege_platform.md R738). -/
  | perfEvent (n : Fin 2)
  /-- Cycles without an issue (R721). -/
  | idle (n : Nat)
deriving DecidableEq, Repr

/-- What surrounds the core, and the model's own counters. -/
structure Env where
  phys     : Memory
  coreCode : Memory
  coreData : Memory
  /-- The global data cache partition; index 0 is the one of a coherent build (21_mmu_cache.md R359). -/
  dcGlobal : Vector (List CacheLine) 4
  icGlobal : List CacheLine
  /-- Tokens not yet delivered, oldest first. -/
  tokens   : List Token
  extLines : BitVec 128
  cpr      : Vector (List DWord) 8
  cpwReady : Vector Bool 8
  /-- What went out, newest first. -/
  out      : List OutEvent
  /-- The model's own: which agent acts, in order (log 8). -/
  schedule : List Action
  /-- The model's own: the thread executing (log 8). -/
  cur      : Tid
  /-- The model's own: how many free values have been used (log 9). -/
  freeCtr  : Nat
deriving DecidableEq, Repr

/-- The machine. -/
structure State where
  cfg    : Config
  thr    : Vector Thread 4
  shared : Shared
  core   : CoreRegs
  env    : Env
deriving DecidableEq, Repr

/-- Registers the spec gives no reset value: DESIGN CHOICE 0 (log 2). The boot thread's PC is BOOT_PC, another
thread's THREAD_START_PC (70_reset_and_hazards.md R782; log 7). -/
def Units.reset (pc : Word) : Units where
  d0 := Vector.replicate 16 0#32
  d1 := Vector.replicate 16 0#32
  a0 := Vector.replicate 8 0#32
  a1 := Vector.replicate 8 0#32
  pc := pc
  pcx := 0#32

/-- 10_state.md R77; `on` is the thread that runs at reset, `first` thread 0. -/
def Ctrl.reset (on first : Bool) : Ctrl where
  enabled := on
  stopped := false
  txmode := 0#32
  txstatus := if first then 0x00020000#32 else 0#32
  txrpt := 0#32
  txtimer := 0#32
  txtimeri := 0#32
  txcatch0 := 0#32
  txcatch1 := 0#32
  txcatch2 := 0#32
  txcatch3 := 0#32
  txdefr := 0#32
  txdivtime := 1#32
  txprivext := 0#32
  txtactcyc := 0#24

/-- 10_state.md R77, D10. -/
def Trig.reset : Trig where
  mask := 0#16
  maski := 0#16
  kick := 0#16
  kicki := 0#16
  timerTrig := false
  timerTrigI := false
  haltTrig := false

/-- 11_core_registers.md R196. -/
def ThreadRegs.reset : ThreadRegs where
  amaReg4 := 0xFF#32
  amaReg5 := 0#32
  amaReg6 := 0#32
  privCore := 0#32
  privSysr := 0#32
  pioReg := 0xB#32
  psyReg := 0xFFFFFFE0#32
  wrComb := 0#32
  dcPart := 0#32
  icPart := 0#32
  ebwcCtrl := 7#32
  localPhys0 := 0#32
  localPhys1 := 0#32
  globalPhys0 := 0#32
  globalPhys1 := 0#32
  vecB := 0#4
  vecI := 0#4
  vecP := 0#4

/-- 10_state.md R77, 70_reset_and_hazards.md R781. What the spec gives no reset content is empty, each a DESIGN CHOICE (log 3): the caches,
the TLBs, the outstanding data prefetch, the instruction preloads and the fetch prefetch buffer. -/
def Hidden.reset (on : Bool) : Hidden where
  tstate := if on then .run else .off
  link := false
  mon := none
  rp := []
  prescale := 0#8
  lineFill := true
  pf := none
  ipf := []
  fetchBuf := []
  waiting := false
  wc := []
  wcGlob := []
  tlbD := ⟨[], []⟩
  tlbI := ⟨[], []⟩
  dcLocal := []
  icLocal := []

/-- Thread `t` after reset. -/
def Thread.reset (c : Config) (t : Tid) : Thread :=
  let first := t == 0
  let on := first && c.selfBoot
  { u := Units.reset (if on then c.bootPc else c.startPc.get t)
    ct := Ctrl.reset on first
    tr := Trig.reset
    mm := ThreadRegs.reset
    h := Hidden.reset on }

/-- The shared state after reset. -/
def Shared.reset : Shared where
  d0 := Vector.replicate 16 0#32
  d1 := Vector.replicate 16 0#32
  a0 := Vector.replicate 8 0#32
  a1 := Vector.replicate 8 0#32
  hwtrig := 0#16
  idlecyc := 0#24
  lock1 := none
  lock2 := none
  atomicOwner := none

/-- 11_core_registers.md R196. -/
def CoreRegs.reset (c : Config) : CoreRegs where
  codeb := Vector.replicate 4 ⟨0#32, 0#32⟩
  dataw := Vector.replicate 2 ⟨0#32, 0#32, 0#32, 0#32, 0#32, 0#32⟩
  perf := #v[⟨0#32, 0x0F000000#32, 0#32, 0#4⟩, ⟨0#32, 0x1F000000#32, 0#32, 0#4⟩]
  hwstatmeta := 0#32
  ext := Vector.replicate 4 ⟨0#32, 0#32, 0xFFFFFFFF#32⟩
  hwvec := Vector.replicate 128 0#4
  tablePhys := 0#32
  dcacheCtrl := 0#32
  icacheCtrl := 0#32
  mmuConfig := 0#3
  jtagPriv := !c.selfBoot
  slaveThread := 0
  debugThread := 0
  dcacheFlush := 1#32
  icacheFlush := 0#32
  localEbCtrl := 0#32
  globalEbCtrl := 0#32
  directMap := Vector.replicate 4 0#32

/-- The surroundings at reset: no memory listed, no token, no action scheduled (log 4, log 8). The levels of the external trigger lines
are the platform's and the spec gives none for reset: all 128 low is DESIGN CHOICE (log 63). -/
def Env.reset : Env where
  phys := []
  coreCode := []
  coreData := []
  dcGlobal := Vector.replicate 4 []
  icGlobal := []
  tokens := []
  extLines := 0#128
  cpr := Vector.replicate 8 []
  cpwReady := Vector.replicate 8 true
  out := []
  schedule := []
  cur := 0
  freeCtr := 0

/-- The machine of a build right after reset. -/
def State.resetOf (c : Config) : State where
  cfg := c
  thr := #v[Thread.reset c 0, Thread.reset c 1, Thread.reset c 2, Thread.reset c 3]
  shared := Shared.reset
  core := CoreRegs.reset c
  env := Env.reset

/-- The machine right after reset: the default build. -/
def State.reset : State := State.resetOf Config.default

end Sys2Proof.Machine
end

