-- ==== Sys2Proof/Machine/Basic.lean ====
section
/-! DEFINITION. Access to a thread's part of the state, the fields of TXSTATUS, TXPRIVEXT, TXDIVTIME and TXDEFR, and what the build says of a thread. -/

namespace Sys2Proof.Machine

/-- Thread `t`. -/
def State.th (s : State) (t : Tid) : Thread := s.thr[t.val]

/-- The state with thread `t` changed. -/
def State.modTh (s : State) (t : Tid) (f : Thread → Thread) : State :=
  { s with thr := s.thr.set t.val (f s.thr[t.val]) t.isLt }

/-- The state with the unit registers of thread `t` changed. -/
def State.modU (s : State) (t : Tid) (f : Units → Units) : State := s.modTh t fun x => { x with u := f x.u }

/-- The state with the control unit of thread `t` changed. -/
def State.modCt (s : State) (t : Tid) (f : Ctrl → Ctrl) : State := s.modTh t fun x => { x with ct := f x.ct }

/-- The state with the trigger unit of thread `t` changed. -/
def State.modTr (s : State) (t : Tid) (f : Trig → Trig) : State := s.modTh t fun x => { x with tr := f x.tr }

/-- The state with the memory-mapped registers of thread `t` changed. -/
def State.modMm (s : State) (t : Tid) (f : ThreadRegs → ThreadRegs) : State := s.modTh t fun x => { x with mm := f x.mm }

/-- The state with the hidden state of thread `t` changed. -/
def State.modH (s : State) (t : Tid) (f : Hidden → Hidden) : State := s.modTh t fun x => { x with h := f x.h }

/-- The state with what the threads share changed. -/
def State.modShared (s : State) (f : Shared → Shared) : State := { s with shared := f s.shared }

/-- The state with the core registers changed. -/
def State.modCore (s : State) (f : CoreRegs → CoreRegs) : State := { s with core := f s.core }

/-- The state with the surroundings changed. -/
def State.modEnv (s : State) (f : Env → Env) : State := { s with env := f s.env }

/-- The thread executing. -/
def State.cur (s : State) : Tid := s.env.cur

/-- PC of a thread. -/
def State.pcOf (s : State) (t : Tid) : Word := (s.th t).u.pc

/-- The state with PC of a thread changed. -/
def State.setPc (s : State) (t : Tid) (v : Word) : State := s.modU t fun u => { u with pc := v }

/-- The state with PCX of a thread changed. -/
def State.setPcx (s : State) (t : Tid) (v : Word) : State := s.modU t fun u => { u with pcx := v }

/-- TXSTATUS of a thread. -/
def State.status (s : State) (t : Tid) : Word := (s.th t).ct.txstatus

/-- The state with TXSTATUS of a thread changed. -/
def State.setStatus (s : State) (t : Tid) (v : Word) : State := s.modCt t fun c => { c with txstatus := v }

/-- TXSTATUS.PSTAT, bit 17 (10_state.md R45): `priv(T)`. -/
def State.priv (s : State) (t : Tid) : Bool := bitOf (s.status t) 17

/-- TXSTATUS.ISTAT, bit 16: `ilevel(T)`. -/
def State.istat (s : State) (t : Tid) : Bool := bitOf (s.status t) 16

/-- TXSTATUS.CBMarker, bit 22. -/
def State.cbMarker (s : State) (t : Tid) : Bool := bitOf (s.status t) 22

/-- TXSTATUS.LSM_STEP, bits 10:8. -/
def State.lsmStep (s : State) (t : Tid) : BitVec 3 := bitsOf (s.status t) 8 3

/-- A bit of TXPRIVEXT (10_state.md R57). -/
def State.privExt (s : State) (t : Tid) (i : Nat) : Bool := bitOf (s.th t).ct.txprivext i

/-- TXPRIVEXT.PToggle, bit 0. -/
def State.pToggle (s : State) (t : Tid) : Bool := s.privExt t 0

/-- TXDIVTIME.RPDirty, bit 31 (10_state.md R56). -/
def State.rpDirty (s : State) (t : Tid) : Bool := bitOf (s.th t).ct.txdivtime 31

/-- The state with RPDirty of a thread changed. -/
def State.setRpDirty (s : State) (t : Tid) (b : Bool) : State :=
  s.modCt t fun c => { c with txdivtime := withBit c.txdivtime 31 b }

/-- RPMask of a pipeline of `k` entries: `2^k - 1` in six bits (10_state.md R56). More than six entries, which a deeper build may hold, show all
six bits: DESIGN CHOICE (log 90). -/
def rpMaskOf (k : Nat) : BitVec 6 := BitVec.ofNat 6 (2 ^ min k 6 - 1)

/-- The state with a thread's read pipeline replaced and TXDIVTIME.RPMask (bits 21:16) saying how many it holds. -/
def State.setRp (s : State) (t : Tid) (l : List RpEntry) : State :=
  s.modTh t fun x =>
    { x with
      h := { x.h with rp := l }
      ct := { x.ct with txdivtime := withBits x.ct.txdivtime 16 6 (rpMaskOf l.length) } }

/-- The thread exists (00_scope.md R5). -/
def State.present (s : State) (t : Tid) : Bool := decide (t.val < s.cfg.nThreads)

/-- The thread's capability code (10_state.md R42). -/
def capsOf (c : Config) (t : Tid) : BitVec 4 := c.caps[t.val]

/-- The thread has the DSP extensions: class 'Standard DSP' or 'Extended DSP' (10_state.md R42). -/
def isDsp (c : Config) (t : Tid) : Bool :=
  match (capsOf c t).toNat with
  | 0x0 | 0x1 | 0x8 | 0xA | 0xB => true
  | _ => false

/-- N_DU_LOCAL of a thread (10_state.md R42 and its note). -/
def duLocal (c : Config) (t : Tid) : Nat :=
  match (capsOf c t).toNat with
  | 0x0 | 0x1 => 16
  | 0x8 | 0xA | 0xB => if c.dspType = 0#3 ∨ c.baselineDsp then 9 else 8
  | _ => 8

/-- N_AU_LOCAL of a thread (10_state.md R42). -/
def auLocal (c : Config) (t : Tid) : Nat :=
  match (capsOf c t).toNat with
  | 0x0 | 0x1 => 8
  | _ => 4

/-- The count a register-count code stands for (11_core_registers.md R179): 0, 1, 2, 4, 8, 16. -/
def countOfCode (c : BitVec 3) : Nat :=
  match c.toNat with
  | 0 => 0 | 1 => 1 | 2 => 2 | 3 => 4 | 4 => 8 | _ => 16

/-- N_DU_GLOBAL. -/
def duGlobal (c : Config) : Nat := countOfCode c.duGlobalCode

/-- N_AU_GLOBAL. -/
def auGlobal (c : Config) : Nat := min 8 (countOfCode c.auGlobalCode)

/-- CODE_BREAKPOINTS (R179). -/
def codeBreakpoints (c : Config) : Nat :=
  match c.breakpointsCode.toNat with | 0 => 0 | 1 => 2 | _ => 4

/-- DATA_WATCHPOINTS (R179). -/
def dataWatchpoints (c : Config) : Nat :=
  match c.watchpointsCode.toNat with | 0 => 0 | _ => 2

/-- The size in bytes a cache size code stands for (R179). -/
def cacheBytes (small : Bool) (code : BitVec 3) : Nat := if small then 64 * 2 ^ code.toNat else 4096 * 2 ^ code.toNat

/-- The data cache size in bytes. A nonzero DCACHE_SIZE_NP is reported and changes nothing (log 6). -/
def dcacheBytes (c : Config) : Nat := cacheBytes c.dcacheSmall c.dcacheSizeCode

/-- The instruction cache size in bytes. A nonzero ICACHE_SIZE_NP is reported and changes nothing (log 6). -/
def icacheBytes (c : Config) : Nat := cacheBytes c.icacheSmall c.icacheSizeCode

/-- RA_WIDTH in bytes (92_eei_decisions.md D35). -/
def raWidth (c : Config) : Nat := if c.raWidth8 then 8 else 4

/-- The global data cache partition a thread uses: one for all, or its own in a build without coherency (21_mmu_cache.md R359). -/
def globalPart (c : Config) (t : Tid) : Tid := if c.globCacheNotCoherent then t else 0

/-- A capability code of the table of 10_state.md R42. -/
def capsListed (c : BitVec 4) : Bool :=
  match c.toNat with
  | 0x0 | 0x1 | 0x8 | 0xA | 0xB | 0xC | 0xD | 0xE | 0xF => true
  | _ => false

/-- The slots of ATP_SLOT are the six the fixed table block has (21_mmu_cache.md R340, D15). -/
def atpSlotsListed (l : Option (Vector (BitVec 3) 8)) : Bool :=
  match l with
  | none => true
  | some v => v.toList.all fun x => decide (x.toNat ≤ 5)

/-- The parameters have the legal values of 00_scope.md R5. The codes of DCACHE_SIZE_NP and ICACHE_SIZE_NP other than 0 are reserved
(11_core_registers.md R179) and their effect is not given: such a build runs with the size of its size code, DESIGN CHOICE (log 6). -/
def configLegal (c : Config) : Bool :=
  [decide (1 ≤ c.nThreads), decide (c.nThreads ≤ 4), c.caps.toList.all capsListed,
    decide (c.duGlobalCode.toNat ≤ 5), decide (c.auGlobalCode.toNat ≤ 4), decide (c.dspType.toNat ≤ 1),
    decide (c.fpuType.toNat ≤ 2), decide (c.cacheType.toNat ≤ 3),
    decide (c.dcacheSizeCode.toNat ≤ 5), decide (c.icacheSizeCode.toNat ≤ 5),
    decide (c.breakpointsCode.toNat ≤ 2), decide (c.watchpointsCode.toNat ≤ 1),
    decide (c.coreDebugType.toNat ≤ 2), decide (c.coprocReadPorts ≤ 8), decide (c.coprocWritePorts ≤ 8),
    decide (1 ≤ c.readPipelineDepth), decide (c.extTriggerBlocks ≤ 4),
    decide (c.coreCodeMemSize ≤ 0x2000000), decide (c.coreDataMemSize ≤ 0x2000000), atpSlotsListed c.atpSlot].all id

end Sys2Proof.Machine
end

