-- ==== Sys2Proof/Machine/Flags.lean ====
section
/-! DEFINITION. The condition flags: how each family captures them, and the test of every condition. -/

namespace Sys2Proof.Machine

/-- The four flags of TXSTATUS bits 3:0 (10_state.md R46). -/
structure Flags where
  z : Bool
  n : Bool
  v : Bool
  c : Bool
deriving DecidableEq, Repr

/-- The flags a TXSTATUS value holds. -/
def flagsOf (status : Word) : Flags := ⟨bitOf status 3, bitOf status 2, bitOf status 1, bitOf status 0⟩

/-- TXSTATUS.SCC. -/
def sccOf (status : Word) : Bool := bitOf status 4

/-- TXSTATUS with SCC 0 and the captured flags in bits 3:0 (41_alu.md R503). -/
def captureFlags (status : Word) (f : Flags) : Word :=
  withBits status 0 5 (0#1 ++ b1 f.z ++ b1 f.n ++ b1 f.v ++ b1 f.c)

/-- ADD: C is the carry out of bit 31, V the signed overflow (R503). -/
def addFlags (a b : Word) : Flags :=
  let r := a + b
  ⟨r == 0#32, r.msb, a.msb == b.msb && r.msb != a.msb, decide (2 ^ 32 ≤ a.toNat + b.toNat)⟩

/-- SUB and CMP: C is the borrow, V the signed overflow (R503, D39). -/
def subFlags (a b : Word) : Flags :=
  let r := a - b
  ⟨r == 0#32, r.msb, a.msb != b.msb && r.msb != a.msb, decide (a.toNat < b.toNat)⟩

/-- Logical operations, shifts, multiplies and TST: V and C are 0 (R503). -/
def resultFlags (r : Word) : Flags := ⟨r == 0#32, r.msb, false, false⟩

/-- The test of a condition on the flags (R504). -/
def Flags.test (f : Flags) (c : Cond) : Bool :=
  match c with
  | .al => true
  | .eq => f.z
  | .ne => !f.z
  | .lo => f.c
  | .hs => !f.c
  | .mi => f.n
  | .pl => !f.n
  | .vs => f.v
  | .vc => !f.v
  | .hi => !f.c && !f.z
  | .ls => f.c || f.z
  | .ge => f.n == f.v
  | .lt => f.n != f.v
  | .gt => !f.z && f.n == f.v
  | .le => f.z || f.n != f.v
  | .nv => false

/-- The condition needs the split arithmetic table, which the spec does not have (R504): SCC is set and the condition
is neither always nor never. -/
def splitTest (status : Word) (c : Cond) : Bool := sccOf status && c != .al && c != .nv

/-- The condition holds for a TXSTATUS value. -/
def condHolds (status : Word) (c : Cond) : Bool := (flagsOf status).test c

/-- The state with the flags of a thread captured. -/
def State.capture (s : State) (t : Tid) (f : Flags) : State := s.setStatus t (captureFlags (s.status t) f)

end Sys2Proof.Machine
end

