-- ==== Sys2Proof/Machine/Trigger.lean ====
section
/-! DEFINITION. The trigger system: raw and visible triggers, priority, the value a trigger read returns, acknowledge, delivery, kicks, timers, external lines. -/

namespace Sys2Proof.Machine

/-- The two processing levels (60_exceptions.md R610). -/
inductive Level where
  | background | interrupt
deriving DecidableEq, Repr

/-- The deferred reason bits of TXDEFR: bus error 23, floating point 21:16 (R660). -/
def deferredReasons : List Nat := [23, 21, 20, 19, 18, 17, 16]

/-- The ICtrl bit of a reason: bit 7 for the bus error, bits 5:0 for floating point (R662). -/
def ictrlBit (r : Nat) : Nat := if r = 23 then 7 else r - 16

/-- A reason is routed to a level (R662). -/
def routedTo (txdefr : Word) (r : Nat) (l : Level) : Bool :=
  bitOf txdefr (ictrlBit r) == (l == .interrupt)

/-- A reason is set and routed to a level. -/
def reasonAt (txdefr : Word) (r : Nat) (l : Level) : Bool := bitOf txdefr r && routedTo txdefr r l

/-- `raw(t, L)[3]` (R663). -/
def deferredRaw (txdefr : Word) (l : Level) : Bool := deferredReasons.any fun r => reasonAt txdefr r l

/-- The trigger mask of a level (R616). -/
def State.maskOf (s : State) (t : Tid) (l : Level) : BitVec 16 :=
  match l with
  | .background => (s.th t).tr.mask &&& 0xFFFB#16
  | .interrupt => (s.th t).tr.maski

/-- The kick counter of a level. -/
def State.kickOf (s : State) (t : Tid) (l : Level) : BitVec 16 :=
  match l with
  | .background => (s.th t).tr.kick
  | .interrupt => (s.th t).tr.kicki

/-- `raw(t, L)` (R616). -/
def State.rawTriggers (s : State) (t : Tid) (l : Level) : BitVec 16 :=
  let x := s.th t
  let timer := match l with | .background => x.tr.timerTrig | .interrupt => x.tr.timerTrigI
  let halt := l == .interrupt && x.tr.haltTrig
  (s.shared.hwtrig &&& 0xFFF0#16) |||
    (b1 (deferredRaw x.ct.txdefr l) ++ b1 halt ++ b1 (s.kickOf t l != 0#16) ++ b1 timer).setWidth 16

/-- `vis(t, L)` (R616). -/
def State.visTriggers (s : State) (t : Tid) (l : Level) : BitVec 16 := s.rawTriggers t l &&& s.maskOf t l

/-- The priority order of R626, highest first. -/
def triggerPriority : List Nat := [15, 14, 13, 12, 11, 10, 9, 8, 7, 6, 5, 4, 1, 0, 3, 2]

/-- The highest trigger of a set (R626). -/
def highestTrigger (v : BitVec 16) : Option Nat := triggerPriority.find? fun i => bitOf v i

/-- The deferred status of a level, bits 31:16 of a trigger read (R664). -/
def deferredStatus (txdefr : Word) (l : Level) : BitVec 16 :=
  let bus := reasonAt txdefr 23 l
  let top : Byte := if bus then bitsOf txdefr 24 8 else 0#8
  let fp := b1 (reasonAt txdefr 21 l) ++ b1 (reasonAt txdefr 20 l) ++ b1 (reasonAt txdefr 19 l) ++
    b1 (reasonAt txdefr 18 l) ++ b1 (reasonAt txdefr 17 l) ++ b1 (reasonAt txdefr 16 l)
  top ++ b1 bus ++ 0#1 ++ fp

/-- `value(T, L)`: what a read of TXSTAT, TXSTATI, TXPOLL or TXPOLLI returns (R621). -/
def State.triggerValue (s : State) (t : Tid) (l : Level) : Word :=
  let lo := s.visTriggers t l
  let hi : BitVec 16 :=
    if highestTrigger lo = some 3 then deferredStatus (s.th t).ct.txdefr l
    else if bitOf (s.maskOf t l) 1 then s.kickOf t l
    else 0#16
  hi ++ lo

/-- One kick taken off the counter of a level (R622). -/
def State.takeKick (s : State) (t : Tid) (l : Level) : State :=
  s.modTr t fun x =>
    match l with
    | .background => { x with kick := x.kick - 1#16 }
    | .interrupt => { x with kicki := x.kicki - 1#16 }

/-- TXDIVTIME.IRQEnc, bits 27:24 (10_state.md R56). -/
def State.setIrqEnc (s : State) (t : Tid) (n : Nat) : State :=
  s.modCt t fun c => { c with txdivtime := withBits c.txdivtime 24 4 (BitVec.ofNat 4 n) }

/-- The effect of passing a blocking read of TXSTAT or TXSTATI (R622): a kick is taken when kicks are the highest
visible trigger; at the interrupt level IRQEnc names the highest. -/
def State.passTriggerRead (s : State) (t : Tid) (l : Level) : State :=
  match highestTrigger (s.visTriggers t l) with
  | none => s
  | some hp =>
    let s' := if hp = 1 then s.takeKick t l else s
    if l = .interrupt then s'.setIrqEnc t hp else s'

/-- The reasons of a written value that are routed to the level, cleared; clearing the bus error clears its state
(R665). -/
def clearReasons (txdefr w : Word) (l : Level) : Word :=
  deferredReasons.foldl (fun d r =>
    if bitOf w r && routedTo txdefr r l then
      (if r = 23 then withBits (withBit d 23 false) 24 8 0#8 else withBit d r false)
    else d) txdefr

/-- A write to TXSTAT or TXSTATI (R624). -/
def State.ackTriggers (s : State) (t : Tid) (l : Level) (w : Word) : State :=
  let m := s.maskOf t l
  let lo : BitVec 16 := bitsOf w 0 16
  let hit := lo &&& m
  let s := s.modShared fun x => { x with hwtrig := x.hwtrig &&& ~~~(hit &&& 0xFFF0#16) }
  let s := s.modTr t fun x =>
    match l with
    | .background => { x with timerTrig := x.timerTrig && !bitOf hit 0 }
    | .interrupt =>
      { x with timerTrigI := x.timerTrigI && !bitOf hit 0, haltTrig := x.haltTrig && !bitOf hit 2 }
  if bitOf w 3 then s.modCt t fun c => { c with txdefr := clearReasons c.txdefr w l } else s

/-- An event for the outside. -/
def State.emit (s : State) (e : OutEvent) : State := s.modEnv fun v => { v with out := e :: v.out }

/-- `deliver(v)` (R617). -/
def State.deliver (s : State) (v : BitVec 4) : State :=
  if v = 0#4 then s
  else if v = 1#4 then s.emit .debugTrigger
  else if v.toNat < 4 then s.emit (.slaveTrigger v)
  else s.modShared fun x => { x with hwtrig := x.hwtrig ||| (1#16 <<< v.toNat) }

/-- A HWSTATMETA bit is set by a hardware edge and its vector delivered (11_core_registers.md R150, R153). -/
def State.raiseMeta (s : State) (b : Nat) (v : BitVec 4) : State :=
  (s.modCore fun c => { c with hwstatmeta := withBit c.hwstatmeta b true }).deliver v

/-- The B or I trigger of a thread by its level (60_exceptions.md R645). -/
def State.raiseThreadTrigger (s : State) (t : Tid) : State :=
  if s.istat t then s.raiseMeta (4 * t.val + 1) (s.th t).mm.vecI
  else s.raiseMeta (4 * t.val) (s.th t).mm.vecB

/-- The P trigger of a thread (R645). -/
def State.raisePageTrigger (s : State) (t : Tid) : State := s.raiseMeta (4 * t.val + 2) (s.th t).mm.vecP

/-- Kicks added to a counter, which saturates (11_core_registers.md R130; D11, D13). -/
def addKicks (k n : BitVec 16) : BitVec 16 := if k.toNat + n.toNat > 0xFFFF then 0xFFFF#16 else k + n

/-- A store of a value to TnKICK or TnKICKI (R130, R131). -/
def State.kick (s : State) (n : Tid) (l : Level) (v : Word) : State :=
  s.modTr n fun x =>
    match l with
    | .background => { x with kick := addKicks x.kick (bitsOf v 0 16) }
    | .interrupt => { x with kicki := addKicks x.kicki (bitsOf v 0 16) }

/-- The divider of a thread's timers: TFCtrl, 0 standing for 256 (61_privilege_platform.md R718). -/
def timerDivider (txdivtime : Word) : Nat :=
  let f := (bitsOf txdivtime 0 8).toNat
  if f = 0 then 256 else f

/-- One count of both timers; a roll-over sets the level's trigger (R716, R717). -/
def Thread.countTimers (x : Thread) : Thread :=
  { x with
    ct := { x.ct with txtimer := x.ct.txtimer + 1#32, txtimeri := x.ct.txtimeri + 1#32 }
    tr := { x.tr with
      timerTrig := x.tr.timerTrig || x.ct.txtimer == 0xFFFFFFFF#32
      timerTrigI := x.tr.timerTrigI || x.ct.txtimeri == 0xFFFFFFFF#32 } }

/-- One tick of the base clock for one thread: the prescale counter counts up to the divider (R718). Where a write of TFCtrl left
the counter at or past the new divider, this tick is the one that counts, DESIGN CHOICE (log 73). -/
def Thread.timerTick (x : Thread) : Thread :=
  if x.h.prescale.toNat + 1 ≥ timerDivider x.ct.txdivtime then
    { x.countTimers with h := { x.h with prescale := 0#8 } }
  else { x with h := { x.h with prescale := x.h.prescale + 1#8 } }

/-- The block and bit of an external trigger (11_core_registers.md R154). -/
def extBlockOf (i : Fin 128) : Fin 4 := ⟨i.val / 32, by omega⟩

/-- The state with one external block changed. -/
def State.modExt (s : State) (k : Fin 4) (f : ExtBlock → ExtBlock) : State :=
  s.modCore fun c => { c with ext := c.ext.set k.val (f c.ext[k.val]) k.isLt }

/-- An external line is driven (R150, R151, R156, D24): a rising edge of an enabled line of a fitted block sets its status bit in
the edge model, and delivers its vector in both models. -/
def State.driveLine (s : State) (i : Fin 128) (level : Bool) : State :=
  let k := extBlockOf i
  let b := i.val % 32
  let old := bitOf s.env.extLines i.val
  let lines := if level then s.env.extLines ||| (1#128 <<< i.val) else s.env.extLines &&& ~~~(1#128 <<< i.val)
  let x := s.core.ext[k.val]
  let s := s.modEnv fun v => { v with extLines := lines }
  if level && !old && decide (k.val < s.cfg.extTriggerBlocks) && bitOf x.mask b then
    let s := if bitOf x.level b then s else s.modExt k fun y => { y with stat := withBit y.stat b true }
    s.deliver s.core.hwvec[i.val]
  else s

/-- The status word of an external block: the line where the level model is selected, else the stored bit (R151). A bit whose
HWLEVELEXT bit goes from level back to edge shows the edge-model bit it had before: the spec is silent, DESIGN CHOICE (log 33). -/
def State.extStatus (s : State) (k : Fin 4) : Word :=
  let x := s.core.ext[k.val]
  let lines : Word := bitsOf s.env.extLines (32 * k.val) 32
  (lines &&& x.level) ||| (x.stat &&& ~~~x.level)

/-- A 1 written to one status bit of an external block (R150, R151). -/
def State.ackExtBit (s : State) (k : Fin 4) (b : Fin 32) : State :=
  let x := s.core.ext[k.val]
  let v := s.core.hwvec[32 * k.val + b.val]
  if bitOf x.level b.val then s.deliver v
  else
    let s' := s.modExt k fun y => { y with stat := withBit y.stat b.val (!bitOf y.stat b.val) }
    if bitOf x.stat b.val then s' else s'.deliver v

/-- A value written to HWSTATEXT*. -/
def State.writeExtStatus (s : State) (k : Fin 4) (w : Word) : State :=
  (List.finRange 32).foldl (fun s b => if bitOf w b.val then s.ackExtBit k b else s) s

/-- The vector of a HWSTATMETA bit; reserved bits have none (R153). -/
def State.metaVector (s : State) (b : Fin 18) : Option (BitVec 4) :=
  if b.val = 16 then some s.core.perf[0].vec
  else if b.val = 17 then some s.core.perf[1].vec
  else if h : b.val / 4 < 4 then
    let mm := (s.th ⟨b.val / 4, h⟩).mm
    match b.val % 4 with
    | 0 => some mm.vecB | 1 => some mm.vecI | 2 => some mm.vecP | _ => none
  else none

/-- A 1 written to one bit of HWSTATMETA toggles it; from 0 to 1 its vector is delivered (R150). -/
def State.ackMetaBit (s : State) (b : Fin 18) : State :=
  match s.metaVector b with
  | none => s
  | some v =>
    let s' := s.modCore fun c => { c with hwstatmeta := withBit c.hwstatmeta b.val (!bitOf c.hwstatmeta b.val) }
    if bitOf s.core.hwstatmeta b.val then s' else s'.deliver v

/-- A value written to HWSTATMETA. -/
def State.writeMeta (s : State) (w : Word) : State :=
  (List.finRange 18).foldl (fun s b => if bitOf w b.val then s.ackMetaBit b else s) s

end Sys2Proof.Machine
end

