-- ==== Sys2Proof/Machine/Ops.lean ====
section
/-! DEFINITION. The operations shared by all instructions: bus tokens, the catch state, taking an exception and returning from one, turning threads on and off, the control registers, and the issue of one instruction. -/

namespace Sys2Proof.Machine

/-- Memory fault reasons of TXSTATUS.FReason and TXCATCH0.ReqState (10_state.md R45, R52). -/
inductive FReason where
  | general | page | protection
deriving DecidableEq, Repr

/-- The two-bit code of a reason. -/
def FReason.code : FReason → BitVec 2
  | .general => 1#2 | .page => 2#2 | .protection => 3#2

/-- Why a data access is not performed (60_exceptions.md R642). -/
inductive DataExc where
  /-- DataWatch: the watchpoints that stopped it, none of them for an unaligned access. -/
  | watch (wp : BitVec 2)
  /-- DataFault, with the watchpoints that matched. -/
  | fault (r : FReason) (wp : BitVec 2)
deriving DecidableEq, Repr

/-- The transfer a data exception leaves in the catch state (R656). -/
inductive Xfer where
  | load (w : Width) (la : Word) (num : BitVec 5) (units : BitVec 11) (lnk first : Bool)
  | issue (p : ReadPort) (la : Word)
  | store (w : Width) (la : Word) (v : DWord)
  /-- A replayed transfer that is caught again unchanged (61_privilege_platform.md R735). -/
  | again
deriving DecidableEq, Repr

/-- The exceptions of 60_exceptions.md R642. -/
inductive Exc where
  | switch
  | fetchFault (r : FReason)
  | codeBreak
  | unknownInstruction
  | instructionViolation
  | readPipelineFault
  | triggerBlockFault
  | privilegeViolation
  | data (e : DataExc) (x : Xfer)
deriving DecidableEq, Repr

/-- HReason of an exception (R642). -/
def Exc.hreason : Exc → BitVec 2
  | .switch => 0#2
  | .fetchFault _ | .codeBreak | .unknownInstruction | .instructionViolation | .readPipelineFault
  | .triggerBlockFault => 1#2
  | .privilegeViolation => 2#2
  | .data _ _ => 3#2

/-- FReason of an exception (R642). -/
def Exc.freason : Exc → BitVec 2
  | .fetchFault r => r.code
  | .codeBreak => 3#2
  | .data (.fault r _) _ => r.code
  | .switch | .unknownInstruction | .instructionViolation | .readPipelineFault | .triggerBlockFault
  | .privilegeViolation | .data (.watch _) _ => 0#2

/-- The exception goes out as a page trigger too: a page or protection fault on a fetch or an access, not a code
breakpoint (R645). -/
def Exc.pageTrigger : Exc → Bool
  | .fetchFault r | .data (.fault r _) _ => r != .general
  | .switch | .codeBreak | .unknownInstruction | .instructionViolation | .readPipelineFault | .triggerBlockFault
  | .privilegeViolation | .data (.watch _) _ => false

/-- How an instruction stops before its end. -/
inductive Stop where
  /-- An exception that leaves nothing of the instruction done. -/
  | exc (e : Exc)
  /-- An exception taken with the rest of the instruction done: Switch and the data exceptions (R643). -/
  | late (e : Exc)
  /-- The thread waits; nothing changes (00_scope.md R7). -/
  | block
  /-- The spec gives no meaning. -/
  | refused (r : Refusal)
deriving DecidableEq, Repr

/-- A computation of one instruction over the machine. -/
abbrev M := EStateM Stop State

/-- The thread executing. -/
def me : M Tid := fun s => .ok s.cur s

/-- Change the state. -/
def update (f : State → State) : M Unit := fun s => .ok () (f s)

/-- Read something of the state. -/
def view {α : Type} (f : State → α) : M α := fun s => .ok (f s) s

def raise {α : Type} (e : Exc) : M α := throw (.exc e)

def raiseLate {α : Type} (e : Exc) : M α := throw (.late e)

def block {α : Type} : M α := throw .block

def refuse {α : Type} (r : Refusal) : M α := throw (.refused r)

/-- A value the spec leaves open (log 9): the next free value, never used again. -/
def drawFree : M DWord := fun s => .ok (Config.free s.env.freeCtr) (s.modEnv fun v => { v with freeCtr := v.freeCtr + 1 })

/-! ### Bus tokens -/

/-- A token recorded in TXDEFR (60_exceptions.md R661). -/
def recordToken (txdefr : Word) (instr : Bool) (st : BitVec 6) : Word :=
  if st = 0#6 then txdefr
  else if bitOf txdefr 23 && bitOf txdefr 24 && !bitOf st 0 then withBit txdefr 23 true
  else withBit (withBits txdefr 24 8 (b1 (bitOf st 0) ++ b1 instr ++ st)) 23 true

/-- The bus delivers a token to its thread. -/
def State.recordTok (s : State) (k : Token) : State :=
  s.modCt k.tid fun c => { c with txdefr := recordToken c.txdefr k.instr k.state }

/-- The bus owes a further token. -/
def State.oweToken (s : State) (k : Token) : State := s.modEnv fun v => { v with tokens := v.tokens ++ [k] }

/-- `PENDING_LNK[t]`: the linked writes of a thread whose token has not arrived (10_state.md R72). -/
def State.pendingLnk (s : State) (t : Tid) : Nat :=
  (s.env.tokens.filter fun k => k.tid == t && k.linked).length

/-- The tokens of a thread up to its last linked one, in order, and the tokens left. -/
def settleTokens (t : Tid) : List Token → List Token × List Token
  | [] => ([], [])
  | k :: ks =>
    let r := settleTokens t ks
    if k.tid == t && (k :: ks).any (fun x => x.tid == t && x.linked) then (k :: r.1, r.2) else (r.1, k :: r.2)

/-- Wait until `PENDING_LNK[t] = 0`; the tokens that arrive are recorded (60_exceptions.md R633, log 10). -/
def State.settle (s : State) (t : Tid) : State :=
  let r := settleTokens t s.env.tokens
  r.1.foldl State.recordTok (s.modEnv fun v => { v with tokens := r.2 })

/-! ### Exceptions, interrupts, on and off -/

/-- The common part of leaving the running state (R633, R640, R653): linked writes are settled, LINK is cleared, a
read pipeline that holds data is marked. -/
def State.quiesce (s : State) (t : Tid) : State :=
  let s := s.settle t
  let s := s.modH t fun h => { h with link := false, waiting := false, fetchBuf := [] }
  if (s.th t).h.rp.isEmpty then s
  else (s.setRpDirty t true).setStatus t (withBit (s.status t) 22 true)

/-- Interrupt entry (R633). -/
def State.interruptEntry (s : State) (t : Tid) : State :=
  let s := s.quiesce t
  let u := (s.th t).u
  let st := withBit (s.status t) 16 true
  let st := if s.pToggle t then withBit st 17 (!s.priv t) else st
  let s := s.modU t fun x => { x with pc := u.pcx, pcx := u.pc }
  (s.setStatus t st).modH t fun h => { h with tstate := .run }

/-- An interrupt is taken by the thread (R630). -/
def State.interruptDue (s : State) (t : Tid) : Bool :=
  ((s.th t).h.tstate == .run || (s.th t).h.tstate == .halted) && !s.istat t && s.visTriggers t .interrupt != 0#16

/-- The lane mask of a write of `n` bytes (R656, U7). -/
def laneMask (la : Word) (n : Nat) : Byte :=
  (BitVec.ofNat 8 (2 ^ n - 1)) <<< (la.toNat % 8)

/-- TXCATCH0 of a transfer (R656). -/
def catchWord (priv : Bool) (e : DataExc) (num : BitVec 5) (units : BitVec 11) (rnw : Bool) (sb : Byte) : Word :=
  let set := match e with | .watch _ => true | .fault _ _ => false
  let wp := match e with | .watch w => w | .fault _ w => w
  let req := match e with | .watch _ => 0#2 | .fault r _ => r.code
  num ++ units ++ 0#1 ++ b1 set ++ wp ++ req ++ b1 priv ++ b1 rnw ++ sb

/-- CatchSave (R656). -/
def State.catchSave (s : State) (t : Tid) (e : DataExc) (x : Xfer) : State :=
  let p := s.priv t
  let s := s.modCt t fun c =>
    match x with
    | .load w la num units lnk first =>
      { c with
        txcatch0 := catchWord p e num units true (0#3 ++ 0#1 ++ b1 lnk ++ b1 first ++ widthCode w)
        txcatch1 := la }
    | .issue port la =>
      { c with txcatch0 := catchWord p e 0#5 0#11 true (0#3 ++ port.num), txcatch1 := la }
    | .store w la v =>
      let n := widthBytes w
      let d : DWord := zextBytes n v <<< (8 * (la.toNat % 8))
      { c with
        txcatch0 := catchWord p e 0#5 0#11 false (laneMask la n)
        txcatch1 := la
        txcatch2 := loWord d
        txcatch3 := hiWord d }
    | .again =>
      { c with txcatch0 := withBit (withBits (withBit c.txcatch0 15 false) 10 2 0#2) 9 p }
  let st := withBit (s.status t) 22 true
  s.setStatus t (if s.istat t then withBit st 23 true else st)

/-- `own(T)`: the thread handles its own exceptions (R641). -/
def State.ownsHalt (s : State) (t : Tid) : Bool := bitOf (s.th t).tr.maski 2 && !s.istat t

/-- The thread goes to OFF. -/
def State.goOff (s : State) (t : Tid) (stopped : Bool) : State :=
  s.modTh t fun x => { x with ct := { x.ct with enabled := false, stopped := stopped }, h := { x.h with tstate := .off } }

/-- HReason and FReason of TXSTATUS, bits 19:18 and 21:20, written (R640 step 2). -/
def State.setReason (s : State) (t : Tid) (e : Exc) : State :=
  s.setStatus t (withBits (s.status t) 18 4 (e.freason ++ e.hreason))

/-- Taking an exception (R640): the reason, the quiet state, the catch state, then either the thread's own interrupt entry or OFF with
its external triggers. -/
def State.takeException (s : State) (t : Tid) (e : Exc) : State :=
  let s := (s.setReason t e).quiesce t
  let s := match e with
    | .data d x => s.catchSave t d x
    | _ => s
  if s.ownsHalt t then
    (s.modTh t fun x => { x with tr := { x.tr with haltTrig := true }, h := { x.h with tstate := .halted } }).interruptEntry t
  else
    let s := (s.goOff t false).raiseThreadTrigger t
    if e.pageTrigger then s.raisePageTrigger t else s

/-- Return from interrupt (42_control_flow.md R537) up to its replay: `next` is the address after the RTI. With ISTAT = 0 only the swap
is made (D44). A caught transfer puts the thread in CBRESTORE; the RTI makes it again and clears LINK after it. It is a control
transfer: the prefetch buffer is empty after it (20_memory.md R279). -/
def State.returnFromInterrupt (s : State) (t : Tid) (next : Word) : State :=
  let pcx := (s.th t).u.pcx
  let s' := (s.modU t fun x => { x with pc := pcx, pcx := next }).modH t fun h => { h with fetchBuf := [] }
  if s.istat t then
    let st := withBit (s.status t) 16 false
    let st := if s.pToggle t then withBit st 17 (!s.priv t) else st
    let s' := (s'.setStatus t st).setRpDirty t false
    s'.modH t fun h => { h with tstate := if s.cbMarker t then .cbRestore else h.tstate }
  else s'

/-- Turning a thread on (60_exceptions.md R652). With CBMarker set the thread is in CBRESTORE, its replay is its next step, and RPDirty
stays until that is done (log 12). -/
def State.turnOn (s : State) (t : Tid) : State :=
  let on := s.modTh t fun x =>
    { x with
      ct := { x.ct with enabled := true, stopped := false }
      h := { x.h with tstate := if bitOf x.ct.txstatus 22 then .cbRestore else .run } }
  if s.cbMarker t then on else on.setRpDirty t false

/-- Turning a running or HALTED thread off (R653, R654). -/
def State.turnOff (s : State) (t : Tid) : State := ((s.quiesce t).goOff t true).raiseThreadTrigger t

/-- A turn-off asked for during a replay, made once the thread runs: CBRESTORE leads only to RUN (R637, R651; log 12). -/
def State.stopIfDisabled (s : State) (t : Tid) : State :=
  if !(s.th t).ct.enabled && (s.th t).h.tstate == .run then s.turnOff t else s

/-- A write of TXENABLE.ThreadEnable (R652 to R655). In CBRESTORE only the bit is stored: `stopIfDisabled` turns the thread off after the
replay. -/
def State.writeEnable (s : State) (t : Tid) (b : Bool) : State :=
  let x := s.th t
  if b = x.ct.enabled then s
  else if b then
    if x.h.tstate = .off then s.turnOn t else s.modCt t fun c => { c with enabled := true }
  else
    if x.h.tstate = .off ∨ x.h.tstate = .cbRestore then s.modCt t fun c => { c with enabled := false } else s.turnOff t

/-! ### Control registers -/

/-- TXENABLE as read (10_state.md R41). -/
def State.readEnable (s : State) (t : Tid) : Word :=
  let x := s.th t
  let step : BitVec 4 := if s.cfg.fpuType = 0#2 then 3#4 else 4#4
  0x02#8 ++ 0x01#8 ++ capsOf s.cfg t ++ 0#2 ++ BitVec.ofNat 2 t.val ++ step ++ 0#1 ++ b1 x.ct.stopped ++
    b1 (x.h.tstate == .off) ++ b1 x.ct.enabled

/-- A control register that D0 describes (10_state.md R40); the others are reserved (R60). -/
def ctListed (n : BitVec 5) : Bool :=
  match n.toNat with
  | 0 | 1 | 2 | 3 | 4 | 13 | 16 | 17 | 18 | 19 | 20 | 28 | 29 | 30 | 31 => true
  | _ => false

/-- CT.n of a thread as read (R40 to R59); a reserved register is never read. -/
def State.ctRead (s : State) (t : Tid) (n : BitVec 5) : Word :=
  let c := (s.th t).ct
  match n.toNat with
  | 0 => s.readEnable t
  | 1 => c.txmode
  | 2 => c.txstatus
  | 3 => c.txrpt
  | 4 => c.txtimer
  | 13 => c.txtimeri
  | 16 => c.txcatch0
  | 17 => c.txcatch1
  | 18 => c.txcatch2
  | 19 => c.txcatch3
  | 20 => c.txdefr
  | 28 => c.txdivtime
  | 29 => c.txprivext
  | 30 => c.txtactcyc.setWidth 32
  | 31 => s.shared.idlecyc.setWidth 32
  | _ => 0#32

/-- The write privilege a control register needs, by the owner's TXPRIVEXT (R40). -/
def ctNeedsPriv (txprivext : Word) (n : BitVec 5) : Bool :=
  match n.toNat with
  | 0 => bitOf txprivext 8
  | 2 => bitOf txprivext 9
  | 4 => bitOf txprivext 19
  | 13 => bitOf txprivext 10
  | 16 | 17 | 18 | 19 => bitOf txprivext 9
  | 20 => bitOf txprivext 0
  | 28 => bitOf txprivext 12
  | 29 => true
  | 30 | 31 => bitOf txprivext 13
  | _ => false

/-- The bits of TXSTATUS a write changes: PSTAT and ISTAT only of a thread that is OFF (R45, R47). -/
def statusMask (off : Bool) : Word := if off then 0x00FF071F#32 else 0x00FC071F#32

/-- The bits of TXPRIVEXT a write changes: MinimEnable only of a thread that is OFF (R57). -/
def privextMask (off : Bool) : Word := if off then 0xFF0F77B5#32 else 0xFF0F7735#32

/-- The bits of TXDEFR a write changes. Without an FPU they are those of the table of 10_state.md R55, by the ruling of 90_conflicts.md C9: the
bus error and its routing only (log 35). -/
def defrMask (c : Config) : Word := if c.fpuType = 0#2 then 0x00800080#32 else 0x00BF00BF#32

/-- CT.n written by the field rules of 10_state.md R41 to R59. -/
def State.ctWrite (s : State) (t : Tid) (n : BitVec 5) (v : Word) : State :=
  let off := (s.th t).h.tstate == .off
  match n.toNat with
  | 0 => s.writeEnable t (bitOf v 0)
  | 1 => s.modCt t fun c => { c with txmode := v }
  | 2 => s.setStatus t (maskWrite (s.status t) v (statusMask off))
  | 3 => s.modCt t fun c => { c with txrpt := v }
  | 4 => s.modCt t fun c => { c with txtimer := v }
  | 13 => s.modCt t fun c => { c with txtimeri := v }
  | 16 => s.modCt t fun c => { c with txcatch0 := v }
  | 17 => s.modCt t fun c => { c with txcatch1 := v }
  | 18 => s.modCt t fun c => { c with txcatch2 := v }
  | 19 => s.modCt t fun c => { c with txcatch3 := v }
  | 20 => s.modCt t fun c => { c with txdefr := maskWrite c.txdefr v (defrMask s.cfg) }
  | 28 => s.modCt t fun c => { c with txdivtime := maskWrite c.txdivtime v 0x8F3F00FF#32 }
  | 29 => s.modCt t fun c => { c with txprivext := maskWrite c.txprivext v (privextMask off) }
  | 30 => s.modCt t fun c => { c with txtactcyc := 0#24 }
  | 31 => s.modShared fun x => { x with idlecyc := 0#24 }
  | _ => s

/-- TXSTATUS written by an unprivileged thread with TStatusPriv = 1: bits 7:0 only (D37). -/
def State.statusWriteLow (s : State) (t : Tid) (v : Word) : State :=
  s.setStatus t (maskWrite (s.status t) v 0x0000001F#32)

/-! ### The issue of one instruction -/

/-- A taken control transfer: the target is PC as it is (42_control_flow.md R529, R533), and the prefetch buffer is empty
(20_memory.md R279). -/
def State.jump (s : State) (t : Tid) (v : Word) : State := (s.setPc t v).modH t fun h => { h with fetchBuf := [] }

/-- Step 8 of 40_data_movement.md R460: the instruction is counted and waits no longer. -/
def State.retire (s : State) (t : Tid) : State :=
  s.modTh t fun x =>
    { x with
      ct := { x.ct with txtactcyc := x.ct.txtactcyc + 1#24 }
      h := { x.h with waiting := false } }

/-- Step 9 of R460: a single-stepped thread is turned off after one issue (61_privilege_platform.md R736). -/
def State.singleStep (s : State) (t : Tid) : State :=
  if s.privExt t 2 && (s.th t).h.tstate == .run then s.turnOff t else s

/-- Steps 8 and 9. -/
def State.complete (s : State) (t : Tid) : State := (s.retire t).singleStep t

/-- The state of a blocked thread: the instruction waits at PC (log 13). -/
def State.blocked (s : State) (t : Tid) : State := s.modH t fun h => { h with waiting := true }

/-- What became of an instruction whose effects are `body`, started in `s` at address `pc`: the end of the instruction, an exception with
nothing of it done, an exception with the rest of it done, a wait, or no meaning. -/
def finishIssue (s : State) (t : Tid) (r : EStateM.Result Stop State Unit) :
    Host.Outcome State Fault Refusal :=
  match r with
  | .ok _ s' => .next (s'.complete t)
  | .error (.exc e) _ => .next (s.takeException t e)
  | .error (.late e) s' => .next ((s'.retire t).takeException t e)
  | .error .block _ => .next (s.blocked t)
  | .error (.refused q) _ => .refused q

/-- Steps 3 to 9 of R460 for an instruction with condition `c` and effects `body`. The body starts with PC already at the
next instruction and is given the address of its own; a control transfer writes PC over it (step 7). -/
def issue (c : Cond) (body : Word → M Unit) (s : State) : Host.Outcome State Fault Refusal :=
  let t := s.cur
  let pc := s.pcOf t
  let next := pc + 4#32
  if splitTest (s.status t) c then .refused .splitConditions
  else if condHolds (s.status t) c then finishIssue s t (body pc (s.setPc t next))
  else .next ((s.setPc t next).complete t)

/-- Do the rest of an instruction also when its transfer is caught (60_exceptions.md R643). -/
def afterwards (x : M Unit) (rest : M Unit) : M Unit := fun s =>
  match x s with
  | .ok _ s' => rest s'
  | .error (.late e) s' =>
    match rest s' with
    | .ok _ s'' => .error (.late e) s''
    | .error q s'' => .error q s''
  | .error q s' => .error q s'

end Sys2Proof.Machine
end

