-- ==== Sys2Proof/Machine/CoreRegs.lean ====
section
/-! DEFINITION. The memory-mapped core registers: the address table of 11_core_registers.md R195, what a read returns, what a write changes, and the privilege a register asks for. -/

namespace Sys2Proof.Machine

/-- A memory-mapped register (11_core_registers.md R195). -/
inductive CoreReg where
  | ct (t : Tid) (n : BitVec 5)
  | kick (t : Tid) | kicki (t : Tid)
  | ama4 (t : Tid) | ama5 (t : Tid) | ama6 (t : Tid)
  | privCore (t : Tid)
  | codebAddr (m : Fin 4) | codebCtrl (m : Fin 4)
  | datawAddr (m : Fin 2) | datawCtrl (m : Fin 2)
  | datawMatch0 (m : Fin 2) | datawMatch1 (m : Fin 2) | datawMask0 (m : Fin 2) | datawMask1 (m : Fin 2)
  | perfIcore (m : Fin 2) | perfCount (m : Fin 2) | perfChan (m : Fin 2) | perfVec (m : Fin 2)
  | privSysr (t : Tid) | pioReg (t : Tid) | psyReg (t : Tid)
  | hwstatMeta
  | hwstatExt (k : Fin 4) | hwlevelExt (k : Fin 4) | hwmaskExt (k : Fin 4)
  | vecB (t : Tid) | vecI (t : Tid) | vecP (t : Tid)
  | hwvec (e : Fin 128)
  | metacId | coreId | coreRev | coreConfig2
  | tablePhys | dcacheCtrl | icacheCtrl | mmuConfig | jtagThread | dcacheFlush | icacheFlush
  | directMap (m : Fin 4)
  | wrComb (t : Tid)
  | dcPart (t : Tid) | icPart (t : Tid)
  | localEbCtrl | globalEbCtrl
  | ebwcCtrl (t : Tid)
  | localPhys0 (t : Tid) | localPhys1 (t : Tid) | globalPhys0 (t : Tid) | globalPhys1 (t : Tid)
deriving DecidableEq, Repr

/-- Entry `i` of `count` registers that start at `base` and stand `stride` bytes apart. -/
def entryAt (a base stride count : Nat) [NeZero count] : Option (Fin count) :=
  if base ≤ a ∧ a < base + stride * count ∧ (a - base) % stride = 0 then some (Fin.ofNat count ((a - base) / stride)) else none

/-- The per-thread block at 0x04800000 + 0x1000 n (10_state.md R39, 11_core_registers.md R130 to R136). -/
def threadBlockReg (a : Nat) : Option CoreReg :=
  if 0x04800000 ≤ a ∧ a < 0x04804000 then
    let t : Tid := Fin.ofNat 4 ((a - 0x04800000) / 0x1000)
    match (a - 0x04800000) % 0x1000 with
    | 0x800 => some (.kick t)
    | 0x808 => some (.kicki t)
    | 0x810 => some (.ama4 t)
    | 0x818 => some (.ama5 t)
    | 0x820 => some (.ama6 t)
    | 0x828 => some (.privCore t)
    | o => if o < 0x100 ∧ o % 8 = 0 then some (.ct t (BitVec.ofNat 5 (o / 8))) else none
  else none

/-- Breakpoints, watchpoints and counters (R137 to R144). -/
def debugReg (a : Nat) : Option CoreReg :=
  (entryAt a 0x0480FF00 0x10 4).map CoreReg.codebAddr <|>
  (entryAt a 0x0480FF08 0x10 4).map CoreReg.codebCtrl <|>
  (entryAt a 0x0480FF40 0x40 2).map CoreReg.datawAddr <|>
  (entryAt a 0x0480FF48 0x40 2).map CoreReg.datawCtrl <|>
  (entryAt a 0x0480FF50 0x40 2).map CoreReg.datawMatch0 <|>
  (entryAt a 0x0480FF58 0x40 2).map CoreReg.datawMatch1 <|>
  (entryAt a 0x0480FF60 0x40 2).map CoreReg.datawMask0 <|>
  (entryAt a 0x0480FF68 0x40 2).map CoreReg.datawMask1 <|>
  (entryAt a 0x0480FFD0 8 2).map CoreReg.perfIcore <|>
  (entryAt a 0x0480FFE0 8 2).map CoreReg.perfCount

/-- Privilege registers and trigger control registers (R147 to R159). -/
def triggerControlReg (a : Nat) : Option CoreReg :=
  (entryAt a 0x04810000 8 4).map CoreReg.privSysr <|>
  (entryAt a 0x04810100 8 4).map CoreReg.pioReg <|>
  (entryAt a 0x04810180 8 4).map CoreReg.psyReg <|>
  (if a = 0x04820000 then some .hwstatMeta else none) <|>
  (entryAt a 0x04820010 8 4).map CoreReg.hwstatExt <|>
  (entryAt a 0x04820030 8 4).map CoreReg.hwlevelExt <|>
  (entryAt a 0x04820050 8 4).map CoreReg.hwmaskExt <|>
  (entryAt a 0x04820500 0x20 4).map CoreReg.vecB <|>
  (entryAt a 0x04820508 0x20 4).map CoreReg.vecI <|>
  (entryAt a 0x04820510 0x20 4).map CoreReg.vecP <|>
  (entryAt a 0x04820580 8 2).map CoreReg.perfVec <|>
  (if 0x04820000 ≤ a ∧ a < 0x04824000 then
    (entryAt ((a - 0x04820000) % 0x1000) 0x700 8 32).map fun e =>
      CoreReg.hwvec (Fin.ofNat 128 (32 * ((a - 0x04820000) / 0x1000) + e.val))
  else none)

/-- General control registers (R145, R146, R160 to R179). -/
def generalReg (a : Nat) : Option CoreReg :=
  match a with
  | 0x04830000 => some .metacId
  | 0x04830010 => some .tablePhys
  | 0x04830018 => some .dcacheCtrl
  | 0x04830020 => some .icacheCtrl
  | 0x04830028 => some .mmuConfig
  | 0x04830030 => some .jtagThread
  | 0x04830038 => some .dcacheFlush
  | 0x04830040 => some .icacheFlush
  | 0x04830600 => some .localEbCtrl
  | 0x04830608 => some .globalEbCtrl
  | 0x04831000 => some .coreId
  | 0x04831008 => some .coreRev
  | 0x04831020 => some .coreConfig2
  | _ =>
    (entryAt a 0x04830080 0x10 4).map CoreReg.directMap <|>
    (entryAt a 0x04830100 8 4).map CoreReg.wrComb <|>
    (entryAt a 0x04830150 8 2).map CoreReg.perfChan <|>
    (entryAt a 0x04830200 8 4).map CoreReg.dcPart <|>
    (entryAt a 0x04830220 8 4).map CoreReg.icPart <|>
    (entryAt a 0x04830640 8 4).map CoreReg.ebwcCtrl <|>
    (entryAt a 0x04830700 0x20 4).map CoreReg.localPhys0 <|>
    (entryAt a 0x04830708 0x20 4).map CoreReg.localPhys1 <|>
    (entryAt a 0x04830710 0x20 4).map CoreReg.globalPhys0 <|>
    (entryAt a 0x04830718 0x20 4).map CoreReg.globalPhys1

/-- The address an old address of the expansion area stands for (R182). -/
def currentAddr (a : Nat) : Nat :=
  if 0x03000000 ≤ a ∧ a < 0x03000020 then a - 0x03000000 + 0x04830100
  else if a = 0x03000050 ∨ a = 0x03000058 then a - 0x03000050 + 0x04830150
  else a

/-- The register at a linear address; none is U10. -/
def coreRegAt (a : Word) : Option CoreReg :=
  let x := currentAddr a.toNat
  threadBlockReg x <|> debugReg x <|> triggerControlReg x <|> generalReg x

/-- The thread a register belongs to. -/
def CoreReg.owner : CoreReg → Option Tid
  | .ct t _ | .kick t | .kicki t | .ama4 t | .ama5 t | .ama6 t | .privCore t | .privSysr t | .pioReg t | .psyReg t
  | .vecB t | .vecI t | .vecP t | .wrComb t | .dcPart t | .icPart t | .ebwcCtrl t | .localPhys0 t | .localPhys1 t
  | .globalPhys0 t | .globalPhys1 t => some t
  | .codebAddr _ | .codebCtrl _ | .datawAddr _ | .datawCtrl _ | .datawMatch0 _ | .datawMatch1 _ | .datawMask0 _
  | .datawMask1 _ | .perfIcore _ | .perfCount _ | .perfChan _ | .perfVec _ | .hwstatMeta | .hwstatExt _
  | .hwlevelExt _ | .hwmaskExt _ | .hwvec _ | .metacId | .coreId | .coreRev | .coreConfig2 | .tablePhys | .dcacheCtrl
  | .icacheCtrl | .mmuConfig | .jtagThread | .dcacheFlush | .icacheFlush | .directMap _ | .localEbCtrl
  | .globalEbCtrl => none

/-- The register exists in this build (R136, R137, R156, D22). R146 says only that not all cores have a write combiner: without one
WRCOMBCONFIGn reads 0 and ignores writes, as absent registers do, which is DESIGN CHOICE (log 49). That a build with two code
breakpoints has 0 and 1 is DESIGN CHOICE (log 82). -/
def State.regFitted (s : State) (r : CoreReg) : Bool :=
  match r with
  | .codebAddr m | .codebCtrl m => decide (m.val < codeBreakpoints s.cfg)
  | .datawAddr m | .datawCtrl m | .datawMatch0 m | .datawMatch1 m | .datawMask0 m | .datawMask1 m =>
    decide (m.val < dataWatchpoints s.cfg)
  | .hwstatExt k | .hwlevelExt k | .hwmaskExt k => decide (k.val < s.cfg.extTriggerBlocks)
  | .hwvec e => decide (e.val / 32 < s.cfg.extTriggerBlocks)
  | .wrComb t => s.present t && s.cfg.hasWriteCombiner
  | _ => match r.owner with | some t => s.present t | none => true

/-- METAC_ID (R176). -/
def metacIdOf (c : Config) : Word :=
  0x02#8 ++ 0x01#8 ++ (if c.fpuType = 0#2 then 3#8 else 4#8) ++ c.maintRev

/-- CORE_ID (R177). -/
def coreIdOf (c : Config) : Word :=
  0x14#8 ++ c.coreIdByte ++ 0#5 ++ b1 c.globCacheNotCoherent ++ 0#1 ++ c.fpuType ++ 0#1 ++ c.dspType ++ c.cacheType

/-- CORE_REV (R178, 90_conflicts.md C24). -/
def coreRevOf (c : Config) : Word := c.designer ++ 0x02#8 ++ 0x01#8 ++ c.maintRev

/-- CORE_CONFIG2 (R179). -/
def coreConfig2Of (c : Config) : Word :=
  b1 c.baselineDsp ++ c.coreDebugType ++ b1 c.segMmu ++ b1 c.dcacheWriteBack ++ b1 c.dcacheSmall ++
    b1 c.icacheSmall ++ c.dcacheSizeNp ++ c.icacheSizeNp ++ c.dcacheSizeCode ++ c.icacheSizeCode ++
    c.globalAccumulators ++ c.duGlobalCode ++ c.auGlobalCode ++ b1 c.noTrace ++ c.watchpointsCode ++ c.breakpointsCode

/-- What a fitted register reads as; bits 26:0 of TnAMAREG5 are not part of it. -/
def State.regValue (s : State) (r : CoreReg) : Word :=
  let c := s.core
  match r with
  | .ct t n => s.ctRead t n
  | .kick _ | .kicki _ => 0#32
  | .ama4 t => (s.th t).mm.amaReg4
  | .ama5 t => (s.th t).mm.amaReg5
  | .ama6 t => (s.th t).mm.amaReg6
  | .privCore t => (s.th t).mm.privCore
  | .codebAddr m => c.codeb[m.val].addr
  | .codebCtrl m => c.codeb[m.val].ctrl
  | .datawAddr m => c.dataw[m.val].addr
  | .datawCtrl m => c.dataw[m.val].ctrl
  | .datawMatch0 m => c.dataw[m.val].match0
  | .datawMatch1 m => c.dataw[m.val].match1
  | .datawMask0 m => c.dataw[m.val].mask0
  | .datawMask1 m => c.dataw[m.val].mask1
  | .perfIcore m => c.perf[m.val].icore
  | .perfCount m => c.perf[m.val].count
  | .perfChan m => c.perf[m.val].chan
  | .perfVec m => c.perf[m.val].vec.setWidth 32
  | .privSysr t => (s.th t).mm.privSysr
  | .pioReg t => (s.th t).mm.pioReg
  | .psyReg t => (s.th t).mm.psyReg
  | .hwstatMeta => c.hwstatmeta
  | .hwstatExt k => s.extStatus k
  | .hwlevelExt k => c.ext[k.val].level
  | .hwmaskExt k => c.ext[k.val].mask
  | .vecB t => (s.th t).mm.vecB.setWidth 32
  | .vecI t => (s.th t).mm.vecI.setWidth 32
  | .vecP t => (s.th t).mm.vecP.setWidth 32
  | .hwvec e => c.hwvec[e.val].setWidth 32
  | .metacId => metacIdOf s.cfg
  | .coreId => coreIdOf s.cfg
  | .coreRev => coreRevOf s.cfg
  | .coreConfig2 => coreConfig2Of s.cfg
  | .tablePhys => c.tablePhys
  | .dcacheCtrl => c.dcacheCtrl
  | .icacheCtrl => c.icacheCtrl
  | .mmuConfig => 0#25 ++ b1 s.cfg.dcacheSkew ++ b1 s.cfg.icacheSkew ++ 0#2 ++ c.mmuConfig
  | .jtagThread => 0#26 ++ BitVec.ofNat 2 c.slaveThread.val ++ 0#1 ++ b1 c.jtagPriv ++ BitVec.ofNat 2 c.debugThread.val
  | .dcacheFlush => c.dcacheFlush
  | .icacheFlush => c.icacheFlush
  | .directMap m => c.directMap[m.val]
  | .wrComb t => (s.th t).mm.wrComb
  | .dcPart t => (s.th t).mm.dcPart
  | .icPart t => (s.th t).mm.icPart
  | .localEbCtrl => c.localEbCtrl
  | .globalEbCtrl => c.globalEbCtrl
  | .ebwcCtrl t => (s.th t).mm.ebwcCtrl
  | .localPhys0 t => (s.th t).mm.localPhys0
  | .localPhys1 t => (s.th t).mm.localPhys1
  | .globalPhys0 t => (s.th t).mm.globalPhys0
  | .globalPhys1 t => (s.th t).mm.globalPhys1

/-- The whole data cache emptied (R171, 21_mmu_cache.md R363). -/
def State.emptyDcache (s : State) : State :=
  let s := { s with thr := s.thr.map fun (x : Thread) => { x with h := { x.h with dcLocal := [] } } }
  s.modEnv fun v => { v with dcGlobal := Vector.replicate 4 [] }

/-- The whole instruction cache emptied (R172, R363). -/
def State.emptyIcache (s : State) : State :=
  let s := { s with thr := s.thr.map fun (x : Thread) => { x with h := { x.h with icLocal := [] } } }
  s.modEnv fun v => { v with icGlobal := [] }

/-- A watchpoint's registers changed. -/
def State.modDataw (s : State) (m : Fin 2) (f : Watchpoint → Watchpoint) : State :=
  s.modCore fun c => { c with dataw := c.dataw.set m.val (f c.dataw[m.val]) m.isLt }

/-- A breakpoint's registers changed. -/
def State.modCodeb (s : State) (m : Fin 4) (f : CodeBreakpoint → CodeBreakpoint) : State :=
  s.modCore fun c => { c with codeb := c.codeb.set m.val (f c.codeb[m.val]) m.isLt }

/-- A counter's registers changed. -/
def State.modPerf (s : State) (m : Fin 2) (f : PerfRegs → PerfRegs) : State :=
  s.modCore fun c => { c with perf := c.perf.set m.val (f c.perf[m.val]) m.isLt }

/-- A fitted register written: its reserved and read-only bits ignore the write (R180, D22). SYSC_DCPARTn and SYSC_ICPARTn store a write
made in MMU bypass mode too, one of the two outcomes U26 leaves: DESIGN CHOICE (log 64). -/
def State.regWrite (s : State) (r : CoreReg) (v : Word) : State :=
  match r with
  | .ct t n => s.ctWrite t n v
  | .kick t => s.kick t .background v
  | .kicki t => s.kick t .interrupt v
  | .ama4 t => s.modMm t fun m => { m with amaReg4 := v &&& 0x3FFFFFFF#32 }
  | .ama5 t => s.modMm t fun m => { m with amaReg5 := v &&& 0xF8000000#32 }
  | .ama6 t => s.modMm t fun m => { m with amaReg6 := v &&& 0x1FFFFFF0#32 }
  | .privCore t => s.modMm t fun m => { m with privCore := v &&& 0x7#32 }
  | .codebAddr m => s.modCodeb m fun b => { b with addr := v &&& 0xFFFFFFFC#32 }
  | .codebCtrl m => s.modCodeb m fun b => { b with ctrl := v &&& 0x90FFFFFF#32 }
  | .datawAddr m => s.modDataw m fun b => { b with addr := v }
  | .datawCtrl m => s.modDataw m fun b => { b with ctrl := v &&& 0xFFFFFFFB#32 }
  | .datawMatch0 m => s.modDataw m fun b => { b with match0 := v }
  | .datawMatch1 m => s.modDataw m fun b => { b with match1 := v }
  | .datawMask0 m => s.modDataw m fun b => { b with mask0 := v }
  | .datawMask1 m => s.modDataw m fun b => { b with mask1 := v }
  | .perfIcore m => s.modPerf m fun p => { p with icore := v &&& 0x30F#32 }
  | .perfCount m => s.modPerf m fun p => { p with count := v }
  | .perfChan m => s.modPerf m fun p => { p with chan := v &&& 0x30F#32 }
  | .perfVec m => s.modPerf m fun p => { p with vec := bitsOf v 0 4 }
  | .privSysr t => s.modMm t fun m => { m with privSysr := v &&& 0x1D#32 }
  | .pioReg t => s.modMm t fun m => { m with pioReg := v }
  | .psyReg t => s.modMm t fun m => { m with psyReg := v }
  | .hwstatMeta => s.writeMeta v
  | .hwstatExt k => s.writeExtStatus k v
  | .hwlevelExt k => s.modExt k fun x => { x with level := v }
  | .hwmaskExt k => s.modExt k fun x => { x with mask := v }
  | .vecB t => s.modMm t fun m => { m with vecB := bitsOf v 0 4 }
  | .vecI t => s.modMm t fun m => { m with vecI := bitsOf v 0 4 }
  | .vecP t => s.modMm t fun m => { m with vecP := bitsOf v 0 4 }
  | .hwvec e => s.modCore fun c => { c with hwvec := c.hwvec.set e.val (bitsOf v 0 4) e.isLt }
  | .metacId | .coreId | .coreRev | .coreConfig2 => s
  | .tablePhys => s.modCore fun c => { c with tablePhys := v &&& 0xFFFFFFFD#32 }
  | .dcacheCtrl => s.modCore fun c => { c with dcacheCtrl := v &&& 1#32 }
  | .icacheCtrl => s.modCore fun c => { c with icacheCtrl := v &&& 1#32 }
  | .mmuConfig => s.modCore fun c => { c with mmuConfig := bitsOf v 0 3 }
  | .jtagThread => s.modCore fun c => { c with jtagPriv := bitOf v 2 }
  | .dcacheFlush =>
    let s := s.modCore fun c => { c with dcacheFlush := v &&& 1#32 }
    if bitOf v 0 then s.emptyDcache else s
  | .icacheFlush =>
    let s := s.modCore fun c => { c with icacheFlush := v &&& 1#32 }
    if bitOf v 0 then s.emptyIcache else s
  | .directMap m => s.modCore fun c => { c with directMap := c.directMap.set m.val (v &&& 0xFF80C0DF#32) m.isLt }
  | .wrComb t => s.modMm t fun m => { m with wrComb := v &&& 0x33FF#32 }
  | .dcPart t => s.modMm t fun m => { m with dcPart := v &&& 0x8F0FFF0F#32 }
  | .icPart t => s.modMm t fun m => { m with icPart := v &&& 0x0F0F0F0F#32 }
  | .localEbCtrl => s.modCore fun c => { c with localEbCtrl := v &&& 0xC0C0#32 }
  | .globalEbCtrl => s.modCore fun c => { c with globalEbCtrl := v &&& 0xC0C0#32 }
  | .ebwcCtrl t => s.modMm t fun m => { m with ebwcCtrl := v &&& 0x77#32 }
  | .localPhys0 t => s.modMm t fun m => { m with localPhys0 := v &&& 0xFFC00FDF#32 }
  | .localPhys1 t => s.modMm t fun m => { m with localPhys1 := v &&& 0xFFFFFFFC#32 }
  | .globalPhys0 t => s.modMm t fun m => { m with globalPhys0 := v &&& 0xFFC00FDF#32 }
  | .globalPhys1 t => s.modMm t fun m => { m with globalPhys1 := v &&& 0xFFFFFFFC#32 }

/-- The privilege a register asks of an access, after the TnPIOREG check: its write class, its TXPRIVEXT bit, or
TnPRIVCORE (11_core_registers.md R181, 61_privilege_platform.md R712, R714). -/
def State.regNeedsPriv (s : State) (r : CoreReg) (write : Bool) : Bool :=
  match r with
  | .ct t n => write && ctNeedsPriv (s.th t).ct.txprivext n
  | .kick t => write && bitOf (s.th t).mm.privCore 0
  | .kicki t => write && bitOf (s.th t).mm.privCore 1
  | .ama4 t | .ama5 t | .ama6 t => bitOf (s.th t).mm.privCore 2
  | .privCore _ => write
  | .codebAddr _ | .codebCtrl _ | .datawAddr _ | .datawCtrl _ | .datawMatch0 _ | .datawMatch1 _ | .datawMask0 _
  | .datawMask1 _ | .perfIcore _ | .perfCount _ => write
  | _ => false

/-- A reserved control register of a fitted thread (U2). -/
def CoreReg.reserved : CoreReg → Bool
  | .ct _ n => !ctListed n
  | _ => false

/-- ATP tables without the parameter that says where they are (21_mmu_cache.md R340, D15): active mode with them is refused. -/
def State.atpMissing (s : State) (mode : BitVec 3) (tablePhys : Word) : Bool :=
  mode == 7#3 && !bitOf tablePhys 0 && s.cfg.atpSlot.isNone

/-- Why a write of a fitted register is refused: a mode of SYSC_CACHE_MMU_CONFIG that is not listed (U18), or active mode with ATP tables
that have no place, entered by the mode or by the choice of the table structure. -/
def State.writeRefusal (s : State) (r : CoreReg) (v : Word) : Option Refusal :=
  match r with
  | .mmuConfig =>
    let m : BitVec 3 := bitsOf v 0 3
    if m = 1#3 ∨ m = 3#3 ∨ m = 5#3 then some .mmuMode
    else if s.atpMissing m s.core.tablePhys then some .atpTable
    else none
  | .tablePhys => if s.atpMissing s.core.mmuConfig v then some .atpTable else none
  | _ => none

end Sys2Proof.Machine
end

