-- ==== Sys2Proof/Machine/Mmu.lean ====
section
/-! DEFINITION. The linear address map, the MMU modes, physical accesses, the TLBs and translation. -/

namespace Sys2Proof.Machine

/-- Who makes an access: the thread whose map is used, the privilege, whether a host makes it, and whether it is routed past the caches and
buffers of the thread (20_memory.md R283, CORE_DEBUG_TYPE; log 65). -/
structure Acc where
  tid  : Tid
  priv : Bool
  host : Bool
  past : Bool
deriving DecidableEq, Repr

/-- What an access is for. -/
inductive Kind where
  | read | write | fetch
deriving DecidableEq, Repr

/-- The cache and TLB side of an access. -/
def Kind.side : Kind → CacheSide
  | .read | .write => .data
  | .fetch => .instruction

/-- The rows of the linear address map (20_memory.md R251). -/
inductive Region where
  | invalid | sysReserved | custom | expansion | sysEvent | cacheFlush | tlbFlush | coreRegs | mmuTable
  | directMap | local | coreCode | coreData | coreCached | global
deriving DecidableEq, Repr

/-- The row a linear address lies in (R251). -/
def regionOf (la : Word) : Region :=
  let a := la.toNat
  if a < 0x00200000 then .invalid
  else if a < 0x02000000 then .sysReserved
  else if a < 0x03000000 then .custom
  else if a < 0x04000000 then .expansion
  else if a < 0x04400000 then .sysEvent
  else if a < 0x04700000 then .cacheFlush
  else if a < 0x04800000 then .tlbFlush
  else if a < 0x05000000 then .coreRegs
  else if a < 0x06000000 then .mmuTable
  else if a < 0x08000000 then .directMap
  else if a < 0x80000000 then .local
  else if a < 0x82000000 then .coreCode
  else if a < 0x84000000 then .coreData
  else if a < 0x88000000 then .coreCached
  else if a < 0xFFFE0000 then .global
  else .invalid

/-- The three modes of the MMU (21_mmu_cache.md R330). -/
inductive MmuMode where
  | bypass | enhanced | active
deriving DecidableEq, Repr

/-- The mode of one side: SYSC_CACHE_MMU_CONFIG 7 is active, bit 1 puts the data side and bit 2 the instruction side in
enhanced bypass (R330). -/
def State.mmuMode (s : State) (side : CacheSide) : MmuMode :=
  let m := s.core.mmuConfig
  if m = 7#3 then .active
  else match side with
    | .data => if bitOf m 1 then .enhanced else .bypass
    | .instruction => if bitOf m 2 then .enhanced else .bypass

/-- How a row of the map answers in a mode: not at all, as 'Reserved' of bypass mode (R254), or as its own rule says. -/
inductive RowState where
  | invalid | reserved | live
deriving DecidableEq, Repr

/-- The mode columns of R251. -/
def rowState (r : Region) (m : MmuMode) : RowState :=
  match r, m with
  | .invalid, .bypass | .sysReserved, .bypass | .cacheFlush, .bypass | .mmuTable, .bypass | .directMap, .bypass
  | .coreCached, .bypass => .reserved
  | .invalid, _ | .sysReserved, _ | .coreCached, _ => .invalid
  | .mmuTable, .enhanced => .invalid
  | _, _ => .live

/-! ### Physical accesses -/

/-- Some range of the platform holds all `n` bytes (R252). An access of which only some bytes have memory behind them is unanswered as a
whole: DESIGN CHOICE (log 79). The platform answers in every MMU mode, also in a range that R252 calls Reserved: DESIGN CHOICE (log 84). -/
def State.backed (s : State) (pa : Word) (n : Nat) : Bool :=
  s.cfg.platform.any fun r => decide (r.base ≤ pa.toNat) && decide (pa.toNat + n ≤ r.base + r.size)

/-- A bus decode error owed for an operation of a thread (R281); hosts are answered on their own port. -/
def oweBusError (a : Acc) (instr : Bool) : M Unit :=
  if a.host then pure () else update fun s => s.oweToken ⟨a.tid, instr, 1#6, false⟩

/-- `PhysRead(pa, n)`: without memory behind it the value is open (U17) and a bus error follows. -/
def physRead (a : Acc) (instr : Bool) (pa : Word) (n : Nat) : M DWord := do
  if ← view fun s => s.backed pa n then view fun s => Memory.readN s.env.phys pa.toNat n
  else
    oweBusError a instr
    let v ← drawFree
    return zextBytes n v

/-- A 64-byte burst from a line-aligned address. -/
def physReadLine (a : Acc) (instr : Bool) (line : Nat) : M LineData := do
  let pa : Word := BitVec.ofNat 32 (64 * line)
  if ← view fun s => s.backed pa 64 then view fun s => Memory.readLine s.env.phys (64 * line) 64
  else
    oweBusError a instr
    let v0 ← drawFree; let v1 ← drawFree; let v2 ← drawFree; let v3 ← drawFree
    let v4 ← drawFree; let v5 ← drawFree; let v6 ← drawFree; let v7 ← drawFree
    return v7 ++ v6 ++ v5 ++ v4 ++ v3 ++ v2 ++ v1 ++ v0

/-- Two byte ranges meet. -/
def rangesMeet (a n b m : Nat) : Bool := decide (a < b + m) && decide (b < a + n)

/-- A write to some bytes clears every monitor on them (43_sync_system.md R568). -/
def State.clearMonitors (s : State) (pa : Word) (n : Nat) : State :=
  { s with
    thr := s.thr.map fun (x : Thread) =>
      { x with
        h := { x.h with
          mon := match x.h.mon with
            | some m => if rangesMeet pa.toNat n m.pa.toNat m.len then none else some m
            | none => none } } }

/-- `PhysWrite(pa, n, v)` by any agent where memory answers: no monitor on the bytes stands. All `n` bytes are written in one step, toward
other bus masters too, which D28 leaves to the platform: DESIGN CHOICE (log 78). -/
def State.physStore (s : State) (pa : Word) (n : Nat) (v : DWord) : State :=
  (s.modEnv fun e => { e with phys := Memory.writeN e.phys pa.toNat v n }).clearMonitors pa n

/-- `PhysWrite(pa, n, v)`: without memory behind it the write is lost and a bus error follows. -/
def State.physWrite (s : State) (a : Acc) (pa : Word) (n : Nat) (v : DWord) : State :=
  if s.backed pa n then s.physStore pa n v
  else if a.host then s
  else s.oweToken ⟨a.tid, false, 1#6, false⟩

/-! ### Translation -/

/-- What translation delivers: the physical address, the WIN mode of the access's side, combinable, whether the global cache partition
is used, and EX-MODE (21_mmu_cache.md R335). -/
structure Attr where
  pa   : Word
  win  : BitVec 2
  comb : Bool
  glob : Bool
  exm  : Bool
deriving DecidableEq, Repr

/-- A thread's TLB of a side. -/
def State.tlb (s : State) (side : CacheSide) (t : Tid) : Tlb :=
  match side with
  | .data => (s.th t).h.tlbD
  | .instruction => (s.th t).h.tlbI

/-- A thread's TLB of a side changed. -/
def State.modTlb (s : State) (side : CacheSide) (t : Tid) (f : Tlb → Tlb) : State :=
  s.modH t fun h =>
    match side with
    | .data => { h with tlbD := f h.tlbD }
    | .instruction => { h with tlbI := f h.tlbI }

/-- The remembered entry read from a table address for a linear address. As the table address is part of the key, a walk after a change of a
table root uses the new table at once, where 21_mmu_cache.md R339 leaves the old or the new translation: DESIGN CHOICE (log 27). -/
def tlbFind (l : List TlbEntry) (addr la : Word) : Option Word :=
  (l.find? fun e => e.addr == addr && (la &&& e.mask) == e.base).map TlbEntry.val

/-- One level of a table walk: the remembered entry, or memory; a valid entry is remembered (21_mmu_cache.md R335, R349). -/
def walkEntry (a : Acc) (side : CacheSide) (first : Bool) (addr la mask : Word) : M Word := do
  let t ← view fun s => s.tlb side a.tid
  match tlbFind (if first then t.l1 else t.l2) addr la with
  | some v => return v
  | none =>
    let v ← physRead a (side == .instruction) addr 4
    let w := loWord v
    let e : TlbEntry := ⟨addr, la &&& mask, mask, w⟩
    if bitOf w 0 then
      update fun s => s.modTlb side a.tid fun x =>
        if first then { x with l1 := e :: x.l1 } else { x with l2 := e :: x.l2 }
    return w

/-- The end of a table walk (R335, R341). -/
inductive Walk where
  | firstInvalid
  | secondInvalid
  | mapped (entry : Word) (pageBytes : Nat) (pa : Word)
deriving DecidableEq, Repr

/-- The physical address of the first-level entry in the HTP structure; none out of range (R334), or where the Range code is reserved or the top
bit of Base wrong: a translation takes the page fault (U19), and CACHERL shows an invalid first level, DESIGN CHOICE (log 72). -/
def htpFirst (p0 p1 la : Word) : Option Word :=
  let base := (p0 &&& 0xFFC00000#32).toNat
  let range := (bitsOf p0 8 4).toNat
  let size := 0x400000 * 2 ^ range
  let a := la.toNat
  if bitOf p0 0 ∧ range ≤ 9 ∧ bitOf p0 31 = bitOf la 31 ∧ base ≤ a ∧ a - base < size then
    some ((p1 &&& 0xFFFFFFFC#32) + BitVec.ofNat 32 (4 * ((a - base) / 0x400000)))
  else none

/-- The root registers for a linear address (R334). -/
def State.rootRegs (s : State) (t : Tid) (la : Word) : Word × Word :=
  let m := (s.th t).mm
  if bitOf la 31 then (m.globalPhys0, m.globalPhys1) else (m.localPhys0, m.localPhys1)

/-- The address of the first-level entry: HTP root registers, or the ATP table block with its slots (R331, R334, R340). -/
def firstLevelAddr (t : Tid) (la : Word) : M (Option Word) := do
  let tp ← view fun s => s.core.tablePhys
  if bitOf tp 0 then
    let r ← view fun s => s.rootRegs t la
    return htpFirst r.1 r.2 la
  else
    match ← view fun s => s.cfg.atpSlot with
    | none => refuse .atpTable
    | some slots =>
      let g := if bitOf la 31 then 4 else 0
      let slot := (slots[(g + t.val) % 8]'(Nat.mod_lt _ (by decide))).toNat
      return some ((tp &&& 0xFFFFFFFC#32) + BitVec.ofNat 32 (0x800 * slot + 4 * ((la.toNat / 0x400000) % 512)))

/-- The page size in bytes of a first-level entry; none for a reserved code; 4 Kbyte in the ATP structure (R338, R340). -/
def pageBytesOf (htp : Bool) (e1 : Word) : Option Nat :=
  let c := (bitsOf e1 1 4).toNat
  if htp then (if c ≤ 10 then some (4096 * 2 ^ c) else none) else some 4096

/-- The table walk of R335 steps 1 to 3 and 5, without the permission checks. A valid first-level entry with a reserved size code maps nothing
(U19): a translation takes the page fault, and CACHERL, of which no rule says so, shows it as an invalid first level, DESIGN CHOICE (log 72). The
MiniM bit of a first-level entry is ignored: DESIGN CHOICE (log 92). -/
def walk (a : Acc) (side : CacheSide) (la : Word) : M Walk := do
  match ← firstLevelAddr a.tid la with
  | none => return .firstInvalid
  | some a1 =>
    let e1 ← walkEntry a side true a1 la 0xFFC00000#32
    if !bitOf e1 0 then return .firstInvalid
    let htp ← view fun s => bitOf s.core.tablePhys 0
    match pageBytesOf htp e1 with
    | none => return .firstInvalid
    | some ps =>
      let i2 := (la.toNat % 0x400000) / ps
      let a2 := (e1 &&& 0xFFFFFFC0#32) + BitVec.ofNat 32 (4 * i2)
      let e2 ← walkEntry a side false a2 la (BitVec.ofNat 32 (0x100000000 - ps))
      if !bitOf e2 0 then return .secondInvalid
      return .mapped e2 ps ((e2 &&& 0xFFFFF000#32) + BitVec.ofNat 32 (la.toNat % ps))

/-- The permission checks of R337 in the order of D33: privilege first. -/
def permission (writable privOnly : Bool) (k : Kind) (p : Bool) : Option FReason :=
  if privOnly && !p then some .general
  else if k == .write && !writable then some .protection
  else none

/-- A flag controlled by an address bit in enhanced bypass mode: the flag, and the address bit it clears (R333). -/
def ebFlag (code : BitVec 3) (la : Word) (zero : Bool) : Bool × Word :=
  let k := code.toNat
  if k = 0 then (zero, 0#32)
  else if k = 7 then (!zero, 0#32)
  else (bitOf la (24 + k), 1#32 <<< (24 + k))

/-- Translation of the local and global ranges in enhanced bypass mode (R333), which does not control EX-MODE: it is clear (log 66). -/
def enhancedTranslate (eb wcctrl la : Word) (k : Kind) (glob : Bool) : Except FReason Attr :=
  let w := ebFlag (bitsOf wcctrl 4 3) la true
  let c := ebFlag (bitsOf wcctrl 0 3) la false
  match permission w.1 false k true with
  | some r => .error r
  | none =>
    .ok ⟨la &&& ~~~(w.2 ||| c.2), if k.side = .data then bitsOf eb 6 2 else bitsOf eb 14 2, c.1, glob, false⟩

/-- Translation of the local and global ranges (20_memory.md R255). Entry bit 4 is EX-MODE here and makes no access wait for WR-ATOMIC: the
ruling 90_conflicts.md C28, by which SYS-COHERENT has no effect, stands over the words of U15. -/
def translateRange (a : Acc) (la : Word) (k : Kind) : M (Except FReason Attr) := do
  let glob := regionOf la == .global
  match ← view fun s => s.mmuMode k.side with
  | .bypass => return .ok ⟨la, 0#2, false, glob, false⟩
  | .enhanced =>
    let eb ← view fun s => if glob then s.core.globalEbCtrl else s.core.localEbCtrl
    let w ← view fun s => (s.th a.tid).mm.ebwcCtrl
    return enhancedTranslate eb w la k glob
  | .active =>
    match ← walk a k.side la with
    | .firstInvalid | .secondInvalid => return .error .page
    | .mapped e _ pa =>
      match permission (bitOf e 1) (bitOf e 2) k a.priv with
      | some r => return .error r
      | none => return .ok ⟨pa, bitsOf e 6 2, bitOf e 3, glob, bitOf e 4⟩

/-- The direct mapped region (R258). -/
def directTranslate (r la : Word) (k : Kind) (p : Bool) : Except FReason Attr :=
  let pa : Word := bitsOf r 23 9 ++ bitsOf la 0 23
  if bitOf r 0 then
    match permission (bitOf r 1) (bitOf r 2) k p with
    | some e => .error e
    | none => .ok ⟨pa, if k.side = .data then bitsOf r 6 2 else bitsOf r 14 2, bitOf r 3, false, bitOf r 4⟩
  else .ok ⟨pa, 0#2, false, false, false⟩

/-- TnPRIVSYSR: an unprivileged access that the register stops (61_privilege_platform.md R711). -/
def privSysrRefuses (privSysr : Word) (r : Region) (k : Kind) : Bool :=
  match r with
  | .cacheFlush | .tlbFlush => bitOf privSysr 0
  | .directMap => k == .write && bitOf privSysr 2
  | .coreCode => bitOf privSysr 4
  | .coreCached => bitOf privSysr 3
  | _ => false

/-- TnPIOREG: an unprivileged access that the register stops (R712, D23). -/
def pioRegRefuses (pio la : Word) (r : Region) : Bool :=
  match r with
  | .custom => bitOf pio (16 + (la.toNat - 0x02000000) / 0x100000)
  | .coreRegs => decide (la.toNat < 0x04900000) && bitOf pio ((la.toNat - 0x04800000) / 0x10000)
  | _ => false

/-- The memory privilege checks made by address alone (R711, R712). -/
def State.regionRefuses (s : State) (a : Acc) (la : Word) (r : Region) (k : Kind) : Bool :=
  !a.priv && (privSysrRefuses (s.th a.tid).mm.privSysr r k || pioRegRefuses (s.th a.tid).mm.pioReg la r)

/-- A thread's TLBs emptied, both levels and both sides (21_mmu_cache.md R350). -/
def State.flushTlb (s : State) (t : Tid) : State :=
  s.modH t fun h => { h with tlbD := ⟨[], []⟩, tlbI := ⟨[], []⟩ }

/-- The entries used for a linear address removed from one level. -/
def tlbDrop (la : Word) (l : List TlbEntry) : List TlbEntry := l.filter fun e => (la &&& e.mask) != e.base

/-- The entries used for a linear address removed from a thread's TLBs (R364, CACHEW). -/
def State.dropTlb (s : State) (t : Tid) (la : Word) : State :=
  let f (x : Tlb) : Tlb := ⟨tlbDrop la x.l1, tlbDrop la x.l2⟩
  s.modH t fun h => { h with tlbD := f h.tlbD, tlbI := f h.tlbI }

end Sys2Proof.Machine
end

