-- ==== Sys2Proof/Machine/Cache.lean ====
section
/-! DEFINITION. The data and instruction caches as line stores per partition: hits, fills, write-through, invalidation. -/

namespace Sys2Proof.Machine

/-- The lines of a partition. The instruction cache has one global store in every build (21_mmu_cache.md R358); only the data cache's is per
thread without coherency (R359). -/
def State.linesOf (s : State) (side : CacheSide) (p : Part) : List CacheLine :=
  match side, p with
  | .data, .loc t => (s.th t).h.dcLocal
  | .instruction, .loc t => (s.th t).h.icLocal
  | .data, .glob t => s.env.dcGlobal[t.val]
  | .instruction, .glob _ => s.env.icGlobal

/-- The lines of a partition replaced. -/
def State.setLines (s : State) (side : CacheSide) (p : Part) (l : List CacheLine) : State :=
  match side, p with
  | .data, .loc t => s.modH t fun h => { h with dcLocal := l }
  | .instruction, .loc t => s.modH t fun h => { h with icLocal := l }
  | .data, .glob t => s.modEnv fun e => { e with dcGlobal := e.dcGlobal.set t.val l t.isLt }
  | .instruction, .glob _ => s.modEnv fun e => { e with icGlobal := l }

/-- `part(T, la)` (21_mmu_cache.md R358, R359). The partition registers are stored and otherwise ignored, as R360 lets a model do, so two
threads with overlapping local partitions share no line here: DESIGN CHOICE (log 75). -/
def State.partOf (s : State) (t : Tid) (glob : Bool) : Part :=
  if glob then .glob (globalPart s.cfg t) else .loc t

/-- The cache of a side serves hits: its side is out of bypass mode and its control bit is set (R356). -/
def State.cacheOn (s : State) (side : CacheSide) : Bool :=
  s.mmuMode side != .bypass &&
    match side with
    | .data => bitOf s.core.dcacheCtrl 0
    | .instruction => bitOf s.core.icacheCtrl 0

/-- The cached line, if the partition holds it. -/
def findLine (l : List CacheLine) (line : Nat) : Option CacheLine := l.find? fun c => c.line == line

/-- The partition without a line. -/
def dropLine (l : List CacheLine) (line : Nat) : List CacheLine := l.filter fun c => c.line != line

/-- A line read from memory into a partition, with the thread's own combined writes on a data fill (20_memory.md R277);
its place in the cache is open (21_mmu_cache.md R361). -/
def fillLine (a : Acc) (side : CacheSide) (p : Part) (line : Nat) : M LineData := do
  let mem ← physReadLine a (side == .instruction) line
  let wc ← view fun s => (s.th a.tid).h.wc
  let data := if side == .data then ByteBuf.mergeLine wc (64 * line) mem 64 else mem
  let slot ← drawFree
  update fun s => s.setLines side p (⟨line, slot.toNat, data⟩ :: dropLine (s.linesOf side p) line)
  return data

/-- A read through a cache: a hit, or a fill where line fills are enabled, or one bus read (R358, R356). -/
def cacheRead (a : Acc) (side : CacheSide) (x : Attr) (n : Nat) : M DWord := do
  let p ← view fun s => s.partOf a.tid x.glob
  let line := lineOf x.pa
  let off := x.pa.toNat % 64
  let use ← view fun s => s.cacheOn side && x.win != 0#2
  if use then
    match ← view fun s => findLine (s.linesOf side p) line with
    | some c => return lineRead c.data off n
    | none =>
      if ← view fun s => (s.th a.tid).h.lineFill then
        let d ← fillLine a side p line
        return lineRead d off n
      else physRead a (side == .instruction) x.pa n
  else physRead a (side == .instruction) x.pa n

/-- The cached copy of a written line updated, where the partition holds it (write-through, R358). -/
def State.cacheUpdate (s : State) (p : Part) (pa : Word) (n : Nat) (v : DWord) : State :=
  if s.cacheOn .data then
    s.setLines .data p ((s.linesOf .data p).map fun c =>
      if c.line = lineOf pa then { c with data := lineWrite c.data (pa.toNat % 64) n v } else c)
  else s

/-- `drain(T)`: every held byte is written and the buffer is empty (20_memory.md R276). The copy in the partition a byte was stored through
is updated, since another thread may have filled the line meanwhile and T sees its own order (R277, log 29). -/
def State.drain (s : State) (t : Tid) : State :=
  let held := (s.th t).h
  held.wc.foldl (fun s c =>
    let pa : Word := BitVec.ofNat 32 c.1
    (s.physWrite ⟨t, true, false, false⟩ pa 1 (c.2.setWidth 64)).cacheUpdate (s.partOf t (held.wcGlob.contains c.1)) pa 1
      (c.2.setWidth 64)) (s.modH t fun h => { h with wc := [], wcGlob := [] })

/-- Every thread's write combiner drained (R271). -/
def State.drainAll (s : State) : State := (List.finRange 4).foldl State.drain s

/-- The bytes of a combined write that was made through the global range or not, in the note of the bytes that were. -/
def noteRange (noted : List Nat) (pa n : Nat) (glob : Bool) : List Nat :=
  let others := noted.filter fun b => decide (b < pa) || decide (pa + n ≤ b)
  if glob then (List.range n).map (pa + ·) ++ others else others

/-- The combiner accepts a write (R276): a later byte replaces an earlier one. -/
def State.combine (s : State) (t : Tid) (x : Attr) (n : Nat) (v : DWord) : State :=
  s.modH t fun h =>
    { h with wc := ByteBuf.putN h.wc x.pa.toNat v n, wcGlob := noteRange h.wcGlob x.pa.toNat n x.glob }

/-- A line removed from a partition. -/
def State.invalidateLine (s : State) (side : CacheSide) (p : Part) (line : Nat) : State :=
  s.setLines side p (dropLine (s.linesOf side p) line)

/-- The number of lines of a cache. -/
def State.lineCount (s : State) (side : CacheSide) : Nat :=
  match side with
  | .data => dcacheBytes s.cfg / 64
  | .instruction => icacheBytes s.cfg / 64

/-- The partitions of a cache. -/
def allParts : List Part := (List.finRange 4).map Part.loc ++ (List.finRange 4).map Part.glob

/-- The line at a place of a cache removed, whatever it holds and whichever partition it belongs to (R361). -/
def State.flushSlot (s : State) (side : CacheSide) (i : Nat) : State :=
  let n := s.lineCount side
  allParts.foldl (fun s p => s.setLines side p ((s.linesOf side p).filter fun c => c.slot % n != i)) s

end Sys2Proof.Machine
end

