-- ==== Sys2Proof/Machine/Access.lean ====
section
/-! DEFINITION. The data and instruction paths of 20_memory.md R259 to R273: alignment, watchpoints, every region of the map, linked accesses, fetch and code breakpoints. -/

namespace Sys2Proof.Machine

/-- A data access that is not performed: why, and the linear address the catch state records (log 45). -/
structure Failed where
  exc : DataExc
  la  : Word
deriving DecidableEq, Repr

/-- A thread's own accesses. -/
def State.accOf (s : State) (t : Tid) : Acc := ⟨t, s.priv t, false, false⟩

/-! ### Alignment and watchpoints -/

/-- R259: an unaligned address faults where TXPRIVEXT.UnalignedFault of the thread is set, and loses its low bits otherwise; of a host's access,
made as the selected thread (R283), it is that thread's. -/
def State.aligned (s : State) (a : Acc) (la : Word) (n : Nat) : Except Failed Word :=
  if la.toNat % n = 0 then .ok la
  else if s.privExt a.tid 4 then .error ⟨.watch 0#2, la⟩
  else .ok (alignDown la n)

/-- The thread test of a watchpoint (11_core_registers.md R141). -/
def Watchpoint.threadHit (w : Watchpoint) (t : Tid) : Bool :=
  !bitOf w.ctrl 28 || (decide (t.val = (bitsOf w.ctrl 0 2).toNat) != bitOf w.ctrl 29)

/-- The address bits a watchpoint compares in every access. -/
def Watchpoint.addrMask (w : Watchpoint) : Word := 0xFFFFFFF8#32 &&& ~~~(w.ctrl &&& 0x0000FFF8#32)

/-- A read that matches (R141). -/
def Watchpoint.hitsRead (w : Watchpoint) (t : Tid) (la : Word) : Bool :=
  bitOf w.ctrl 31 && w.threadHit t && ((la ^^^ w.addr) &&& w.addrMask) == 0#32

/-- The size test of a write: code 0 takes any size; codes 5 to 15 name no size and match none (log 45). -/
def Watchpoint.sizeHit (w : Watchpoint) (n : Nat) : Bool :=
  match (bitsOf w.ctrl 24 4).toNat with
  | 0 => true | 1 => n == 1 | 2 => n == 2 | 3 => n == 4 | 4 => n == 8 | _ => false

/-- A write of the low `n` bytes of `v` that matches (R141, R142). -/
def Watchpoint.hitsWrite (w : Watchpoint) (t : Tid) (la : Word) (n : Nat) (v : DWord) : Bool :=
  bitOf w.ctrl 30 && w.threadHit t && ((la ^^^ w.addr) &&& (w.addrMask ||| 7#32)) == 0#32 && w.sizeHit n &&
    (zextBytes n v &&& joinWords w.mask1 w.mask0) == joinWords w.match1 w.match0

/-- The hit counter of a watchpoint or breakpoint control register. -/
def hitCount (ctrl : Word) : Nat := (bitsOf ctrl 16 8).toNat

/-- A hit counted, up to 255 (61_privilege_platform.md R735). -/
def countHit (ctrl : Word) : Word :=
  if hitCount ctrl = 255 then ctrl else withBits ctrl 16 8 (BitVec.ofNat 8 (hitCount ctrl + 1))

/-- Which watchpoints an access matches: `w` is none for a read, the size and value of a write. -/
def State.watchHit (s : State) (a : Acc) (la : Word) (w : Option (Nat × DWord)) (m : Fin 2) : Bool :=
  !a.host && decide (m.val < dataWatchpoints s.cfg) &&
    match w with
    | none => s.core.dataw[m.val].hitsRead a.tid la
    | some (n, v) => s.core.dataw[m.val].hitsWrite a.tid la n v

/-- Both watchpoints tried: the set that matched, whether one of them stops the access, and the hits counted (R735). -/
def watch (a : Acc) (la : Word) (w : Option (Nat × DWord)) : M (BitVec 2 × Bool) := fun s =>
  let h0 := s.watchHit a la w 0
  let h1 := s.watchHit a la w 1
  let stops := (h0 && hitCount s.core.dataw[0].ctrl == 255) || (h1 && hitCount s.core.dataw[1].ctrl == 255)
  let s := if h0 then s.modDataw 0 fun x => { x with ctrl := countHit x.ctrl } else s
  let s := if h1 then s.modDataw 1 fun x => { x with ctrl := countHit x.ctrl } else s
  .ok (b1 h1 ++ b1 h0, stops) s

/-! ### Regions without translation -/

/-- A read of a region that bypass mode marks 'Reserved' (R254, U12): which of the two happens is open. -/
def openRead (n : Nat) : M (Except FReason DWord) := do
  let b ← drawFree
  if bitOf b 0 then return .error .general
  else
    let v ← drawFree
    return .ok (zextBytes n v)

/-- A write to a region that bypass mode marks 'Reserved' (R254, U12). -/
def openWrite : M (Except FReason Unit) := do
  let b ← drawFree
  return if bitOf b 0 then .error .general else .ok ()

/-- The TnPIOREG and register checks of an access to a listed register (61_privilege_platform.md R712, R714). An access through an old address
(11_core_registers.md R182), which R712 does not name, is tested as one at the current address: DESIGN CHOICE (log 67). -/
def State.regRefuses (s : State) (a : Acc) (la : Word) (r : CoreReg) (write : Bool) : Bool :=
  !a.priv && (s.regNeedsPriv r write ||
    pioRegRefuses (s.th a.tid).mm.pioReg (BitVec.ofNat 32 (currentAddr la.toNat)) .coreRegs)

/-- A read of the core register area or of an old address (11_core_registers.md R180, R182). -/
def regRead (a : Acc) (la : Word) (n : Nat) : M (Except FReason DWord) :=
  match coreRegAt la with
  | none => refuse .coreRegister
  | some r =>
    if n ≠ 4 then refuse .coreRegister
    else do
      if ← view fun s => s.regRefuses a la r false then return .error .general
      if !(← view fun s => s.regFitted r) then return .ok 0#64
      if r.reserved then refuse .reservedControl
      let v ← view fun s => s.regValue r
      match r with
      | .ama5 _ =>
        let f ← drawFree
        return .ok ((maskWrite v (loWord f) 0x07FFFFFF#32).setWidth 64)
      | _ => return .ok (v.setWidth 64)

/-- A write to the core register area or to an old address. The privilege of the register comes first: an unprivileged write to an
absent register of class Always faults (log 49). -/
def regStore (a : Acc) (la : Word) (n : Nat) (v : Word) : M (Except FReason Unit) :=
  match coreRegAt la with
  | none => refuse .coreRegister
  | some r =>
    if n ≠ 4 then refuse .coreRegister
    else do
      if ← view fun s => s.regRefuses a la r true then return .error .general
      if !(← view fun s => s.regFitted r) then return .ok ()
      if r.reserved then refuse .reservedControl
      match ← view fun s => s.writeRefusal r v with
      | some q => refuse q
      | none =>
        update fun s => s.regWrite r v
        return .ok ()

/-- The effect of a system event for a thread (R266 to R271). Where R268 and R269 let flushed writes become visible at some later time, they
are drained in the same step: DESIGN CHOICE (log 29). Commands 35 to 47 are passed to the platform as R270 says, where U14 says that they have
no effect: DEDUCED (log 77). -/
def State.systemEvent (s : State) (t : Tid) (c : Nat) : State :=
  if c = 0 then
    ((s.drainAll.modShared fun x => { x with atomicOwner := none }).emit (.busEvent t 1#5))
  else if c = 1 then
    ((s.modShared fun x => { x with atomicOwner := some t }).drainAll.emit (.busEvent t 1#5))
  else if c = 2 then s.modH t fun h => { h with lineFill := false }
  else if c = 3 then s.modH t fun h => { h with lineFill := true }
  else if c = 4 then (s.drain t).emit (.busEvent t 0#5)
  else if c = 5 then (s.drain t).emit (.busEvent t 2#5)
  else if c < 32 then s
  else s.emit (.busEvent t (BitVec.ofNat 5 c))

/-- WR-ATOMIC lock is given only inside a LOCK2-held state and to one thread (R271, U15). -/
def State.atomicAllowed (s : State) (t : Tid) : Bool :=
  s.shared.lock2 == some t && (s.shared.atomicOwner == none || s.shared.atomicOwner == some t)

/-- An unprivileged store at the address of a command that TnPSYREG guards (61_privilege_platform.md R713). -/
def State.eventGuarded (s : State) (a : Acc) (la : Word) : Bool :=
  decide (la.toNat < 0x04001000) && !a.priv && bitOf (s.th a.tid).mm.psyReg ((la.toNat / 64) % 64 / 2)

/-- A store to the system event region (R266): the privilege of its command first (R263 step 3), then its width and address (U14). -/
def eventStore (a : Acc) (la : Word) (n : Nat) : M (Except FReason Unit) := do
  let c := (la.toNat / 64) % 64
  if ← view fun s => s.eventGuarded a la then return .error .general
  if n ≠ 4 ∨ 0x04001000 ≤ la.toNat then refuse .eventRegion
  if c = 1 ∧ !(← view fun s => s.atomicAllowed a.tid) then refuse .atomicOutsideLock
  update fun s => s.systemEvent a.tid c
  return .ok ()

/-- A store to the cache flush region (R272, 21_mmu_cache.md R361, U16). -/
def cacheFlushStore (la : Word) (n : Nat) (v : Word) : M (Except FReason Unit) := do
  let x := la.toNat
  let side : CacheSide := if x < 0x04500000 then .data else .instruction
  let off := if x < 0x04500000 then x - 0x04400000 else x - 0x04500000
  let lines ← view fun s => s.lineCount side
  if n ≠ 4 ∨ v ≠ 0#32 ∨ 0x04600000 ≤ x ∨ off % 64 ≠ 0 ∨ lines ≤ off / 64 then refuse .flushRegion
  update fun s => s.flushSlot side (off / 64)
  return .ok ()

/-- A store to the TLB flush region (21_mmu_cache.md R350, U16). -/
def tlbFlushStore (la : Word) (n : Nat) (v : Word) : M (Except FReason Unit) :=
  if n ≠ 4 ∨ v ≠ 0#32 then refuse .flushRegion
  else if la = 0x04700000#32 then do
    update fun s => (List.finRange 4).foldl State.flushTlb s
    return .ok ()
  else match entryAt la.toNat 0x04700020 8 4 with
    | some t => do
      update fun s => s.flushTlb t
      return .ok ()
    | none => refuse .flushRegion

/-- The core memories (R265): an offset outside the fitted size is a General fault (U13, log 24). -/
def coreMemFits (size off n : Nat) : Bool := decide (off + n ≤ size)

/-! ### Data reads and writes at a physical address -/

/-- The thread's outstanding prefetch covers the address (21_mmu_cache.md R367). -/
def State.prefetching (s : State) (t : Tid) (pa : Word) : Bool :=
  match (s.th t).h.pf with
  | some f => f.line == lineOf pa
  | none => false

/-- A read of `n` bytes at a physical address made by `get`, as the thread sees it: after the prefetch of its line (21_mmu_cache.md R367),
with the thread's own combined writes on top (R261, R277). -/
def ownRead (a : Acc) (pa : Word) (n : Nat) (get : M DWord) : M DWord := do
  if ← view fun s => s.prefetching a.tid pa then block
  let v ← get
  let wc ← view fun s => (s.th a.tid).h.wc
  return ByteBuf.mergeN wc pa.toNat v n

/-- Step 4 of R262: the cache or the bus; an access routed past the caches reads memory (log 65). -/
def dataRead (a : Acc) (x : Attr) (n : Nat) : M DWord :=
  if a.past then physRead a false x.pa n else ownRead a x.pa n (cacheRead a .data x n)

/-- A read of the custom area, which is not cached (R257, R282): the bus, in order with the thread's own writes (R277). -/
def customRead (a : Acc) (pa : Word) (n : Nat) : M DWord :=
  if a.past then physRead a false pa n else ownRead a pa n (physRead a false pa n)

/-- The thread's combined writes to these bytes sent out before a later access of the same bytes (R277, log 29). -/
def State.flushOverlap (s : State) (t : Tid) (pa : Word) (n : Nat) : State :=
  if ByteBuf.overlaps (s.th t).h.wc pa.toNat n then s.drain t else s

/-- A write that is not combined: an earlier combined write to the same bytes goes out first. -/
def State.sendWrite (s : State) (a : Acc) (pa : Word) (n : Nat) (v : DWord) : State :=
  (if a.past then s else s.flushOverlap a.tid pa n).physWrite a pa n v

/-- The write goes to the write combiner of the thread it is made as (R276, R283). -/
def State.combines (s : State) (a : Acc) (x : Attr) : Bool :=
  s.cfg.hasWriteCombiner && x.comb && bitOf (s.th a.tid).mm.wrComb 13

/-- Step 4 of R263: the write combiner or the bus, and the cached copy; an access routed past the caches leaves them (log 65). -/
def State.dataWrite (s : State) (a : Acc) (x : Attr) (n : Nat) (v : DWord) : State :=
  if a.past then s.sendWrite a x.pa n v
  else
    let s' :=
      if s.combines a x then s.combine a.tid x n v else s.sendWrite a x.pa n v
    s'.cacheUpdate (s'.partOf a.tid x.glob) x.pa n v

/-! ### The MMU table region -/

/-- The window of an address of the MMU table region: its root registers. The address alone selects it (21_mmu_cache.md R346), where item 6 of
70_reset_and_hazards.md R785 speaks of the accessing thread: DEDUCED (log 86). -/
def State.tableRoot (s : State) (la : Word) : Word × Word :=
  let w := (la.toNat / 0x200000) % 8
  let m := (s.th (Fin.ofNat 4 w)).mm
  if w < 4 then (m.localPhys0, m.localPhys1) else (m.globalPhys0, m.globalPhys1)

/-- The physical address and attributes of a window address. -/
def tableAttr (r : Word × Word) (la : Word) : Attr :=
  ⟨(r.2 &&& 0xFFF80000#32) + (la &&& 0x001FFFFF#32), bitsOf r.1 6 2, bitOf r.1 3, false, bitOf r.1 4⟩

/-- The physical address and attributes behind an address of the MMU table region whose window has a valid root. Without one the address does
not translate for DCACHE, CACHEW and RAPF: DESIGN CHOICE (log 85). -/
def State.tableAt (s : State) (la : Word) : Option Attr :=
  let r := s.tableRoot la
  if bitOf r.1 0 then some (tableAttr r la) else none

/-- A read through the MMU table region never faults; without a valid root or without memory it is error information
(U21). R346 speaks of 32-bit entries; any width reads its bytes: DESIGN CHOICE (log 37). -/
def tableRead (a : Acc) (la : Word) (n : Nat) : M (Except FReason DWord) := do
  let r ← view fun s => s.tableRoot la
  let x := tableAttr r la
  let there ← view fun s => s.backed x.pa n
  if bitOf r.1 0 && there then
    let v ← dataRead a x n
    return .ok v
  else
    if !there && bitOf r.1 0 then oweBusError a false
    let v ← drawFree
    return .ok (zextBytes n (v &&& ~~~1#64))

/-- A write through the MMU table region, made without a valid root too: DESIGN CHOICE (log 85). -/
def tableStore (a : Acc) (la : Word) (n : Nat) (v : DWord) : M (Except FReason Unit) := do
  let r ← view fun s => s.tableRoot la
  match permission (bitOf r.1 1) (bitOf r.1 2) .write a.priv with
  | some e => return .error e
  | none =>
    update fun s => s.dataWrite a (tableAttr r la) n v
    return .ok ()

/-- Translation of the regions that reach physical memory through the MMU: direct mapped, local, global. -/
def translate (a : Acc) (la : Word) (k : Kind) : M (Except FReason Attr) :=
  match regionOf la with
  | .directMap => view fun s => directTranslate (s.core.directMap[(la.toNat / 0x800000) % 4]'(Nat.mod_lt _ (by decide))) la k a.priv
  | _ => translateRange a la k

/-! ### MemRead and MemWrite -/

/-- Step 3 of R262 for a row that is live in the current mode. -/
def liveRead (a : Acc) (la : Word) (n : Nat) (r : Region) : M (Except FReason DWord) :=
  match r with
  | .invalid | .sysReserved | .coreCached | .sysEvent | .cacheFlush | .tlbFlush => return .error .general
  | .custom => do
    let v ← customRead a la n
    return .ok v
  | .expansion | .coreRegs => regRead a la n
  | .mmuTable => tableRead a la n
  | .coreCode => view fun s =>
    let off := la.toNat - 0x80000000
    if coreMemFits s.cfg.coreCodeMemSize off n then .ok (Memory.readN s.env.coreCode off n) else .error .general
  | .coreData => view fun s =>
    let off := la.toNat - 0x82000000
    if coreMemFits s.cfg.coreDataMemSize off n then .ok (Memory.readN s.env.coreData off n) else .error .general
  | .directMap | .local | .global => do
    match ← translate a la .read with
    | .error e => return .error e
    | .ok x =>
      let v ← dataRead a x n
      return .ok v

/-- Step 3 of R262: the region checks, then the region's own rule. -/
def readAt (a : Acc) (la : Word) (n : Nat) : M (Except FReason DWord) := do
  let r := regionOf la
  if ← view fun s => s.regionRefuses a la r .read then return .error .general
  match rowState r (← view fun s => s.mmuMode .data) with
  | .invalid => return .error .general
  | .reserved => openRead n
  | .live => liveRead a la n r

/-- `MemRead(T, la, n)` (R262). -/
def memRead (a : Acc) (la : Word) (n : Nat) : M (Except Failed DWord) := do
  match ← view fun s => s.aligned a la n with
  | .error e => return .error e
  | .ok la =>
    let w ← watch a la none
    if w.2 then return .error ⟨.watch w.1, la⟩
    match ← readAt a la n with
    | .ok v => return .ok v
    | .error r => return .error ⟨.fault r w.1, la⟩

/-- A core memory written. -/
def coreStore (code : Bool) (off n : Nat) (v : DWord) : M (Except FReason Unit) := fun s =>
  let size := if code then s.cfg.coreCodeMemSize else s.cfg.coreDataMemSize
  if coreMemFits size off n then
    .ok (.ok ()) (s.modEnv fun e =>
      if code then { e with coreCode := Memory.writeN e.coreCode off v n }
      else { e with coreData := Memory.writeN e.coreData off v n })
  else .ok (.error .general) s

/-- Step 3 of R263 for a row that is live in the current mode. -/
def liveWrite (a : Acc) (la : Word) (n : Nat) (v : DWord) (r : Region) : M (Except FReason Unit) :=
  match r with
  | .invalid | .sysReserved | .coreCached => return .error .general
  | .sysEvent => eventStore a la n
  | .cacheFlush => cacheFlushStore la n (loWord v)
  | .tlbFlush => tlbFlushStore la n (loWord v)
  | .custom => do
    update fun s => s.sendWrite a la n v
    return .ok ()
  | .expansion | .coreRegs => regStore a la n (loWord v)
  | .mmuTable => tableStore a la n v
  | .coreCode => coreStore true (la.toNat - 0x80000000) n v
  | .coreData => coreStore false (la.toNat - 0x82000000) n v
  | .directMap | .local | .global => do
    match ← translate a la .write with
    | .error e => return .error e
    | .ok x =>
      update fun s => s.dataWrite a x n v
      return .ok ()

/-- Step 3 of R263: the region checks, then the region's own rule. -/
def writeAt (a : Acc) (la : Word) (n : Nat) (v : DWord) : M (Except FReason Unit) := do
  let r := regionOf la
  if ← view fun s => s.regionRefuses a la r .write then return .error .general
  match rowState r (← view fun s => s.mmuMode .data) with
  | .invalid => return .error .general
  | .reserved => openWrite
  | .live => liveWrite a la n v r

/-- `MemWrite(T, la, n, v)` (R263). -/
def memWrite (a : Acc) (la : Word) (n : Nat) (v : DWord) : M (Except Failed Unit) := do
  match ← view fun s => s.aligned a la n with
  | .error e => return .error e
  | .ok la =>
    let w ← watch a la (some (n, v))
    if w.2 then return .error ⟨.watch w.1, la⟩
    match ← writeAt a la n v with
    | .ok _ => return .ok ()
    | .error r => return .error ⟨.fault r w.1, la⟩

/-! ### Linked accesses -/

/-- Translation of a linked access (43_sync_system.md R566, R567, R570): external memory only. The direct mapped region, which 20_memory.md
R251 counts to the System Region, is taken as external memory and not as the system region of R570: DESIGN CHOICE (log 81). -/
def linkedAttr (a : Acc) (la : Word) (k : Kind) : M (Except FReason Attr) := do
  let r := regionOf la
  if ← view fun s => s.regionRefuses a la r k then return .error .general
  match rowState r (← view fun s => s.mmuMode .data) with
  | .invalid | .reserved => return .error .general
  | .live =>
    match r with
    | .directMap | .local | .global => translate a la k
    | _ => refuse .linkedRegion

/-- An event for the outside, where the condition holds. -/
def State.emitIf (s : State) (b : Bool) (e : OutEvent) : State := if b then s.emit e else s

/-- The linked read of R566: past the cache, with the monitor and LINK set. It does not wait for a prefetch of its line (21_mmu_cache.md R367):
DESIGN CHOICE (log 91). -/
def linkedRead (a : Acc) (la : Word) (n : Nat) : M (Except Failed DWord) := do
  match ← view fun s => s.aligned a la n with
  | .error e => return .error e
  | .ok la =>
    let w ← watch a la none
    if w.2 then return .error ⟨.watch w.1, la⟩
    match ← linkedAttr a la .read with
    | .error r => return .error ⟨.fault r w.1, la⟩
    | .ok x =>
      update fun s => s.flushOverlap a.tid x.pa n
      let v ← physRead a false x.pa n
      update fun s =>
        (s.modH a.tid fun h => { h with mon := some ⟨x.pa, n, x.exm⟩, link := true }).emitIf x.exm (.exclusive a.tid false x.pa)
      return .ok v

/-- The monitor of a thread still stands on an address (43_sync_system.md R568). -/
def State.monitorHolds (s : State) (t : Tid) (pa : Word) : Bool :=
  match (s.th t).h.mon with
  | some m => m.pa == pa
  | none => false

/-- The monitor of a thread was set through a mapping with EX-MODE (21_mmu_cache.md R336). -/
def State.monitorExclusive (s : State) (t : Tid) : Bool :=
  match (s.th t).h.mon with
  | some m => m.exm
  | none => false

/-- The bus's answer to a linked write (R568, R569, log 11): the write where the monitor stands, and the token owed. The devices see the pair
where both its accesses have EX-MODE set (log 66). -/
def State.linkedStore (s : State) (t : Tid) (x : Attr) (n : Nat) (v : DWord) (spurious : Bool) : State :=
  let pa := x.pa
  let ok := s.monitorHolds t pa && !spurious
  let seen := x.exm && s.monitorExclusive t
  let s := s.modH t fun h => { h with mon := none }
  if !s.backed pa n then s.oweToken ⟨t, false, 1#6, true⟩
  else if ok then ((s.physStore pa n v).emitIf seen (.exclusive t true pa)).oweToken ⟨t, false, 2#6, true⟩
  else s.oweToken ⟨t, false, 4#6, true⟩

/-- The linked write of R567 with LINK standing. -/
def linkedWrite (a : Acc) (la : Word) (n : Nat) (v : DWord) : M (Except Failed Unit) := do
  match ← view fun s => s.aligned a la n with
  | .error e => return .error e
  | .ok la =>
    let w ← watch a la (some (n, v))
    if w.2 then return .error ⟨.watch w.1, la⟩
    match ← linkedAttr a la .write with
    | .error r => return .error ⟨.fault r w.1, la⟩
    | .ok x =>
      update fun s => s.flushOverlap a.tid x.pa n
      if ← view fun s => s.cfg.lnkSpuriousFail then
        let f ← drawFree
        update fun s => s.linkedStore a.tid x n v (bitOf f 0)
      else update fun s => s.linkedStore a.tid x n v false
      return .ok ()

/-! ### Instruction fetch -/

/-- Steps 1 and 2 of R264 for a row that is live in the current mode. -/
def liveFetch (a : Acc) (la : Word) (r : Region) : M (Except FReason Word) :=
  match r with
  | .coreCode => view fun s =>
    let off := la.toNat - 0x80000000
    if coreMemFits s.cfg.coreCodeMemSize off 4 then .ok (loWord (Memory.readN s.env.coreCode off 4))
    else .error .general
  | .directMap | .local | .global => do
    match ← translate a la .fetch with
    | .error e => return .error e
    | .ok x =>
      let v ← cacheRead a .instruction x 4
      return .ok (loWord v)
  | .invalid | .sysReserved | .custom | .expansion | .sysEvent | .cacheFlush | .tlbFlush | .coreRegs | .mmuTable
  | .coreData | .coreCached => return .error .general

/-- Steps 1 and 2 of R264. -/
def fetchWord (a : Acc) (la : Word) : M (Except FReason Word) := do
  let r := regionOf la
  if ← view fun s => s.regionRefuses a la r .fetch then return .error .general
  match rowState r (← view fun s => s.mmuMode .instruction) with
  | .invalid => return .error .general
  | .reserved =>
    match ← openRead 4 with
    | .error e => return .error e
    | .ok v => return .ok (loWord v)
  | .live => liveFetch a la r

/-- A code breakpoint matches a fetch (11_core_registers.md R139). -/
def CodeBreakpoint.hits (b : CodeBreakpoint) (t : Tid) (la : Word) : Bool :=
  bitOf b.ctrl 31 && ((la ^^^ b.addr) &&& 0xFFFFFFFC#32 &&& ~~~(b.ctrl &&& 0x0000FFFC#32)) == 0#32 &&
    (!bitOf b.ctrl 28 || decide (t.val = (bitsOf b.ctrl 0 2).toNat))

/-- One code breakpoint tried: a hit with count 255 stops, any other hit is counted (61_privilege_platform.md R735). -/
def tryBreakpoint (t : Tid) (la : Word) (m : Fin 4) (r : Bool × State) : Bool × State :=
  let b := r.2.core.codeb[m.val]
  if r.1 || !(decide (m.val < codeBreakpoints r.2.cfg) && b.hits t la) then r
  else if hitCount b.ctrl = 255 then (true, r.2)
  else (false, r.2.modCodeb m fun x => { x with ctrl := countHit x.ctrl })

/-- Step 3 of R264: the code breakpoints 0 to 3 in order, until one stops; those before it keep the hits they counted, those after it are not
tried. R735 gives no order: DESIGN CHOICE (log 74). -/
def breakpoints (t : Tid) (la : Word) : M Bool := fun s =>
  let r := (List.finRange 4).foldl (fun r m => tryBreakpoint t la m r) (false, s)
  .ok r.1 r.2

/-- `Fetch(T, pc)` (R264): the word, or the exception of the fetch. The thread's prefetch buffer may hold an older word of the
address (R279); an instruction that waits is not tried again for breakpoints (log 13). -/
def fetch (t : Tid) (pc : Word) : M (Except Exc Word) := do
  let la := alignDown pc 4
  let a ← view fun s => s.accOf t
  match ← fetchWord a la with
  | .error r => return .error (.fetchFault r)
  | .ok w =>
    let waiting ← view fun s => (s.th t).h.waiting
    let stop ← if waiting then pure false else breakpoints t la
    if stop then return .error .codeBreak
    let buf ← view fun s => (s.th t).h.fetchBuf
    return .ok ((buf.lookup la).getD w)

end Sys2Proof.Machine
end

