-- ==== Sys2Proof/Machine/Operands.lean ====
section
/-! DEFINITION. Register operands: presence and privilege (40_data_movement.md R460 step 4), reading and writing every unit (R461, R462, R477), the read pipeline (R471 to R474), and transfers between registers and memory. -/

namespace Sys2Proof.Machine

/-! ### Presence and privilege -/

/-- A register operand and whether the instruction writes it. -/
structure Use where
  reg   : Reg
  write : Bool
deriving DecidableEq, Repr

/-- A data register the build has (10_state.md R32). That the globals present are those from 16 on is DESIGN CHOICE (log 82). -/
def dataPresent (c : Config) (t : Tid) (n : BitVec 5) : Bool :=
  if n.toNat < 16 then decide (n.toNat < duLocal c t) else decide (n.toNat - 16 < duGlobal c)

/-- An address register the build has (10_state.md R33). That the globals present are those from 8 on is DESIGN CHOICE (log 82). -/
def addrPresent (c : Config) (t : Tid) (n : BitVec 5) : Bool :=
  if n.toNat < 8 then decide (n.toNat < auLocal c t) else decide (n.toNat - 8 < auGlobal c)

/-- A trigger unit register that D0 assigns (10_state.md R61). -/
def trListed (n : BitVec 5) : Bool :=
  match n.toNat with
  | 0 | 1 | 2 | 3 | 4 | 6 => true
  | _ => false

/-- One of the MX ports (40_data_movement.md R473). -/
def isMxPort : ReadPort → Bool
  | .ram8x | .ram16x | .ram8x32 => true
  | .ra | .rapf | .rabz | .rawz | .radz | .rabx | .rawx | .radx => false

/-- Why an operand stops the instruction before its privilege is looked at: an absent register, unit or port is an unknown
instruction (U1); a reserved register or an undescribed unit is refused. -/
def presence (c : Config) (t : Tid) (u : Use) : Option Stop :=
  let n := u.reg.num
  let need (b : Bool) : Option Stop := if b then none else some (.exc .unknownInstruction)
  match u.reg.unit with
  | .d0 | .d1 => need (dataPresent c t n)
  | .a0 | .a1 => need (addrPresent c t n)
  | .pc => need (decide (n.toNat ≤ 1))
  | .ct => if ctListed n then none else some (.refused .reservedControl)
  | .tr => if trListed n then none else some (.refused .reservedTrigger)
  | .port =>
    if u.write then
      match ReadPort.ofNum n with
      | some p => if isMxPort p then (if isDsp c t then some (.refused .dspPort) else need false) else none
      | none => need false
    else need (n == 0#5)
  | .tt => if c.noTrace then need false else some (.refused .traceUnit)
  | .fx => if c.fpuType = 0#2 then need false else some (.refused .fpuUnit)

/-- A global register (10_state.md R34). -/
def isGlobalReg (r : Reg) : Bool :=
  match r.unit with
  | .d0 | .d1 => decide (16 ≤ r.num.toNat)
  | .a0 | .a1 => decide (8 ≤ r.num.toNat)
  | .ct | .pc | .port | .tr | .tt | .fx => false

/-- The operand needs privilege: GCRPriv (R34), PToggle for PCX (R461), the write class of a CT register but TXSTATUS
(R477, D37), TrigPriv and PToggle for the trigger unit (R462). -/
def State.needsPriv (s : State) (t : Tid) (u : Use) : Bool :=
  let n := u.reg.num
  match u.reg.unit with
  | .d0 | .d1 | .a0 | .a1 => isGlobalReg u.reg && s.privExt t 16
  | .pc => n == 1#5 && s.pToggle t
  | .ct => u.write && n != 2#5 && ctNeedsPriv (s.th t).ct.txprivext n
  | .tr => s.privExt t 17 || ((n == 2#5 || n == 3#5) && s.pToggle t)
  | .port | .tt | .fx => false

/-- What stops an instruction with these operands: presence of all of them first, then privilege (60_exceptions.md R644). -/
def State.operandStop (s : State) (t : Tid) (l : List Use) : Option Stop :=
  match l.findSome? (presence s.cfg t) with
  | some e => some e
  | none => if !s.priv t && l.any (s.needsPriv t) then some (.exc .privilegeViolation) else none

/-- The exception these operands raise, refusals aside: an absent one, then a missing privilege (R460 step 4). -/
def State.operandTrap (s : State) (t : Tid) (l : List Use) : Option Exc :=
  let absent (u : Use) : Bool := match presence s.cfg t u with | some (.exc _) => true | _ => false
  if l.any absent then some .unknownInstruction
  else if !s.priv t && l.any (s.needsPriv t) then some .privilegeViolation
  else none

/-- Check the operands of an instruction of thread `t`. -/
def check (t : Tid) (l : List Use) : M Unit := fun s =>
  match s.operandStop t l with
  | some e => .error e s
  | none => .ok () s

/-- A register read. -/
def rd (r : Reg) : Use := ⟨r, false⟩

/-- A register written. -/
def wr (r : Reg) : Use := ⟨r, true⟩

/-! ### Data and address registers -/

/-- A data register of one unit: 0 to 15 local, 16 to 31 global. -/
def dataGet (loc glob : Vector Word 16) (n : BitVec 5) : Word :=
  if n.toNat < 16 then loc[n.toNat % 16]'(Nat.mod_lt _ (by decide)) else glob[n.toNat % 16]'(Nat.mod_lt _ (by decide))

/-- An address register of one unit: 0 to 7 local, 8 to 15 global; no unit has more (10_state.md R33). -/
def addrGet (loc glob : Vector Word 8) (n : BitVec 5) : Word :=
  if n.toNat < 8 then loc[n.toNat % 8]'(Nat.mod_lt _ (by decide))
  else if n.toNat < 16 then glob[n.toNat % 8]'(Nat.mod_lt _ (by decide))
  else 0#32

/-- The value of a data or address register as thread `t` sees it; other units have no plain value. -/
def State.reg (s : State) (t : Tid) (r : Reg) : Word :=
  let u := (s.th t).u
  let g := s.shared
  match r.unit with
  | .d0 => dataGet u.d0 g.d0 r.num
  | .d1 => dataGet u.d1 g.d1 r.num
  | .a0 => addrGet u.a0 g.a0 r.num
  | .a1 => addrGet u.a1 g.a1 r.num
  | .ct | .pc | .port | .tr | .tt | .fx => 0#32

/-- A data or address register changed; other units, and numbers no unit has, are left alone. -/
def State.setReg (s : State) (t : Tid) (r : Reg) (v : Word) : State :=
  let n := r.num.toNat
  match r.unit with
  | .d0 =>
    if n < 16 then s.modU t fun u => { u with d0 := u.d0.set (n % 16) v (Nat.mod_lt _ (by decide)) }
    else s.modShared fun g => { g with d0 := g.d0.set (n % 16) v (Nat.mod_lt _ (by decide)) }
  | .d1 =>
    if n < 16 then s.modU t fun u => { u with d1 := u.d1.set (n % 16) v (Nat.mod_lt _ (by decide)) }
    else s.modShared fun g => { g with d1 := g.d1.set (n % 16) v (Nat.mod_lt _ (by decide)) }
  | .a0 =>
    if n < 8 then s.modU t fun u => { u with a0 := u.a0.set (n % 8) v (Nat.mod_lt _ (by decide)) }
    else if n < 16 then s.modShared fun g => { g with a0 := g.a0.set (n % 8) v (Nat.mod_lt _ (by decide)) }
    else s
  | .a1 =>
    if n < 8 then s.modU t fun u => { u with a1 := u.a1.set (n % 8) v (Nat.mod_lt _ (by decide)) }
    else if n < 16 then s.modShared fun g => { g with a1 := g.a1.set (n % 8) v (Nat.mod_lt _ (by decide)) }
    else s
  | .ct | .pc | .port | .tr | .tt | .fx => s

/-! ### The read pipeline -/

/-- The bytes a port reads (R473). -/
def portBytes (c : Config) : ReadPort → Nat
  | .ra => raWidth c
  | .rabz | .rabx => 1
  | .rawz | .rawx => 2
  | .radz | .radx => 4
  | .rapf | .ram8x | .ram16x | .ram8x32 => 0

/-- The value a port pushes (R473). -/
def portExtend (c : Config) (p : ReadPort) (v : DWord) : DWord :=
  match p with
  | .rabx => sextBytes 1 v
  | .rawx => sextBytes 2 v
  | .radx => sextBytes 4 v
  | .ra | .rapf | .rabz | .rawz | .radz | .ram8x | .ram16x | .ram8x32 => zextBytes (portBytes c p) v

/-- RAPF starts a data cache prefetch (R474, 21_mmu_cache.md R367); an address that does not translate has no effect (U23).
It raises no ReadPipelineFault, as R474 pushes nothing, where R471 counts RAPF to the ports it checks: DESIGN CHOICE (log 87). -/
def prefetch (t : Tid) (la : Word) : M Unit := do
  if (← view fun s => (s.th t).h.pf).isSome then block
  let a ← view fun s => s.accOf t
  let live ← view fun s => rowState (regionOf la) (s.mmuMode .data) == .live
  match regionOf la with
  | .directMap | .local | .global =>
    if live then
      match ← translate a la .read with
      | .error _ => return ()
      | .ok x => update fun s => s.modH t fun h => { h with pf := some ⟨lineOf x.pa, x.glob, x.win != 0#2⟩ }
  | .mmuTable =>
    if live then
      match ← view fun s => s.tableAt la with
      | none => return ()
      | some x => update fun s => s.modH t fun h => { h with pf := some ⟨lineOf x.pa, x.glob, x.win != 0#2⟩ }
  | _ => return ()

/-- A read address issued to a port that pushes (R471). -/
def issueRead (t : Tid) (p : ReadPort) (la : Word) : M Unit := do
  let full ← view fun s => decide (s.cfg.readPipelineDepth ≤ (s.th t).h.rp.length)
  if full || (← view fun s => s.rpDirty t) then raise .readPipelineFault
  let a ← view fun s => s.accOf t
  let c ← view State.cfg
  match ← memRead a la (portBytes c p) with
  | .error f => raiseLate (.data f.exc (.issue p f.la))
  | .ok v => update fun s => s.setRp t ((s.th t).h.rp ++ [⟨la, p, portExtend c p v⟩])

/-- An address moved to an output port (R471, R473, R474). -/
def writePort (t : Tid) (p : ReadPort) (la : Word) : M Unit :=
  match p with
  | .rapf => prefetch t la
  | .ram8x | .ram16x | .ram8x32 => refuse .dspPort
  | .ra | .rabz | .rawz | .radz | .rabx | .rawx | .radx => issueRead t p la

/-- A read of RD (R472). -/
def popRead (t : Tid) : M DWord := fun s =>
  match (s.th t).h.rp with
  | [] => if s.rpDirty t then .ok 0#64 s else .error (.exc .readPipelineFault) s
  | e :: l => .ok e.data (s.setRp t l)

/-! ### The trigger unit as an operand -/

/-- A blocking read of TXSTAT or TXSTATI (60_exceptions.md R622). -/
def blockingRead (t : Tid) (l : Level) : M Word := fun s =>
  if s.maskOf t l = 0#16 then .error (.exc .triggerBlockFault) s
  else if s.visTriggers t l = 0#16 then .error .block s
  else .ok (s.triggerValue t l) (s.passTriggerRead t l)

/-- A trigger unit register read (R462). -/
def trRead (t : Tid) (n : BitVec 5) : M Word :=
  match n.toNat with
  | 0 => blockingRead t .background
  | 1 => view fun s => (s.maskOf t .background).setWidth 32
  | 2 => blockingRead t .interrupt
  | 3 => view fun s => (s.maskOf t .interrupt).setWidth 32
  | 4 => view fun s => s.triggerValue t .background
  | 6 => view fun s => s.triggerValue t .interrupt
  | _ => refuse .reservedTrigger

/-- A trigger unit register written (R462). -/
def State.trWrite (s : State) (t : Tid) (n : BitVec 5) (v : Word) : State :=
  match n.toNat with
  | 0 => s.ackTriggers t .background v
  | 1 => s.modTr t fun x => { x with mask := bitsOf v 0 16 &&& 0xFFFB#16 }
  | 2 => s.ackTriggers t .interrupt v
  | 3 => s.modTr t fun x => { x with maski := bitsOf v 0 16 }
  | _ => s

/-! ### Reading and writing any unit -/

/-- `read_unit` (R461) for operands that have been checked; `pc` is the address of the instruction. -/
def readReg (t : Tid) (pc : Word) (r : Reg) : M Word :=
  match r.unit with
  | .d0 | .d1 | .a0 | .a1 => view fun s => s.reg t r
  | .pc => if r.num = 0#5 then return pc else view fun s => (s.th t).u.pcx
  | .ct => view fun s => s.ctRead t r.num
  | .tr => trRead t r.num
  | .port => do
    let v ← popRead t
    return loWord v
  | .tt => refuse .traceUnit
  | .fx => refuse .fpuUnit

/-- A CT register written by the thread itself: TXSTATUS without its privilege loses only bits 7:0 (R477, D37). -/
def State.ctWriteOwn (s : State) (t : Tid) (n : BitVec 5) (v : Word) : State :=
  if n = 2#5 && s.privExt t 9 && !s.priv t then s.statusWriteLow t v else s.ctWrite t n v

/-- `write_unit` (R461) for operands that have been checked. -/
def writeReg (t : Tid) (r : Reg) (v : Word) : M Unit :=
  match r.unit with
  | .d0 | .d1 | .a0 | .a1 => update fun s => s.setReg t r v
  | .pc => update fun s => if r.num = 0#5 then s.jump t v else s.setPcx t v
  | .ct => update fun s => s.ctWriteOwn t r.num v
  | .tr => update fun s => s.trWrite t r.num v
  | .port =>
    match ReadPort.ofNum r.num with
    | some p => writePort t p v
    | none => raise .unknownInstruction
  | .tt => refuse .traceUnit
  | .fx => refuse .fpuUnit

/-- A register or an immediate as a source. -/
def readSrc (t : Tid) (pc : Word) : Src → M Word
  | .reg r => readReg t pc r
  | .imm v => return v

/-- The registers of a source. -/
def srcUses : Src → List Use
  | .reg r => [rd r]
  | .imm _ => []

/-- A source of an address unit operation; CPC is the address of the instruction (41_alu.md R511). -/
def readAuSrc (t : Tid) (pc : Word) : AuSrc → M Word
  | .reg r => readReg t pc r
  | .imm v => return v
  | .cpc => return pc

/-- The registers of an address unit source. -/
def auSrcUses : AuSrc → List Use
  | .reg r => [rd r]
  | .imm _ | .cpc => []

/-! ### Addresses -/

/-- The offset of a memory operand. -/
def State.offset (s : State) (t : Tid) (m : MemMode) : Word :=
  match m.off with
  | .reg r => s.reg t r
  | .imm v => v

/-- The effective address (40_data_movement.md R468). -/
def State.address (s : State) (t : Tid) (m : MemMode) : Word :=
  match m.update with
  | .none | .pre => s.reg t m.base + s.offset t m
  | .post => s.reg t m.base

/-- The base register's new value (R468). It and the address are formed linearly whatever the DSP bits of TXMODE are: DESIGN CHOICE
(log 93). -/
def State.newBase (s : State) (t : Tid) (m : MemMode) : Word := s.reg t m.base + s.offset t m

/-- The registers an address uses. -/
def modeUses (m : MemMode) : List Use :=
  (match m.update with | .none => rd m.base | .pre | .post => wr m.base) :: srcUses m.off

/-- The base update, from the base and offset the instruction started with (log 15). -/
def updateBase (t : Tid) (m : MemMode) (v : Word) : M Unit :=
  match m.update with
  | .none => pure ()
  | .pre | .post => update fun s => s.setReg t m.base v

/-! ### Transfers between registers and memory -/

/-- The ReqLdDest bit of a unit, bit 0 standing for TXCATCH0 bit 16 (10_state.md R52). -/
def destBit : UnitId → BitVec 11
  | .ct => 0x001#11 | .d0 => 0x002#11 | .d1 => 0x004#11 | .a0 => 0x008#11 | .a1 => 0x010#11
  | .pc => 0x020#11 | .fx => 0x040#11 | .tr => 0x080#11 | .port | .tt => 0x000#11

/-- A unit 1 register comes first (10_state.md R52, ReqSB bit 2). -/
def firstIsOne (r : Reg) : Bool := r.unit == .d1 || r.unit == .a1

/-- One load: the value, or the data exception with its catch state (R466, 60_exceptions.md R656). -/
def loadValue (t : Tid) (w : Width) (la : Word) (num : BitVec 5) (units : BitVec 11) (first : Bool) : M DWord := do
  let a ← view fun s => s.accOf t
  match ← memRead a la (widthBytes w) with
  | .error f => raiseLate (.data f.exc (.load w f.la num units false first))
  | .ok v => return v

/-- A load of one register (R466). -/
def loadReg (t : Tid) (w : Width) (la : Word) (r : Reg) : M Unit := do
  let v ← loadValue t w la r.num (destBit r.unit) (firstIsOne r)
  writeReg t r (loWord v)

/-- A load of a pair (R464, R466). -/
def loadPair (t : Tid) (la : Word) (ra rb : Reg) : M Unit := do
  let v ← loadValue t .lword la ra.num (destBit ra.unit ||| destBit rb.unit) (firstIsOne ra)
  update fun s => (s.setReg t ra (loWord v)).setReg t rb (hiWord v)

/-- One store (R467). -/
def storeValue (t : Tid) (w : Width) (la : Word) (v : DWord) : M Unit := do
  let a ← view fun s => s.accOf t
  match ← memWrite a la (widthBytes w) v with
  | .error f => raiseLate (.data f.exc (.store w f.la v))
  | .ok _ => return ()

end Sys2Proof.Machine
end

