-- ==== Sys2Proof/Machine/Sync.lean ====
section
/-! DEFINITION. Locks, linked test and set, and the deferred reads (43_sync_system.md R560 to R571). -/

namespace Sys2Proof.Machine

/-- The lock instructions need privilege where ILockPriv says so (R560). -/
def lockCheck (t : Tid) : M Unit := do
  if ← view fun s => s.privExt t 14 && !s.priv t then raise .privilegeViolation

/-- A lock is free for a thread. -/
def freeFor (o : Option Tid) (t : Tid) : Bool := o == none || o == some t

/-- An owner given up by a thread. -/
def giveUp (o : Option Tid) (t : Tid) : Option Tid := if o = some t then none else o

/-- LOCK0 (R561): the thread gives up both locks. -/
def lock0Body (_ : Word) : M Unit := do
  let t ← me
  lockCheck t
  update fun s => s.modShared fun x => { x with lock1 := giveUp x.lock1 t, lock2 := giveUp x.lock2 t }

/-- LOCK1 (R562): wait for the first lock, take it, give up the second. -/
def lock1Body (_ : Word) : M Unit := do
  let t ← me
  lockCheck t
  if !(← view fun s => freeFor s.shared.lock1 t) then block
  update fun s => s.modShared fun x => { x with lock1 := some t, lock2 := giveUp x.lock2 t }

/-- LOCK2 (R563): wait for both locks and take them. -/
def lock2Body (_ : Word) : M Unit := do
  let t ← me
  lockCheck t
  if !(← view fun s => freeFor s.shared.lock1 t && freeFor s.shared.lock2 t) then block
  update fun s => s.modShared fun x => { x with lock1 := some t, lock2 := some t }

/-- LOCK0 (R561). -/
def execLock0 (s : State) : Host.Outcome State Fault Refusal := issue .al lock0Body s

/-- LOCK1 (R562). -/
def execLock1 (s : State) : Host.Outcome State Fault Refusal := issue .al lock1Body s

/-- LOCK2 (R563). -/
def execLock2 (s : State) : Host.Outcome State Fault Refusal := issue .al lock2Body s

/-- The linked read with the catch state of a LNKGET (R566). -/
def linkedLoad (t : Tid) (w : Width) (la : Word) (num : BitVec 5) (units : BitVec 11) (first : Bool) : M DWord := do
  let a ← view fun s => s.accOf t
  match ← linkedRead a la (widthBytes w) with
  | .error f => raiseLate (.data f.exc (.load w f.la num units true first))
  | .ok v => return v

/-- The linked write (R567): without LINK nothing is written and status 4 is recorded. -/
def linkedPut (t : Tid) (w : Width) (la : Word) (v : DWord) : M Unit := do
  let a ← view fun s => s.accOf t
  let l ← view fun s => (s.th t).h.link
  update fun s => s.modH t fun h => { h with link := false }
  if l then
    match ← linkedWrite a la (widthBytes w) v with
    | .error f => raiseLate (.data f.exc (.store w f.la v))
    | .ok _ => return ()
  else update fun s => s.recordTok ⟨t, false, 4#6, false⟩

/-- LNKGETD (R566). -/
def lnkgetdBody (d b : Reg) (_ : Word) : M Unit := do
  let t ← me
  check t [wr d, rd b]
  let la ← view fun s => s.reg t b
  let v ← linkedLoad t .dword la d.num (destBit d.unit) (firstIsOne d)
  update fun s => s.setReg t d (loWord v)

/-- LNKGETL (R566). -/
def lnkgetlBody (ra rb b : Reg) (_ : Word) : M Unit := do
  let t ← me
  check t [wr ra, wr rb, rd b]
  let la ← view fun s => s.reg t b
  let v ← linkedLoad t .lword la ra.num (destBit ra.unit ||| destBit rb.unit) (firstIsOne ra)
  update fun s => (s.setReg t ra (loWord v)).setReg t rb (hiWord v)

/-- LNKSETD (R567). -/
def lnksetdBody (b r : Reg) (_ : Word) : M Unit := do
  let t ← me
  check t [rd b, rd r]
  let la ← view fun s => s.reg t b
  let v ← view fun s => (s.reg t r).setWidth 64
  linkedPut t .dword la v

/-- LNKSETL (R567). -/
def lnksetlBody (b ra rb : Reg) (_ : Word) : M Unit := do
  let t ← me
  check t [rd b, rd ra, rd rb]
  let la ← view fun s => s.reg t b
  let v ← view fun s => joinWords (s.reg t rb) (s.reg t ra)
  linkedPut t .lword la v

/-- LNKGETD (R566). -/
def execLnkgetd (d b : Reg) (s : State) : Host.Outcome State Fault Refusal := issue .al (lnkgetdBody d b) s

/-- LNKGETL (R566). -/
def execLnkgetl (ra rb b : Reg) (s : State) : Host.Outcome State Fault Refusal := issue .al (lnkgetlBody ra rb b) s

/-- LNKSETDcc (R567). -/
def execLnksetd (c : Cond) (b r : Reg) (s : State) : Host.Outcome State Fault Refusal := issue c (lnksetdBody b r) s

/-- LNKSETLcc (R567). -/
def execLnksetl (c : Cond) (b ra rb : Reg) (s : State) : Host.Outcome State Fault Refusal := issue c (lnksetlBody b ra rb) s

/-- The floating point reasons of TXDEFR routed to a level, in place at bits 21:16. -/
def fpReasons (txdefr : Word) (l : Level) : Word :=
  let f : BitVec 6 := b1 (reasonAt txdefr 21 l) ++ b1 (reasonAt txdefr 20 l) ++ b1 (reasonAt txdefr 19 l) ++
    b1 (reasonAt txdefr 18 l) ++ b1 (reasonAt txdefr 17 l) ++ b1 (reasonAt txdefr 16 l)
  f.setWidth 32 <<< 16

/-- The value a DEFR returns (R571): the bus error first, else the floating point reasons. -/
def deferredValue (txdefr : Word) (l : Level) : Word :=
  if reasonAt txdefr 23 l then (txdefr &&& 0xFF000000#32) ||| 0x00800008#32
  else
    let f := fpReasons txdefr l
    if f = 0#32 then 0#32 else f ||| 8#32

/-- TXDEFR after a DEFR that clears what it read (R571, 60_exceptions.md R666). -/
def deferredCleared (txdefr : Word) (l : Level) : Word :=
  clearReasons txdefr (if reasonAt txdefr 23 l then 0x00800000#32 else 0x003F0000#32) l

/-- DEFR of one level (R571); `wait` is the TXSTAT form, which waits for the linked answers and clears. -/
def defrBody (l : Level) (wait : Bool) (d : Reg) : M Unit := do
  let t ← me
  check t (wr d :: (if l = .interrupt then [rd ⟨.tr, if wait then 2#5 else 6#5⟩] else []))
  if wait && (← view fun s => s.pendingLnk t != 0) then block
  let w ← view fun s => (s.th t).ct.txdefr
  if wait then update fun s => s.modCt t fun c => { c with txdefr := deferredCleared c.txdefr l }
  update fun s => s.setReg t d (deferredValue w l)

/-- DEFR Reg, TXSTAT (R571). -/
def execDefrTxstat (d : Reg) (s : State) : Host.Outcome State Fault Refusal :=
  issue .al (fun _ => defrBody .background true d) s

/-- DEFR Reg, TXPOLL (R571). -/
def execDefrTxpoll (d : Reg) (s : State) : Host.Outcome State Fault Refusal :=
  issue .al (fun _ => defrBody .background false d) s

/-- DEFR Reg, TXSTATI (R571). -/
def execDefrTxstati (d : Reg) (s : State) : Host.Outcome State Fault Refusal :=
  issue .al (fun _ => defrBody .interrupt true d) s

/-- DEFR Reg, TXPOLLI (R571). -/
def execDefrTxpolli (d : Reg) (s : State) : Host.Outcome State Fault Refusal :=
  issue .al (fun _ => defrBody .interrupt false d) s

end Sys2Proof.Machine
end

