-- ==== Sys2Proof/Machine/Replay.lean ====
section
/-! DEFINITION. The replay of a caught transfer (60_exceptions.md R658), made by RTI and by turning a thread on. -/

namespace Sys2Proof.Machine

/-- The unit a ReqLdDest bit names; only units R466 defines. -/
def unitOfBit (b : BitVec 11) : Option UnitId :=
  [UnitId.ct, .d0, .d1, .a0, .a1, .pc, .tr].find? fun u => destBit u == b

/-- The pair of units two ReqLdDest bits name; `first` puts unit 1 first. -/
def pairOfBits (b : BitVec 11) (first : Bool) : Option (UnitId × UnitId) :=
  if b = destBit .d0 ||| destBit .d1 then some (if first then (.d1, .d0) else (.d0, .d1))
  else if b = destBit .a0 ||| destBit .a1 then some (if first then (.a1, .a0) else (.a0, .a1))
  else none

/-- The width of a caught write: the lane mask is the one R656 writes for it. -/
def widthOfLanes (la : Word) (mask : Byte) : Option Width :=
  [Width.byte, .word, .dword, .lword].find? fun w => laneMask la (widthBytes w) == mask

/-- A caught load made again, linked where ReqSB bit 3 says so. -/
def replayLoad (t : Tid) (c la : Word) : M Unit := do
  let w := widthOfCode (bitsOf c 0 2)
  let units : BitVec 11 := bitsOf c 16 11
  let num : BitVec 5 := bitsOf c 27 5
  let first := bitOf c 2
  let get := if bitOf c 3 then linkedLoad t w la num units first else loadValue t w la num units first
  if w = .lword then
    match pairOfBits units first with
    | none => refuse .catchState
    | some (ua, ub) =>
      check t [wr ⟨ua, num⟩, wr ⟨ub, num⟩]
      let v ← get
      update fun s => (s.setReg t ⟨ua, num⟩ (loWord v)).setReg t ⟨ub, num⟩ (hiWord v)
  else
    match unitOfBit units with
    | none => refuse .catchState
    | some u =>
      check t [wr ⟨u, num⟩]
      let v ← get
      writeReg t ⟨u, num⟩ (loWord v)

/-- A caught write made again. -/
def replayStore (t : Tid) (c la lo hi : Word) : M Unit :=
  match widthOfLanes la (bitsOf c 0 8) with
  | none => refuse .catchState
  | some w => storeValue t w la (zextBytes (widthBytes w) (joinWords hi lo >>> (8 * (la.toNat % 8))))

/-- A caught pipelined read issued again. -/
def replayIssue (t : Tid) (c la : Word) : M Unit :=
  match ReadPort.ofNum (bitsOf c 0 5) with
  | none => refuse .catchState
  | some p => do
    check t [wr ⟨.port, p.num⟩]
    writePort t p la

/-- The transfer of the catch state of thread `t`, if bits 14:10 of TXCATCH0 mark one (R658). With WPSet it is caught again. -/
def replayTransfer (t : Tid) : M Unit := do
  let x ← view fun s => (s.th t).ct
  let c := x.txcatch0
  let la := x.txcatch1
  if bitsOf c 10 5 = 0#5 then return ()
  else if bitOf c 14 then raiseLate (.data (.watch (bitsOf c 12 2)) .again)
  else if !bitOf c 8 then replayStore t c la x.txcatch2 x.txcatch3
  else if bitsOf c 16 11 ≠ 0#11 then replayLoad t c la
  else replayIssue t c la

/-- CBRESTORE to RUN: both markers cleared (R658). A transfer that turned the thread off leaves it off. -/
def State.endReplay (s : State) (t : Tid) : State :=
  (s.setStatus t (withBit (withBit (s.status t) 22 false) 23 false)).modH t fun h =>
    { h with tstate := if h.tstate = .cbRestore then .run else h.tstate, waiting := false }

/-- The replay that an RTI makes (42_control_flow.md R537). An exception of it is taken in the context the thread has resumed (R658), so
the RTI is done: every exception of the replay is a late one. -/
def replayNow (t : Tid) : M Unit := fun s =>
  match replayTransfer t s with
  | .ok _ s' => .ok () ((s'.endReplay t).stopIfDisabled t)
  | .error (.exc e) _ => .error (.late e) s
  | .error q s' => .error q s'

/-- The replay of a thread turned on with CBMarker set, its first step (R652): RPDirty is cleared after it, so a pipelined read issued
again meets RPDirty as it stood (log 12). -/
def replayStep (t : Tid) (s : State) : Host.Outcome State Fault Refusal :=
  match replayTransfer t s with
  | .ok _ s' => .next (((s'.endReplay t).setRpDirty t false).stopIfDisabled t)
  | .error (.exc e) _ => .next (((s.setRpDirty t false).takeException t e).stopIfDisabled t)
  | .error (.late e) s' => .next (((s'.setRpDirty t false).takeException t e).stopIfDisabled t)
  | .error .block _ => .next (s.blocked t)
  | .error (.refused q) _ => .refused q

end Sys2Proof.Machine
end

