-- ==== Sys2Proof/Machine/Agents.lean ====
section
/-! DEFINITION. The agents that are not an instruction: hosts, the bus, the fill engines, timers, lines, coprocessors and counters (00_scope.md R8). -/

namespace Sys2Proof.Machine

/-! ### Hosts -/

/-- The thread a port acts as (11_core_registers.md R170). -/
def State.portThread (s : State) (p : HostPort) : Tid :=
  match p with
  | .debug => s.core.debugThread
  | .slave => s.core.slaveThread

/-- The access of a port: its thread's map with the privilege of SYSC_JTAG_THREAD (20_memory.md R283). -/
def State.portAcc (s : State) (p : HostPort) (past : Bool) : Acc := ⟨s.portThread p, s.core.jtagPriv, true, past⟩

/-- Whether a host access is routed past the data cache (R283, 11_core_registers.md R179): always with CORE_DEBUG_TYPE 1, 'the cache
backend'; never with 2, 'always through core'; with 0, 'the core or cache backend', a free value of each access (log 65). -/
def State.hostRoute (s : State) : Bool × State :=
  if s.cfg.coreDebugType = 1#2 then (true, s)
  else if s.cfg.coreDebugType = 2#2 then (false, s)
  else (bitOf (Config.free s.env.freeCtr) 0, s.modEnv fun e => { e with freeCtr := e.freeCtr + 1 })

/-- A host's access waits while WR-ATOMIC is held (20_memory.md R271): the action is dropped (log 30). -/
def State.hostStalled (s : State) : Bool := s.shared.atomicOwner.isSome

/-- A host reads 32 bits (61_privilege_platform.md R747 (a)); a refused access changes nothing (R746), and one that waits for the thread's
prefetch (21_mmu_cache.md R367) is dropped as a stalled one is (log 30). -/
def State.hostRead (s : State) (p : HostPort) (a : Word) : State :=
  if s.hostStalled then s
  else
    let r := s.hostRoute
    match memRead (s.portAcc p r.1) a 4 r.2 with
    | .ok (.ok v) s' => s'.emit (.hostRead p a (some (loWord v)))
    | .ok (.error _) _ => s.emit (.hostRead p a none)
    | .error .block _ => s
    | .error (.exc _) _ | .error (.late _) _ | .error (.refused _) _ => s.emit (.hostRead p a none)

/-- A host writes 32 bits (R747 (a)); a refused access changes nothing (R746), and so does a write at which a thread's store would be a refusal of
the model (U18, D15): DESIGN CHOICE (log 31). -/
def State.hostWrite (s : State) (p : HostPort) (a v : Word) : State :=
  if s.hostStalled then s
  else
    let r := s.hostRoute
    match memWrite (s.portAcc p r.1) a 4 (v.setWidth 64) r.2 with
    | .ok (.ok _) s' => s'
    | .ok (.error _) _ => s
    | .error _ _ => s

/-- A host selects the thread of its port (R747 (c)). -/
def State.hostSelect (s : State) (p : HostPort) (t : Tid) : State :=
  if s.present t then
    s.modCore fun c =>
      match p with
      | .debug => { c with debugThread := t }
      | .slave => { c with slaveThread := t }
  else s

/-- A unit register a host can reach: PC, PCX, a data or an address register the build has, of a thread that is OFF
(R747 (d)). That SYSC_JTAG_THREAD.PRIVILEGE (11_core_registers.md R170) is not asked for is DESIGN CHOICE (log 76). -/
def State.hostReaches (s : State) (t : Tid) (r : Reg) : Bool :=
  s.present t && (s.th t).h.tstate == .off && (r.isGeneral || r.unit == .pc) && (presence s.cfg t (rd r)).isNone

/-- A host reads a unit register of a thread that is OFF. -/
def State.hostGetReg (s : State) (t : Tid) (r : Reg) : State :=
  if s.hostReaches t r then
    let v := if r.unit = .pc then (if r.num = 0#5 then s.pcOf t else (s.th t).u.pcx) else s.reg t r
    s.emit (.hostReg t r (some v))
  else s.emit (.hostReg t r none)

/-- A host writes a unit register of a thread that is OFF. -/
def State.hostSetReg (s : State) (t : Tid) (r : Reg) (v : Word) : State :=
  if s.hostReaches t r then
    if r.unit = .pc then (if r.num = 0#5 then s.setPc t v else s.setPcx t v) else s.setReg t r v
  else s

/-! ### The bus and the fill engines -/

/-- The first token of a thread and the rest of the queue. -/
def takeToken (t : Tid) : List Token → Option (Token × List Token)
  | [] => none
  | k :: ks => if k.tid = t then some (k, ks) else (takeToken t ks).map fun r => (r.1, k :: r.2)

/-- The bus delivers the oldest token of a thread (20_memory.md R281, 60_exceptions.md R661). -/
def State.deliverToken (s : State) (t : Tid) : State :=
  match takeToken t s.env.tokens with
  | none => s
  | some (k, ks) => (s.modEnv fun e => { e with tokens := ks }).recordTok k

/-- Another bus master writes bytes from a physical address; bytes without memory behind them are lost. -/
def State.dmaWrite (s : State) (pa : Word) : List Byte → State
  | [] => s
  | b :: bs =>
    let s' := if s.backed pa 1 then s.physStore pa 1 (b.setWidth 64) else s
    State.dmaWrite s' (pa + 1#32) bs

/-- What a computation leaves of the state when it does not stop. -/
def State.after {α : Type} (s : State) (x : M α) : State :=
  match x s with
  | .ok _ s' => s'
  | .error _ _ => s

/-- The fill engines of a thread wait while another thread holds WR-ATOMIC (R271, log 30). -/
def State.engineStalled (s : State) (t : Tid) : Bool :=
  match s.shared.atomicOwner with
  | none => false
  | some o => o != t

/-- A requested line filled, where the cache may allocate (21_mmu_cache.md R356, R367). -/
def State.fill (s : State) (t : Tid) (side : CacheSide) (f : FillReq) : State :=
  if s.cacheOn side && (s.th t).h.lineFill && f.alloc then
    s.after (fillLine (s.accOf t) side (s.partOf t f.glob) f.line)
  else s

/-- The outstanding data prefetch completes (R367). The line carries the bytes of memory at this step: of the two outcomes R367 leaves for a
write made since the request, lost from the cached copy or not, the second, DESIGN CHOICE (log 68). -/
def State.prefetchFill (s : State) (t : Tid) : State :=
  match (s.th t).h.pf with
  | none => s
  | some f =>
    if s.engineStalled t then s
    else (s.fill t .data f).modH t fun h => { h with pf := none }

/-- The oldest instruction preload completes (43_sync_system.md R578). That they complete oldest first is DESIGN CHOICE (log 89). -/
def State.icacheFill (s : State) (t : Tid) : State :=
  match (s.th t).h.ipf with
  | [] => s
  | f :: l =>
    if s.engineStalled t then s
    else (s.fill t .instruction f).modH t fun h => { h with ipf := l }

/-- A speculative fetch: the TLB and the cache may fill; no fault is reported (R366). One that no memory answers owes a bus error token as a
fetch does: DESIGN CHOICE (log 94). -/
def State.specFetch (s : State) (t : Tid) (a : Word) : State :=
  if (s.th t).h.tstate == .run && !s.engineStalled t then s.after (fetchWord (s.accOf t) (alignDown a 4)) else s

/-- A speculative fetch whose word stays in the prefetch buffer (20_memory.md R279), with its bus error token (log 94). -/
def State.specWord (s : State) (t : Tid) (a : Word) : State :=
  let la := alignDown a 4
  if (s.th t).h.tstate == .run && !s.engineStalled t then
    match fetchWord (s.accOf t) la s with
    | .ok (.ok w) s' =>
      s'.modH t fun h => { h with fetchBuf := (la, w) :: h.fetchBuf.filter fun p => p.1 != la }
    | .ok (.error _) s' => s'
    | .error _ _ => s
  else s

/-- The TLB entries read from one table address forgotten (R349). -/
def State.tlbForget (s : State) (side : CacheSide) (t : Tid) (a : Word) : State :=
  s.modTlb side t fun x => ⟨x.l1.filter fun e => e.addr != a, x.l2.filter fun e => e.addr != a⟩

/-! ### Coprocessors and counters -/

/-- A coprocessor supplies a value on a port the build has (40_data_movement.md R476). -/
def State.coprocSupply (s : State) (p : Fin 8) (v : DWord) : State :=
  if p.val < s.cfg.coprocReadPorts then
    s.modEnv fun e => { e with cpr := e.cpr.set p.val (e.cpr[p.val] ++ [v]) p.isLt }
  else s

/-- A coprocessor says whether it can accept. -/
def State.coprocReady (s : State) (p : Fin 8) (b : Bool) : State :=
  s.modEnv fun e => { e with cpwReady := e.cpwReady.set p.val b p.isLt }

/-- A performance counter counts one event; a roll-over of its 24 bits raises its trigger (61_privilege_platform.md R738). -/
def State.perfEvent (s : State) (n : Fin 2) : State :=
  let c := s.core.perf[n.val].count
  let k : BitVec 24 := bitsOf c 0 24 + 1#24
  let s := s.modPerf n fun p => { p with count := withBits p.count 0 24 k }
  if k = 0#24 then s.raiseMeta (16 + n.val) s.core.perf[n.val].vec else s

/-- Cycles without an issue: TXIDLECYC, which saturates (log 32). -/
def State.idleCycles (s : State) (n : Nat) : State :=
  s.modShared fun x => { x with idlecyc := BitVec.ofNat 24 (min 0xFFFFFF (x.idlecyc.toNat + n)) }

/-- A base clock tick reaches every thread the build has (R716 to R718). -/
def State.timerTick (s : State) : State :=
  (List.finRange 4).foldl (fun s t => if s.present t then s.modTh t Thread.timerTick else s) s

/-- The effect of an action that is not a thread's. A bus error reported by `busToken` leaves the value of a load that memory answered as it was,
where U17 lets it be any: DESIGN CHOICE (log 83). -/
def State.act (s : State) : Action → State
  | .thread _ => s
  | .timerTick => s.timerTick
  | .extLine i b => s.driveLine i b
  | .hostRead p a => s.hostRead p a
  | .hostWrite p a v => s.hostWrite p a v
  | .hostSelect p t => s.hostSelect p t
  | .hostGetReg t r => s.hostGetReg t r
  | .hostSetReg t r v => s.hostSetReg t r v
  | .deliverToken t => s.deliverToken t
  | .busToken t i st => if s.present t then s.oweToken ⟨t, i, st, false⟩ else s
  | .dmaWrite pa bs => s.dmaWrite pa bs
  | .drain t => s.drain t
  | .prefetchFill t => s.prefetchFill t
  | .icacheFill t => s.icacheFill t
  | .specFetch t a => s.specFetch t a
  | .specWord t a => s.specWord t a
  | .dropLine side p l => s.invalidateLine side p l
  | .tlbForget side t a => s.tlbForget side t a
  | .coprocSupply p v => s.coprocSupply p v
  | .coprocReady p b => s.coprocReady p b
  | .perfEvent n => s.perfEvent n
  | .idle n => s.idleCycles n

end Sys2Proof.Machine
end

