-- ==== Sys2Proof/Machine/Alu.lean ====
section
/-! DEFINITION. Arithmetic and logic of the data units, TST, CMP and the address unit operations (41_alu.md). -/

namespace Sys2Proof.Machine

/-- The result and the flags it captures (R503, R505 to R508). -/
def aluResult (op : AluOp) (a b : Word) : Word × Flags :=
  match op with
  | .add => (a + b, addFlags a b)
  | .sub => (a - b, subFlags a b)
  | .and => (a &&& b, resultFlags (a &&& b))
  | .or => (a ||| b, resultFlags (a ||| b))
  | .xor => (a ^^^ b, resultFlags (a ^^^ b))
  | .lsl => let r := a <<< (bitsOf b 0 5).toNat; (r, resultFlags r)
  | .lsr => let r := a >>> (bitsOf b 0 5).toNat; (r, resultFlags r)
  | .asr => let r := a.sshiftRight (bitsOf b 0 5).toNat; (r, resultFlags r)
  | .mulw => let r := (bitsOf a 0 16).setWidth 32 * (bitsOf b 0 16).setWidth 32; (r, resultFlags r)
  | .muld => (a * b, resultFlags (a * b))

/-- The DSP bits of TXMODE are in force: a DSP thread at background level has one set (10_state.md R44, R500). -/
def State.dspModeOn (s : State) (t : Tid) : Bool :=
  isDsp s.cfg t && !s.istat t && ((s.th t).ct.txmode &&& 0xFF7FFFFF#32) != 0#32

/-- DSP modes are refused (R500). -/
def dspCheck (t : Tid) : M Unit := do
  if ← view fun s => s.dspModeOn t then refuse .dspMode

/-- `OPcc{S} Ud.d, src1, src2` (R501, R502). Where both sources are RD two entries are popped, the first for src1, of which R501 gives no
order: DESIGN CHOICE (log 71). -/
def aluBody (op : AluOp) (x : AluArgs) (pc : Word) : M Unit := do
  let t ← me
  check t (rd x.a :: (srcUses x.b ++ [wr x.d]))
  dspCheck t
  let a ← readReg t pc x.a
  let b ← readSrc t pc x.b
  let r := aluResult op a b
  writeReg t x.d r.1
  if x.s then update fun s => s.capture t r.2

/-- TST and CMP: the flags of an operation and no result (R509, R510). -/
def testBody (op : AluOp) (x : TestArgs) (pc : Word) : M Unit := do
  let t ← me
  check t (rd x.a :: srcUses x.b)
  dspCheck t
  let a ← readReg t pc x.a
  let b ← readSrc t pc x.b
  update fun s => s.capture t (aluResult op a b).2

/-- The address unit result (R511). -/
def auResult (op : AuOp) (a b : Word) : Word :=
  match op with
  | .add => a + b
  | .sub => a - b

/-- ADD and SUB of an address unit: no flags (R511). -/
def auBody (op : AuOp) (x : AuArgs) (pc : Word) : M Unit := do
  let t ← me
  check t (auSrcUses x.a ++ (auSrcUses x.b ++ [wr x.d]))
  dspCheck t
  let a ← readAuSrc t pc x.a
  let b ← readAuSrc t pc x.b
  writeReg t x.d (auResult op a b)

/-- ADD (R505). -/
def execAdd (x : AluArgs) (s : State) : Host.Outcome State Fault Refusal := issue x.cc (aluBody .add x) s

/-- SUB (R505). -/
def execSub (x : AluArgs) (s : State) : Host.Outcome State Fault Refusal := issue x.cc (aluBody .sub x) s

/-- AND (R506). -/
def execAnd (x : AluArgs) (s : State) : Host.Outcome State Fault Refusal := issue x.cc (aluBody .and x) s

/-- OR (R506). -/
def execOr (x : AluArgs) (s : State) : Host.Outcome State Fault Refusal := issue x.cc (aluBody .or x) s

/-- XOR (R506). -/
def execXor (x : AluArgs) (s : State) : Host.Outcome State Fault Refusal := issue x.cc (aluBody .xor x) s

/-- LSL (R507). -/
def execLsl (x : AluArgs) (s : State) : Host.Outcome State Fault Refusal := issue x.cc (aluBody .lsl x) s

/-- LSR (R507). -/
def execLsr (x : AluArgs) (s : State) : Host.Outcome State Fault Refusal := issue x.cc (aluBody .lsr x) s

/-- ASR (R507). -/
def execAsr (x : AluArgs) (s : State) : Host.Outcome State Fault Refusal := issue x.cc (aluBody .asr x) s

/-- MULW (R508). -/
def execMulw (x : AluArgs) (s : State) : Host.Outcome State Fault Refusal := issue x.cc (aluBody .mulw x) s

/-- MULD (R508). -/
def execMuld (x : AluArgs) (s : State) : Host.Outcome State Fault Refusal := issue x.cc (aluBody .muld x) s

/-- TST (R509). -/
def execTst (x : TestArgs) (s : State) : Host.Outcome State Fault Refusal := issue x.cc (testBody .and x) s

/-- CMP (R510). -/
def execCmp (x : TestArgs) (s : State) : Host.Outcome State Fault Refusal := issue x.cc (testBody .sub x) s

/-- ADD of an address unit (R511). -/
def execAuAdd (x : AuArgs) (s : State) : Host.Outcome State Fault Refusal := issue x.cc (auBody .add x) s

/-- SUB of an address unit (R511). -/
def execAuSub (x : AuArgs) (s : State) : Host.Outcome State Fault Refusal := issue x.cc (auBody .sub x) s

end Sys2Proof.Machine
end

