-- ==== Sys2Proof/Machine/CacheInstr.lean ====
section
/-! DEFINITION. CACHERL, DCACHE, CACHEW and ICACHE (43_sync_system.md R575 to R578, 21_mmu_cache.md R341, R364). -/

namespace Sys2Proof.Machine

/-- The result of CACHERL for a valid mapping (R341). -/
def cacherlMapped (e : Word) (pageBytes : Nat) (pa : Word) : DWord :=
  let mask : BitVec 12 := bitsOf (BitVec.ofNat 32 (0x100000000 - pageBytes)) 12 12
  let hi : Word := 0#16 ++ mask ++ 1#4
  let lo : Word := bitsOf pa 12 20 ++ bitsOf e 0 12
  joinWords hi lo

/-- The result of CACHERL without one: VALID 0 and FIRST; every other bit is open (R341). -/
def cacherlInvalid (first : Bool) (free : DWord) : DWord :=
  (free &&& ~~~5#64) ||| (if first then 4#64 else 0#64)

/-- The 64-bit value of a CACHERL (R341); outside the translated ranges or the active mode it is open (U20). -/
def cacherlValue (t : Tid) (side : CacheSide) (la : Word) : M DWord := do
  let a ← view fun s => s.accOf t
  let active ← view fun s => s.mmuMode side == .active
  if active && (regionOf la == .local || regionOf la == .global) then
    match ← walk a side la with
    | .firstInvalid =>
      let f ← drawFree
      return cacherlInvalid true f
    | .secondInvalid =>
      let f ← drawFree
      return cacherlInvalid false f
    | .mapped e ps pa => return cacherlMapped e ps pa
  else drawFree

/-- The physical address of a linear address for a maintenance operation of one side, permissions aside, and whether the global
partition holds it; none is an address without a translation (U22). -/
def lineAddress (t : Tid) (side : CacheSide) (la : Word) : M (Option (Word × Bool)) := do
  let a ← view fun s => s.accOf t
  let k : Kind := if side = .data then .read else .fetch
  let mode ← view fun s => s.mmuMode side
  match regionOf la with
  | .directMap =>
    if rowState .directMap mode = .live then
      match ← translate { a with priv := true } la k with
      | .ok x => return some (x.pa, false)
      | .error _ => return none
    else return none
  | .local | .global =>
    let glob := regionOf la == .global
    if mode = .active then
      match ← walk a side la with
      | .mapped _ _ pa => return some (pa, glob)
      | .firstInvalid | .secondInvalid => return none
    else
      match ← translate a la k with
      | .ok x => return some (x.pa, glob)
      | .error _ => return none
  | .mmuTable =>
    if rowState .mmuTable mode = .live then
      match ← view fun s => s.tableAt la with
      | some x => return some (x.pa, x.glob)
      | none => return none
    else return none
  | _ => return none

/-- The line of an address removed from the thread's partition of one side (R364). -/
def dropLinear (t : Tid) (side : CacheSide) (la : Word) : M Bool := do
  match ← lineAddress t side la with
  | none => return false
  | some (pa, glob) =>
    update fun s => s.invalidateLine side (s.partOf t glob) (lineOf pa)
    return true

/-- CACHERL (R575). Invalidations take effect at once in this model, so the wait is empty. -/
def cacherlBody (side : CacheSide) (ra rb b : Reg) (_ : Word) : M Unit := do
  let t ← me
  check t [wr ra, wr rb, rd b]
  let la ← view fun s => s.reg t b
  let r ← cacherlValue t side la
  update fun s => (s.setReg t ra (loWord r)).setReg t rb (hiWord r)

/-- DCACHE (R576). -/
def dcacheBody (b : Reg) (_ : Word) : M Unit := do
  let t ← me
  check t [rd b]
  let la ← view fun s => s.reg t b
  let _ ← dropLinear t .data la

/-- CACHEW (R577). Without a translation on a side that side keeps its state (U22). -/
def cachewBody (b r : Reg) (_ : Word) : M Unit := do
  let t ← me
  check t [rd b, rd r]
  let la ← view fun s => s.reg t b
  let d ← dropLinear t .data la
  let i ← dropLinear t .instruction la
  if d || i then update fun s => s.dropTlb t la

/-- One line of an ICACHE: a cacheable line whose fetch-side translation succeeds is requested (R578). -/
def preloadLine (t : Tid) (la : Word) : M Unit := do
  let a ← view fun s => s.accOf t
  let live ← view fun s => rowState (regionOf la) (s.mmuMode .instruction) == .live
  match regionOf la with
  | .directMap | .local | .global =>
    if live then
      match ← translate a la .fetch with
      | .error _ => return ()
      | .ok x =>
        if x.win != 0#2 then
          update fun s => s.modH t fun h => { h with ipf := h.ipf ++ [⟨lineOf x.pa, x.glob, true⟩] }
  | _ => return ()

/-- The lines of an ICACHE, one after another. -/
def preloadLines (t : Tid) (la : Word) : Nat → M Unit
  | 0 => pure ()
  | n + 1 => do
    preloadLine t la
    preloadLines t (la + 64#32) n

/-- ICACHE (R578). -/
def icacheBody (base : AuSrc) (off : Word) (lines : Nat) (pc : Word) : M Unit := do
  let t ← me
  check t (auSrcUses base)
  let b ← readAuSrc t pc base
  preloadLines t (alignDown (b + off) 64) lines

/-- CACHERL (R575). -/
def execCacherl (side : CacheSide) (ra rb b : Reg) (s : State) : Host.Outcome State Fault Refusal :=
  issue .al (cacherlBody side ra rb b) s

/-- DCACHE (R576). -/
def execDcache (b : Reg) (s : State) : Host.Outcome State Fault Refusal := issue .al (dcacheBody b) s

/-- CACHEW (R577). -/
def execCachew (b r : Reg) (s : State) : Host.Outcome State Fault Refusal := issue .al (cachewBody b r) s

/-- ICACHE (R578). -/
def execIcache (base : AuSrc) (off : Word) (lines : Nat) (s : State) : Host.Outcome State Fault Refusal :=
  issue .al (icacheBody base off lines) s

end Sys2Proof.Machine
end

