-- ==== Sys2Proof/Machine/Control.lean ====
section
/-! DEFINITION. Branches, calls, jumps, RTI, SWITCH and NOP (42_control_flow.md). -/

namespace Sys2Proof.Machine

/-- The target of a branch: a signed word offset from the branch (R530). -/
def branchTarget (pc : Word) (imm : BitVec 19) : Word := pc + (imm.signExtend 32 <<< 2)

/-- Bcc taken (R530). -/
def bccBody (imm : BitVec 19) (pc : Word) : M Unit := do
  let t ← me
  update fun s => s.jump t (branchTarget pc imm)

/-- CALLR Ud.d, target (R531): the return address is written to a register of any unit, then the jump is made, also where the write is a
read issue whose access is caught (60_exceptions.md R643). -/
def callrBody (d : Reg) (imm : Word) (pc : Word) : M Unit := do
  let t ← me
  check t [wr d]
  afterwards (writeReg t d (pc + 4#32)) (update fun s => s.jump t (pc + (imm <<< 2)))

/-- JUMP Ub.b, #off (R532). -/
def jumpBody (b : Reg) (off : Word) (pc : Word) : M Unit := do
  let t ← me
  check t [rd b]
  let v ← readReg t pc b
  update fun s => s.jump t (v + off)

/-- CALL Ud.d, Ub.b, #off (R532), in the rule's order: the return address is written, then the base is read, so a base that is the link
register holds the return address. -/
def callBody (d b : Reg) (off : Word) (pc : Word) : M Unit := do
  let t ← me
  check t [wr d, rd b]
  afterwards (writeReg t d (pc + 4#32)) (do
    let v ← readReg t pc b
    update fun s => s.jump t (v + off))

/-- RTI (R537): the return, the replay of a caught transfer, and LINK cleared after it. -/
def rtiBody (pc : Word) : M Unit := do
  let t ← me
  let irq ← view fun s => s.istat t
  let caught ← view fun s => s.cbMarker t
  update fun s => s.returnFromInterrupt t (pc + 4#32)
  if irq && caught then replayNow t
  if irq then update fun s => s.modH t fun h => { h with link := false }

/-- NOP (30_encoding.md R428): PC advances. -/
def nopBody (_ : Word) : M Unit := pure ()

/-- NOP (R428). -/
def execNop (s : State) : Host.Outcome State Fault Refusal := issue .al nopBody s

/-- Bcc (R530). -/
def execBcc (c : Cond) (imm : BitVec 19) (s : State) : Host.Outcome State Fault Refusal := issue c (bccBody imm) s

/-- CALLR (R531). -/
def execCallr (d : Reg) (imm : Word) (s : State) : Host.Outcome State Fault Refusal := issue .al (callrBody d imm) s

/-- JUMP (R532). -/
def execJump (b : Reg) (off : Word) (s : State) : Host.Outcome State Fault Refusal := issue .al (jumpBody b off) s

/-- CALL (R532). -/
def execCall (d b : Reg) (off : Word) (s : State) : Host.Outcome State Fault Refusal := issue .al (callBody d b off) s

/-- SWITCH (R538): PC has advanced and the trap is taken. -/
def execSwitch (c : Cond) (_ : BitVec 24) (s : State) : Host.Outcome State Fault Refusal :=
  issue c (fun _ => raiseLate .switch) s

/-- RTI (R537). -/
def execRti (s : State) : Host.Outcome State Fault Refusal := issue .al rtiBody s

/-- A hardware loop (R536): the spec refuses it. -/
def execHardwareLoop (_ : State) : Host.Outcome State Fault Refusal := .refused .hardwareLoop

end Sys2Proof.Machine
end

