-- ==== Sys2Proof/Machine/Coproc.lean ====
section
/-! DEFINITION. The coprocessor ports (40_data_movement.md R476, 61_privilege_platform.md R749). -/

namespace Sys2Proof.Machine

/-- The port exists and the thread may use it: an absent port is an unknown instruction (U1, log 50); CPpPriv is bit 24 + p
of TXPRIVEXT (10_state.md R57). -/
def portCheck (t : Tid) (ports : Config → Nat) (p : Fin 8) (l : List Use) : M Unit := do
  if !(← view fun s => decide (p.val < ports s.cfg)) then raise .unknownInstruction
  check t l
  if ← view fun s => s.privExt t (24 + p.val) && !s.priv t then raise .privilegeViolation

/-- The register or pair of a coprocessor transfer. -/
def coprocRegs (ra : Reg) (rb : Option Reg) : List Reg :=
  match rb with
  | none => [ra]
  | some r => [ra, r]

/-- The registers of a coprocessor read written: a register takes bits 31:0, a pair all 64, DESIGN CHOICE (log 70). -/
def State.setCoproc (s : State) (t : Tid) (ra : Reg) (rb : Option Reg) (v : DWord) : State :=
  match rb with
  | none => s.setReg t ra (loWord v)
  | some r => (s.setReg t ra (loWord v)).setReg t r (hiWord v)

/-- The value of a coprocessor write: a register zero extended, or a pair, DESIGN CHOICE (log 70). -/
def State.coprocValue (s : State) (t : Tid) (ra : Reg) (rb : Option Reg) : DWord :=
  match rb with
  | none => (s.reg t ra).setWidth 64
  | some r => joinWords (s.reg t r) (s.reg t ra)

/-- Read port p: block until it holds data (R476). -/
def coprocReadBody (p : Fin 8) (ra : Reg) (rb : Option Reg) : M Unit := do
  let t ← me
  portCheck t Config.coprocReadPorts p ((coprocRegs ra rb).map wr)
  match ← view fun s => s.env.cpr[p.val] with
  | [] => block
  | v :: l => update fun s => (s.modEnv fun e => { e with cpr := e.cpr.set p.val l p.isLt }).setCoproc t ra rb v

/-- Write port p: block until the coprocessor can accept (R476). -/
def coprocWriteBody (p : Fin 8) (ra : Reg) (rb : Option Reg) : M Unit := do
  let t ← me
  portCheck t Config.coprocWritePorts p ((coprocRegs ra rb).map rd)
  if ← view fun s => s.env.cpwReady[p.val] then update fun s => s.emit (.coproc p (s.coprocValue t ra rb))
  else block

/-- Coprocessor read (R476). -/
def execCoprocRead (p : Fin 8) (ra : Reg) (rb : Option Reg) (s : State) : Host.Outcome State Fault Refusal :=
  issue .al (fun _ => coprocReadBody p ra rb) s

/-- Coprocessor write (R476). -/
def execCoprocWrite (p : Fin 8) (ra : Reg) (rb : Option Reg) (s : State) : Host.Outcome State Fault Refusal :=
  issue .al (fun _ => coprocWriteBody p ra rb) s

end Sys2Proof.Machine
end

