-- ==== Sys2Proof/Machine/LoadStore.lean ====
section
/-! DEFINITION. Loads, stores and the multiple transfers (40_data_movement.md R464 to R470). -/

namespace Sys2Proof.Machine

/-- A load of one register (R466). -/
def loadBody (w : Width) (x : MemArgs) (_ : Word) : M Unit := do
  let t ← me
  check t (wr x.r :: modeUses x.mem)
  let la ← view fun s => s.address t x.mem
  let nb ← view fun s => s.newBase t x.mem
  afterwards (loadReg t w la x.r) (updateBase t x.mem nb)

/-- A load of a pair (R464, R466). -/
def loadPairBody (x : PairArgs) (_ : Word) : M Unit := do
  let t ← me
  check t (wr x.ra :: wr x.rb :: modeUses x.mem)
  let la ← view fun s => s.address t x.mem
  let nb ← view fun s => s.newBase t x.mem
  afterwards (loadPair t la x.ra x.rb) (updateBase t x.mem nb)

/-- A store of one register (R467). -/
def storeBody (w : Width) (x : MemArgs) (pc : Word) : M Unit := do
  let t ← me
  check t (rd x.r :: modeUses x.mem)
  let la ← view fun s => s.address t x.mem
  let nb ← view fun s => s.newBase t x.mem
  let v ← readReg t pc x.r
  afterwards (storeValue t w la (v.setWidth 64)) (updateBase t x.mem nb)

/-- A store of a pair (R464, R467). -/
def storePairBody (x : PairArgs) (_ : Word) : M Unit := do
  let t ← me
  check t (rd x.ra :: rd x.rb :: modeUses x.mem)
  let la ← view fun s => s.address t x.mem
  let nb ← view fun s => s.newBase t x.mem
  let v ← view fun s => joinWords (s.reg t x.rb) (s.reg t x.ra)
  afterwards (storeValue t .lword la v) (updateBase t x.mem nb)

/-- The end of one step of a multiple transfer (R469): the base advances; the last step clears LSM_STEP and leaves the instruction,
an earlier one advances LSM_STEP and stays. -/
def State.lsmAdvance (s : State) (t : Tid) (base : Reg) (v : Word) (i k : Nat) (pc : Word) : State :=
  let s := s.setReg t base v
  if i + 1 = k then s.setStatus t (withBits (s.status t) 8 3 0#3)
  else (s.setStatus t (withBits (s.status t) 8 3 (BitVec.ofNat 3 (i + 1)))).setPc t pc

/-- One issue of a multiple transfer of `n`-byte items (R469). -/
def multiple {α : Type} (t : Tid) (pc : Word) (base : Reg) (l : List α) (n : Nat) (move : α → Word → M Unit) : M Unit := do
  let i ← view fun s => (s.lsmStep t).toNat
  match l[i]? with
  | none => refuse .lsmStep
  | some x =>
    let la ← view fun s => s.reg t base
    afterwards (move x la) (update fun s => s.lsmAdvance t base (la + BitVec.ofNat 32 n) i l.length pc)

/-- MGETD (R469). -/
def mgetdBody (base : Reg) (l : List Reg) (pc : Word) : M Unit := do
  let t ← me
  check t (wr base :: l.map wr)
  multiple t pc base l 4 fun r la => loadReg t .dword la r

/-- MGETL (R469). -/
def mgetlBody (base : Reg) (l : List (Reg × Reg)) (pc : Word) : M Unit := do
  let t ← me
  check t (wr base :: l.flatMap fun p => [wr p.1, wr p.2])
  multiple t pc base l 8 fun p la => loadPair t la p.1 p.2

/-- MSETD (R469). -/
def msetdBody (base : Reg) (l : List Reg) (pc : Word) : M Unit := do
  let t ← me
  check t (wr base :: l.map rd)
  multiple t pc base l 4 fun r la => do
    let v ← view fun s => s.reg t r
    storeValue t .dword la (v.setWidth 64)

/-- MSETL (R469). -/
def msetlBody (base : Reg) (l : List (Reg × Reg)) (pc : Word) : M Unit := do
  let t ← me
  check t (wr base :: l.flatMap fun p => [rd p.1, rd p.2])
  multiple t pc base l 8 fun p la => do
    let v ← view fun s => joinWords (s.reg t p.2) (s.reg t p.1)
    storeValue t .lword la v

/-- GETB (R466). -/
def execGetb (x : MemArgs) (s : State) : Host.Outcome State Fault Refusal := issue x.cc (loadBody .byte x) s

/-- GETW (R466). -/
def execGetw (x : MemArgs) (s : State) : Host.Outcome State Fault Refusal := issue x.cc (loadBody .word x) s

/-- GETD (R466). -/
def execGetd (x : MemArgs) (s : State) : Host.Outcome State Fault Refusal := issue x.cc (loadBody .dword x) s

/-- GETL (R464, R466). -/
def execGetl (x : PairArgs) (s : State) : Host.Outcome State Fault Refusal := issue x.cc (loadPairBody x) s

/-- SETB (R467). -/
def execSetb (x : MemArgs) (s : State) : Host.Outcome State Fault Refusal := issue x.cc (storeBody .byte x) s

/-- SETW (R467). -/
def execSetw (x : MemArgs) (s : State) : Host.Outcome State Fault Refusal := issue x.cc (storeBody .word x) s

/-- SETD (R467). -/
def execSetd (x : MemArgs) (s : State) : Host.Outcome State Fault Refusal := issue x.cc (storeBody .dword x) s

/-- SETL (R464, R467). -/
def execSetl (x : PairArgs) (s : State) : Host.Outcome State Fault Refusal := issue x.cc (storePairBody x) s

/-- MGETD (R469). -/
def execMgetd (base : Reg) (l : List Reg) (s : State) : Host.Outcome State Fault Refusal :=
  issue .al (mgetdBody base l) s

/-- MGETL (R469). -/
def execMgetl (base : Reg) (l : List (Reg × Reg)) (s : State) : Host.Outcome State Fault Refusal :=
  issue .al (mgetlBody base l) s

/-- MSETD (R469). -/
def execMsetd (base : Reg) (l : List Reg) (s : State) : Host.Outcome State Fault Refusal :=
  issue .al (msetdBody base l) s

/-- MSETL (R469). -/
def execMsetl (base : Reg) (l : List (Reg × Reg)) (s : State) : Host.Outcome State Fault Refusal :=
  issue .al (msetlBody base l) s

/-- The memory-to-memory transfer (R470): the spec refuses it. -/
def execMemToMem (_ : State) : Host.Outcome State Fault Refusal := .refused .memoryToMemoryTransfer

end Sys2Proof.Machine
end

