-- ==== Sys2Proof/Machine/Move.lean ====
section
/-! DEFINITION. Moves between units, SWAP, MOV immediate, the read address ports, RD and XFR (40_data_movement.md R461 to R465, R471 to R475). -/

namespace Sys2Proof.Machine

/-- `Ud.d <- Us.s` (R461). -/
def moveBody (d s : Reg) (pc : Word) : M Unit := do
  let t ← me
  check t [rd s, wr d]
  let v ← readReg t pc s
  writeReg t d v

/-- The register operand that names an output port (30_encoding.md R426). -/
def portReg (p : ReadPort) : Reg := ⟨.port, p.num⟩

/-- A read address moved to a port (R471, R473, R474). -/
def issueBody (p : ReadPort) (s : Reg) (pc : Word) : M Unit := do
  let t ← me
  check t [rd s, wr (portReg p)]
  let v ← readReg t pc s
  writePort t p v

/-- The units SWAP does not exchange among themselves (R465). -/
def UnitId.isSpecialist : UnitId → Bool
  | .ct | .pc | .tr | .tt => true
  | .d0 | .d1 | .a0 | .a1 | .port | .fx => false

/-- SWAP (R465): both operands are read and written. Two specialist units are an InstructionViolation before any read; only the traps of
their presence and privilege come before it (R460 step 4). -/
def swapBody (a b : Reg) (pc : Word) : M Unit := do
  let t ← me
  let uses := [rd a, wr a, rd b, wr b]
  if UnitId.isSpecialist a.unit && UnitId.isSpecialist b.unit then
    match ← view fun s => s.operandTrap t uses with
    | some e => raise e
    | none => raise .instructionViolation
  check t uses
  let x ← readReg t pc a
  let y ← readReg t pc b
  writeReg t a y
  writeReg t b x

/-- The registers a read of RD writes. -/
def rdRegs : RdDest → List Reg
  | .one d => [d]
  | .pair ra rb => [ra, rb]

/-- MOV Ud.d, RD (R472): the port RD is register 0 of the port unit. One register takes bits 31:0 of the oldest entry, a pair all 64, the
low word in the register named first (R464). -/
def movRdBody (d : RdDest) (pc : Word) : M Unit :=
  match d with
  | .one d => moveBody d ⟨.port, 0#5⟩ pc
  | .pair ra rb => do
    let t ← me
    check t [rd ⟨.port, 0#5⟩, wr ra, wr rb]
    let v ← popRead t
    update fun s => (s.setReg t ra (loWord v)).setReg t rb (hiWord v)

/-- MOV Ud.d, #imm (R463). -/
def movImmBody (d : Reg) (imm : Word) (_ : Word) : M Unit := do
  let t ← me
  check t [wr d]
  writeReg t d imm

/-- MOV Ud.d, Us.s (R461, R462, R477). -/
def execMov (c : Cond) (d s : Reg) (st : State) : Host.Outcome State Fault Refusal := issue c (moveBody d s) st

/-- MOV Ud.d, RD (R472). -/
def execMovRd (c : Cond) (d : RdDest) (st : State) : Host.Outcome State Fault Refusal := issue c (movRdBody d) st

/-- MOV PC, Us.s (42_control_flow.md R533). -/
def execMovPc (c : Cond) (s : Reg) (st : State) : Host.Outcome State Fault Refusal :=
  issue c (moveBody ⟨.pc, 0#5⟩ s) st

/-- MOV Ud.d, #imm (R463). -/
def execMovImm (c : Cond) (d : Reg) (imm : Word) (st : State) : Host.Outcome State Fault Refusal :=
  issue c (movImmBody d imm) st

/-- SWAP Ua.a, Ub.b (R465). -/
def execSwap (c : Cond) (a b : Reg) (st : State) : Host.Outcome State Fault Refusal := issue c (swapBody a b) st

/-- MOV RA, Us.s (R471). -/
def execMovRa (c : Cond) (s : Reg) (st : State) : Host.Outcome State Fault Refusal := issue c (issueBody .ra s) st

/-- MOV RAPF, Us.s (R474). -/
def execMovRapf (c : Cond) (s : Reg) (st : State) : Host.Outcome State Fault Refusal := issue c (issueBody .rapf s) st

/-- MOV RABZ, Us.s (R473). -/
def execMovRabz (c : Cond) (s : Reg) (st : State) : Host.Outcome State Fault Refusal := issue c (issueBody .rabz s) st

/-- MOV RAWZ, Us.s (R473). -/
def execMovRawz (c : Cond) (s : Reg) (st : State) : Host.Outcome State Fault Refusal := issue c (issueBody .rawz s) st

/-- MOV RADZ, Us.s (R473). -/
def execMovRadz (c : Cond) (s : Reg) (st : State) : Host.Outcome State Fault Refusal := issue c (issueBody .radz s) st

/-- MOV RABX, Us.s (R473). -/
def execMovRabx (c : Cond) (s : Reg) (st : State) : Host.Outcome State Fault Refusal := issue c (issueBody .rabx s) st

/-- MOV RAWX, Us.s (R473). -/
def execMovRawx (c : Cond) (s : Reg) (st : State) : Host.Outcome State Fault Refusal := issue c (issueBody .rawx s) st

/-- MOV RADX, Us.s (R473). -/
def execMovRadx (c : Cond) (s : Reg) (st : State) : Host.Outcome State Fault Refusal := issue c (issueBody .radx s) st

/-- MOV RAM8X, Us.s (R473): absent without the DSP extensions (U1), refused with them. -/
def execMovRam8x (c : Cond) (s : Reg) (st : State) : Host.Outcome State Fault Refusal := issue c (issueBody .ram8x s) st

/-- MOV RAM16X, Us.s (R473): as RAM8X. -/
def execMovRam16x (c : Cond) (s : Reg) (st : State) : Host.Outcome State Fault Refusal :=
  issue c (issueBody .ram16x s) st

/-- MOV RAM8X32, Us.s (R473): as RAM8X. -/
def execMovRam8x32 (c : Cond) (s : Reg) (st : State) : Host.Outcome State Fault Refusal :=
  issue c (issueBody .ram8x32 s) st

/-- XFR (R475): the spec refuses it. -/
def execXfr (_ : State) : Host.Outcome State Fault Refusal := .refused .xfr

end Sys2Proof.Machine
end

