-- ==== Sys2Proof/Machine/Repeat.lean ====
section
/-! DEFINITION. Repeating instructions (42_control_flow.md R535): one iteration of any instruction, and the count in TXRPT. -/

namespace Sys2Proof.Machine

/-- The condition of an instruction and its effects once issued: one iteration of its repeating form. A repeat bit on a repeat adds
nothing. A SWITCH that repeats leaves TXRPT and PC as they were, as R535 says of every exception but a data fault. -/
def iteration : Instr → Cond × (Word → M Unit)
  | .lock0 => (.al, lock0Body)
  | .lock1 => (.al, lock1Body)
  | .lock2 => (.al, lock2Body)
  | .rti => (.al, rtiBody)
  | .nop => (.al, nopBody)
  | .switch c _ => (c, fun _ => raise .switch)
  | .bcc c imm => (c, bccBody imm)
  | .mov c d r => (c, moveBody d r)
  | .swap c a b => (c, swapBody a b)
  | .movImm c d imm => (c, movImmBody d imm)
  | .getb x => (x.cc, loadBody .byte x)
  | .getw x => (x.cc, loadBody .word x)
  | .getd x => (x.cc, loadBody .dword x)
  | .getl x => (x.cc, loadPairBody x)
  | .setb x => (x.cc, storeBody .byte x)
  | .setw x => (x.cc, storeBody .word x)
  | .setd x => (x.cc, storeBody .dword x)
  | .setl x => (x.cc, storePairBody x)
  | .mgetd b l => (.al, mgetdBody b l)
  | .mgetl b l => (.al, mgetlBody b l)
  | .msetd b l => (.al, msetdBody b l)
  | .msetl b l => (.al, msetlBody b l)
  | .memToMem => (.al, fun _ => refuse .memoryToMemoryTransfer)
  | .movRa c r => (c, issueBody .ra r)
  | .movRapf c r => (c, issueBody .rapf r)
  | .movRabz c r => (c, issueBody .rabz r)
  | .movRawz c r => (c, issueBody .rawz r)
  | .movRadz c r => (c, issueBody .radz r)
  | .movRabx c r => (c, issueBody .rabx r)
  | .movRawx c r => (c, issueBody .rawx r)
  | .movRadx c r => (c, issueBody .radx r)
  | .movRam8x c r => (c, issueBody .ram8x r)
  | .movRam16x c r => (c, issueBody .ram16x r)
  | .movRam8x32 c r => (c, issueBody .ram8x32 r)
  | .movRd c d => (c, movRdBody d)
  | .xfr => (.al, fun _ => refuse .xfr)
  | .coprocRead p ra rb => (.al, fun _ => coprocReadBody p ra rb)
  | .coprocWrite p ra rb => (.al, fun _ => coprocWriteBody p ra rb)
  | .add x => (x.cc, aluBody .add x)
  | .sub x => (x.cc, aluBody .sub x)
  | .and x => (x.cc, aluBody .and x)
  | .or x => (x.cc, aluBody .or x)
  | .xor x => (x.cc, aluBody .xor x)
  | .lsl x => (x.cc, aluBody .lsl x)
  | .lsr x => (x.cc, aluBody .lsr x)
  | .asr x => (x.cc, aluBody .asr x)
  | .mulw x => (x.cc, aluBody .mulw x)
  | .muld x => (x.cc, aluBody .muld x)
  | .tst x => (x.cc, testBody .and x)
  | .cmp x => (x.cc, testBody .sub x)
  | .auAdd x => (x.cc, auBody .add x)
  | .auSub x => (x.cc, auBody .sub x)
  | .callr d imm => (.al, callrBody d imm)
  | .jump b off => (.al, jumpBody b off)
  | .call d b off => (.al, callBody d b off)
  | .movPc c r => (c, moveBody ⟨.pc, 0#5⟩ r)
  | .repeatForm i => iteration i
  | .hardwareLoop => (.al, fun _ => refuse .hardwareLoop)
  | .lnkgetd d b => (.al, lnkgetdBody d b)
  | .lnkgetl ra rb b => (.al, lnkgetlBody ra rb b)
  | .lnksetd c b r => (c, lnksetdBody b r)
  | .lnksetl c b ra rb => (c, lnksetlBody b ra rb)
  | .defrTxstat d => (.al, fun _ => defrBody .background true d)
  | .defrTxpoll d => (.al, fun _ => defrBody .background false d)
  | .defrTxstati d => (.al, fun _ => defrBody .interrupt true d)
  | .defrTxpolli d => (.al, fun _ => defrBody .interrupt false d)
  | .cacherl side ra rb b => (.al, cacherlBody side ra rb b)
  | .dcache b => (.al, dcacheBody b)
  | .cachew b r => (.al, cachewBody b r)
  | .icache base off lines => (.al, icacheBody base off lines)

/-- A multiple transfer, whose one iteration takes several issues (40_data_movement.md R469). -/
def isMultiple : Instr → Bool
  | .mgetd _ _ | .mgetl _ _ | .msetd _ _ | .msetl _ _ => true
  | _ => false

/-- The end of one issue (R535): an iteration is done, and while TXRPT is not 0 it counts down and PC stays at the instruction. The
iteration of a multiple transfer is done with its last step, which leaves LSM_STEP at 0. -/
def State.repAdvance (s : State) (t : Tid) (multiple : Bool) (pc : Word) : State :=
  if (s.th t).ct.txrpt = 0#32 ∨ (multiple && s.lsmStep t != 0#3) then s
  else (s.modCt t fun c => { c with txrpt := c.txrpt - 1#32 }).setPc t pc

/-- A repeating branch (R535): taken while TXRPT is not 0, which it counts down. -/
def State.repBranch (s : State) (t : Tid) (target : Word) : State :=
  if (s.th t).ct.txrpt = 0#32 then s
  else (s.modCt t fun c => { c with txrpt := c.txrpt - 1#32 }).jump t target

/-- One issue of the repeating form of an instruction (R535). -/
def repBody (i : Instr) (pc : Word) : M Unit := do
  let t ← me
  match i with
  | .bcc _ imm => update fun s => s.repBranch t (branchTarget pc imm)
  | i => afterwards ((iteration i).2 pc) (update fun s => s.repAdvance t (isMultiple i) pc)

/-- A repeating form (R535). -/
def execRepeatForm (i : Instr) (s : State) : Host.Outcome State Fault Refusal := issue (iteration i).1 (repBody i) s

end Sys2Proof.Machine
end

