-- ==== Sys2Proof/Machine/Dispatch.lean ====
section
/-! DEFINITION. The one dispatch from an instruction to its meaning. -/

namespace Sys2Proof.Machine

/-- The meaning of every instruction of the opcode table. -/
def exec (i : Instr) (s : State) : Host.Outcome State Fault Refusal :=
  match i with
  | .lock0 => Sys2Proof.Machine.execLock0 s
  | .lock1 => Sys2Proof.Machine.execLock1 s
  | .lock2 => Sys2Proof.Machine.execLock2 s
  | .rti => Sys2Proof.Machine.execRti s
  | .nop => Sys2Proof.Machine.execNop s
  | .switch c imm => Sys2Proof.Machine.execSwitch c imm s
  | .bcc c imm => Sys2Proof.Machine.execBcc c imm s
  | .mov c d r => Sys2Proof.Machine.execMov c d r s
  | .swap c a b => Sys2Proof.Machine.execSwap c a b s
  | .movImm c d imm => Sys2Proof.Machine.execMovImm c d imm s
  | .getb x => Sys2Proof.Machine.execGetb x s
  | .getw x => Sys2Proof.Machine.execGetw x s
  | .getd x => Sys2Proof.Machine.execGetd x s
  | .getl x => Sys2Proof.Machine.execGetl x s
  | .setb x => Sys2Proof.Machine.execSetb x s
  | .setw x => Sys2Proof.Machine.execSetw x s
  | .setd x => Sys2Proof.Machine.execSetd x s
  | .setl x => Sys2Proof.Machine.execSetl x s
  | .mgetd b l => Sys2Proof.Machine.execMgetd b l s
  | .mgetl b l => Sys2Proof.Machine.execMgetl b l s
  | .msetd b l => Sys2Proof.Machine.execMsetd b l s
  | .msetl b l => Sys2Proof.Machine.execMsetl b l s
  | .memToMem => Sys2Proof.Machine.execMemToMem s
  | .movRa c r => Sys2Proof.Machine.execMovRa c r s
  | .movRapf c r => Sys2Proof.Machine.execMovRapf c r s
  | .movRabz c r => Sys2Proof.Machine.execMovRabz c r s
  | .movRawz c r => Sys2Proof.Machine.execMovRawz c r s
  | .movRadz c r => Sys2Proof.Machine.execMovRadz c r s
  | .movRabx c r => Sys2Proof.Machine.execMovRabx c r s
  | .movRawx c r => Sys2Proof.Machine.execMovRawx c r s
  | .movRadx c r => Sys2Proof.Machine.execMovRadx c r s
  | .movRam8x c r => Sys2Proof.Machine.execMovRam8x c r s
  | .movRam16x c r => Sys2Proof.Machine.execMovRam16x c r s
  | .movRam8x32 c r => Sys2Proof.Machine.execMovRam8x32 c r s
  | .movRd c d => Sys2Proof.Machine.execMovRd c d s
  | .xfr => Sys2Proof.Machine.execXfr s
  | .coprocRead p ra rb => Sys2Proof.Machine.execCoprocRead p ra rb s
  | .coprocWrite p ra rb => Sys2Proof.Machine.execCoprocWrite p ra rb s
  | .add x => Sys2Proof.Machine.execAdd x s
  | .sub x => Sys2Proof.Machine.execSub x s
  | .and x => Sys2Proof.Machine.execAnd x s
  | .or x => Sys2Proof.Machine.execOr x s
  | .xor x => Sys2Proof.Machine.execXor x s
  | .lsl x => Sys2Proof.Machine.execLsl x s
  | .lsr x => Sys2Proof.Machine.execLsr x s
  | .asr x => Sys2Proof.Machine.execAsr x s
  | .mulw x => Sys2Proof.Machine.execMulw x s
  | .muld x => Sys2Proof.Machine.execMuld x s
  | .tst x => Sys2Proof.Machine.execTst x s
  | .cmp x => Sys2Proof.Machine.execCmp x s
  | .auAdd x => Sys2Proof.Machine.execAuAdd x s
  | .auSub x => Sys2Proof.Machine.execAuSub x s
  | .callr d imm => Sys2Proof.Machine.execCallr d imm s
  | .jump b off => Sys2Proof.Machine.execJump b off s
  | .call d b off => Sys2Proof.Machine.execCall d b off s
  | .movPc c r => Sys2Proof.Machine.execMovPc c r s
  | .repeatForm r => Sys2Proof.Machine.execRepeatForm r s
  | .hardwareLoop => Sys2Proof.Machine.execHardwareLoop s
  | .lnkgetd d b => Sys2Proof.Machine.execLnkgetd d b s
  | .lnkgetl ra rb b => Sys2Proof.Machine.execLnkgetl ra rb b s
  | .lnksetd c b r => Sys2Proof.Machine.execLnksetd c b r s
  | .lnksetl c b ra rb => Sys2Proof.Machine.execLnksetl c b ra rb s
  | .defrTxstat d => Sys2Proof.Machine.execDefrTxstat d s
  | .defrTxpoll d => Sys2Proof.Machine.execDefrTxpoll d s
  | .defrTxstati d => Sys2Proof.Machine.execDefrTxstati d s
  | .defrTxpolli d => Sys2Proof.Machine.execDefrTxpolli d s
  | .cacherl side ra rb b => Sys2Proof.Machine.execCacherl side ra rb b s
  | .dcache b => Sys2Proof.Machine.execDcache b s
  | .cachew b r => Sys2Proof.Machine.execCachew b r s
  | .icache base off lines => Sys2Proof.Machine.execIcache base off lines s

end Sys2Proof.Machine
end

