-- ==== Sys2Proof/Machine/Step.lean ====
section
/-! DEFINITION. One step of the machine: which agent acts, fetch, decode, execute; and how a word is placed where the next step fetches. -/

namespace Sys2Proof.Machine

/-- The thread may take a step: it is not OFF, and no other thread holds LOCK2 or WR-ATOMIC (43_sync_system.md R563,
20_memory.md R271). That WR-ATOMIC without LOCK2 holds up every step of the others, an interrupt entry too, is DESIGN CHOICE (log 88). -/
def State.eligible (s : State) (t : Tid) : Bool :=
  s.present t && (s.th t).h.tstate != .off && freeFor s.shared.lock2 t && freeFor s.shared.atomicOwner t

/-- A fetched word executed: a word that decodes to nothing is an unknown instruction (30_encoding.md R423). -/
def runWord (t : Tid) (w : Word) (s : State) : Host.Outcome State Fault Refusal :=
  match decodeWith s.cfg.isa w with
  | .ok i => exec i s
  | .error _ => .next (s.takeException t .unknownInstruction)

/-- Fetch, decode, execute (40_data_movement.md R460 steps 1 to 9). -/
def fetchRun (t : Tid) (s : State) : Host.Outcome State Fault Refusal :=
  match fetch t (s.pcOf t) s with
  | .ok (.ok w) s' => runWord t w s'
  | .ok (.error e) s' => .next (s'.takeException t e)
  | .error (.refused q) _ => .refused q
  | .error (.exc e) s' => .next (s'.takeException t e)
  | .error (.late e) s' => .next (s'.takeException t e)
  | .error .block _ => .next (s.blocked t)

/-- A step of an eligible thread: the replay of a caught transfer, an interrupt entry in place of an instruction (R460 step 0),
or an instruction. A thread with MinimEnable is refused (30_encoding.md R420). -/
def threadStep (t : Tid) (s : State) : Host.Outcome State Fault Refusal :=
  let s := s.modEnv fun e => { e with cur := t }
  if (s.th t).h.tstate = .cbRestore then replayStep t s
  else if s.interruptDue t then .next (s.interruptEntry t)
  else if s.privExt t 7 then .refused .miniM
  else fetchRun t s

/-- The threads after one, in turn. -/
def threadsAfter (t : Tid) : List Tid := [t + 1, t + 2, t + 3, t]

/-- The action of a step with an empty schedule (log 8): the oldest token, else a pending fill, else a write combiner that holds bytes,
which so drain in the end (70_reset_and_hazards.md R814), else the next eligible thread, else an idle cycle. -/
def State.defaultAction (s : State) : Action :=
  match s.env.tokens with
  | k :: _ => .deliverToken k.tid
  | [] =>
    match (List.finRange 4).find? fun t => (s.th t).h.pf.isSome && !s.engineStalled t with
    | some t => .prefetchFill t
    | none =>
      match (List.finRange 4).find? fun t => !(s.th t).h.ipf.isEmpty && !s.engineStalled t with
      | some t => .icacheFill t
      | none =>
        match (List.finRange 4).find? fun t => !(s.th t).h.wc.isEmpty with
        | some t => .drain t
        | none =>
          match (threadsAfter s.cur).find? s.eligible with
          | some t => .thread t
          | none => .idle 1

/-- The action of the next step and the state that has it taken off the schedule. -/
def State.nextAction (s : State) : Action × State :=
  match s.env.schedule with
  | x :: l => (x, s.modEnv fun e => { e with schedule := l })
  | [] => (s.defaultAction, s)

/-- One action; a thread that is not eligible does nothing. -/
def perform (x : Action) (s : State) : Host.Outcome State Fault Refusal :=
  match x with
  | .thread t => if s.eligible t then threadStep t s else .next s
  | x => .next (s.act x)

/-- One step of the machine. Builds the spec does not describe stop (00_scope.md R5, 21_mmu_cache.md R358). SEG_MMU = 1 is a legal build
whose unit the spec 'never described further': it runs as if the unit were not there, DESIGN CHOICE (log 6). -/
def step (s : State) : Host.Outcome State Fault Refusal :=
  if !configLegal s.cfg then .fault .unsupportedBuild
  else if s.cfg.dcacheWriteBack then .refused .writeBackCache
  else if s.cfg.cacheType ≠ 0#3 then .refused .cacheTypeNotDescribed
  else perform s.nextAction.1 s.nextAction.2

/-- A word stored in the memory a linear address names where no table is in use: core code memory, or the physical address
of the same number. -/
def State.placeWord (s : State) (la w : Word) : State :=
  s.modEnv fun e =>
    if regionOf la = .coreCode then
      { e with coreCode := Memory.writeN e.coreCode (la.toNat - 0x80000000) (w.setWidth 64) 4 }
    else { e with phys := Memory.writeN e.phys la.toNat (w.setWidth 64) 4 }

/-- The thread whose instruction the next step of an empty schedule runs. -/
def State.nextThread (s : State) : Tid := ((threadsAfter s.cur).find? s.eligible).getD s.cur

/-- The instruction of an opcode-table row stored where the next step fetches it (log 7). -/
def State.withFetchWord (s : State) (nbits w : Nat) : State :=
  let t := s.nextThread
  (s.placeWord (alignDown (s.pcOf t) 4) (BitVec.ofNat 32 (w % 2 ^ nbits))).modH t fun h => { h with fetchBuf := [] }

end Sys2Proof.Machine
end

