-- ==== Sys2Proof/Safety.lean ====
section
/-! DEFINITION. What a sound state is, and what an instruction may change: the terms the statements are written in. -/

namespace Sys2Proof.Machine

/-! ### Sound states -/

/-- The three memories have their canonical form. -/
structure Env.Ok (e : Env) : Prop where
  phys     : e.phys.wf = true
  coreCode : e.coreCode.wf = true
  coreData : e.coreData.wf = true

/-- The reserved bits of a thread's registers read as zero (10_state.md R45, R56, R57, R62; 60_exceptions.md R660), a thread that is OFF has
ThreadEnable 0 (10_state.md R41), no intermediate state lasts (R74), and the read pipeline holds at most its depth (R67). -/
structure Thread.Ok (depth : Nat) (x : Thread) : Prop where
  status   : x.ct.txstatus &&& 0xFF00F8E0#32 = 0#32
  privext  : x.ct.txprivext &&& 0x00F0884A#32 = 0#32
  defr     : x.ct.txdefr &&& 0x0040FF40#32 = 0#32
  divtime  : x.ct.txdivtime &&& 0x70C0FF00#32 = 0#32
  mask     : bitOf x.tr.mask 2 = false
  off      : x.h.tstate = .off → x.ct.enabled = false
  steady   : x.h.tstate ≠ .tidyOff ∧ x.h.tstate ≠ .tidyHalt ∧ x.h.tstate ≠ .tidyIrq
  pipeline : x.h.rp.length ≤ depth

/-- The reserved bits of a thread's memory-mapped registers read as zero (11_core_registers.md R132 to R149, R161 to R175). -/
structure ThreadRegs.Ok (m : ThreadRegs) : Prop where
  amaReg4     : m.amaReg4 &&& 0xC0000000#32 = 0#32
  amaReg5     : m.amaReg5 &&& 0x07FFFFFF#32 = 0#32
  amaReg6     : m.amaReg6 &&& 0xE000000F#32 = 0#32
  privCore    : m.privCore &&& 0xFFFFFFF8#32 = 0#32
  privSysr    : m.privSysr &&& 0xFFFFFFE2#32 = 0#32
  wrComb      : m.wrComb &&& 0xFFFFCC00#32 = 0#32
  dcPart      : m.dcPart &&& 0x70F000F0#32 = 0#32
  icPart      : m.icPart &&& 0xF0F0F0F0#32 = 0#32
  ebwcCtrl    : m.ebwcCtrl &&& 0xFFFFFF88#32 = 0#32
  localPhys0  : m.localPhys0 &&& 0x003FF020#32 = 0#32
  localPhys1  : m.localPhys1 &&& 0x00000003#32 = 0#32
  globalPhys0 : m.globalPhys0 &&& 0x003FF020#32 = 0#32
  globalPhys1 : m.globalPhys1 &&& 0x00000003#32 = 0#32

/-- A mode SYSC_CACHE_MMU_CONFIG lists (11_core_registers.md R169). -/
def mmuModeListed (m : BitVec 3) : Bool := m != 1#3 && m != 3#3 && m != 5#3

/-- The reserved bits of the shared core registers read as zero, and the MMU is in a mode that is listed (11_core_registers.md R138 to R180). -/
structure CoreRegs.Ok (c : CoreRegs) : Prop where
  codebAddr   : ∀ m : Fin 4, c.codeb[m.val].addr &&& 0x00000003#32 = 0#32
  codebCtrl   : ∀ m : Fin 4, c.codeb[m.val].ctrl &&& 0x6F000000#32 = 0#32
  datawCtrl   : ∀ m : Fin 2, c.dataw[m.val].ctrl &&& 0x00000004#32 = 0#32
  tablePhys   : c.tablePhys &&& 0x00000002#32 = 0#32
  dcacheCtrl  : c.dcacheCtrl &&& 0xFFFFFFFE#32 = 0#32
  icacheCtrl  : c.icacheCtrl &&& 0xFFFFFFFE#32 = 0#32
  dcacheFlush : c.dcacheFlush &&& 0xFFFFFFFE#32 = 0#32
  icacheFlush : c.icacheFlush &&& 0xFFFFFFFE#32 = 0#32
  mode        : mmuModeListed c.mmuConfig = true
  directMap   : ∀ m : Fin 4, c.directMap[m.val] &&& 0x007F3F20#32 = 0#32
  perfIcore   : ∀ m : Fin 2, c.perf[m.val].icore &&& 0xFFFFFCF0#32 = 0#32
  perfChan    : ∀ m : Fin 2, c.perf[m.val].chan &&& 0xFFFFFCF0#32 = 0#32
  hwstatmeta  : c.hwstatmeta &&& 0xFFFC8888#32 = 0#32
  localEb     : c.localEbCtrl &&& 0xFFFF3F3F#32 = 0#32
  globalEb    : c.globalEbCtrl &&& 0xFFFF3F3F#32 = 0#32

/-- A thread that holds LOCK2 holds LOCK1 (43_sync_system.md R563), and the trigger latches 3:0 do not exist among the hardware
triggers (10_state.md R68). -/
structure Shared.Ok (g : Shared) : Prop where
  locks  : ∀ t, g.lock2 = some t → g.lock1 = some t
  hwtrig : g.hwtrig &&& 0x000F#16 = 0#16

/-- Every thread is sound. -/
def State.threadsOk (s : State) : Prop := ∀ t, (s.th t).Ok s.cfg.readPipelineDepth

/-- Every thread's memory-mapped registers and the shared ones are sound. -/
def State.registersOk (s : State) : Prop := (∀ t, (s.th t).mm.Ok) ∧ s.core.Ok

/-! ### When an instruction runs -/

/-- An instruction with condition `c` is carried out: its condition holds (41_alu.md R504). -/
def State.runs (s : State) (c : Cond) : Prop :=
  splitTest (s.status s.cur) c = false ∧ condHolds (s.status s.cur) c = true

/-- PC of the executing thread at the next instruction (40_data_movement.md R460 step 7). -/
def State.advanced (s : State) : State := s.setPc s.cur (s.pcOf s.cur + 4#32)

/-- The operands are present and the executing thread has the privilege they ask for (R460 step 4). -/
def State.operandsOk (s : State) (l : List Use) : Prop := s.operandStop s.cur l = none

/-- The state with a base register updated by an addressing mode (40_data_movement.md R468). -/
def State.withBase (s : State) (t : Tid) (m : MemMode) (v : Word) : State :=
  match m.update with
  | .none => s
  | .pre | .post => s.setReg t m.base v

/-- The condition an instruction carries; one that carries none always runs. -/
def instrCond : Instr → Cond
  | .lock0 | .lock1 | .lock2 | .rti | .nop | .memToMem | .xfr | .hardwareLoop => .al
  | .switch c _ | .bcc c _ | .mov c _ _ | .movImm c _ _ | .swap c _ _ | .movRd c _ | .movPc c _ => c
  | .getb x | .getw x | .getd x | .setb x | .setw x | .setd x => x.cc
  | .getl x | .setl x => x.cc
  | .mgetd _ _ | .mgetl _ _ | .msetd _ _ | .msetl _ _ => .al
  | .movRa c _ | .movRapf c _ | .movRabz c _ | .movRawz c _ | .movRadz c _ | .movRabx c _ | .movRawx c _ | .movRadx c _
  | .movRam8x c _ | .movRam16x c _ | .movRam8x32 c _ => c
  | .coprocRead _ _ _ | .coprocWrite _ _ _ => .al
  | .add x | .sub x | .and x | .or x | .xor x | .lsl x | .lsr x | .asr x | .mulw x | .muld x => x.cc
  | .tst x | .cmp x => x.cc
  | .auAdd x | .auSub x => x.cc
  | .callr _ _ | .jump _ _ | .call _ _ _ => .al
  | .repeatForm i => instrCond i
  | .lnkgetd _ _ | .lnkgetl _ _ _ => .al
  | .lnksetd c _ _ | .lnksetl c _ _ _ => c
  | .defrTxstat _ | .defrTxpoll _ | .defrTxstati _ | .defrTxpolli _ => .al
  | .cacherl _ _ _ _ | .dcache _ | .cachew _ _ | .icache _ _ _ => .al

/-- The registers of `OPcc{S} Ud.d, src1, src2`. -/
def aluUses (x : AluArgs) : List Use := rd x.a :: (srcUses x.b ++ [wr x.d])

/-- The registers of an address unit operation. -/
def auUses (x : AuArgs) : List Use := auSrcUses x.a ++ (auSrcUses x.b ++ [wr x.d])

/-- The registers an instruction names (R460 step 4). -/
def instrUses : Instr → List Use
  | .lock0 | .lock1 | .lock2 | .rti | .nop | .switch _ _ | .bcc _ _ | .memToMem | .xfr | .hardwareLoop => []
  | .mov _ d s => [rd s, wr d]
  | .movRd _ d => rd ⟨.port, 0#5⟩ :: (rdRegs d).map wr
  | .movPc _ s => [rd s, wr ⟨.pc, 0#5⟩]
  | .movImm _ d _ => [wr d]
  | .swap _ a b => [rd a, wr a, rd b, wr b]
  | .getb x | .getw x | .getd x => wr x.r :: modeUses x.mem
  | .getl x => wr x.ra :: wr x.rb :: modeUses x.mem
  | .setb x | .setw x | .setd x => rd x.r :: modeUses x.mem
  | .setl x => rd x.ra :: rd x.rb :: modeUses x.mem
  | .mgetd b l => wr b :: l.map wr
  | .mgetl b l => wr b :: l.flatMap fun p => [wr p.1, wr p.2]
  | .msetd b l => wr b :: l.map rd
  | .msetl b l => wr b :: l.flatMap fun p => [rd p.1, rd p.2]
  | .movRa _ s => [rd s, wr (portReg .ra)]
  | .movRapf _ s => [rd s, wr (portReg .rapf)]
  | .movRabz _ s => [rd s, wr (portReg .rabz)]
  | .movRawz _ s => [rd s, wr (portReg .rawz)]
  | .movRadz _ s => [rd s, wr (portReg .radz)]
  | .movRabx _ s => [rd s, wr (portReg .rabx)]
  | .movRawx _ s => [rd s, wr (portReg .rawx)]
  | .movRadx _ s => [rd s, wr (portReg .radx)]
  | .movRam8x _ s => [rd s, wr (portReg .ram8x)]
  | .movRam16x _ s => [rd s, wr (portReg .ram16x)]
  | .movRam8x32 _ s => [rd s, wr (portReg .ram8x32)]
  | .coprocRead _ ra rb => (coprocRegs ra rb).map wr
  | .coprocWrite _ ra rb => (coprocRegs ra rb).map rd
  | .add x | .sub x | .and x | .or x | .xor x | .lsl x | .lsr x | .asr x | .mulw x | .muld x => aluUses x
  | .tst x | .cmp x => rd x.a :: srcUses x.b
  | .auAdd x | .auSub x => auUses x
  | .callr d _ => [wr d]
  | .jump b _ => [rd b]
  | .call d b _ => [wr d, rd b]
  | .repeatForm i => instrUses i
  | .lnkgetd d b => [wr d, rd b]
  | .lnkgetl ra rb b => [wr ra, wr rb, rd b]
  | .lnksetd _ b r => [rd b, rd r]
  | .lnksetl _ b ra rb => [rd b, rd ra, rd rb]
  | .defrTxstat d | .defrTxpoll d => [wr d]
  | .defrTxstati d => [wr d, rd ⟨.tr, 2#5⟩]
  | .defrTxpolli d => [wr d, rd ⟨.tr, 6#5⟩]
  | .cacherl _ ra rb b => [wr ra, wr rb, rd b]
  | .dcache b => [rd b]
  | .cachew b r => [rd b, rd r]
  | .icache base _ _ => auSrcUses base

/-- A transfer of a coprocessor port, whose port is looked at before its registers. -/
def isCoproc : Instr → Bool
  | .coprocRead _ _ _ | .coprocWrite _ _ _ => true
  | .repeatForm i => isCoproc i
  | _ => false

/-- A return from interrupt. -/
def isReturn : Instr → Bool
  | .rti => true
  | .repeatForm i => isReturn i
  | _ => false

/-- A SWAP of two of CT, PC, TR and TT, which is a violation before an undescribed operand is looked at (40_data_movement.md R465). -/
def isSpecialSwap : Instr → Bool
  | .swap _ a b => UnitId.isSpecialist a.unit && UnitId.isSpecialist b.unit
  | .repeatForm i => isSpecialSwap i
  | _ => false

/-! ### What an instruction may change -/

/-- The base register an addressing mode updates (40_data_movement.md R468). -/
def modeDests (m : MemMode) : List Reg :=
  match m.update with
  | .none => []
  | .pre | .post => [m.base]

/-- The registers an instruction names as destinations, with the base register its addressing mode or its own rule updates. -/
def instrDests : Instr → List Reg
  | .lock0 | .lock1 | .lock2 | .rti | .nop | .switch _ _ | .bcc _ _ | .memToMem | .xfr | .hardwareLoop => []
  | .mov _ d _ | .movImm _ d _ => [d]
  | .movRd _ d => rdRegs d
  | .swap _ a b => [a, b]
  | .getb x | .getw x | .getd x => x.r :: modeDests x.mem
  | .getl x => x.ra :: x.rb :: modeDests x.mem
  | .setb x | .setw x | .setd x => modeDests x.mem
  | .setl x => modeDests x.mem
  | .mgetd b l => b :: l
  | .mgetl b l => b :: l.flatMap fun p => [p.1, p.2]
  | .msetd b _ => [b]
  | .msetl b _ => [b]
  | .movRa _ _ | .movRapf _ _ | .movRabz _ _ | .movRawz _ _ | .movRadz _ _ | .movRabx _ _ | .movRawx _ _ | .movRadx _ _
  | .movRam8x _ _ | .movRam16x _ _ | .movRam8x32 _ _ | .movPc _ _ => []
  | .coprocRead _ ra rb => coprocRegs ra rb
  | .coprocWrite _ _ _ => []
  | .add x | .sub x | .and x | .or x | .xor x | .lsl x | .lsr x | .asr x | .mulw x | .muld x => [x.d]
  | .tst _ | .cmp _ => []
  | .auAdd x | .auSub x => [x.d]
  | .callr d _ | .call d _ _ => [d]
  | .jump _ _ => []
  | .repeatForm i => instrDests i
  | .lnkgetd d _ => [d]
  | .lnkgetl ra rb _ => [ra, rb]
  | .lnksetd _ _ _ | .lnksetl _ _ _ _ => []
  | .defrTxstat d | .defrTxpoll d | .defrTxstati d | .defrTxpolli d => [d]
  | .cacherl _ ra rb _ => [ra, rb]
  | .dcache _ | .cachew _ _ | .icache _ _ _ => []

/-- The registers the catch state of a load names (60_exceptions.md R656, 10_state.md R52): the one or the two of its ReqLdDest bits. -/
def caughtDests (c : Word) : List Reg :=
  let units : BitVec 11 := bitsOf c 16 11
  let num : BitVec 5 := bitsOf c 27 5
  match pairOfBits units (bitOf c 2), unitOfBit units with
  | some (ua, ub), _ => [⟨ua, num⟩, ⟨ub, num⟩]
  | none, some u => [⟨u, num⟩]
  | none, none => []

/-- The executing thread makes a caught transfer again when it returns from interrupt (42_control_flow.md R537). -/
def State.replays (s : State) : Bool := s.istat s.cur && s.cbMarker s.cur

/-- The registers an instruction may write in a state: its destinations, and those of the transfer a return makes again. -/
def State.dests (s : State) (i : Instr) : List Reg :=
  if isReturn i && s.replays then caughtDests (s.th s.cur).ct.txcatch0 else instrDests i

/-- The instructions that send bytes to memory: the stores, the multiple stores and the linked accesses, a linked read sending out the
thread's combined writes first. -/
def instrStores : Instr → Bool
  | .setb _ | .setw _ | .setd _ | .setl _ | .msetd _ _ | .msetl _ _ | .lnkgetd _ _ | .lnkgetl _ _ _ | .lnksetd _ _ _
  | .lnksetl _ _ _ _ => true
  | .repeatForm i => instrStores i
  | .lock0 | .lock1 | .lock2 | .rti | .nop | .switch _ _ | .bcc _ _ | .memToMem | .xfr | .hardwareLoop | .mov _ _ _
  | .movImm _ _ _ | .movRd _ _ | .swap _ _ _ | .getb _ | .getw _ | .getd _ | .getl _ | .mgetd _ _ | .mgetl _ _ | .movRa _ _
  | .movRapf _ _ | .movRabz _ _ | .movRawz _ _ | .movRadz _ _ | .movRabx _ _ | .movRawx _ _ | .movRadx _ _ | .movRam8x _ _
  | .movRam16x _ _ | .movRam8x32 _ _ | .movPc _ _ | .coprocRead _ _ _ | .coprocWrite _ _ _ | .add _ | .sub _ | .and _ | .or _
  | .xor _ | .lsl _ | .lsr _ | .asr _ | .mulw _ | .muld _ | .tst _ | .cmp _ | .auAdd _ | .auSub _ | .callr _ _ | .call _ _ _
  | .jump _ _ | .defrTxstat _ | .defrTxpoll _ | .defrTxstati _ | .defrTxpolli _ | .cacherl _ _ _ _ | .dcache _ | .cachew _ _
  | .icache _ _ _ => false

/-- An instruction that may send bytes to memory in a state: one of those, or a return that makes a caught transfer again. -/
def State.mayStore (s : State) (i : Instr) : Bool := instrStores i || (isReturn i && s.replays)

/-- A register a unit has: any data register number, address registers 0 to 15 (10_state.md R32, R33). -/
def regInUnit (r : Reg) : Bool := r.isData || (r.isAddress && decide (r.num.toNat < 16))

/-- Every data and address register of every thread reads as before, but for those of the list in thread `t`; a global one of the list
is every thread's (10_state.md R34). -/
def SameRegisters (s s' : State) (t : Tid) (l : List Reg) : Prop :=
  ∀ u r, r.isGeneral = true → (r ∈ l → u ≠ t ∧ isGlobalReg r = false) → s'.reg u r = s.reg u r

/-- Every byte of physical memory and of the core memories reads as before. -/
def SameMemory (s s' : State) : Prop :=
  ∀ a, s'.env.phys.read a = s.env.phys.read a ∧ s'.env.coreCode.read a = s.env.coreCode.read a ∧
    s'.env.coreData.read a = s.env.coreData.read a

/-! ### Where a store goes -/

/-- The memory and the first byte of a store; `elsewhere` is a fault, a command or a register. -/
inductive Place where
  | phys (a : Nat)
  | coreCode (a : Nat)
  | coreData (a : Nat)
  | elsewhere
deriving DecidableEq, Repr

/-- Where a store of the low `n` bytes of `v` to `la` by thread `t` lands: the address aligned (20_memory.md R259), the watchpoints
tried, the region's own rule or the translation (R263). -/
def State.storePlace (s : State) (t : Tid) (la : Word) (n : Nat) (v : DWord) : Place :=
  let a := s.accOf t
  match s.aligned a la n with
  | .error _ => .elsewhere
  | .ok la =>
    match watch a la (some (n, v)) s with
    | .error _ _ => .elsewhere
    | .ok _ s =>
      match regionOf la with
      | .custom => .phys la.toNat
      | .mmuTable => .phys (tableAttr (s.tableRoot la) la).pa.toNat
      | .coreCode => .coreCode (la.toNat - 0x80000000)
      | .coreData => .coreData (la.toNat - 0x82000000)
      | .directMap | .local | .global =>
        match translate a la .write s with
        | .ok (.ok x) _ => .phys x.pa.toNat
        | _ => .elsewhere
      | _ => .elsewhere

/-- A thread's write combiner holds the byte, which goes out when the combiner drains (20_memory.md R276). -/
def State.combined (s : State) (p : Nat) : Prop := ∃ t, ∃ c ∈ (s.th t).h.wc, (BitVec.ofNat 32 c.1).toNat = p

/-- Every byte of memory outside the `n` bytes of a place, and held by no write combiner, reads as before. -/
def SameOutside (s s' : State) (x : Place) (n : Nat) : Prop :=
  ∀ p, ((∀ a, x = .phys a → p < a ∨ a + n ≤ p) → ¬ s.combined p → s'.env.phys.read p = s.env.phys.read p) ∧
    ((∀ a, x = .coreCode a → p < a ∨ a + n ≤ p) → s'.env.coreCode.read p = s.env.coreCode.read p) ∧
    ((∀ a, x = .coreData a → p < a ∨ a + n ≤ p) → s'.env.coreData.read p = s.env.coreData.read p)

/-! ### Plain accesses -/

/-- No enabled watchpoint matches the access. -/
def State.unwatched (s : State) (t : Tid) (la : Word) (w : Option (Nat × DWord)) : Prop :=
  ∀ m : Fin 2, s.watchHit (s.accOf t) la w m = false

/-- An aligned access to fitted core data memory (20_memory.md R265). -/
def State.inCoreData (s : State) (la : Word) (n : Nat) : Prop :=
  la.toNat % n = 0 ∧ regionOf la = .coreData ∧ coreMemFits s.cfg.coreDataMemSize (la.toNat - 0x82000000) n = true

/-- An aligned access to the local or global range in MMU bypass mode, where the linear address is the physical one
(21_mmu_cache.md R330), with memory behind it, no prefetch of its line under way, and none of its bytes in the thread's write
combiner. -/
def State.inBypass (s : State) (t : Tid) (la : Word) (n : Nat) : Prop :=
  la.toNat % n = 0 ∧ (regionOf la = .local ∨ regionOf la = .global) ∧ s.mmuMode .data = .bypass ∧ s.backed la n = true ∧
    s.prefetching t la = false ∧ ByteBuf.overlaps (s.th t).h.wc la.toNat n = false

/-! ### Instructions on registers alone -/

/-- A source that is a data or address register or an immediate. -/
def srcPlain : Src → Bool
  | .reg r => r.isGeneral
  | .imm _ => true

/-- The instructions whose operands are data and address registers and immediates, and that touch no memory. -/
def registerInstr : Instr → Bool
  | .nop | .bcc _ _ => true
  | .mov _ d s => d.isGeneral && s.isGeneral
  | .movImm _ d _ => d.isGeneral
  | .swap _ a b => a.isGeneral && b.isGeneral
  | .movPc _ s => s.isGeneral
  | .add x | .sub x | .and x | .or x | .xor x | .lsl x | .lsr x | .asr x | .mulw x | .muld x =>
    x.d.isGeneral && x.a.isGeneral && srcPlain x.b
  | .tst x | .cmp x => x.a.isGeneral && srcPlain x.b
  | .auAdd x | .auSub x => x.ok
  | .callr d _ => d.isGeneral
  | .jump b _ => b.isGeneral
  | .call d b _ => d.isGeneral && b.isGeneral
  | _ => false

/-- An instruction that captures the flags (41_alu.md R502). -/
def capturesFlags : Instr → Bool
  | .add x | .sub x | .and x | .or x | .xor x | .lsl x | .lsr x | .asr x | .mulw x | .muld x => x.s
  | .tst _ | .cmp _ => true
  | _ => false

/-- Nothing but data and address registers, PC, the instruction count and, with `flags`, the flags and SCC of thread `t` differs
(`waiting` and the prefetch buffer, which a program does not see, apart). -/
structure OnlyRegistersChanged (s s' : State) (t : Tid) (flags : Bool) : Prop where
  cfg    : s'.cfg = s.cfg
  core   : s'.core = s.core
  env    : s'.env = s.env
  shared : ∃ d0 d1 a0 a1, s'.shared = { s.shared with d0 := d0, d1 := d1, a0 := a0, a1 := a1 }
  pcx    : ∀ u, (s'.th u).u.pcx = (s.th u).u.pcx
  others : ∀ u, u ≠ t → s'.pcOf u = s.pcOf u ∧ (s'.th u).ct = (s.th u).ct ∧ (s'.th u).h = (s.th u).h
  trig   : ∀ u, (s'.th u).tr = (s.th u).tr ∧ (s'.th u).mm = (s.th u).mm
  ctrl   : ∃ n v, (s'.th t).ct = { (s.th t).ct with txtactcyc := n, txstatus := v } ∧
    v &&& 0xFFFFFFE0#32 = s.status t &&& 0xFFFFFFE0#32 ∧ (flags = false → v = s.status t)
  hidden : ∃ b l, (s'.th t).h = { (s.th t).h with waiting := b, fetchBuf := l }

end Sys2Proof.Machine
end

