-- ==== Sys2Proof/Certificates/Slice0/Obligations.lean ====
section
/-! DEFINITION. The statements for the provers. R<n> is a numbered rule of spec/, 'log <n>' a row of notes/assumptions. -/

open Sys2Proof Sys2Proof.Machine

/-! ### Encoding -/

/-- Words written out from 30_encoding.md R426 decode to their instructions: LOCK0, RTI, NOP, SWITCH #0x440001 (R538's example), BNZ back 9
(R530's example), MOV D0.0, TXPOLL (R461's example), MOV PC, D0.3 (R533's example). The patterns are the spec's general knowledge
(log 18). -/
def Obligations.SampleWordsDecode : Prop :=
  ∀ tbl : List (Word × Instr),
    decodeWith tbl 0xA8000000#32 = .ok .lock0 ∧
    decodeWith tbl 0xA3FFFFFF#32 = .ok .rti ∧
    decodeWith tbl 0xA0FFFFFE#32 = .ok .nop ∧
    decodeWith tbl 0xAF440001#32 = .ok (.switch .al 0x440001#24) ∧
    decodeWith tbl 0xA0FFFEE4#32 = .ok (.bcc .ne 0x7FFF7#19) ∧
    decodeWith tbl 0xA3201C20#32 = .ok (.mov .al ⟨.d0, 0#5⟩ ⟨.tr, 4#5⟩) ∧
    decodeWith tbl 0xA31804A0#32 = .ok (.movPc .al ⟨.d0, 3#5⟩)

/-- Decoding the word of a well-formed instruction gives that instruction back, whatever the build's table holds. -/
def Obligations.DecodeOfEncode : Prop :=
  ∀ (tbl : List (Word × Instr)) (i : Instr) (w : Word), i.wf = true → encode i = some w → decodeWith tbl w = .ok i

/-- A word that a pattern of R426 decodes is the word of the instruction it decodes to, and that instruction is well formed. -/
def Obligations.EncodeOfDecode : Prop :=
  ∀ (w : Word) (i : Instr), decodeFixed w = some (.ok i) → i.wf = true ∧ encode i = some w

/-! ### The step -/

/-- A step whose thread's fetched word decodes to an instruction runs that instruction, in the state the fetch leaves
(40_data_movement.md R460 steps 0 to 2); a word that decodes to nothing takes UnknownInstruction (30_encoding.md R423). -/
def Obligations.StepRunsDecodedInstruction : Prop :=
  ∀ (s s0 s1 : State) (t : Tid) (w : Word),
    configLegal s.cfg = true → s.cfg.dcacheWriteBack = false → s.cfg.cacheType = 0#3 →
    s.nextAction = (.thread t, s0) → s0.eligible t = true →
    (s0.th t).h.tstate ≠ .cbRestore → s0.interruptDue t = false → s0.privExt t 7 = false →
    fetch t (s0.pcOf t) (s0.modEnv fun e => { e with cur := t }) = .ok (.ok w) s1 →
    s1.cur = t ∧
    (∀ i, decodeWith s1.cfg.isa w = .ok i → step s = exec i s1) ∧
    (∀ r, decodeWith s1.cfg.isa w = .error r → step s = .next (s1.takeException t .unknownInstruction))

/-- A fetch gives the four bytes at PC, its low two bits dropped, low byte first, and changes nothing: from fitted core code memory with PC in it, and in MMU bypass
mode from the physical memory of the local and global ranges; where no code breakpoint is enabled and the prefetch buffer is empty
(20_memory.md R264, R265, R274). That the low byte is first is the spec's decision D1 and general knowledge (log 1), that a PC which is no
multiple of 4 fetches at the multiple below it decisions D7 and D43 (log 58). -/
def Obligations.FetchReadsMemory : Prop :=
  ∀ (s : State) (t : Tid) (pc : Word),
    (∀ m : Fin 4, bitOf s.core.codeb[m.val].ctrl 31 = false) → (s.th t).h.fetchBuf = [] →
    let la := alignDown pc 4
    (regionOf la = .coreCode → (s.priv t = true ∨ bitOf (s.th t).mm.privSysr 4 = false) →
      coreMemFits s.cfg.coreCodeMemSize (la.toNat - 0x80000000) 4 = true →
      fetch t pc s = .ok (.ok (loWord (Memory.readN s.env.coreCode (la.toNat - 0x80000000) 4))) s) ∧
    ((regionOf la = .local ∨ regionOf la = .global) → s.mmuMode .instruction = .bypass → s.backed la 4 = true →
      fetch t pc s = .ok (.ok (loWord (Memory.readN s.env.phys la.toNat 4))) s)

/-! ### Reset and what every step keeps -/

/-- What reset leaves: thread 0 is on, privileged, at background level, at the build's boot address, the others are OFF; no trigger mask is
set, no lock is held, TXDIVTIME is 1, line fills are on, the MMU is in bypass mode (10_state.md R77, 11_core_registers.md R196,
70_reset_and_hazards.md R781). The default build self boots (log 5); that the trigger masks and latches are clear is the spec's decision D10
(log 61). -/
def Obligations.ResetValues : Prop :=
  let s := State.reset
  (s.th 0).h.tstate = .run ∧ (s.th 0).ct.enabled = true ∧ s.status 0 = 0x00020000#32 ∧ s.pcOf 0 = s.cfg.bootPc ∧
  (∀ t : Tid, t ≠ 0 → (s.th t).h.tstate = .off ∧ (s.th t).ct.enabled = false ∧ s.status t = 0#32) ∧
  (∀ t : Tid, (s.th t).ct.stopped = false ∧ (s.th t).ct.txmode = 0#32 ∧ (s.th t).ct.txrpt = 0#32 ∧
    (s.th t).ct.txdivtime = 1#32 ∧ (s.th t).ct.txprivext = 0#32 ∧ (s.th t).ct.txdefr = 0#32 ∧
    (s.th t).tr.mask = 0#16 ∧ (s.th t).tr.maski = 0#16 ∧ (s.th t).tr.kick = 0#16 ∧ (s.th t).tr.kicki = 0#16 ∧
    (s.th t).h.link = false ∧ (s.th t).h.rp = [] ∧ (s.th t).h.lineFill = true) ∧
  s.shared.lock1 = none ∧ s.shared.lock2 = none ∧ s.shared.hwtrig = 0#16 ∧ s.core.mmuConfig = 0#3 ∧
  s.core.dcacheFlush = 1#32 ∧ s.core.icacheFlush = 0#32

/-- Reset is a sound state: the invariants that every step keeps hold of it. -/
def Obligations.ResetIsSound : Prop :=
  State.reset.env.Ok ∧ State.reset.threadsOk ∧ State.reset.registersOk ∧ State.reset.shared.Ok

/-- Every step keeps the three memories in their canonical form. -/
def Obligations.StepKeepsMemoryCanonical : Prop :=
  ∀ s s' : State, s.env.Ok → step s = .next s' → s'.env.Ok

/-- Every step keeps the reserved bits of TXSTATUS, TXPRIVEXT, TXDEFR and TXDIVTIME at zero, a thread that is OFF with ThreadEnable 0, no
thread in an intermediate state, and every read pipeline within its depth (10_state.md R41, R45, R55, R56, R57, R63, R67, R74). The positions
of TXDIVTIME's fields are general knowledge of the spec (log 20); that the reserved bits hold 0, with bits 11, 3 and 1 of TXPRIVEXT, is the
model's reading (log 35). -/
def Obligations.StepKeepsThreadsSound : Prop :=
  ∀ s s' : State, s.threadsOk → step s = .next s' → s'.threadsOk

/-- Every step keeps the reserved bits of the memory-mapped registers that have them at zero, and the MMU in a listed mode; the vector
registers have bits 3:0 only and read as no more, whatever the state (11_core_registers.md R138, R139, R141, R143, R145, R153, R157, R161, R167,
R169, R173, R180). That a bit printed 'Reserved' without a further word holds 0 is decision D22 (log 35). -/
def Obligations.StepKeepsRegistersSound : Prop :=
  (∀ s s' : State, s.registersOk → step s = .next s' → s'.registersOk) ∧
  ∀ (s : State) (t : Tid) (e : Fin 128) (m : Fin 2), ∀ r ∈ [CoreReg.vecB t, .vecI t, .vecP t, .hwvec e, .perfVec m],
    s.regValue r &&& 0xFFFFFFF0#32 = 0#32

/-- Every step keeps LOCK2's owner owner of LOCK1 too, and the trigger latches 3:0 absent (43_sync_system.md R562, R563, 10_state.md R69).
That LOCK2 takes LOCK1 as well is the spec's own choice (log 60). -/
def Obligations.StepKeepsLocksNested : Prop :=
  ∀ s s' : State, s.shared.Ok → step s = .next s' → s'.shared.Ok

/-! ### What an instruction leaves -/

/-- Every instruction leaves every data and address register of every thread, but its destinations and the base register its addressing mode
or its own rule updates; a destination that is a global register is every thread's. A return from interrupt that makes a caught load again
has the destinations the catch state names (42_control_flow.md R537). -/
def Obligations.ExecLeavesOtherRegisters : Prop :=
  ∀ (i : Instr) (s s' : State), exec i s = .next s' → SameRegisters s s' s.cur (s.dests i)

/-- An instruction that is no store and no linked access, and no return that makes a caught transfer again (42_control_flow.md R537), leaves
every byte of memory. -/
def Obligations.ExecStoringNothingLeavesMemory : Prop :=
  ∀ (i : Instr) (s s' : State), s.mayStore i = false → exec i s = .next s' → SameMemory s s'

/-- A store leaves every byte of memory outside the bytes it stores to, at the address `State.storePlace` computes from the effective address
in the state after its source is read; bytes a write combiner holds apart, which may go out (20_memory.md R263, R276). Where its source
stops it, it leaves all of memory. For the multiple stores the address is the base register, one item a step (40_data_movement.md
R469); for the linked ones it is the base register too, and a linked read stores nothing (43_sync_system.md R566, R567). A return that makes a
caught transfer again (42_control_flow.md R537, 60_exceptions.md R658) stores a caught store at TXCATCH1, and nothing else. Each with its
repeating form. -/
def Obligations.StoresLeaveOtherBytes : Prop :=
  ∀ s s' : State,
    let t := s.cur
    (∀ (w : Width) (i : Instr) (x : MemArgs) (s1 : State),
      (w, i) ∈ [(Width.byte, Instr.setb x), (.word, .setw x), (.dword, .setd x), (.byte, .repeatForm (.setb x)),
        (.word, .repeatForm (.setw x)), (.dword, .repeatForm (.setd x))] →
      exec i s = .next s' →
      (∀ v, readReg t (s.pcOf t) x.r s.advanced = .ok v s1 →
        SameOutside s s' (s1.storePlace t (s.address t x.mem) (widthBytes w) (v.setWidth 64)) (widthBytes w)) ∧
      (∀ e, readReg t (s.pcOf t) x.r s.advanced = .error e s1 → SameMemory s s')) ∧
    (∀ (i : Instr) (x : PairArgs), i ∈ [Instr.setl x, .repeatForm (.setl x)] → exec i s = .next s' →
      SameOutside s s' (s.advanced.storePlace t (s.address t x.mem) 8 (joinWords (s.reg t x.rb) (s.reg t x.ra))) 8) ∧
    (∀ (i : Instr) (b r : Reg) (l : List Reg), i ∈ [Instr.msetd b l, .repeatForm (.msetd b l)] → exec i s = .next s' →
      l[(s.lsmStep t).toNat]? = some r →
      SameOutside s s' (s.advanced.storePlace t (s.reg t b) 4 ((s.reg t r).setWidth 64)) 4) ∧
    (∀ (i : Instr) (b : Reg) (p : Reg × Reg) (l : List (Reg × Reg)), i ∈ [Instr.msetl b l, .repeatForm (.msetl b l)] →
      exec i s = .next s' → l[(s.lsmStep t).toNat]? = some p →
      SameOutside s s' (s.advanced.storePlace t (s.reg t b) 8 (joinWords (s.reg t p.2) (s.reg t p.1))) 8) ∧
    (∀ (i : Instr) (c : Cond) (b r : Reg), i ∈ [Instr.lnksetd c b r, .repeatForm (.lnksetd c b r)] → exec i s = .next s' →
      SameOutside s s' ((s.advanced.modH t fun h => { h with link := false }).storePlace t (s.reg t b) 4
        ((s.reg t r).setWidth 64)) 4) ∧
    (∀ (i : Instr) (c : Cond) (b ra rb : Reg), i ∈ [Instr.lnksetl c b ra rb, .repeatForm (.lnksetl c b ra rb)] →
      exec i s = .next s' →
      SameOutside s s' ((s.advanced.modH t fun h => { h with link := false }).storePlace t (s.reg t b) 8
        (joinWords (s.reg t rb) (s.reg t ra))) 8) ∧
    (∀ (i : Instr) (d ra rb b : Reg), i ∈ [Instr.lnkgetd d b, .lnkgetl ra rb b, .repeatForm (.lnkgetd d b),
        .repeatForm (.lnkgetl ra rb b)] → exec i s = .next s' → SameOutside s s' .elsewhere 0) ∧
    (∀ i : Instr, i ∈ [Instr.rti, .repeatForm .rti] → s.replays = true → exec i s = .next s' →
      let c := (s.th t).ct.txcatch0
      let la := (s.th t).ct.txcatch1
      let made := bitsOf c 10 5 ≠ 0#5 ∧ bitOf c 14 = false
      let data (w : Width) := zextBytes (widthBytes w)
        (joinWords (s.th t).ct.txcatch3 (s.th t).ct.txcatch2 >>> (8 * (la.toNat % 8)))
      (∀ w, made → bitOf c 8 = false → widthOfLanes la (bitsOf c 0 8) = some w →
        SameOutside s s' ((s.advanced.returnFromInterrupt t (s.pcOf t + 4#32)).storePlace t la (widthBytes w) (data w))
          (widthBytes w)) ∧
      (made → bitOf c 8 = true → SameOutside s s' .elsewhere 0) ∧
      (made → bitOf c 8 = true → bitOf c 3 = false ∨ bitsOf c 16 11 = 0#11 → SameMemory s s') ∧
      (¬ made → SameMemory s s'))

/-- An instruction on data and address registers alone that completes (it is counted, and the thread stays in its state and level) changes
nothing but registers, PC, the count, and the flags where it captures them (41_alu.md R502, 40_data_movement.md R460). -/
def Obligations.RegisterInstructionsLeaveTheRest : Prop :=
  ∀ (i : Instr) (s s' : State), registerInstr i = true → exec i s = .next s' →
    (s'.th s.cur).ct.txtactcyc = (s.th s.cur).ct.txtactcyc + 1#24 →
    (s'.th s.cur).h.tstate = (s.th s.cur).h.tstate → s'.istat s.cur = s.istat s.cur →
    OnlyRegistersChanged s s' s.cur (capturesFlags i)

/-- An instruction whose condition is false only advances PC and is counted, with no check of its operands (40_data_movement.md R460 step
3, 41_alu.md R504; that the checks are skipped is the spec's choice, log 14). With SCC set a tested condition is refused. -/
def Obligations.FalseConditionOnlyAdvances : Prop :=
  ∀ (i : Instr) (s : State),
    (splitTest (s.status s.cur) (instrCond i) = false → condHolds (s.status s.cur) (instrCond i) = false →
      exec i s = .next (s.advanced.complete s.cur)) ∧
    (splitTest (s.status s.cur) (instrCond i) = true → exec i s = .refused .splitConditions)

/-- Completion: TXTACTCYC counts the instruction, and a thread that single steps is turned off after it; nothing else changes
(40_data_movement.md R460 steps 8 and 9, 61_privilege_platform.md R736). -/
def Obligations.CompletionCounts : Prop :=
  ∀ (s : State) (t : Tid),
    (s.retire t = s.modTh t fun x =>
      { x with ct := { x.ct with txtactcyc := x.ct.txtactcyc + 1#24 }, h := { x.h with waiting := false } }) ∧
    (s.privExt t 2 = false → s.complete t = s.retire t) ∧
    (s.privExt t 2 = true → (s.th t).h.tstate = .run → s.complete t = (s.retire t).turnOff t ∧
      ((s.complete t).th t).ct.enabled = false ∧ ((s.complete t).th t).ct.stopped = true ∧
      ((s.complete t).th t).h.tstate = .off ∧ (s.complete t).pcOf t = s.pcOf t)

/-- An instruction with an operand that is absent, reserved or not allowed stops before any effect: the exception with PC at the instruction, or
the refusal, which a SWAP of two specialist units does not come to (40_data_movement.md R460 step 4, R465). An absent data or address
register, behind no operand that is refused, is an unknown instruction, whatever the privilege; among present operands an unprivileged thread violates privilege on a global register with GCRPriv, PCX with
PToggle, a write of a CT register by the column of R40, a trigger register with TrigPriv, TXSTATI or TXMASKI with PToggle (10_state.md
R32, R33, R34, R40, R57; 60_exceptions.md R646). That presence is looked at before privilege, over all operands, is decision D48 (log 44);
that a write of TXSTATUS (register 2) without its privilege is no violation is decision D37 (log 34). -/
def Obligations.OperandStopsTrap : Prop :=
  (∀ (i : Instr) (s : State), isCoproc i = false → s.runs (instrCond i) →
    (∀ e, s.operandStop s.cur (instrUses i) = some (.exc e) → exec i s = .next (s.takeException s.cur e)) ∧
    (∀ q, isSpecialSwap i = false → s.operandStop s.cur (instrUses i) = some (.refused q) → exec i s = .refused q)) ∧
  ∀ (s : State) (t : Tid) (l : List Use),
    (∀ before u after, l = before ++ u :: after → (∀ x ∈ before, ∀ q, presence s.cfg t x ≠ some (.refused q)) →
      (u.reg.isData = true ∧ dataPresent s.cfg t u.reg.num = false) ∨
        (u.reg.isAddress = true ∧ addrPresent s.cfg t u.reg.num = false) →
      s.operandStop t l = some (.exc .unknownInstruction)) ∧
    ((∀ u ∈ l, presence s.cfg t u = none) → s.priv t = true → s.operandStop t l = none) ∧
    ((∀ u ∈ l, presence s.cfg t u = none) → s.priv t = false →
      let controlled : List (BitVec 5 × Nat) := [(0#5, 8), (4#5, 19), (13#5, 10), (16#5, 9), (17#5, 9), (18#5, 9), (19#5, 9), (20#5, 0),
        (28#5, 12), (30#5, 13), (31#5, 13)]
      (s.operandStop t l = some (.exc .privilegeViolation) ↔
      ∃ u ∈ l, (isGlobalReg u.reg = true ∧ s.privExt t 16 = true) ∨ (u.reg = ⟨.pc, 1#5⟩ ∧ s.privExt t 0 = true) ∨
        (u.write = true ∧ (u.reg = ⟨.ct, 29#5⟩ ∨ ∃ p ∈ controlled, u.reg = ⟨.ct, p.1⟩ ∧ s.privExt t p.2 = true)) ∨
        (u.reg.unit = .tr ∧ s.privExt t 17 = true) ∨
        ((u.reg = ⟨.tr, 2#5⟩ ∨ u.reg = ⟨.tr, 3#5⟩) ∧ s.privExt t 0 = true)))

/-! ### Moves -/

/-- MOV: the value read from the source unit is written to the destination unit; MOV from RD and MOV to PC are the same move, and MOV from RD to a
pair takes all 64 bits of the oldest entry, the low word in the first register; MOV immediate loads the constant (40_data_movement.md
R461, R463, R472, 42_control_flow.md R533; the order of the pair is R464's, decision D38, log 61). -/
def Obligations.MovesComplete : Prop :=
  ∀ (s : State) (c : Cond) (d : Reg), s.runs c →
    (∀ (r : Reg) (v : Word) (s1 s2 : State), s.operandsOk [rd r, wr d] →
      readReg s.cur (s.pcOf s.cur) r s.advanced = .ok v s1 → writeReg s.cur d v s1 = .ok () s2 →
      exec (.mov c d r) s = .next (s2.complete s.cur) ∧
      (r = ⟨.port, 0#5⟩ → exec (.movRd c (.one d)) s = .next (s2.complete s.cur)) ∧
      (d = ⟨.pc, 0#5⟩ → exec (.movPc c r) s = .next (s2.complete s.cur))) ∧
    (∀ (ra rb : Reg) (v : DWord) (s1 : State), s.operandsOk [rd ⟨.port, 0#5⟩, wr ra, wr rb] → popRead s.cur s.advanced = .ok v s1 →
      exec (.movRd c (.pair ra rb)) s =
        .next (((s1.setReg s.cur ra (loWord v)).setReg s.cur rb (hiWord v)).complete s.cur)) ∧
    (∀ imm : Word, d.isGeneral = true → s.operandsOk [wr d] →
      exec (.movImm c d imm) s = .next ((s.advanced.setReg s.cur d imm).complete s.cur))

/-- What reading each unit gives (40_data_movement.md R461, R462, R472; 60_exceptions.md R621, R622): a data or address register its value; PC
the address of the instruction; a CT register its value; a mask; a poll the trigger value; TXSTAT and TXSTATI block until a trigger is visible and fault
where the mask is zero; RD the oldest entry of the read pipeline, of which one register takes bits 31:0, zero where it is empty and dirty, a
fault where it is empty. -/
def Obligations.UnitReads : Prop :=
  ∀ (s : State) (t : Tid) (pc : Word),
    (∀ r : Reg, r.isGeneral = true → readReg t pc r s = .ok (s.reg t r) s) ∧
    readReg t pc ⟨.pc, 0#5⟩ s = .ok pc s ∧ readReg t pc ⟨.pc, 1#5⟩ s = .ok (s.th t).u.pcx s ∧
    (∀ n, readReg t pc ⟨.ct, n⟩ s = .ok (s.ctRead t n) s) ∧
    readReg t pc ⟨.tr, 1#5⟩ s = .ok ((s.maskOf t .background).setWidth 32) s ∧
    readReg t pc ⟨.tr, 3#5⟩ s = .ok ((s.maskOf t .interrupt).setWidth 32) s ∧
    readReg t pc ⟨.tr, 4#5⟩ s = .ok (s.triggerValue t .background) s ∧
    readReg t pc ⟨.tr, 6#5⟩ s = .ok (s.triggerValue t .interrupt) s ∧
    (∀ n l, (n, l) ∈ [(0#5, Level.background), (2#5, .interrupt)] →
      (s.maskOf t l = 0#16 → readReg t pc ⟨.tr, n⟩ s = .error (.exc .triggerBlockFault) s) ∧
      (s.maskOf t l ≠ 0#16 → s.visTriggers t l = 0#16 → readReg t pc ⟨.tr, n⟩ s = .error .block s) ∧
      (s.visTriggers t l ≠ 0#16 → readReg t pc ⟨.tr, n⟩ s = .ok (s.triggerValue t l) (s.passTriggerRead t l))) ∧
    (∀ e l, (s.th t).h.rp = e :: l → popRead t s = .ok e.data (s.setRp t l) ∧
      readReg t pc ⟨.port, 0#5⟩ s = .ok (loWord e.data) (s.setRp t l)) ∧
    ((s.th t).h.rp = [] → s.rpDirty t = true → popRead t s = .ok 0#64 s ∧ readReg t pc ⟨.port, 0#5⟩ s = .ok 0#32 s) ∧
    ((s.th t).h.rp = [] → s.rpDirty t = false →
      readReg t pc ⟨.port, 0#5⟩ s = .error (.exc .readPipelineFault) s)

/-- What writing each unit does (40_data_movement.md R461, R462, R477): a data or address register takes the value and every other keeps its
own; PC is a control transfer; PCX takes the value; a CT register by its field rules, TXSTATUS losing bits 31:8 of the write, with no
exception, without the privilege it asks for, which is decision D37 (log 34); TXSTAT and TXSTATI acknowledge; a mask takes its implemented bits; the polls ignore the write. -/
def Obligations.UnitWrites : Prop :=
  ∀ (s : State) (t : Tid) (v : Word),
    (∀ r : Reg, r.isGeneral = true → writeReg t r v s = .ok () (s.setReg t r v) ∧
      (regInUnit r = true → (s.setReg t r v).reg t r = v) ∧
      (∀ u q, (q = r → u ≠ t ∧ isGlobalReg r = false) → (s.setReg t r v).reg u q = s.reg u q)) ∧
    writeReg t ⟨.pc, 0#5⟩ v s = .ok () (s.jump t v) ∧ writeReg t ⟨.pc, 1#5⟩ v s = .ok () (s.setPcx t v) ∧
    (∀ n, n ≠ 2#5 ∨ s.privExt t 9 = false ∨ s.priv t = true → writeReg t ⟨.ct, n⟩ v s = .ok () (s.ctWrite t n v)) ∧
    (s.privExt t 9 = true → s.priv t = false →
      writeReg t ⟨.ct, 2#5⟩ v s = .ok () (s.setStatus t (maskWrite (s.status t) v 0x0000001F#32))) ∧
    writeReg t ⟨.tr, 0#5⟩ v s = .ok () (s.ackTriggers t .background v) ∧
    writeReg t ⟨.tr, 1#5⟩ v s = .ok () (s.modTr t fun x => { x with mask := v.setWidth 16 &&& 0xFFFB#16 }) ∧
    writeReg t ⟨.tr, 2#5⟩ v s = .ok () (s.ackTriggers t .interrupt v) ∧
    writeReg t ⟨.tr, 3#5⟩ v s = .ok () (s.modTr t fun x => { x with maski := v.setWidth 16 }) ∧
    writeReg t ⟨.tr, 4#5⟩ v s = .ok () s ∧ writeReg t ⟨.tr, 6#5⟩ v s = .ok () s

/-- The field rules of the control registers: what a register reads after a write, PSTAT, ISTAT and MinimEnable changing only of a thread
that is OFF, the cycle counters reading zero (10_state.md R40, R45, R52, R55, R56, R57). TXENABLE: an unchanged ThreadEnable changes nothing; a
thread turned on runs with RPDirty clear, or with CBMarker is in CBRESTORE with RPDirty as it was until its replay; a running or HALTED thread
turned off is OFF and stopped, its LINK clear, a read pipeline that holds data marked, and its B or I trigger out; in CBRESTORE only the bit is
stored (R41, 60_exceptions.md R645, R652, R653, R655). The layout of TXDIVTIME and what it lets be written are logs 20 and 42, the masks of
TXPRIVEXT and TXDEFR log 35, the replay of a thread turned on as its next step, and the turn-off that waits for it, log 12. -/
def Obligations.ControlRegisterFields : Prop :=
  ∀ (s : State) (t : Tid) (v : Word),
    let x := s.th t
    (x.h.tstate ≠ .off → (s.ctWrite t 2#5 v).ctRead t 2#5 = maskWrite (s.status t) v 0x00FC071F#32 ∧
      (s.ctWrite t 29#5 v).ctRead t 29#5 = maskWrite (s.ctRead t 29#5) v 0xFF0F7735#32) ∧
    (x.h.tstate = .off → (s.ctWrite t 2#5 v).ctRead t 2#5 = maskWrite (s.status t) v 0x00FF071F#32 ∧
      (s.ctWrite t 29#5 v).ctRead t 29#5 = maskWrite (s.ctRead t 29#5) v 0xFF0F77B5#32) ∧
    (∀ n, n ∈ [1#5, 3#5, 4#5, 13#5, 16#5, 17#5, 18#5, 19#5] → (s.ctWrite t n v).ctRead t n = v) ∧
    (s.ctWrite t 20#5 v).ctRead t 20#5 =
      maskWrite (s.ctRead t 20#5) v (if s.cfg.fpuType = 0#2 then 0x00800080#32 else 0x00BF00BF#32) ∧
    (s.ctWrite t 28#5 v).ctRead t 28#5 = maskWrite (s.ctRead t 28#5) v 0x8F3F00FF#32 ∧
    (s.ctWrite t 30#5 v).ctRead t 30#5 = 0#32 ∧ (s.ctWrite t 31#5 v).ctRead t 31#5 = 0#32 ∧
    (∀ n m, n ∈ [1#5, 2#5, 3#5, 4#5, 13#5, 16#5, 17#5, 18#5, 19#5, 20#5, 28#5, 29#5, 30#5, 31#5] → m ≠ n →
      (s.ctWrite t n v).ctRead t m = s.ctRead t m) ∧
    (bitOf (s.ctRead t 0#5) 0 = x.ct.enabled ∧ bitOf (s.ctRead t 0#5) 1 = (x.h.tstate == .off) ∧
      bitOf (s.ctRead t 0#5) 2 = x.ct.stopped) ∧
    let s' := s.ctWrite t 0#5 v
    let x' := s'.th t
    (bitOf v 0 = x.ct.enabled → s' = s) ∧
    (x.ct.enabled = false → bitOf v 0 = true → x.h.tstate = .off →
      x'.ct.enabled = true ∧ x'.ct.stopped = false ∧ x'.u = x.u ∧ s'.status t = s.status t ∧
      (s.cbMarker t = false → x'.h.tstate = .run ∧ s'.rpDirty t = false) ∧
      (s.cbMarker t = true → x'.h.tstate = .cbRestore ∧ s'.rpDirty t = s.rpDirty t)) ∧
    (x.ct.enabled = true → bitOf v 0 = false → x.h.tstate ≠ .off → x.h.tstate ≠ .cbRestore →
      x'.ct.enabled = false ∧ x'.ct.stopped = true ∧ x'.h.tstate = .off ∧ x'.h.link = false ∧ s'.pendingLnk t = 0 ∧ x'.u = x.u ∧
      s'.status t &&& 0xFFBFFFFF#32 = s.status t &&& 0xFFBFFFFF#32 ∧
      (x.h.rp ≠ [] → s'.rpDirty t = true ∧ s'.cbMarker t = true) ∧
      bitOf s'.core.hwstatmeta (4 * t.val + if s.istat t then 1 else 0) = true ∧
      bitOf s'.core.hwstatmeta (4 * t.val + 2) = bitOf s.core.hwstatmeta (4 * t.val + 2)) ∧
    ((x.ct.enabled = true ∧ bitOf v 0 = false ∧ (x.h.tstate = .off ∨ x.h.tstate = .cbRestore)) ∨
      (x.ct.enabled = false ∧ bitOf v 0 = true ∧ x.h.tstate ≠ .off) →
      s' = s.modCt t fun c => { c with enabled := bitOf v 0 })

/-- SWAP exchanges its operands, read before either is written; between two of CT, PC, TR and TT it is an InstructionViolation before any
read, behind the traps of presence and privilege only (40_data_movement.md R465). That two registers of ONE other unit are exchanged too is
the model's choice (log 19). -/
def Obligations.SwapsComplete : Prop :=
  ∀ (s : State) (c : Cond) (a b : Reg), s.runs c →
    (∀ x y s1 s2 s3 s4, s.operandsOk [rd a, wr a, rd b, wr b] →
      ¬ (UnitId.isSpecialist a.unit = true ∧ UnitId.isSpecialist b.unit = true) →
      readReg s.cur (s.pcOf s.cur) a s.advanced = .ok x s1 → readReg s.cur (s.pcOf s.cur) b s1 = .ok y s2 →
      writeReg s.cur a y s2 = .ok () s3 → writeReg s.cur b x s3 = .ok () s4 →
      exec (.swap c a b) s = .next (s4.complete s.cur)) ∧
    (UnitId.isSpecialist a.unit = true → UnitId.isSpecialist b.unit = true →
      exec (.swap c a b) s = .next (s.takeException s.cur
        ((s.operandTrap s.cur [rd a, wr a, rd b, wr b]).getD .instructionViolation)) ∧
      ((∀ u ∈ [rd a, wr a, rd b, wr b], presence s.cfg s.cur u ≠ some (.exc .unknownInstruction)) → s.priv s.cur = true →
        exec (.swap c a b) s = .next (s.takeException s.cur .instructionViolation)))

/-! ### Memory -/

/-- An aligned, unwatched read gives the bytes at its address, low byte first, and changes nothing: in fitted core data memory, and in MMU bypass
mode in the physical memory of the local and global ranges (20_memory.md R262, R265, R274; 21_mmu_cache.md R330). The byte order is the
spec's decision D1 and general knowledge (log 1). -/
def Obligations.PlainReads : Prop :=
  ∀ (s : State) (t : Tid) (la : Word) (n : Nat), n ∈ [1, 2, 4, 8] → s.unwatched t la none →
    (s.inCoreData la n →
      memRead (s.accOf t) la n s = .ok (.ok (Memory.readN s.env.coreData (la.toNat - 0x82000000) n)) s) ∧
    (s.inBypass t la n → memRead (s.accOf t) la n s = .ok (.ok (Memory.readN s.env.phys la.toNat n)) s)

/-- An aligned, unwatched write stores the low bytes of the value at its address, low byte first, and nothing else but the monitors on those
bytes changes (20_memory.md R263, R265, R274; 43_sync_system.md R568). The byte order is the spec's decision D1 and general knowledge (log 1). -/
def Obligations.PlainWrites : Prop :=
  ∀ (s : State) (t : Tid) (la : Word) (n : Nat) (v : DWord), n ∈ [1, 2, 4, 8] → s.unwatched t la (some (n, v)) →
    (s.inCoreData la n → memWrite (s.accOf t) la n v s = .ok (.ok ())
      (s.modEnv fun e => { e with coreData := Memory.writeN e.coreData (la.toNat - 0x82000000) v n })) ∧
    (s.inBypass t la n → memWrite (s.accOf t) la n v s = .ok (.ok ())
      ((s.modEnv fun e => { e with phys := Memory.writeN e.phys la.toNat v n }).clearMonitors la n)) ∧
    (∀ (m : Memory) (a p : Nat), m.wf = true → (Memory.writeN m a v n).read p =
      if a ≤ p ∧ p < a + n then v.extractLsb' (8 * (p - a)) 8 else m.read p)

/-- An unaligned access of a thread is a DataWatch with TXPRIVEXT.UnalignedFault set, and the access at the address with its low bits
cleared without (20_memory.md R259), which is the spec's decision D2 (log 45). -/
def Obligations.UnalignedAccesses : Prop :=
  ∀ (s : State) (t : Tid) (la : Word) (n : Nat) (v : DWord), n ∈ [2, 4, 8] → la.toNat % n ≠ 0 →
    (s.privExt t 4 = true →
      memRead (s.accOf t) la n s = .ok (.error ⟨.watch 0#2, la⟩) s ∧
      memWrite (s.accOf t) la n v s = .ok (.error ⟨.watch 0#2, la⟩) s) ∧
    (s.privExt t 4 = false → ∃ la' : Word, la'.toNat = la.toNat - la.toNat % n ∧
      memRead (s.accOf t) la n s = memRead (s.accOf t) la' n s ∧
      memWrite (s.accOf t) la n v s = memWrite (s.accOf t) la' n v s)

/-- Translation through the HTP tables in MMU active mode with an empty TLB: an invalid second-level entry is a page fault, a denied access its
permission's fault, and a permitted one goes to the page's address plus the offset in the page, with the attributes of the entry
(21_mmu_cache.md R334, R335, R336, R337, R338). That privilege is looked at before the write permission is decision D33, the page sizes
between 4 Kbyte and 4 Mbyte are decision D14 and general knowledge (log 61). -/
def Obligations.TableWalkMaps : Prop :=
  ∀ (s : State) (a : Acc) (la : Word) (k : Kind) (a1 : Word) (ps : Nat),
    regionOf la = .local ∨ regionOf la = .global → s.mmuMode k.side = .active → bitOf s.core.tablePhys 0 = true →
    htpFirst (s.rootRegs a.tid la).1 (s.rootRegs a.tid la).2 la = some a1 → s.tlb k.side a.tid = ⟨[], []⟩ →
    s.backed a1 4 = true →
    let e1 := loWord (Memory.readN s.env.phys a1.toNat 4)
    bitOf e1 0 = true → pageBytesOf true e1 = some ps →
    let a2 := (e1 &&& 0xFFFFFFC0#32) + BitVec.ofNat 32 (4 * ((la.toNat % 0x400000) / ps))
    s.backed a2 4 = true →
    let e2 := loWord (Memory.readN s.env.phys a2.toNat 4)
    (bitOf e2 0 = false → ∃ s', Sys2Proof.Machine.translate a la k s = .ok (.error .page) s') ∧
    (bitOf e2 0 = true → bitOf e2 2 = true → a.priv = false → ∃ s', Sys2Proof.Machine.translate a la k s = .ok (.error .general) s') ∧
    (bitOf e2 0 = true → bitOf e2 2 = false ∨ a.priv = true → bitOf e2 1 = false → k = .write →
      ∃ s', Sys2Proof.Machine.translate a la k s = .ok (.error .protection) s') ∧
    (bitOf e2 0 = true → bitOf e2 2 = false ∨ a.priv = true → bitOf e2 1 = true ∨ k ≠ .write →
      ∃ s', Sys2Proof.Machine.translate a la k s = .ok (.ok ⟨(e2 &&& 0xFFFFF000#32) + BitVec.ofNat 32 (la.toNat % ps), bitsOf e2 6 2, bitOf e2 3,
        regionOf la == .global, bitOf e2 4⟩) s')

/-! ### Loads and stores -/

/-- A load writes the zero-extended value its address reads to its destination, a pair the low word to the first register and the high word to
the second, then updates the base (40_data_movement.md R464, R466, R468). Which register takes the low word is decision D38 (logs 1 and 61), the
pre and post updates are general knowledge of the spec (log 22), the order of the writes is log 15, the linear address whatever TXMODE holds log
93. -/
def Obligations.LoadsComplete : Prop :=
  ∀ (s s1 : State) (v : DWord),
    (∀ (w : Width) (i : MemArgs → Instr) (x : MemArgs) (s2 : State),
      (w, i) ∈ [(Width.byte, Instr.getb), (.word, .getw), (.dword, .getd)] →
      s.runs x.cc → s.operandsOk (wr x.r :: modeUses x.mem) →
      memRead (s.accOf s.cur) (s.address s.cur x.mem) (widthBytes w) s.advanced = .ok (.ok v) s1 →
      writeReg s.cur x.r (loWord v) s1 = .ok () s2 →
      exec (i x) s = .next ((s2.withBase s.cur x.mem (s.newBase s.cur x.mem)).complete s.cur)) ∧
    (∀ x : PairArgs, s.runs x.cc → s.operandsOk (wr x.ra :: wr x.rb :: modeUses x.mem) →
      memRead (s.accOf s.cur) (s.address s.cur x.mem) 8 s.advanced = .ok (.ok v) s1 →
      exec (.getl x) s = .next ((((s1.setReg s.cur x.ra (loWord v)).setReg s.cur x.rb (hiWord v)).withBase s.cur x.mem
        (s.newBase s.cur x.mem)).complete s.cur))

/-- A store writes its source's value, a pair the first register as the low word, at its address, then updates the base
(40_data_movement.md R464, R467, R468). The first register as the low word is decision D38 (logs 1 and 61), the pre and post updates are general
knowledge of the spec (log 22), the order of the writes is log 15, the linear address whatever TXMODE holds log 93. -/
def Obligations.StoresComplete : Prop :=
  ∀ s s1 s2 : State,
    (∀ (w : Width) (i : MemArgs → Instr) (x : MemArgs) (v : Word),
      (w, i) ∈ [(Width.byte, Instr.setb), (.word, .setw), (.dword, .setd)] →
      s.runs x.cc → s.operandsOk (rd x.r :: modeUses x.mem) →
      readReg s.cur (s.pcOf s.cur) x.r s.advanced = .ok v s1 →
      memWrite (s1.accOf s.cur) (s.address s.cur x.mem) (widthBytes w) (v.setWidth 64) s1 = .ok (.ok ()) s2 →
      exec (i x) s = .next ((s2.withBase s.cur x.mem (s.newBase s.cur x.mem)).complete s.cur)) ∧
    (∀ x : PairArgs, s.runs x.cc → s.operandsOk (rd x.ra :: rd x.rb :: modeUses x.mem) →
      memWrite (s.accOf s.cur) (s.address s.cur x.mem) 8 (s.reg s.cur x.rb ++ s.reg s.cur x.ra) s.advanced = .ok (.ok ()) s2 →
      exec (.setl x) s = .next ((s2.withBase s.cur x.mem (s.newBase s.cur x.mem)).complete s.cur))

/-- A load or store whose access is not performed still updates its base, advances PC and is counted, a step of a multiple transfer its base
and LSM_STEP; the destinations keep their values, and the exception is taken with the transfer (40_data_movement.md R464, R466, R467, R469,
60_exceptions.md R643). That the rest of the instruction is done is the spec's decisions D30 and D53 (log 61). -/
def Obligations.DataExceptionsFinishTheInstruction : Prop :=
  ∀ (s s1 : State) (f : Failed),
    let t := s.cur
    let pc := s.pcOf t
    let k := (s.lsmStep t).toNat
    let fails (s' : State) (x : Xfer) : Host.Outcome State Fault Refusal := .next ((s'.retire t).takeException t (.data f.exc x))
    (∀ (w : Width) (i : MemArgs → Instr) (x : MemArgs),
      (w, i) ∈ [(Width.byte, Instr.getb), (.word, .getw), (.dword, .getd)] →
      s.runs x.cc → s.operandsOk (wr x.r :: modeUses x.mem) →
      memRead (s.accOf t) (s.address t x.mem) (widthBytes w) s.advanced = .ok (.error f) s1 →
      exec (i x) s = fails (s1.withBase t x.mem (s.newBase t x.mem)) (.load w f.la x.r.num (destBit x.r.unit) false (firstIsOne x.r))) ∧
    (∀ x : PairArgs, s.runs x.cc → s.operandsOk (wr x.ra :: wr x.rb :: modeUses x.mem) →
      memRead (s.accOf t) (s.address t x.mem) 8 s.advanced = .ok (.error f) s1 →
      exec (.getl x) s = fails (s1.withBase t x.mem (s.newBase t x.mem))
        (.load .lword f.la x.ra.num (destBit x.ra.unit ||| destBit x.rb.unit) false (firstIsOne x.ra))) ∧
    (∀ (w : Width) (i : MemArgs → Instr) (x : MemArgs) (v : Word) (s2 : State),
      (w, i) ∈ [(Width.byte, Instr.setb), (.word, .setw), (.dword, .setd)] →
      s.runs x.cc → s.operandsOk (rd x.r :: modeUses x.mem) →
      readReg t pc x.r s.advanced = .ok v s2 →
      memWrite (s2.accOf t) (s.address t x.mem) (widthBytes w) (v.setWidth 64) s2 = .ok (.error f) s1 →
      exec (i x) s = fails (s1.withBase t x.mem (s.newBase t x.mem)) (.store w f.la (v.setWidth 64))) ∧
    (∀ (x : PairArgs), s.runs x.cc → s.operandsOk (rd x.ra :: rd x.rb :: modeUses x.mem) →
      memWrite (s.accOf t) (s.address t x.mem) 8 (s.reg t x.rb ++ s.reg t x.ra) s.advanced = .ok (.error f) s1 →
      exec (.setl x) s = fails (s1.withBase t x.mem (s.newBase t x.mem)) (.store .lword f.la (s.reg t x.rb ++ s.reg t x.ra))) ∧
    (∀ (b r : Reg) (l : List Reg), l[k]? = some r →
      (s.operandsOk (wr b :: l.map wr) → memRead (s.accOf t) (s.reg t b) 4 s.advanced = .ok (.error f) s1 →
        exec (.mgetd b l) s = fails (s1.lsmAdvance t b (s.reg t b + 4#32) k l.length pc)
          (.load .dword f.la r.num (destBit r.unit) false (firstIsOne r))) ∧
      (s.operandsOk (wr b :: l.map rd) →
        memWrite (s.accOf t) (s.reg t b) 4 ((s.reg t r).setWidth 64) s.advanced = .ok (.error f) s1 →
        exec (.msetd b l) s = fails (s1.lsmAdvance t b (s.reg t b + 4#32) k l.length pc) (.store .dword f.la ((s.reg t r).setWidth 64)))) ∧
    (∀ (b : Reg) (p : Reg × Reg) (l : List (Reg × Reg)), l[k]? = some p →
      (s.operandsOk (wr b :: l.flatMap fun p => [wr p.1, wr p.2]) →
        memRead (s.accOf t) (s.reg t b) 8 s.advanced = .ok (.error f) s1 →
        exec (.mgetl b l) s = fails (s1.lsmAdvance t b (s.reg t b + 8#32) k l.length pc)
          (.load .lword f.la p.1.num (destBit p.1.unit ||| destBit p.2.unit) false (firstIsOne p.1))) ∧
      (s.operandsOk (wr b :: l.flatMap fun p => [rd p.1, rd p.2]) →
        memWrite (s.accOf t) (s.reg t b) 8 (s.reg t p.2 ++ s.reg t p.1) s.advanced = .ok (.error f) s1 →
        exec (.msetl b l) s = fails (s1.lsmAdvance t b (s.reg t b + 8#32) k l.length pc)
          (.store .lword f.la (s.reg t p.2 ++ s.reg t p.1))))

/-- One step of a multiple transfer moves the register LSM_STEP names at the address in the base, then advances the base and LSM_STEP; the last step
clears LSM_STEP and leaves the instruction, an earlier one stays at it (40_data_movement.md R469). That the base is incremented after every
step is general knowledge of the spec (log 22), the order of a pair decision D38 (log 61). -/
def Obligations.MultiplesStep : Prop :=
  ∀ (s s1 : State) (b : Reg) (v : DWord),
    let t := s.cur
    let pc := s.pcOf t
    let i := (s.lsmStep t).toNat
    let la := s.reg t b
    (∀ (l : List Reg) (r : Reg), s.operandsOk (wr b :: l.map wr) → l[i]? = some r → r.isGeneral = true →
      memRead (s.accOf t) la 4 s.advanced = .ok (.ok v) s1 →
      exec (.mgetd b l) s = .next (((s1.setReg t r (loWord v)).lsmAdvance t b (la + 4#32) i l.length pc).complete t)) ∧
    (∀ (l : List (Reg × Reg)) (p : Reg × Reg), s.operandsOk (wr b :: l.flatMap fun p => [wr p.1, wr p.2]) →
      l[i]? = some p → memRead (s.accOf t) la 8 s.advanced = .ok (.ok v) s1 →
      exec (.mgetl b l) s = .next ((((s1.setReg t p.1 (loWord v)).setReg t p.2 (hiWord v)).lsmAdvance t b (la + 8#32) i l.length
        pc).complete t)) ∧
    (∀ (l : List Reg) (r : Reg), s.operandsOk (wr b :: l.map rd) → l[i]? = some r →
      memWrite (s.accOf t) la 4 ((s.reg t r).setWidth 64) s.advanced = .ok (.ok ()) s1 →
      exec (.msetd b l) s = .next ((s1.lsmAdvance t b (la + 4#32) i l.length pc).complete t)) ∧
    (∀ (l : List (Reg × Reg)) (p : Reg × Reg), s.operandsOk (wr b :: l.flatMap fun p => [rd p.1, rd p.2]) →
      l[i]? = some p → memWrite (s.accOf t) la 8 (s.reg t p.2 ++ s.reg t p.1) s.advanced = .ok (.ok ()) s1 →
      exec (.msetl b l) s = .next ((s1.lsmAdvance t b (la + 8#32) i l.length pc).complete t)) ∧
    (∀ (x : State) (a : Word) (k : Nat), (i + 1 = k → ((x.lsmAdvance t b a i k pc).lsmStep t = 0#3 ∧
        (x.lsmAdvance t b a i k pc).pcOf t = x.pcOf t)) ∧
      (i + 1 ≠ k → i < 7 → (((x.lsmAdvance t b a i k pc).lsmStep t).toNat = i + 1 ∧ (x.lsmAdvance t b a i k pc).pcOf t = pc)) ∧
      (regInUnit b = true → (x.lsmAdvance t b a i k pc).reg t b = a))

/-! ### The read pipeline and the coprocessor ports -/

/-- A move to a read address port reads at the address and pushes the extended value onto the read pipeline; a full or dirty pipeline is a
ReadPipelineFault (40_data_movement.md R471, R473). That the read is made at the issue, and the width of RA, are the model's choice of what
decision D35 leaves (log 41); the fault on a dirty pipeline, where the hardware may wait, is decision D34 (log 43), RPMask above
six entries log 90. -/
def Obligations.ReadPortsPush : Prop :=
  ∀ (s s1 : State) (c : Cond) (r : Reg) (la : Word) (v : DWord) (i : Cond → Reg → Instr) (p : ReadPort) (n : Nat) (x : DWord),
    (i, p, n, x) ∈ [(Instr.movRa, ReadPort.ra, raWidth s1.cfg, zextBytes (raWidth s1.cfg) v), (.movRabz, .rabz, 1, zextBytes 1 v),
      (.movRawz, .rawz, 2, zextBytes 2 v), (.movRadz, .radz, 4, zextBytes 4 v), (.movRabx, .rabx, 1, sextBytes 1 v),
      (.movRawx, .rawx, 2, sextBytes 2 v), (.movRadx, .radx, 4, sextBytes 4 v)] →
    s.runs c → s.operandsOk [rd r, wr (portReg p)] → readReg s.cur (s.pcOf s.cur) r s.advanced = .ok la s1 →
    (∀ s2, (s1.th s.cur).h.rp.length < s1.cfg.readPipelineDepth → s1.rpDirty s.cur = false →
      memRead (s1.accOf s.cur) la n s1 = .ok (.ok v) s2 →
      exec (i c r) s = .next ((s2.setRp s.cur ((s2.th s.cur).h.rp ++ [⟨la, p, x⟩])).complete s.cur)) ∧
    (s1.cfg.readPipelineDepth ≤ (s1.th s.cur).h.rp.length ∨ s1.rpDirty s.cur = true →
      exec (i c r) s = .next (s.takeException s.cur .readPipelineFault))

/-- RAPF starts a prefetch of the line its address translates to, in the MMU table region of the line behind a window with a valid root, does
nothing for an address that does not translate, and waits while a prefetch is outstanding (40_data_movement.md R474, 21_mmu_cache.md
R346, R367; 93_implementation_defined.md U23). That it raises no
ReadPipelineFault with RPDirty set or a full pipeline, and has no effect without a valid root, is the model's choice (logs 87 and 85). -/
def Obligations.PrefetchPort : Prop :=
  ∀ (s s1 : State) (c : Cond) (r : Reg) (la : Word), s.runs c → s.operandsOk [rd r, wr (portReg .rapf)] →
    readReg s.cur (s.pcOf s.cur) r s.advanced = .ok la s1 →
    let walked := regionOf la ∈ [.directMap, .local, .global]
    let live := (walked ∨ regionOf la = .mmuTable) ∧ rowState (regionOf la) (s1.mmuMode .data) = .live
    (∀ x s2, (s1.th s.cur).h.pf = none → walked → live → Sys2Proof.Machine.translate (s1.accOf s.cur) la .read s1 = .ok (.ok x) s2 →
      exec (.movRapf c r) s = .next ((s2.modH s.cur fun h =>
        { h with pf := some ⟨lineOf x.pa, x.glob, x.win != 0#2⟩ }).complete s.cur)) ∧
    (∀ e s2, (s1.th s.cur).h.pf = none → walked → live →
      Sys2Proof.Machine.translate (s1.accOf s.cur) la .read s1 = .ok (.error e) s2 →
      exec (.movRapf c r) s = .next (s2.complete s.cur)) ∧
    ((s1.th s.cur).h.pf = none → regionOf la = .mmuTable → live →
      (∀ x, s1.tableAt la = some x → exec (.movRapf c r) s = .next ((s1.modH s.cur fun h =>
        { h with pf := some ⟨lineOf x.pa, false, x.win != 0#2⟩ }).complete s.cur)) ∧
      (s1.tableAt la = none → exec (.movRapf c r) s = .next (s1.complete s.cur))) ∧
    ((s1.th s.cur).h.pf = none → ¬ live → exec (.movRapf c r) s = .next (s1.complete s.cur)) ∧
    ((s1.th s.cur).h.pf ≠ none → exec (.movRapf c r) s = .next (s.blocked s.cur))

/-- The instructions the spec refuses, whatever the state: the memory-to-memory transfer, XFR, the hardware loop (40_data_movement.md R470, R475,
42_control_flow.md R536). The MX ports: a thread without the DSP extensions has no such port, an unknown instruction; with them the spec refuses
the move (R473, 93_implementation_defined.md U1). -/
def Obligations.UndescribedInstructionsStop : Prop :=
  ∀ s : State, exec .memToMem s = .refused .memoryToMemoryTransfer ∧ exec .xfr s = .refused .xfr ∧
    exec .hardwareLoop s = .refused .hardwareLoop ∧
    ∀ (c : Cond) (r : Reg) (i : Cond → Reg → Instr),
      i ∈ [Instr.movRam8x, Instr.movRam16x, Instr.movRam8x32] → s.runs c → presence s.cfg s.cur (rd r) = none →
      (isDsp s.cfg s.cur = false → exec (i c r) s = .next (s.takeException s.cur .unknownInstruction)) ∧
      (isDsp s.cfg s.cur = true → exec (i c r) s = .refused .dspPort)

/-- A coprocessor read takes the oldest value of its port, a register the low word, a pair both, and waits while there is none; a write sends a
register zero extended or a pair, and waits while the coprocessor cannot accept; CPpPriv asks for privilege (40_data_movement.md R476,
10_state.md R57). R476 gives no operand forms: that one register takes the low word of a read, and is sent zero extended by a write, is the
model's choice (log 70). A port the build lacks is an unknown instruction by 93_implementation_defined.md U1, chosen over the words of R476, 'A port
that the build lacks: refuse' (log 50); that the ports of a build are the lowest numbers is the model's choice (log 82). -/
def Obligations.CoprocessorPorts : Prop :=
  ∀ (s : State) (p : Fin 8) (ra : Reg) (rb : Option Reg),
    let t := s.cur
    (p.val < s.cfg.coprocReadPorts → s.operandsOk ((coprocRegs ra rb).map wr) →
      s.privExt t (24 + p.val) = false ∨ s.priv t = true →
      (s.env.cpr[p.val] = [] → exec (.coprocRead p ra rb) s = .next (s.blocked t)) ∧
      (∀ v l, s.env.cpr[p.val] = v :: l →
        let x := s.advanced.modEnv fun e => { e with cpr := e.cpr.set p.val l p.isLt }
        (rb = none → exec (.coprocRead p ra rb) s = .next ((x.setReg t ra (loWord v)).complete t)) ∧
        (∀ q, rb = some q →
          exec (.coprocRead p ra rb) s = .next (((x.setReg t ra (loWord v)).setReg t q (hiWord v)).complete t)))) ∧
    (p.val < s.cfg.coprocWritePorts → s.operandsOk ((coprocRegs ra rb).map rd) →
      s.privExt t (24 + p.val) = false ∨ s.priv t = true →
      (s.env.cpwReady[p.val] = false → exec (.coprocWrite p ra rb) s = .next (s.blocked t)) ∧
      (s.env.cpwReady[p.val] = true →
        (rb = none → exec (.coprocWrite p ra rb) s =
          .next ((s.advanced.emit (.coproc p ((s.reg t ra).setWidth 64))).complete t)) ∧
        (∀ q, rb = some q → exec (.coprocWrite p ra rb) s =
          .next ((s.advanced.emit (.coproc p (s.reg t q ++ s.reg t ra))).complete t)))) ∧
    (s.privExt t (24 + p.val) = true → s.priv t = false →
      (p.val < s.cfg.coprocReadPorts → s.operandsOk ((coprocRegs ra rb).map wr) →
        exec (.coprocRead p ra rb) s = .next (s.takeException t .privilegeViolation)) ∧
      (p.val < s.cfg.coprocWritePorts → s.operandsOk ((coprocRegs ra rb).map rd) →
        exec (.coprocWrite p ra rb) s = .next (s.takeException t .privilegeViolation))) ∧
    (s.cfg.coprocReadPorts ≤ p.val → exec (.coprocRead p ra rb) s = .next (s.takeException t .unknownInstruction)) ∧
    (s.cfg.coprocWritePorts ≤ p.val → exec (.coprocWrite p ra rb) s = .next (s.takeException t .unknownInstruction))

/-! ### Arithmetic and logic -/

/-- ADD and SUB (41_alu.md R505): the sum or difference modulo 2^32 goes to the destination; with S the flags are captured and SCC cleared: Z, N of the
result, V the signed overflow, C the carry or the borrow (R503; these formulas are general knowledge of the spec, log 21).
That with RD as both sources two entries are popped, src1 the older, is the model's choice (log 71). -/
def Obligations.AddSubResults : Prop :=
  ∀ (s s1 s2 : State) (x : AluArgs) (a b : Word), x.d.isGeneral = true → s.runs x.cc → s.operandsOk (aluUses x) →
    s.dspModeOn s.cur = false →
    readReg s.cur (s.pcOf s.cur) x.a s.advanced = .ok a s1 → readSrc s.cur (s.pcOf s.cur) x.b s1 = .ok b s2 →
    let fin (r : Word) (f : Flags) : Host.Outcome State Fault Refusal :=
      .next ((if x.s then (s2.setReg s.cur x.d r).capture s.cur f else s2.setReg s.cur x.d r).complete s.cur)
    exec (.add x) s = fin (a + b)
      ⟨a + b == 0#32, (a + b).msb, (a + b).toInt != a.toInt + b.toInt, decide (2 ^ 32 ≤ a.toNat + b.toNat)⟩ ∧
    exec (.sub x) s = fin (a - b)
      ⟨a - b == 0#32, (a - b).msb, (a - b).toInt != a.toInt - b.toInt, decide (a.toNat < b.toNat)⟩

/-- AND, OR, XOR (41_alu.md R506): the bitwise result goes to the destination, and only with S the flags are captured, Z and N of the result,
V and C zero (R503; decision D39 and general knowledge of the spec, log 21). That with RD as both sources two entries are popped, src1 the
older, is the model's choice (log 71). -/
def Obligations.LogicResults : Prop :=
  ∀ (s s1 s2 : State) (x : AluArgs) (a b : Word), x.d.isGeneral = true → s.runs x.cc → s.operandsOk (aluUses x) →
    s.dspModeOn s.cur = false →
    readReg s.cur (s.pcOf s.cur) x.a s.advanced = .ok a s1 → readSrc s.cur (s.pcOf s.cur) x.b s1 = .ok b s2 →
    let fin (r : Word) : Host.Outcome State Fault Refusal :=
      .next ((if x.s then (s2.setReg s.cur x.d r).capture s.cur ⟨r == 0#32, r.msb, false, false⟩
        else s2.setReg s.cur x.d r).complete s.cur)
    exec (.and x) s = fin (a &&& b) ∧ exec (.or x) s = fin (a ||| b) ∧ exec (.xor x) s = fin (a ^^^ b)

/-- Shifts take the low five bits of the amount, LSL and LSR fill with zeros, ASR with the sign; MULD keeps the low 32 bits of the product, MULW
multiplies the low halves unsigned (41_alu.md R507, R508; the five bits and the unsigned MULW are general knowledge of the spec, log
21). Flags as for the logical operations. That with RD as both sources the operand is the older entry and the amount the next is the model's
choice (log 71). -/
def Obligations.ShiftAndMultiplyResults : Prop :=
  ∀ (s s1 s2 : State) (x : AluArgs) (a b : Word), x.d.isGeneral = true → s.runs x.cc → s.operandsOk (aluUses x) →
    s.dspModeOn s.cur = false →
    readReg s.cur (s.pcOf s.cur) x.a s.advanced = .ok a s1 → readSrc s.cur (s.pcOf s.cur) x.b s1 = .ok b s2 →
    let fin (r : Word) : Host.Outcome State Fault Refusal :=
      .next ((if x.s then (s2.setReg s.cur x.d r).capture s.cur ⟨r == 0#32, r.msb, false, false⟩
        else s2.setReg s.cur x.d r).complete s.cur)
    exec (.lsl x) s = fin (BitVec.ofNat 32 (a.toNat * 2 ^ (b.toNat % 32))) ∧
    exec (.lsr x) s = fin (BitVec.ofNat 32 (a.toNat / 2 ^ (b.toNat % 32))) ∧
    exec (.asr x) s = fin (BitVec.ofInt 32 (a.toInt / 2 ^ (b.toNat % 32))) ∧
    exec (.mulw x) s = fin (BitVec.ofNat 32 ((a.toNat % 65536) * (b.toNat % 65536))) ∧
    exec (.muld x) s = fin (BitVec.ofNat 32 (a.toNat * b.toNat))

/-- TST and CMP write no register and capture the flags, of the AND and of the difference (41_alu.md R509, R510; the formulas of R503 are log
21). That with RD as both sources src1 is the older entry and src2 the next is the model's choice (log 71). -/
def Obligations.TestAndCompareResults : Prop :=
  ∀ (s s1 s2 : State) (x : TestArgs) (a b : Word), s.runs x.cc → s.operandsOk (rd x.a :: srcUses x.b) →
    s.dspModeOn s.cur = false →
    readReg s.cur (s.pcOf s.cur) x.a s.advanced = .ok a s1 → readSrc s.cur (s.pcOf s.cur) x.b s1 = .ok b s2 →
    exec (.tst x) s = .next ((s2.capture s.cur ⟨a &&& b == 0#32, (a &&& b).msb, false, false⟩).complete s.cur) ∧
    exec (.cmp x) s = .next ((s2.capture s.cur
      ⟨a == b, (a - b).msb, (a - b).toInt != a.toInt - b.toInt, decide (a.toNat < b.toNat)⟩).complete s.cur)

/-- After CMP a, b the conditions compare the operands: EQ and NE, LO, HS, HI and LS unsigned, LT, GE, GT and LE signed (41_alu.md R503, R504, R510; the
borrow sense of C is the spec's choice, log 21); and a captured status reads back its flags with SCC clear and its other bits kept. -/
def Obligations.ConditionsCompare : Prop :=
  ∀ (status a b : Word) (f : Flags),
    let r : Flags := subFlags a b
    (r.test .eq = true ↔ a = b) ∧ (r.test .ne = true ↔ a ≠ b) ∧
    (r.test .lo = true ↔ a.toNat < b.toNat) ∧ (r.test .hs = true ↔ b.toNat ≤ a.toNat) ∧
    (r.test .hi = true ↔ b.toNat < a.toNat) ∧ (r.test .ls = true ↔ a.toNat ≤ b.toNat) ∧
    (r.test .lt = true ↔ a.toInt < b.toInt) ∧ (r.test .ge = true ↔ b.toInt ≤ a.toInt) ∧
    (r.test .gt = true ↔ b.toInt < a.toInt) ∧ (r.test .le = true ↔ a.toInt ≤ b.toInt) ∧
    r.test .al = true ∧ r.test .nv = false ∧
    flagsOf (captureFlags status f) = f ∧ sccOf (captureFlags status f) = false ∧
    captureFlags status f &&& 0xFFFFFFE0#32 = status &&& 0xFFFFFFE0#32

/-- Address unit ADD and SUB: the result goes to the address register, CPC reads as the address of the instruction, and no flag changes
(41_alu.md R511). -/
def Obligations.AddressUnitResults : Prop :=
  ∀ (s : State) (x : AuArgs), x.ok = true → s.runs x.cc → s.operandsOk (auUses x) → s.dspModeOn s.cur = false →
    let val (y : AuSrc) : Word := match y with | .reg r => s.reg s.cur r | .imm v => v | .cpc => s.pcOf s.cur
    exec (.auAdd x) s = .next ((s.advanced.setReg s.cur x.d (val x.a + val x.b)).complete s.cur) ∧
    exec (.auSub x) s = .next ((s.advanced.setReg s.cur x.d (val x.a - val x.b)).complete s.cur)

/-! ### Control flow -/

/-- A taken branch goes to its address plus four times the signed offset; NOP only advances PC; CALLR and CALL write the address of the next
instruction to a register of any unit, CALLR going to a PC-relative target, CALL, which then reads its base, and JUMP, which writes no
register, to the base plus the offset; SWITCH advances PC, is counted, and takes the Switch exception (30_encoding.md R425, R428,
42_control_flow.md R530, R531, R532, R538). A link of CALLR or CALL written to a read port whose access is caught leaves the jump made (60_exceptions.md
R643). The operands of the calls are general knowledge of the spec (log 22), PC past the SWITCH its choice (log 59). -/
def Obligations.ControlTransfersComplete : Prop :=
  ∀ (s : State) (c : Cond) (simm : BitVec 19) (d b : Reg) (imm off : Word) (trap : BitVec 24),
    let t := s.cur
    let pc := s.pcOf t
    (s.runs c → exec (.bcc c simm) s = .next ((s.advanced.jump t (pc + BitVec.ofInt 32 (4 * simm.toInt))).complete t)) ∧
    exec .nop s = .next (s.advanced.complete t) ∧
    (∀ s1, s.operandsOk [wr d] →
      (writeReg t d (pc + 4#32) s.advanced = .ok () s1 → exec (.callr d imm) s = .next ((s1.jump t (pc + imm * 4#32)).complete t)) ∧
      (∀ e, writeReg t d (pc + 4#32) s.advanced = .error (.late e) s1 →
        exec (.callr d imm) s = .next (((s1.jump t (pc + imm * 4#32)).retire t).takeException t e))) ∧
    (∀ v s1, s.operandsOk [rd b] → readReg t pc b s.advanced = .ok v s1 →
      exec (.jump b off) s = .next ((s1.jump t (v + off)).complete t)) ∧
    (∀ v s1 s2, s.operandsOk [wr d, rd b] → writeReg t d (pc + 4#32) s.advanced = .ok () s1 → readReg t pc b s1 = .ok v s2 →
      exec (.call d b off) s = .next ((s2.jump t (v + off)).complete t)) ∧
    (∀ e v s1 s2, s.operandsOk [wr d, rd b] → writeReg t d (pc + 4#32) s.advanced = .error (.late e) s1 →
      readReg t pc b s1 = .ok v s2 → exec (.call d b off) s = .next (((s2.jump t (v + off)).retire t).takeException t e)) ∧
    (s.runs c → exec (.switch c trap) s = .next ((s.advanced.retire t).takeException t .switch) ∧
      Exc.hreason .switch = 0#2 ∧ Exc.freason .switch = 0#2) ∧
    (∀ (x : State) (v : Word), ((x.jump t v).complete t).pcOf t = v ∧ x.advanced.pcOf x.cur = x.pcOf x.cur + 4#32)

/-- RTI swaps PC with PCX, PCX taking the address after the RTI; at interrupt level it clears ISTAT, toggles PSTAT with PToggle and clears RPDirty,
with CBMarker it then makes the caught transfer again, as part of the RTI, and at its end LINK is clear (42_control_flow.md R537,
60_exceptions.md R637, R658). That it only swaps at background level is decision D44 (log 61); an exception of the replay is taken in the context
resumed, with the RTI done (log 12). -/
def Obligations.ReturnFromInterrupt : Prop :=
  ∀ s : State,
    let t := s.cur
    let r := s.advanced.returnFromInterrupt t (s.pcOf t + 4#32)
    let unlinked (x : State) : State := x.modH t fun h => { h with link := false }
    (r.pcOf t = (s.th t).u.pcx ∧ (r.th t).u.pcx = s.pcOf t + 4#32 ∧ r.istat t = false ∧
      (∀ u q, r.reg u q = s.reg u q) ∧ r.shared = s.shared ∧ r.core = s.core ∧ r.env = s.env ∧ (∀ u, u ≠ t → r.th u = s.th u) ∧
      (r.th t).tr = (s.th t).tr ∧ (r.th t).mm = (s.th t).mm ∧
      (s.istat t = false → (r.th t).ct = (s.th t).ct ∧ (r.th t).h.tstate = (s.th t).h.tstate) ∧
      (s.istat t = true → r.rpDirty t = false ∧ r.priv t = (if s.pToggle t then !s.priv t else s.priv t) ∧
        r.status t &&& 0xFFFCFFFF#32 = s.status t &&& 0xFFFCFFFF#32 ∧
        (r.th t).h.tstate = (if s.cbMarker t then .cbRestore else (s.th t).h.tstate))) ∧
    (s.istat t = false → exec .rti s = .next (r.complete t)) ∧
    (s.istat t = true → s.cbMarker t = false → exec .rti s = .next ((unlinked r).complete t)) ∧
    (s.replays = true → ∀ s1,
      (replayTransfer t r = .ok () s1 → ((s1.endReplay t).th t).ct.enabled = true →
        exec .rti s = .next ((unlinked (s1.endReplay t)).complete t) ∧ (s1.endReplay t).cbMarker t = false ∧
        bitOf ((s1.endReplay t).status t) 23 = false) ∧
      (∀ e, replayTransfer t r = .error (.late e) s1 → exec .rti s = .next ((s1.retire t).takeException t e)) ∧
      (∀ e, replayTransfer t r = .error (.exc e) s1 → exec .rti s = .next ((r.retire t).takeException t e)))

/-- A repeating form, of any instruction, makes one iteration of its instruction's effect, then counts TXRPT down and stays, or moves on where
TXRPT is 0; a multiple transfer has made its iteration with the step that leaves LSM_STEP 0; a data exception does so too, any other
exception leaves TXRPT and PC; a repeating branch is taken while TXRPT is not 0 (42_control_flow.md R535, 60_exceptions.md R643; the
repeating branch and the count of a multiple transfer are log 16). -/
def Obligations.RepeatsComplete : Prop :=
  ∀ (s s1 : State) (i : Instr), i.isRepeat = false → s.runs (instrCond i) →
    let t := s.cur
    let pc := s.pcOf t
    let one := (iteration i).2 pc s.advanced
    let stays := (s1.th t).ct.txrpt ≠ 0#32 ∧ (isMultiple i = false ∨ s1.lsmStep t = 0#3)
    let s2 := (s1.modCt t fun c => { c with txrpt := c.txrpt - 1#32 }).setPc t pc
    (∀ c imm, i = .bcc c imm →
      ((s.th t).ct.txrpt = 0#32 → exec (.repeatForm i) s = .next (s.advanced.complete t)) ∧
      ((s.th t).ct.txrpt ≠ 0#32 → exec (.repeatForm i) s =
        .next (((s.advanced.modCt t fun c => { c with txrpt := c.txrpt - 1#32 }).jump t
          (pc + BitVec.ofInt 32 (4 * imm.toInt))).complete t))) ∧
    ((∀ c imm, i ≠ .bcc c imm) →
      (one = .ok () s1 → exec i s = .next (s1.complete t) ∧
        (stays → exec (.repeatForm i) s = .next (s2.complete t)) ∧
        (¬ stays → exec (.repeatForm i) s = .next (s1.complete t))) ∧
      (∀ e, one = .error (.late e) s1 → exec i s = .next ((s1.retire t).takeException t e) ∧
        (stays → exec (.repeatForm i) s = .next ((s2.retire t).takeException t e)) ∧
        (¬ stays → exec (.repeatForm i) s = .next ((s1.retire t).takeException t e))) ∧
      (∀ e, one = .error (.exc e) s1 → exec (.repeatForm i) s = .next (s.takeException t e)))

/-! ### Locks and core registers -/

/-- LOCK0 releases what its thread holds and nothing else, at level 0 it changes no lock, and where it gave up LOCK2 every thread that waited may
step again; LOCK1 and LOCK2 wait while another thread holds what they take, then take it, LOCK1 at level 2 giving up LOCK2 only; with ILockPriv
the three need privilege; while a thread holds LOCK2 no other is eligible to step (43_sync_system.md R560, R561, R562, R563). That LOCK0 is
the unlock, and that LOCK2 takes the first lock too, are the spec's general knowledge and choice (log 60). -/
def Obligations.LocksTakenAndReleased : Prop :=
  ∀ s : State,
    let t := s.cur
    let mine (o : Option Tid) : Prop := o = none ∨ o = some t
    let rel (o : Option Tid) : Option Tid := if o = some t then none else o
    let s0 := s.advanced.modShared fun x => { x with lock1 := rel x.lock1, lock2 := rel x.lock2 }
    (s.privExt t 14 = false ∨ s.priv t = true →
      exec .lock0 s = .next (s0.complete t) ∧
      (mine s.shared.lock1 → exec .lock1 s = .next ((s.advanced.modShared fun x =>
        { x with lock1 := some t, lock2 := if x.lock2 = some t then none else x.lock2 }).complete t)) ∧
      (¬ mine s.shared.lock1 → exec .lock1 s = .next (s.blocked t)) ∧
      (mine s.shared.lock1 → mine s.shared.lock2 → exec .lock2 s = .next ((s.advanced.modShared fun x =>
        { x with lock1 := some t, lock2 := some t }).complete t)) ∧
      (¬ (mine s.shared.lock1 ∧ mine s.shared.lock2) → exec .lock2 s = .next (s.blocked t))) ∧
    (s.privExt t 14 = true → s.priv t = false → ∀ i ∈ [Instr.lock0, .lock1, .lock2],
      exec i s = .next (s.takeException t .privilegeViolation)) ∧
    (s.shared.lock1 ≠ some t → s.shared.lock2 ≠ some t → s0.shared = s.shared) ∧
    s0.shared.lock1 ≠ some t ∧ s0.shared.lock2 ≠ some t ∧
    (mine s.shared.lock2 → s.shared.atomicOwner = none → ∀ u : Tid, s.present u = true → (s.th u).h.tstate ≠ .off →
      s0.eligible u = true) ∧
    (∀ u v : Tid, s.shared.lock2 = some u → v ≠ u → s.eligible v = false)

/-- A 32-bit load or store of a core register by a thread: without privilege it is a General fault where TnPIOREG guards its block or its
class asks for privilege; else an absent register reads 0 and ignores the write, and any other reads and takes its bits, some of its
addresses and the bits that a write changes being listed (20_memory.md R256, 11_core_registers.md R130, R135, R180, R181, 10_state.md R40,
61_privilege_platform.md R712, R714). That another thread's CT register asks its owner's TXPRIVEXT, with the memory fault, is decision D50 (log
61), that the privilege comes before the absence log 49, the bits printed 'Reserved' log 35. The masks are those of the field tables of
11_core_registers.md R130 to R175; that the flush registers read back the written bit at once is log 57 with decision D25, that the cache
partition registers store a write in MMU bypass mode too log 64. Bits 26:0 of TnAMAREG5 are open. -/
def Obligations.CoreRegisterAccesses : Prop :=
  (∀ (s : State) (t : Tid) (la : Word) (r : CoreReg) (v : DWord),
    coreRegAt la = some r → regionOf la = .coreRegs → la.toNat % 4 = 0 → s.unwatched t la none → s.unwatched t la (some (4, v)) →
    let a := s.accOf t
    let pio := bitOf (s.th t).mm.pioReg ((la.toNat - 0x04800000) / 0x10000) = true
    let ama := ∃ u, r ∈ [CoreReg.ama4 u, .ama5 u, .ama6 u] ∧ bitOf (s.th u).mm.privCore 2 = true
    let controlled : List (BitVec 5 × Nat) := [(0#5, 8), (2#5, 9), (4#5, 19), (13#5, 10), (16#5, 9), (17#5, 9), (18#5, 9), (19#5, 9),
      (20#5, 0), (28#5, 12), (30#5, 13), (31#5, 13)]
    let guarded := ama ∨ (∃ u, (r = .kick u ∧ bitOf (s.th u).mm.privCore 0 = true) ∨
        (r = .kicki u ∧ bitOf (s.th u).mm.privCore 1 = true) ∨ r = .privCore u ∨ r = .ct u 29#5 ∨
        ∃ p ∈ controlled, r = .ct u p.1 ∧ s.privExt u p.2 = true) ∨
      (∃ m : Fin 4, r ∈ [CoreReg.codebAddr m, .codebCtrl m]) ∨
      (∃ m : Fin 2, r ∈ [CoreReg.datawAddr m, .datawCtrl m, .datawMatch0 m, .datawMatch1 m, .datawMask0 m, .datawMask1 m,
        .perfIcore m, .perfCount m])
    (s.priv t = false → pio ∨ ama → memRead a la 4 s = .ok (.error ⟨.fault .general 0#2, la⟩) s) ∧
    (s.priv t = false → pio ∨ guarded → memWrite a la 4 v s = .ok (.error ⟨.fault .general 0#2, la⟩) s) ∧
    (s.priv t = true ∨ ¬ (pio ∨ ama) →
      (s.regFitted r = false → memRead a la 4 s = .ok (.ok 0#64) s) ∧
      (s.regFitted r = true → r.reserved = false → (∀ u, r ≠ .ama5 u) →
        memRead a la 4 s = .ok (.ok ((s.regValue r).setWidth 64)) s) ∧
      (∀ u, r = .ama5 u → s.regFitted r = true →
        ∃ w s', memRead a la 4 s = .ok (.ok w) s' ∧ bitsOf w 27 5 = bitsOf (s.regValue r) 27 5)) ∧
    (s.priv t = true ∨ ¬ (pio ∨ guarded) →
      (s.regFitted r = false → memWrite a la 4 v s = .ok (.ok ()) s) ∧
      (s.regFitted r = true → r.reserved = false → s.writeRefusal r (loWord v) = none →
        memWrite a la 4 v s = .ok (.ok ()) (s.regWrite r (loWord v))))) ∧
  (∀ p ∈ [(0x04800000#32, CoreReg.ct 0 0#5), (0x048030F8#32, .ct 3 31#5), (0x04800800#32, .kick 0), (0x04803808#32, .kicki 3),
      (0x04801810#32, .ama4 1), (0x04802828#32, .privCore 2), (0x0480FF38#32, .codebCtrl 3), (0x0480FFA8#32, .datawMask1 1),
      (0x0480FFD8#32, .perfIcore 1), (0x04810018#32, .privSysr 3), (0x04810100#32, .pioReg 0), (0x04820000#32, .hwstatMeta),
      (0x04820570#32, .vecP 3), (0x048237F8#32, .hwvec 127), (0x04830010#32, .tablePhys), (0x04830028#32, .mmuConfig),
      (0x048300B0#32, .directMap 3), (0x04830208#32, .dcPart 1), (0x04831020#32, .coreConfig2), (0x04830778#32, .globalPhys1 3)],
    coreRegAt p.1 = some p.2) ∧
  ∀ (s : State) (w : Word) (u : Tid) (k m : Fin 4) (j : Fin 2) (e : Fin 128),
    (∀ p ∈ [(CoreReg.kick u, 0#32), (.kicki u, 0#32), (.ama4 u, 0x3FFFFFFF#32), (.ama5 u, 0xF8000000#32), (.ama6 u, 0x1FFFFFF0#32),
        (.privCore u, 7#32), (.codebAddr m, 0xFFFFFFFC#32), (.codebCtrl m, 0x90FFFFFF#32), (.datawAddr j, 0xFFFFFFFF#32),
        (.datawCtrl j, 0xFFFFFFFB#32), (.datawMatch0 j, 0xFFFFFFFF#32), (.datawMatch1 j, 0xFFFFFFFF#32), (.datawMask0 j, 0xFFFFFFFF#32),
        (.datawMask1 j, 0xFFFFFFFF#32), (.perfIcore j, 0x30F#32), (.perfCount j, 0xFFFFFFFF#32), (.perfChan j, 0x30F#32),
        (.perfVec j, 0xF#32), (.privSysr u, 0x1D#32), (.pioReg u, 0xFFFFFFFF#32), (.psyReg u, 0xFFFFFFFF#32),
        (.hwlevelExt k, 0xFFFFFFFF#32), (.hwmaskExt k, 0xFFFFFFFF#32), (.vecB u, 0xF#32), (.vecI u, 0xF#32), (.vecP u, 0xF#32),
        (.hwvec e, 0xF#32), (.tablePhys, 0xFFFFFFFD#32), (.dcacheCtrl, 1#32), (.icacheCtrl, 1#32), (.dcacheFlush, 1#32),
        (.icacheFlush, 1#32), (.directMap m, 0xFF80C0DF#32), (.wrComb u, 0x33FF#32), (.dcPart u, 0x8F0FFF0F#32),
        (.icPart u, 0x0F0F0F0F#32), (.localEbCtrl, 0xC0C0#32), (.globalEbCtrl, 0xC0C0#32), (.ebwcCtrl u, 0x77#32),
        (.localPhys0 u, 0xFFC00FDF#32), (.localPhys1 u, 0xFFFFFFFC#32), (.globalPhys0 u, 0xFFC00FDF#32), (.globalPhys1 u, 0xFFFFFFFC#32)],
      (s.regWrite p.1 w).regValue p.1 = w &&& p.2) ∧
    bitsOf ((s.regWrite .mmuConfig w).regValue .mmuConfig) 0 3 = bitsOf w 0 3 ∧
    (s.regWrite .jtagThread w).regValue .jtagThread = maskWrite (s.regValue .jtagThread) w 4#32 ∧
    ∀ r ∈ [CoreReg.metacId, .coreId, .coreRev, .coreConfig2], s.regWrite r w = s

/-! ### Linked accesses, deferred reads, caches -/

/-- A linked read writes the value read to its destination; in MMU bypass mode it is the value in memory, LINK is set and the monitor stands on its
address (43_sync_system.md R566, R568). That the monitor is held as a range of the bytes read is the model's choice (log 11), and so is its
EX-MODE bit, clear in bypass mode, where no entry gives one (log 66), and that no prefetch holds up the read (log 91). -/
def Obligations.LinkedReadsComplete : Prop :=
  ∀ s : State,
    (∀ (d b : Reg) (v : DWord) (s1 : State), s.operandsOk [wr d, rd b] →
      linkedRead (s.accOf s.cur) (s.reg s.cur b) 4 s.advanced = .ok (.ok v) s1 →
      exec (.lnkgetd d b) s = .next ((s1.setReg s.cur d (loWord v)).complete s.cur)) ∧
    (∀ (ra rb b : Reg) (v : DWord) (s1 : State), s.operandsOk [wr ra, wr rb, rd b] →
      linkedRead (s.accOf s.cur) (s.reg s.cur b) 8 s.advanced = .ok (.ok v) s1 →
      exec (.lnkgetl ra rb b) s =
        .next (((s1.setReg s.cur ra (loWord v)).setReg s.cur rb (hiWord v)).complete s.cur)) ∧
    (∀ (t : Tid) (la : Word) (n : Nat), n ∈ [4, 8] → s.unwatched t la none → s.inBypass t la n →
      linkedRead (s.accOf t) la n s = .ok (.ok (Memory.readN s.env.phys la.toNat n))
        (s.modH t fun h => { h with mon := some ⟨la, n, false⟩, link := true }))

/-- A linked write clears LINK. Without LINK nothing is written and bus state 4 is recorded at once; with it the bus answers: where the monitor
stands the write is made and token 2 is owed, else nothing is written and token 4 is owed (43_sync_system.md R567 to R569). In MMU
bypass mode, in a build without spurious failures; the write at this step is log 11, the status recorded without LINK decision D12 (log 61). -/
def Obligations.LinkedWritesComplete : Prop :=
  ∀ (s : State) (c : Cond) (b r : Reg), s.runs c →
    let t := s.cur
    let s0 := s.advanced.modH t fun h => { h with link := false }
    let done (s' : State) : Prop :=
      (s.operandsOk [rd b, rd r] → exec (.lnksetd c b r) s = .next (s'.complete t))
    ((s.th t).h.link = false → done (s0.recordTok ⟨t, false, 4#6, false⟩)) ∧
    ((s.th t).h.link = true → ∀ s1,
      linkedWrite (s.accOf t) (s.reg t b) 4 ((s.reg t r).setWidth 64) s0 = .ok (.ok ()) s1 → done s1) ∧
    (∀ ra rb, s.operandsOk [rd b, rd ra, rd rb] →
      ((s.th t).h.link = false →
        exec (.lnksetl c b ra rb) s = .next ((s0.recordTok ⟨t, false, 4#6, false⟩).complete t)) ∧
      ((s.th t).h.link = true → ∀ s1, linkedWrite (s.accOf t) (s.reg t b) 8 (s.reg t rb ++ s.reg t ra) s0 = .ok (.ok ()) s1 →
        exec (.lnksetl c b ra rb) s = .next (s1.complete t))) ∧
    (∀ (x : State) (la : Word) (n : Nat) (v : DWord), n ∈ [4, 8] → x.unwatched t la (some (n, v)) → x.inBypass t la n →
      x.cfg.lnkSpuriousFail = false →
      let x0 := x.modH t fun h => { h with mon := none }
      let owed (k : BitVec 6) (y : State) : State := y.oweToken ⟨t, false, k, true⟩
      (x.monitorHolds t la = true → linkedWrite (x.accOf t) la n v x = .ok (.ok ()) (owed 2#6 (x0.physStore la n v))) ∧
      (x.monitorHolds t la = false → linkedWrite (x.accOf t) la n v x = .ok (.ok ()) (owed 4#6 x0)))

/-- DEFR returns the deferred bus error routed to its level, else the deferred floating point reasons, else 0; the TXSTAT forms wait for the linked
answers and clear what they return, the TXPOLL forms do neither (43_sync_system.md R571). -/
def Obligations.DeferredReadsComplete : Prop :=
  ∀ (s : State) (d : Reg) (i : Reg → Instr) (l : Level) (wait : Bool),
    (i, l, wait) ∈ [(Instr.defrTxstat, Level.background, true), (.defrTxpoll, .background, false),
      (.defrTxstati, .interrupt, true), (.defrTxpolli, .interrupt, false)] →
    s.operandsOk (instrUses (i d)) →
    let t := s.cur
    let e := (s.th t).ct.txdefr
    (wait = true → s.pendingLnk t ≠ 0 → exec (i d) s = .next (s.blocked t)) ∧
    (wait = false → exec (i d) s = .next ((s.advanced.setReg t d (deferredValue e l)).complete t)) ∧
    (wait = true → s.pendingLnk t = 0 → exec (i d) s =
      .next (((s.advanced.modCt t fun c => { c with txdefr := deferredCleared e l }).setReg t d (deferredValue e l)).complete t)) ∧
    (reasonAt e 23 l = true → deferredValue e l = (e &&& 0xFF000000#32) ||| 0x00800008#32 ∧
      deferredCleared e l = e &&& 0x007FFFFF#32) ∧
    (reasonAt e 23 l = false → ∀ k,
      bitOf (deferredValue e l) k = (if k = 3 then deferredRaw e l else decide (16 ≤ k ∧ k ≤ 21) && reasonAt e k l) ∧
      bitOf (deferredCleared e l) k = (bitOf e k && !(decide (16 ≤ k ∧ k ≤ 21) && routedTo e k l))) ∧
    (deferredRaw e l = false → deferredValue e l = 0#32 ∧ deferredCleared e l = e)

/-- CACHERL returns the mapped page of its address to the pair; outside the translated ranges it still completes, with a value the spec leaves open
(43_sync_system.md R575, 21_mmu_cache.md R341; log 36), with the mask of the page size and Readable above it. DCACHE removes the line of its address from the thread's data cache
partition, in the MMU table region the line behind its window (21_mmu_cache.md R346, R364); CACHEW removes it from both caches and the address's entries from the TLBs; ICACHE requests each line that translates and is cacheable; none of the
three writes a register or memory (R576 to R578). The
concrete cases of DCACHE and CACHEW are in MMU bypass mode. That a valid first-level entry with a reserved size code, or a root with a
reserved Range or a wrong Base, gives the invalid form with FIRST set is the model's choice (log 72), as is the ignored MiniM bit (log 92); the operand forms of the four instructions are general knowledge of the spec (log 22). -/
def Obligations.CacheInstructionsComplete : Prop :=
  ∀ (s s1 : State) (side : CacheSide) (ra rb b r : Reg) (base : AuSrc) (off a : Word) (n : Nat),
    let t := s.cur
    let la := s.reg t b
    let bypass := (regionOf la = .local ∨ regionOf la = .global) ∧ s.core.mmuConfig = 0#3
    let part := s.partOf t (regionOf la == .global)
    (∀ v, s.operandsOk [wr ra, wr rb, rd b] → cacherlValue t side la s.advanced = .ok v s1 →
      exec (.cacherl side ra rb b) s = .next (((s1.setReg t ra (loWord v)).setReg t rb (hiWord v)).complete t)) ∧
    (∀ e ps pa, regionOf la = .local ∨ regionOf la = .global → s.mmuMode side = .active →
      walk (s.accOf t) side la s.advanced = .ok (.mapped e ps pa) s1 →
      ∃ v, cacherlValue t side la s.advanced = .ok v s1 ∧ bitsOf v 12 20 = bitsOf pa 12 20 ∧ bitsOf v 0 12 = bitsOf e 0 12 ∧
        bitsOf v 32 4 = 1#4 ∧ bitsOf v 48 16 = 0#16 ∧
        ∀ k ≤ 10, ps = 4096 * 2 ^ k → bitsOf v 36 12 = BitVec.ofNat 12 (0x1000 - 2 ^ k)) ∧
    (∀ w first, (w, first) ∈ [(Walk.firstInvalid, true), (.secondInvalid, false)] → regionOf la = .local ∨ regionOf la = .global →
      s.mmuMode side = .active → walk (s.accOf t) side la s.advanced = .ok w s1 →
      ∃ v s', cacherlValue t side la s.advanced = .ok v s' ∧ bitOf v 0 = false ∧ bitOf v 2 = first) ∧
    (s.mmuMode side ≠ .active ∨ ¬ (regionOf la = .local ∨ regionOf la = .global) → ∃ v s', cacherlValue t side la s.advanced = .ok v s') ∧
    (∀ x, s.operandsOk [rd b] → dropLinear t .data la s.advanced = .ok x s1 → exec (.dcache b) s = .next (s1.complete t)) ∧
    (s.operandsOk [rd b] → bypass →
      exec (.dcache b) s = .next ((s.advanced.invalidateLine .data part (lineOf la)).complete t)) ∧
    (∀ x, s.operandsOk [rd b] → regionOf la = .mmuTable → rowState .mmuTable (s.mmuMode .data) = .live → s.tableAt la = some x →
      exec (.dcache b) s = .next ((s.advanced.invalidateLine .data (.loc t) (lineOf x.pa)).complete t)) ∧
    (s.operandsOk [rd b, rd r] → bypass → exec (.cachew b r) s =
      .next ((((s.advanced.invalidateLine .data part (lineOf la)).invalidateLine .instruction part (lineOf la)).dropTlb t
        la).complete t)) ∧
    (∀ (x : State) (line : Nat), findLine ((x.invalidateLine side part line).linesOf side part) line = none) ∧
    (s.operandsOk (auSrcUses base) → readAuSrc t (s.pcOf t) base s.advanced = .ok a s.advanced →
      (preloadLines t (alignDown (a + off) 64) n s.advanced = .ok () s1 →
        exec (.icache base off n) s = .next (s1.complete t)) ∧
      (∀ line, line = alignDown (a + off) 64 → regionOf line ∈ [.directMap, .local, .global] → rowState (regionOf line) (s.mmuMode .instruction) = .live →
        (∀ x, Sys2Proof.Machine.translate (s.accOf t) line .fetch s.advanced = .ok (.ok x) s1 →
          exec (.icache base off 1) s = .next ((if x.win = 0#2 then s1 else s1.modH t fun h =>
            { h with ipf := h.ipf ++ [⟨lineOf x.pa, x.glob, true⟩] }).complete t)) ∧
        (∀ e, Sys2Proof.Machine.translate (s.accOf t) line .fetch s.advanced = .ok (.error e) s1 →
          exec (.icache base off 1) s = .next (s1.complete t))) ∧
      (s.core.mmuConfig = 0#3 →
        exec (.icache base off n) s = .next (s.advanced.complete t)))

/-! ### Exceptions, interrupts, triggers -/

/-- An exception of a thread that handles its own (HALT trigger enabled, background level): HReason and FReason are recorded, the HALT trigger is
set, PC and PCX swap, ISTAT is set, PSTAT toggles with PToggle, LINK is cleared, a read pipeline that holds data is marked dirty with CBMarker; the
registers, the flags and LSM_STEP stay (60_exceptions.md R633, R640, R641, R642, R643). Which threads handle their own is decision D46 (log 61), the
wait that leaves no linked answer outstanding, its tokens recorded, log 10. -/
def Obligations.ExceptionHandledByThread : Prop :=
  ∀ (s : State) (t : Tid) (e : Exc), s.ownsHalt t = true →
    let s' := s.takeException t e
    s'.pcOf t = (s.th t).u.pcx ∧ (s'.th t).u.pcx = s.pcOf t ∧ s'.istat t = true ∧
    s'.priv t = (if s.pToggle t then !s.priv t else s.priv t) ∧
    bitsOf (s'.status t) 18 2 = e.hreason ∧ bitsOf (s'.status t) 20 2 = e.freason ∧
    s'.status t &&& 0x0000FFFF#32 = s.status t &&& 0x0000FFFF#32 ∧
    (s'.th t).tr.haltTrig = true ∧ (s'.th t).h.tstate = .run ∧ (s'.th t).h.link = false ∧ s'.pendingLnk t = 0 ∧
    (s'.th t).ct.enabled = (s.th t).ct.enabled ∧ (s'.th t).ct.txrpt = (s.th t).ct.txrpt ∧
    ((s.th t).h.rp ≠ [] → s'.rpDirty t = true ∧ s'.cbMarker t = true) ∧
    (∀ u r, s'.reg u r = s.reg u r) ∧ SameMemory s s'

/-- An exception of any other thread turns it off: ThreadEnable and TStopped are 0, PC, PCX, ISTAT and PSTAT stay, HReason and FReason are recorded,
and the B or I trigger of its level, with the P trigger for a page or protection fault, goes out (60_exceptions.md R640, R641, R642, R645). That
the triggers go out at this transition is decision D46, that PC stays decision D27 (log 61). -/
def Obligations.ExceptionTurnsThreadOff : Prop :=
  ∀ (s : State) (t : Tid) (e : Exc), s.ownsHalt t = false →
    let s' := s.takeException t e
    (s'.th t).h.tstate = .off ∧ (s'.th t).ct.enabled = false ∧ (s'.th t).ct.stopped = false ∧
    s'.pcOf t = s.pcOf t ∧ (s'.th t).u.pcx = (s.th t).u.pcx ∧ s'.istat t = s.istat t ∧ s'.priv t = s.priv t ∧
    bitsOf (s'.status t) 18 2 = e.hreason ∧ bitsOf (s'.status t) 20 2 = e.freason ∧
    s'.status t &&& 0x0000FFFF#32 = s.status t &&& 0x0000FFFF#32 ∧
    bitOf s'.core.hwstatmeta (4 * t.val + (if s.istat t then 1 else 0)) = true ∧
    (e.pageTrigger = true → bitOf s'.core.hwstatmeta (4 * t.val + 2) = true) ∧
    (e.pageTrigger = false → bitOf s'.core.hwstatmeta (4 * t.val + 2) = bitOf s.core.hwstatmeta (4 * t.val + 2)) ∧
    (s'.th t).tr.haltTrig = (s.th t).tr.haltTrig ∧ (∀ u r, s'.reg u r = s.reg u r) ∧ SameMemory s s'

/-- A data exception leaves its transfer in the catch registers: the address in TXCATCH1, the destination, the data and its lanes, or the port of
a pipelined read, the privilege it had, the reason or the watchpoint, with CBMarker, and CB1Marker at interrupt level (60_exceptions.md
R656, 10_state.md R52, R53, R54). The lane mask of a store and the places of its bytes are the spec's own choice (U7). -/
def Obligations.CaughtTransferIsSaved : Prop :=
  ∀ (s : State) (t : Tid) (d : DataExc) (w : Width) (la : Word),
    let saved (x : Xfer) : State := s.takeException t (.data d x)
    let catch0 (x : Xfer) : Word := ((saved x).th t).ct.txcatch0
    let common (x : Xfer) (read : Bool) : Prop :=
      (saved x).cbMarker t = true ∧ ((saved x).th t).ct.txcatch1 = la ∧ bitOf (catch0 x) 9 = s.priv t ∧
      bitOf (catch0 x) 8 = read ∧ (s.istat t = true → bitOf ((saved x).status t) 23 = true) ∧
      (∀ r p, d = .fault r p → bitsOf (catch0 x) 10 2 = r.code ∧ bitOf (catch0 x) 14 = false ∧ bitsOf (catch0 x) 12 2 = p) ∧
      (∀ p, d = .watch p → bitsOf (catch0 x) 10 2 = 0#2 ∧ bitOf (catch0 x) 14 = true ∧ bitsOf (catch0 x) 12 2 = p)
    (∀ num units lnk first, let x := Xfer.load w la num units lnk first
      common x true ∧ bitsOf (catch0 x) 27 5 = num ∧ bitsOf (catch0 x) 16 11 = units ∧
      bitsOf (catch0 x) 0 2 = widthCode w ∧ bitOf (catch0 x) 3 = lnk ∧ bitOf (catch0 x) 2 = first) ∧
    (∀ p : ReadPort, let x := Xfer.issue p la
      common x true ∧ bitsOf (catch0 x) 27 5 = 0#5 ∧ bitsOf (catch0 x) 16 11 = 0#11 ∧ bitsOf (catch0 x) 0 5 = p.num) ∧
    (∀ v : DWord, let x := Xfer.store w la v
      let c := ((saved x).th t).ct
      common x false ∧
      (la.toNat % widthBytes w = 0 →
        (∀ k < 8, bitOf c.txcatch0 k = (decide (la.toNat % 8 ≤ k) && decide (k < la.toNat % 8 + widthBytes w))) ∧
        zextBytes (widthBytes w) (joinWords c.txcatch3 c.txcatch2 >>> (8 * (la.toNat % 8))) = zextBytes (widthBytes w) v))

/-- The replay of the catch state makes the caught transfer again, at its address, with the privilege the thread now has: a load of one register
or of a pair, linked where it was, a store of the bytes its lane mask names, a pipelined read issued again; where nothing is marked there is
none, and one a watchpoint stopped is caught again. A thread in CBRESTORE makes it as its step; when it is done CBMarker, CB1Marker and RPDirty
are clear and the thread runs (60_exceptions.md R652, R658, 61_privilege_platform.md R735). That the replay of a thread turned on is a step of
its own is the model's choice (log 12); the lane mask of a store and the places of its bytes are the spec's own choice (U7), and which
register of a pair takes which half is its decision D38 (log 61). -/
def Obligations.CaughtTransfersAreReplayed : Prop :=
  ∀ (s s1 : State) (t : Tid),
    let c := (s.th t).ct.txcatch0
    let la := (s.th t).ct.txcatch1
    let num : BitVec 5 := bitsOf c 27 5
    let units : BitVec 11 := bitsOf c 16 11
    let made := bitsOf c 10 5 ≠ 0#5 ∧ bitOf c 14 = false
    let reads (n : Nat) (v : DWord) : Prop :=
      (if bitOf c 3 then linkedRead (s.accOf t) la n s else memRead (s.accOf t) la n s) = .ok (.ok v) s1
    (∀ (x s0 : State), configLegal x.cfg = true → x.cfg.dcacheWriteBack = false → x.cfg.cacheType = 0#3 →
      x.nextAction = (.thread t, s0) → s0.eligible t = true → (s0.th t).h.tstate = .cbRestore →
      step x = replayStep t (s0.modEnv fun e => { e with cur := t })) ∧
    (replayTransfer t s = .ok () s1 → (s1.th t).ct.enabled = true →
      let s' := (s1.endReplay t).setRpDirty t false
      replayStep t s = .next s' ∧ s'.cbMarker t = false ∧ bitOf (s'.status t) 23 = false ∧ s'.rpDirty t = false ∧
      ((s1.th t).h.tstate = .cbRestore → (s'.th t).h.tstate = .run)) ∧
    (∀ e, replayTransfer t s = .error (.late e) s1 →
      replayStep t s = .next (((s1.setRpDirty t false).takeException t e).stopIfDisabled t)) ∧
    (∀ (u : UnitId) (v : DWord), made → bitOf c 8 = true → widthOfCode (bitsOf c 0 2) ≠ .lword → units = destBit u →
      u ≠ .fx → u ≠ .port → u ≠ .tt → s.operandStop t [wr ⟨u, num⟩] = none → reads (widthBytes (widthOfCode (bitsOf c 0 2))) v →
      replayTransfer t s = writeReg t ⟨u, num⟩ (loWord v) s1) ∧
    (∀ (p : UnitId × UnitId) (v : DWord), p ∈ [(UnitId.d0, UnitId.d1), (.a0, .a1)] → made → bitOf c 8 = true →
      widthOfCode (bitsOf c 0 2) = .lword → units = destBit p.1 ||| destBit p.2 →
      let ra : Reg := ⟨if bitOf c 2 then p.2 else p.1, num⟩
      let rb : Reg := ⟨if bitOf c 2 then p.1 else p.2, num⟩
      s.operandStop t [wr ra, wr rb] = none → reads 8 v →
      replayTransfer t s = .ok () ((s1.setReg t ra (loWord v)).setReg t rb (hiWord v))) ∧
    (∀ w : Width, made → bitOf c 8 = false → la.toNat % widthBytes w = 0 → bitsOf c 0 8 = laneMask la (widthBytes w) →
      memWrite (s.accOf t) la (widthBytes w) (zextBytes (widthBytes w)
        (joinWords (s.th t).ct.txcatch3 (s.th t).ct.txcatch2 >>> (8 * (la.toNat % 8)))) s = .ok (.ok ()) s1 →
      replayTransfer t s = .ok () s1) ∧
    (∀ p : ReadPort, made → bitOf c 8 = true → units = 0#11 → bitsOf c 0 5 = p.num → s.operandStop t [wr ⟨.port, p.num⟩] = none →
      replayTransfer t s = writePort t p la s) ∧
    (bitsOf c 10 5 = 0#5 → replayTransfer t s = .ok () s) ∧
    (bitOf c 14 = true → replayTransfer t s = .error (.late (.data (.watch (bitsOf c 12 2)) .again)) s)

/-- An interrupt is entered where the next instruction would be, when a visible interrupt trigger meets ISTAT 0: PC and PCX swap, ISTAT is set, PSTAT
toggles with PToggle, LINK is cleared; registers, the rest of TXSTATUS below the markers, masks and latches stay (60_exceptions.md
R630, R633). That it is taken at the first instruction boundary is decision D26 (log 61), the wait that leaves no linked answer outstanding, its
tokens recorded, log 10. -/
def Obligations.InterruptsAreEntered : Prop :=
  ∀ (s : State) (t : Tid),
    let s' := s.interruptEntry t
    (s.interruptDue t = true ↔ ((s.th t).h.tstate = .run ∨ (s.th t).h.tstate = .halted) ∧ s.istat t = false ∧
      s.visTriggers t .interrupt ≠ 0#16) ∧
    (∀ s0, configLegal s.cfg = true → s.cfg.dcacheWriteBack = false → s.cfg.cacheType = 0#3 →
      s.nextAction = (.thread t, s0) → s0.eligible t = true → s0.interruptDue t = true →
      step s = .next ((s0.modEnv fun e => { e with cur := t }).interruptEntry t)) ∧
    (s'.pcOf t = (s.th t).u.pcx ∧ (s'.th t).u.pcx = s.pcOf t ∧ s'.istat t = true ∧ (s'.th t).h.tstate = .run ∧
      s'.priv t = (if s.pToggle t then !s.priv t else s.priv t) ∧ (s'.th t).h.link = false ∧ s'.pendingLnk t = 0 ∧
      s'.status t &&& 0xFFBCFFFF#32 = s.status t &&& 0xFFBCFFFF#32 ∧
      ((s.th t).h.rp ≠ [] → s'.rpDirty t = true ∧ s'.cbMarker t = true) ∧
      (s'.th t).tr = (s.th t).tr ∧ s'.shared = s.shared ∧ (∀ u r, s'.reg u r = s.reg u r) ∧ SameMemory s s')

/-- The raw and the visible triggers of a thread and level, bit by bit (60_exceptions.md R616). -/
def Obligations.TriggerBits : Prop :=
  ∀ (s : State) (t : Tid) (l : Level),
    (∀ i, 4 ≤ i → i < 16 → bitOf (s.rawTriggers t l) i = bitOf s.shared.hwtrig i) ∧
    (bitOf (s.rawTriggers t l) 3 = true ↔ ∃ r ∈ [23, 21, 20, 19, 18, 17, 16], bitOf (s.th t).ct.txdefr r = true ∧
      (bitOf (s.th t).ct.txdefr (if r = 23 then 7 else r - 16) = true ↔ l = .interrupt)) ∧
    (bitOf (s.rawTriggers t l) 2 = true ↔ l = .interrupt ∧ (s.th t).tr.haltTrig = true) ∧
    (bitOf (s.rawTriggers t .background) 1 = true ↔ (s.th t).tr.kick ≠ 0#16) ∧
    (bitOf (s.rawTriggers t .interrupt) 1 = true ↔ (s.th t).tr.kicki ≠ 0#16) ∧
    bitOf (s.rawTriggers t .background) 0 = (s.th t).tr.timerTrig ∧
    bitOf (s.rawTriggers t .interrupt) 0 = (s.th t).tr.timerTrigI ∧
    s.maskOf t .interrupt = (s.th t).tr.maski ∧ bitOf (s.maskOf t .background) 2 = false ∧
    (∀ i, i ≠ 2 → bitOf (s.maskOf t .background) i = bitOf (s.th t).tr.mask i) ∧
    (∀ i, bitOf (s.visTriggers t l) i = (bitOf (s.rawTriggers t l) i && bitOf (s.maskOf t l) i))

/-- The priority of triggers within one level: 15 down to 4, then 1, 0, 3, 2 (60_exceptions.md R626). -/
def Obligations.TriggerPriority : Prop :=
  ∀ v : BitVec 16, (highestTrigger v = none ↔ v = 0#16) ∧
    ∀ i, highestTrigger v = some i ↔ ∃ before after,
      [15, 14, 13, 12, 11, 10, 9, 8, 7, 6, 5, 4, 1, 0, 3, 2] = before ++ i :: after ∧ bitOf v i = true ∧
      ∀ j ∈ before, bitOf v j = false

/-- What a trigger read returns and a passed blocking read changes: the visible triggers below, above them the deferred status where it is the highest,
else the kick count where kicks are selected; one kick is taken where kicks are the highest, and at interrupt level IRQEnc names the
highest (60_exceptions.md R621, R622, R626). That the count is shown only with mask bit 1 is decision D8 (log 61), IRQEnc in bits 27:24 the
general-knowledge layout of the spec (log 20). -/
def Obligations.TriggerReads : Prop :=
  ∀ (s : State) (t : Tid) (l : Level),
    bitsOf (s.triggerValue t l) 0 16 = s.visTriggers t l ∧
    (highestTrigger (s.visTriggers t l) = some 3 →
      bitsOf (s.triggerValue t l) 16 16 = deferredStatus (s.th t).ct.txdefr l) ∧
    (highestTrigger (s.visTriggers t l) ≠ some 3 →
      bitsOf (s.triggerValue t l) 16 16 = if bitOf (s.maskOf t l) 1 then s.kickOf t l else 0#16) ∧
    (∀ i, highestTrigger (s.visTriggers t l) = some i →
      (s.passTriggerRead t l).kickOf t l = (if i = 1 then s.kickOf t l - 1#16 else s.kickOf t l) ∧
      (l = .interrupt → bitsOf ((s.passTriggerRead t l).th t).ct.txdivtime 24 4 = BitVec.ofNat 4 i) ∧
      (l = .background → (s.passTriggerRead t l).th t = { s.th t with tr := ((s.passTriggerRead t l).th t).tr }))

/-- Acknowledging: a written 1 clears a latch that the level's mask selects, no other; kicks are not changed; the deferred reasons of the
value are cleared only with bit 3, each that is named and routed to the level, the bus error with its state in bits 31:24 of TXDEFR (60_exceptions.md
R624, R665). A kick adds to its thread's counter up to 0xFFFF (11_core_registers.md R130, R131;
the saturation is the spec's choice, log 48). -/
def Obligations.TriggersAcknowledgedAndKicked : Prop :=
  ∀ (s : State) (t n : Tid) (l : Level) (w : Word),
    let s' := s.ackTriggers t l w
    (∀ i, 4 ≤ i → i < 16 → bitOf s'.shared.hwtrig i = (bitOf s.shared.hwtrig i && !(bitOf w i && bitOf (s.maskOf t l) i))) ∧
    (s'.th t).tr.timerTrig = ((s.th t).tr.timerTrig && !(l == .background && bitOf w 0 && bitOf (s.maskOf t l) 0)) ∧
    (s'.th t).tr.timerTrigI = ((s.th t).tr.timerTrigI && !(l == .interrupt && bitOf w 0 && bitOf (s.maskOf t l) 0)) ∧
    (s'.th t).tr.haltTrig = ((s.th t).tr.haltTrig && !(l == .interrupt && bitOf w 2 && bitOf (s.maskOf t l) 2)) ∧
    (s'.th t).tr.kick = (s.th t).tr.kick ∧ (s'.th t).tr.kicki = (s.th t).tr.kicki ∧
    let d := (s.th t).ct.txdefr
    let d' := (s'.th t).ct.txdefr
    let cleared (r : Nat) : Bool := bitOf w 3 && bitOf w r && (bitOf d (if r = 23 then 7 else r - 16) == (l == .interrupt))
    (s'.th t).ct = { (s.th t).ct with txdefr := d' } ∧ (bitOf w 3 = false → d' = d) ∧
    (∀ r ∈ [23, 21, 20, 19, 18, 17, 16], bitOf d' r = (bitOf d r && !cleared r)) ∧
    bitsOf d' 24 8 = (if cleared 23 then 0#8 else bitsOf d 24 8) ∧ bitsOf d' 0 16 = bitsOf d 0 16 ∧ bitOf d' 22 = bitOf d 22 ∧
    (∀ u, u ≠ t → s'.th u = s.th u) ∧
    ((s.kick n l w).kickOf n l).toNat = min ((s.kickOf n l).toNat + w.toNat % 65536) 65535 ∧
    s.regWrite (.kick n) w = s.kick n .background w ∧ s.regWrite (.kicki n) w = s.kick n .interrupt w

/-- A tick of the base clock: the prescale counter counts to the divider, 0 standing for 256; then both timers count up, a timer that
rolls over to 0 sets its level's trigger (61_privilege_platform.md R716, R717, R718). That 0 stands for 256 is general knowledge of the spec (log
20), the prescale counter decision D6 (log 61), the tick of a counter that is already past a divider made smaller log 73. -/
def Obligations.TimersTick : Prop :=
  ∀ x : Thread,
    let f := (bitsOf x.ct.txdivtime 0 8).toNat
    let divider := if f = 0 then 256 else f
    (x.h.prescale.toNat + 1 < divider →
      x.timerTick = { x with h := { x.h with prescale := x.h.prescale + 1#8 } } ∧
      (x.timerTick.h.prescale).toNat = x.h.prescale.toNat + 1) ∧
    (divider ≤ x.h.prescale.toNat + 1 →
      x.timerTick.h = { x.h with prescale := 0#8 } ∧
      x.timerTick.ct = { x.ct with txtimer := x.ct.txtimer + 1#32, txtimeri := x.ct.txtimeri + 1#32 } ∧
      (x.timerTick.tr.timerTrig = true ↔ x.tr.timerTrig = true ∨ x.timerTick.ct.txtimer = 0#32) ∧
      (x.timerTick.tr.timerTrigI = true ↔ x.tr.timerTrigI = true ∨ x.timerTick.ct.txtimeri = 0#32) ∧
      x.timerTick.u = x.u ∧ x.timerTick.mm = x.mm)
end

