-- ==== Sys2Proof/Laws/Bits.lean ====
section
/-! SUPPORT. Bit fields: what a masked write leaves and what it changes. -/

namespace Sys2Proof.Machine

/-- Of two masks without a common bit, the second has none of the first's. -/
theorem clear_of_disjoint {m k : Word} (h : m &&& k = 0#32) {j : Nat} (hj : j < 32) (hm : m[j] = true) : k[j] = false := by
  have e : (m &&& k)[j] = false := by simp [h]
  rw [BitVec.getElem_and, hm] at e
  exact e

/-- Bits outside the mask keep their old value. -/
theorem maskWrite_and {old new m k : Word} (h : m &&& k = 0#32) : maskWrite old new m &&& k = old &&& k := by
  ext j hj
  cases hm : m[j] with
  | false => simp [maskWrite, hm]
  | true => simp [maskWrite, hm, clear_of_disjoint h hj hm]

theorem or_and_of_disjoint {w m k : Word} (h : m &&& k = 0#32) : (w ||| m) &&& k = w &&& k := by
  ext j hj
  cases hm : m[j] with
  | false => simp [hm]
  | true => simp [hm, clear_of_disjoint h hj hm]

theorem andNot_and_of_disjoint {w m k : Word} (h : m &&& k = 0#32) : (w &&& ~~~m) &&& k = w &&& k := by
  ext j hj
  cases hm : m[j] with
  | false => simp [hm]
  | true => simp [hm, clear_of_disjoint h hj hm]

theorem withBits_and {w k : Word} {lo n : Nat} {v : BitVec n}
    (h : ((BitVec.allOnes n).setWidth 32 <<< lo) &&& k = 0#32) : withBits w lo n v &&& k = w &&& k := maskWrite_and h

theorem withBit_and {w k : Word} {i : Nat} {b : Bool} (h : (1#32 <<< i) &&& k = 0#32) : withBit w i b &&& k = w &&& k := by
  unfold withBit
  cases b
  · exact andNot_and_of_disjoint h
  · exact or_and_of_disjoint h

theorem low4_or {m g : BitVec 16} (hm : m &&& 0x000F#16 = 0#16) (hg : g &&& 0x000F#16 = 0#16) : (g ||| m) &&& 0x000F#16 = 0#16 := by
  rw [BitVec.and_comm, BitVec.and_or_distrib_left, BitVec.and_comm, hg, BitVec.and_comm, hm]; rfl

theorem low4_and {m g : BitVec 16} (hg : g &&& 0x000F#16 = 0#16) : (g &&& m) &&& 0x000F#16 = 0#16 := by
  rw [BitVec.and_assoc, BitVec.and_comm m, ← BitVec.and_assoc, hg, BitVec.zero_and]

/-- A bit made `b` reads as `b`. -/
theorem bitOf_withBit_self {w : Word} {i : Nat} {b : Bool} (hi : i < 32) : bitOf (withBit w i b) i = b := by
  unfold bitOf withBit
  cases b <;> simp [hi]

/-- Another bit reads as before. -/
theorem bitOf_withBit_of_ne {w : Word} {i j : Nat} {b : Bool} (hj : j ≠ i) : bitOf (withBit w i b) j = bitOf w j := by
  have h1 : (1#32 <<< i).getLsbD j = false := by
    rw [BitVec.getLsbD_shiftLeft]
    by_cases hji : j < i
    · simp [hji]
    · have : ¬ j - i = 0 := by omega
      simp [BitVec.getLsbD_one, this]
  unfold bitOf withBit
  cases b
  · simp only [Bool.false_eq_true, if_false, BitVec.getLsbD_and, BitVec.getLsbD_not, h1]
    by_cases h : j < 32
    · simp [h]
    · rw [BitVec.getLsbD_of_ge _ _ (by omega)]; rfl
  · simp only [if_true, BitVec.getLsbD_or, h1, Bool.or_false]

end Sys2Proof.Machine
end

