-- ==== Sys2Proof/Laws/State.lean ====
section
/-! SUPPORT. What every update of a part of the state leaves: one lemma per field per update. -/

namespace Sys2Proof.Machine

/-! ### Threads -/

@[simp] theorem State.th_modTh_self (s : State) (t : Tid) (f : Thread → Thread) : (s.modTh t f).th t = f (s.th t) := by
  simp [State.th, State.modTh]

theorem State.th_modTh_of_ne {s : State} {t u : Tid} {f : Thread → Thread} (h : u ≠ t) : (s.modTh t f).th u = s.th u := by
  have h' : t.val ≠ u.val := fun e => h (Fin.ext e.symm)
  simp [State.th, State.modTh, h']

theorem State.th_modTh (s : State) (t u : Tid) (f : Thread → Thread) :
    (s.modTh t f).th u = if u = t then f (s.th u) else s.th u := by
  by_cases h : u = t
  · subst h; simp
  · simp [h, State.th_modTh_of_ne h]

@[simp] theorem State.cfg_modTh (s : State) (t : Tid) (f : Thread → Thread) : (s.modTh t f).cfg = s.cfg := rfl

@[simp] theorem State.shared_modTh (s : State) (t : Tid) (f : Thread → Thread) : (s.modTh t f).shared = s.shared := rfl

@[simp] theorem State.core_modTh (s : State) (t : Tid) (f : Thread → Thread) : (s.modTh t f).core = s.core := rfl

@[simp] theorem State.env_modTh (s : State) (t : Tid) (f : Thread → Thread) : (s.modTh t f).env = s.env := rfl

/-! ### modU -/

@[simp] theorem State.cfg_modU (s : State) (t : Tid) (f : Units → Units) : (s.modU t f).cfg = s.cfg := rfl

@[simp] theorem State.shared_modU (s : State) (t : Tid) (f : Units → Units) : (s.modU t f).shared = s.shared := rfl

@[simp] theorem State.core_modU (s : State) (t : Tid) (f : Units → Units) : (s.modU t f).core = s.core := rfl

@[simp] theorem State.env_modU (s : State) (t : Tid) (f : Units → Units) : (s.modU t f).env = s.env := rfl

@[simp] theorem State.ct_modU (s : State) (t v : Tid) (f : Units → Units) : ((s.modU t f).th v).ct = (s.th v).ct := by
  by_cases h : v = t <;> simp [State.modU, State.th_modTh, h]

@[simp] theorem State.tr_modU (s : State) (t v : Tid) (f : Units → Units) : ((s.modU t f).th v).tr = (s.th v).tr := by
  by_cases h : v = t <;> simp [State.modU, State.th_modTh, h]

@[simp] theorem State.mm_modU (s : State) (t v : Tid) (f : Units → Units) : ((s.modU t f).th v).mm = (s.th v).mm := by
  by_cases h : v = t <;> simp [State.modU, State.th_modTh, h]

@[simp] theorem State.h_modU (s : State) (t v : Tid) (f : Units → Units) : ((s.modU t f).th v).h = (s.th v).h := by
  by_cases h : v = t <;> simp [State.modU, State.th_modTh, h]

@[simp] theorem State.u_modU_self (s : State) (t : Tid) (f : Units → Units) : ((s.modU t f).th t).u = f (s.th t).u := by
  simp [State.modU]

theorem State.u_modU_of_ne {s : State} {t v : Tid} {f : Units → Units} (h : v ≠ t) :
    ((s.modU t f).th v).u = (s.th v).u := by simp [State.modU, State.th_modTh_of_ne h]

theorem State.u_modU (s : State) (t v : Tid) (f : Units → Units) :
    ((s.modU t f).th v).u = if v = t then f (s.th v).u else (s.th v).u := by
  by_cases h : v = t <;> simp [State.modU, State.th_modTh, h]

/-! ### modCt -/

@[simp] theorem State.cfg_modCt (s : State) (t : Tid) (f : Ctrl → Ctrl) : (s.modCt t f).cfg = s.cfg := rfl

@[simp] theorem State.shared_modCt (s : State) (t : Tid) (f : Ctrl → Ctrl) : (s.modCt t f).shared = s.shared := rfl

@[simp] theorem State.core_modCt (s : State) (t : Tid) (f : Ctrl → Ctrl) : (s.modCt t f).core = s.core := rfl

@[simp] theorem State.env_modCt (s : State) (t : Tid) (f : Ctrl → Ctrl) : (s.modCt t f).env = s.env := rfl

@[simp] theorem State.u_modCt (s : State) (t v : Tid) (f : Ctrl → Ctrl) : ((s.modCt t f).th v).u = (s.th v).u := by
  by_cases h : v = t <;> simp [State.modCt, State.th_modTh, h]

@[simp] theorem State.tr_modCt (s : State) (t v : Tid) (f : Ctrl → Ctrl) : ((s.modCt t f).th v).tr = (s.th v).tr := by
  by_cases h : v = t <;> simp [State.modCt, State.th_modTh, h]

@[simp] theorem State.mm_modCt (s : State) (t v : Tid) (f : Ctrl → Ctrl) : ((s.modCt t f).th v).mm = (s.th v).mm := by
  by_cases h : v = t <;> simp [State.modCt, State.th_modTh, h]

@[simp] theorem State.h_modCt (s : State) (t v : Tid) (f : Ctrl → Ctrl) : ((s.modCt t f).th v).h = (s.th v).h := by
  by_cases h : v = t <;> simp [State.modCt, State.th_modTh, h]

@[simp] theorem State.ct_modCt_self (s : State) (t : Tid) (f : Ctrl → Ctrl) : ((s.modCt t f).th t).ct = f (s.th t).ct := by
  simp [State.modCt]

theorem State.ct_modCt_of_ne {s : State} {t v : Tid} {f : Ctrl → Ctrl} (h : v ≠ t) :
    ((s.modCt t f).th v).ct = (s.th v).ct := by simp [State.modCt, State.th_modTh_of_ne h]

theorem State.ct_modCt (s : State) (t v : Tid) (f : Ctrl → Ctrl) :
    ((s.modCt t f).th v).ct = if v = t then f (s.th v).ct else (s.th v).ct := by
  by_cases h : v = t <;> simp [State.modCt, State.th_modTh, h]

/-! ### modTr -/

@[simp] theorem State.cfg_modTr (s : State) (t : Tid) (f : Trig → Trig) : (s.modTr t f).cfg = s.cfg := rfl

@[simp] theorem State.shared_modTr (s : State) (t : Tid) (f : Trig → Trig) : (s.modTr t f).shared = s.shared := rfl

@[simp] theorem State.core_modTr (s : State) (t : Tid) (f : Trig → Trig) : (s.modTr t f).core = s.core := rfl

@[simp] theorem State.env_modTr (s : State) (t : Tid) (f : Trig → Trig) : (s.modTr t f).env = s.env := rfl

@[simp] theorem State.u_modTr (s : State) (t v : Tid) (f : Trig → Trig) : ((s.modTr t f).th v).u = (s.th v).u := by
  by_cases h : v = t <;> simp [State.modTr, State.th_modTh, h]

@[simp] theorem State.ct_modTr (s : State) (t v : Tid) (f : Trig → Trig) : ((s.modTr t f).th v).ct = (s.th v).ct := by
  by_cases h : v = t <;> simp [State.modTr, State.th_modTh, h]

@[simp] theorem State.mm_modTr (s : State) (t v : Tid) (f : Trig → Trig) : ((s.modTr t f).th v).mm = (s.th v).mm := by
  by_cases h : v = t <;> simp [State.modTr, State.th_modTh, h]

@[simp] theorem State.h_modTr (s : State) (t v : Tid) (f : Trig → Trig) : ((s.modTr t f).th v).h = (s.th v).h := by
  by_cases h : v = t <;> simp [State.modTr, State.th_modTh, h]

@[simp] theorem State.tr_modTr_self (s : State) (t : Tid) (f : Trig → Trig) : ((s.modTr t f).th t).tr = f (s.th t).tr := by
  simp [State.modTr]

theorem State.tr_modTr_of_ne {s : State} {t v : Tid} {f : Trig → Trig} (h : v ≠ t) :
    ((s.modTr t f).th v).tr = (s.th v).tr := by simp [State.modTr, State.th_modTh_of_ne h]

theorem State.tr_modTr (s : State) (t v : Tid) (f : Trig → Trig) :
    ((s.modTr t f).th v).tr = if v = t then f (s.th v).tr else (s.th v).tr := by
  by_cases h : v = t <;> simp [State.modTr, State.th_modTh, h]

/-! ### modMm -/

@[simp] theorem State.cfg_modMm (s : State) (t : Tid) (f : ThreadRegs → ThreadRegs) : (s.modMm t f).cfg = s.cfg := rfl

@[simp] theorem State.shared_modMm (s : State) (t : Tid) (f : ThreadRegs → ThreadRegs) : (s.modMm t f).shared = s.shared := rfl

@[simp] theorem State.core_modMm (s : State) (t : Tid) (f : ThreadRegs → ThreadRegs) : (s.modMm t f).core = s.core := rfl

@[simp] theorem State.env_modMm (s : State) (t : Tid) (f : ThreadRegs → ThreadRegs) : (s.modMm t f).env = s.env := rfl

@[simp] theorem State.u_modMm (s : State) (t v : Tid) (f : ThreadRegs → ThreadRegs) : ((s.modMm t f).th v).u = (s.th v).u := by
  by_cases h : v = t <;> simp [State.modMm, State.th_modTh, h]

@[simp] theorem State.ct_modMm (s : State) (t v : Tid) (f : ThreadRegs → ThreadRegs) : ((s.modMm t f).th v).ct = (s.th v).ct := by
  by_cases h : v = t <;> simp [State.modMm, State.th_modTh, h]

@[simp] theorem State.tr_modMm (s : State) (t v : Tid) (f : ThreadRegs → ThreadRegs) : ((s.modMm t f).th v).tr = (s.th v).tr := by
  by_cases h : v = t <;> simp [State.modMm, State.th_modTh, h]

@[simp] theorem State.h_modMm (s : State) (t v : Tid) (f : ThreadRegs → ThreadRegs) : ((s.modMm t f).th v).h = (s.th v).h := by
  by_cases h : v = t <;> simp [State.modMm, State.th_modTh, h]

@[simp] theorem State.mm_modMm_self (s : State) (t : Tid) (f : ThreadRegs → ThreadRegs) : ((s.modMm t f).th t).mm = f (s.th t).mm := by
  simp [State.modMm]

theorem State.mm_modMm_of_ne {s : State} {t v : Tid} {f : ThreadRegs → ThreadRegs} (h : v ≠ t) :
    ((s.modMm t f).th v).mm = (s.th v).mm := by simp [State.modMm, State.th_modTh_of_ne h]

theorem State.mm_modMm (s : State) (t v : Tid) (f : ThreadRegs → ThreadRegs) :
    ((s.modMm t f).th v).mm = if v = t then f (s.th v).mm else (s.th v).mm := by
  by_cases h : v = t <;> simp [State.modMm, State.th_modTh, h]

/-! ### modH -/

@[simp] theorem State.cfg_modH (s : State) (t : Tid) (f : Hidden → Hidden) : (s.modH t f).cfg = s.cfg := rfl

@[simp] theorem State.shared_modH (s : State) (t : Tid) (f : Hidden → Hidden) : (s.modH t f).shared = s.shared := rfl

@[simp] theorem State.core_modH (s : State) (t : Tid) (f : Hidden → Hidden) : (s.modH t f).core = s.core := rfl

@[simp] theorem State.env_modH (s : State) (t : Tid) (f : Hidden → Hidden) : (s.modH t f).env = s.env := rfl

@[simp] theorem State.u_modH (s : State) (t v : Tid) (f : Hidden → Hidden) : ((s.modH t f).th v).u = (s.th v).u := by
  by_cases h : v = t <;> simp [State.modH, State.th_modTh, h]

@[simp] theorem State.ct_modH (s : State) (t v : Tid) (f : Hidden → Hidden) : ((s.modH t f).th v).ct = (s.th v).ct := by
  by_cases h : v = t <;> simp [State.modH, State.th_modTh, h]

@[simp] theorem State.tr_modH (s : State) (t v : Tid) (f : Hidden → Hidden) : ((s.modH t f).th v).tr = (s.th v).tr := by
  by_cases h : v = t <;> simp [State.modH, State.th_modTh, h]

@[simp] theorem State.mm_modH (s : State) (t v : Tid) (f : Hidden → Hidden) : ((s.modH t f).th v).mm = (s.th v).mm := by
  by_cases h : v = t <;> simp [State.modH, State.th_modTh, h]

@[simp] theorem State.h_modH_self (s : State) (t : Tid) (f : Hidden → Hidden) : ((s.modH t f).th t).h = f (s.th t).h := by
  simp [State.modH]

theorem State.h_modH_of_ne {s : State} {t v : Tid} {f : Hidden → Hidden} (h : v ≠ t) :
    ((s.modH t f).th v).h = (s.th v).h := by simp [State.modH, State.th_modTh_of_ne h]

theorem State.h_modH (s : State) (t v : Tid) (f : Hidden → Hidden) :
    ((s.modH t f).th v).h = if v = t then f (s.th v).h else (s.th v).h := by
  by_cases h : v = t <;> simp [State.modH, State.th_modTh, h]

/-! ### modShared -/

@[simp] theorem State.th_modShared (s : State) (t : Tid) (f : Shared → Shared) : (s.modShared f).th t = s.th t := rfl

@[simp] theorem State.thr_modShared (s : State) (f : Shared → Shared) : (s.modShared f).thr = s.thr := rfl

@[simp] theorem State.cfg_modShared (s : State) (f : Shared → Shared) : (s.modShared f).cfg = s.cfg := rfl

@[simp] theorem State.shared_modShared (s : State) (f : Shared → Shared) : (s.modShared f).shared = f s.shared := rfl

@[simp] theorem State.core_modShared (s : State) (f : Shared → Shared) : (s.modShared f).core = s.core := rfl

@[simp] theorem State.env_modShared (s : State) (f : Shared → Shared) : (s.modShared f).env = s.env := rfl

/-! ### modCore -/

@[simp] theorem State.th_modCore (s : State) (t : Tid) (f : CoreRegs → CoreRegs) : (s.modCore f).th t = s.th t := rfl

@[simp] theorem State.thr_modCore (s : State) (f : CoreRegs → CoreRegs) : (s.modCore f).thr = s.thr := rfl

@[simp] theorem State.cfg_modCore (s : State) (f : CoreRegs → CoreRegs) : (s.modCore f).cfg = s.cfg := rfl

@[simp] theorem State.shared_modCore (s : State) (f : CoreRegs → CoreRegs) : (s.modCore f).shared = s.shared := rfl

@[simp] theorem State.core_modCore (s : State) (f : CoreRegs → CoreRegs) : (s.modCore f).core = f s.core := rfl

@[simp] theorem State.env_modCore (s : State) (f : CoreRegs → CoreRegs) : (s.modCore f).env = s.env := rfl

/-! ### modEnv -/

@[simp] theorem State.th_modEnv (s : State) (t : Tid) (f : Env → Env) : (s.modEnv f).th t = s.th t := rfl

@[simp] theorem State.thr_modEnv (s : State) (f : Env → Env) : (s.modEnv f).thr = s.thr := rfl

@[simp] theorem State.cfg_modEnv (s : State) (f : Env → Env) : (s.modEnv f).cfg = s.cfg := rfl

@[simp] theorem State.shared_modEnv (s : State) (f : Env → Env) : (s.modEnv f).shared = s.shared := rfl

@[simp] theorem State.core_modEnv (s : State) (f : Env → Env) : (s.modEnv f).core = s.core := rfl

@[simp] theorem State.env_modEnv (s : State) (f : Env → Env) : (s.modEnv f).env = f s.env := rfl

end Sys2Proof.Machine
end

