-- ==== Sys2Proof/Laws/Monad.lean ====
section
/-! SUPPORT. How the computations of an instruction run, and the rules for a property of the state that a computation keeps. -/

namespace Sys2Proof.Machine

/-! ### Running -/

@[simp] theorem M.pure_run {α : Type} (a : α) (s : State) : (pure a : M α) s = .ok a s := rfl

/-- The rest of a computation, carried on from what its first part answered: a stop ends it there. -/
def carryOn {α β : Type} : EStateM.Result Stop State α → (α → M β) → EStateM.Result Stop State β
  | .ok v now, rest => rest v now
  | .error why now, _ => .error why now

section
variable {α β : Type} {now : State} {part : M α} {rest : α → M β}

theorem M.bind_run (part : M α) (rest : α → M β) (now : State) : (part >>= rest) now = carryOn (part now) rest := by
  show EStateM.bind part rest now = _
  unfold EStateM.bind
  cases part now <;> rfl

@[simp] theorem M.bind_ok {v : α} {then' : State} (first : part now = .ok v then') : (part >>= rest) now = rest v then' :=
  (M.bind_run part rest now).trans (first ▸ rfl)

theorem M.bind_error {why : Stop} {then' : State} (first : part now = .error why then') :
    (part >>= rest) now = .error why then' :=
  (M.bind_run part rest now).trans (first ▸ rfl)

end

@[simp] theorem me_run (s : State) : me s = .ok s.cur s := rfl
@[simp] theorem update_run (f : State → State) (s : State) : update f s = .ok () (f s) := rfl
@[simp] theorem view_run {α : Type} (f : State → α) (s : State) : view f s = .ok (f s) s := rfl
@[simp] theorem raise_run {α : Type} (e : Exc) (s : State) : (raise e : M α) s = .error (.exc e) s := rfl
@[simp] theorem raiseLate_run {α : Type} (e : Exc) (s : State) : (raiseLate e : M α) s = .error (.late e) s := rfl
@[simp] theorem block_run {α : Type} (s : State) : (block : M α) s = .error .block s := rfl
@[simp] theorem refuse_run {α : Type} (r : Refusal) (s : State) : (refuse r : M α) s = .error (.refused r) s := rfl
@[simp] theorem drawFree_run (s : State) :
    drawFree s = .ok (Config.free s.env.freeCtr) (s.modEnv fun v => { v with freeCtr := v.freeCtr + 1 }) := rfl

@[simp] theorem me_bind {β : Type} (f : Tid → M β) (s : State) : (me >>= f) s = f s.cur s := rfl
@[simp] theorem update_bind {β : Type} (g : State → State) (f : Unit → M β) (s : State) :
    (update g >>= f) s = f () (g s) := rfl
@[simp] theorem view_bind {α β : Type} (g : State → α) (f : α → M β) (s : State) : (view g >>= f) s = f (g s) s := rfl
@[simp] theorem pure_bind_run {α β : Type} (a : α) (f : α → M β) (s : State) : ((pure a : M α) >>= f) s = f a s := rfl
@[simp] theorem raise_bind {α β : Type} (e : Exc) (f : α → M β) (s : State) :
    ((raise e : M α) >>= f) s = .error (.exc e) s := rfl
@[simp] theorem raiseLate_bind {α β : Type} (e : Exc) (f : α → M β) (s : State) :
    ((raiseLate e : M α) >>= f) s = .error (.late e) s := rfl
@[simp] theorem block_bind {α β : Type} (f : α → M β) (s : State) : ((block : M α) >>= f) s = .error .block s := rfl
@[simp] theorem refuse_bind {α β : Type} (r : Refusal) (f : α → M β) (s : State) :
    ((refuse r : M α) >>= f) s = .error (.refused r) s := rfl
@[simp] theorem drawFree_bind {β : Type} (f : DWord → M β) (s : State) :
    (drawFree >>= f) s = f (Config.free s.env.freeCtr) (s.modEnv fun v => { v with freeCtr := v.freeCtr + 1 }) := rfl

/-! ### A property of the state that a computation keeps -/

/-- The state a computation ends in, however it ends. -/
def endState {α : Type} : EStateM.Result Stop State α → State
  | .ok _ s => s
  | .error _ s => s

/-- Whatever a computation answers, a state with `P` ends in a state with `P`. -/
def Keeps {α : Type} (P : State → Prop) (x : M α) : Prop := ∀ s, P s → P (endState (x s))

/-- The rest of an instruction, after a first part that ends in `P`. -/
theorem endState_afterwards {P : State → Prop} {x r : M Unit} {now : State} (hx : P (endState (x now))) (hr : Keeps P r) :
    P (endState (afterwards x r now)) := by
  unfold afterwards
  match x now, hx with
  | .ok _ _, h' => exact hr _ h'
  | .error (.exc _) _, h' | .error .block _, h' | .error (.refused _) _, h' => exact h'
  | .error (.late _) mid, h' =>
    have h2 := hr mid h'
    dsimp only
    match r mid, h2 with
    | .ok _ _, h3 | .error _ _, h3 => exact h3

/-- A computation, after a first part that ends in `P`. -/
theorem endState_bind {α β : Type} {P : State → Prop} {part : M α} {rest : α → M β} {now : State} (hp : P (endState (part now)))
    (hr : ∀ v, Keeps P (rest v)) : P (endState ((part >>= rest) now)) := by
  rw [M.bind_run]
  exact match part now, hp with
  | .ok v mid, hm => hr v mid hm
  | .error _ _, hm => hm

namespace Keeps

variable {α β : Type} {P : State → Prop}

theorem pure (a : α) : Keeps P (Pure.pure a : M α) := fun _ h => h
theorem me : Keeps P Machine.me := fun _ h => h
theorem view (f : State → α) : Keeps P (Machine.view f) := fun _ h => h
theorem raise (e : Exc) : Keeps P (Machine.raise e : M α) := fun _ h => h
theorem raiseLate (e : Exc) : Keeps P (Machine.raiseLate e : M α) := fun _ h => h
theorem block : Keeps P (Machine.block : M α) := fun _ h => h
theorem refuse (r : Refusal) : Keeps P (Machine.refuse r : M α) := fun _ h => h
theorem update {f : State → State} (h : ∀ s, P s → P (f s)) : Keeps P (Machine.update f) := fun s hs => h s hs

theorem bind {part : M α} {rest : α → M β} (hp : Keeps P part) (hr : ∀ v, Keeps P (rest v)) : Keeps P (part >>= rest) :=
  fun now hn => endState_bind (hp now hn) hr

theorem ite {c : Prop} [Decidable c] {yes no : M α} (hy : Keeps P yes) (hn : Keeps P no) : Keeps P (if c then yes else no) := by
  by_cases hc : c
  · rw [if_pos hc]; exact hy
  · rw [if_neg hc]; exact hn

theorem drawFree (h : ∀ s, P s → P (s.modEnv fun v => { v with freeCtr := v.freeCtr + 1 })) : Keeps P Machine.drawFree :=
  fun s hs => h s hs

theorem afterwards {x r : M Unit} (hx : Keeps P x) (hr : Keeps P r) : Keeps P (Machine.afterwards x r) :=
  fun now hn => endState_afterwards (hx now hn) hr

end Keeps

/-- The next state of an issue, if `P` survives the body, the exception, the completion and the wait. -/
theorem finishIssue_keeps {P : State → Prop} {s : State} {t : Tid} {r : EStateM.Result Stop State Unit}
    (hs : P s) (hr : P (endState r)) (hc : ∀ x, P x → P (x.complete t)) (hret : ∀ x, P x → P (x.retire t))
    (he : ∀ x e, P x → P (x.takeException t e)) (hb : P (s.blocked t)) {s' : State}
    (h : finishIssue s t r = .next s') : P s' := by
  rcases r with ⟨_, x⟩ | ⟨e | e | _ | _, x⟩ <;> simp only [finishIssue, Host.Outcome.next.injEq, reduceCtorEq] at h <;> rw [← h]
  exacts [hc x hr, he s e hs, he _ e (hret x hr), hb]

/-- The next state of an instruction, if `P` survives its body and the shared ends of an instruction. -/
theorem issue_keeps {P : State → Prop} {c : Cond} {body : Word → M Unit} {s : State} (hs : P s)
    (hpc : ∀ x t v, P x → P (x.setPc t v))
    (hbody : P (endState (body (s.pcOf s.cur) (s.setPc s.cur (s.pcOf s.cur + 4#32)))))
    (hc : ∀ x t, P x → P (x.complete t)) (hret : ∀ x t, P x → P (x.retire t))
    (he : ∀ x t e, P x → P (x.takeException t e)) (hb : ∀ x t, P x → P (x.blocked t)) {s' : State}
    (h : issue c body s = .next s') : P s' := by
  by_cases split : splitTest (s.status s.cur) c = true
  · simp [issue, split] at h
  by_cases holds : condHolds (s.status s.cur) c = true
  · simp only [issue, split, holds, if_true] at h
    exact finishIssue_keeps hs hbody (fun x => hc x _) (fun x => hret x _) (fun x => he x _) (hb _ _ hs) h
  · simp only [issue, split, holds] at h
    exact Host.Outcome.next.inj h ▸ hc _ _ (hpc _ _ _ hs)

end Sys2Proof.Machine
end

