-- ==== Sys2Proof/Laws/Closed.lean ====
section
/-! SUPPORT. Which parts of the state the shared operations change: a property that survives the elementary updates survives them. -/

namespace Sys2Proof.Machine

/-- The values a thread's control unit may move between: reserved bits and the enable bit stay. -/
def Ctrl.sameReserved (c d : Ctrl) : Prop :=
  d.txstatus &&& 0xFF00F8E0#32 = c.txstatus &&& 0xFF00F8E0#32 ∧
  d.txprivext &&& 0x00F0884A#32 = c.txprivext &&& 0x00F0884A#32 ∧
  d.txdefr &&& 0x0040FF40#32 = c.txdefr &&& 0x0040FF40#32 ∧
  d.txdivtime &&& 0x70C0FF00#32 = c.txdivtime &&& 0x70C0FF00#32 ∧
  d.enabled = c.enabled

/-- A state a thread passes through while it is on. -/
def TState.isOn (x : TState) : Prop := x = .run ∨ x = .cbRestore ∨ x = .halted

/-- The hidden state after an update that leaves the read pipeline, and OFF as it is. -/
def Hidden.sameRun (h k : Hidden) : Prop := k.rp = h.rp ∧ (k.tstate = h.tstate ∨ k.tstate.isOn)

/-- The surroundings after an update that leaves the memories and the executing thread. -/
def Env.sameMemory (e d : Env) : Prop :=
  d.phys = e.phys ∧ d.coreCode = e.coreCode ∧ d.coreData = e.coreData ∧ d.cur = e.cur

/-- What the threads share, the general registers and locks left. -/
def Shared.sameOwners (g k : Shared) : Prop :=
  k.d0 = g.d0 ∧ k.d1 = g.d1 ∧ k.a0 = g.a0 ∧ k.a1 = g.a1 ∧ k.lock1 = g.lock1 ∧ k.lock2 = g.lock2 ∧
    (g.hwtrig &&& 0x000F#16 = 0#16 → k.hwtrig &&& 0x000F#16 = 0#16)

/-- `P` survives every elementary update; register `r` of thread `t` may be written where `W t r` holds, and memory where `S` holds. -/
structure Closed (P : State → Prop) (W : Tid → Reg → Prop) (S : Prop) : Prop where
  pcs     : ∀ (s : State) (t : Tid) (v w : Word), P s → P (s.modU t fun u => { u with pc := v, pcx := w })
  setReg  : ∀ (s : State) (t : Tid) (r : Reg) (v : Word), W t r → P s → P (s.setReg t r v)
  ct      : ∀ (s : State) (t : Tid) (f : Ctrl → Ctrl), Ctrl.sameReserved (s.th t).ct (f (s.th t).ct) → P s →
    P (s.modCt t f)
  enable  : ∀ (s : State) (t : Tid) (b : Bool), (b = true → (s.th t).h.tstate ≠ .off) → P s →
    P (s.modCt t fun c => { c with enabled := b })
  tr      : ∀ (s : State) (t : Tid) (f : Trig → Trig),
    (bitOf (s.th t).tr.mask 2 = false → bitOf (f (s.th t).tr).mask 2 = false) → P s → P (s.modTr t f)
  mm      : ∀ (s : State) (t : Tid) (f : ThreadRegs → ThreadRegs), ((s.th t).mm.Ok → (f (s.th t).mm).Ok) → P s →
    P (s.modMm t f)
  hid     : ∀ (s : State) (t : Tid) (f : Hidden → Hidden), Hidden.sameRun (s.th t).h (f (s.th t).h) → P s → P (s.modH t f)
  hidAll  : ∀ (s : State) (f : Hidden → Hidden), (∀ h, Hidden.sameRun h (f h)) → P s →
    P { s with thr := s.thr.map fun (x : Thread) => { x with h := f x.h } }
  goOff   : ∀ (s : State) (t : Tid) (b : Bool), P s → P (s.goOff t b)
  goOn    : ∀ (s : State) (t : Tid) (x : TState), TState.isOn x → P s → P (s.modTh t fun y =>
    { y with ct := { y.ct with enabled := true, stopped := false }, h := { y.h with tstate := x } })
  shared  : ∀ (s : State) (f : Shared → Shared), Shared.sameOwners s.shared (f s.shared) → P s → P (s.modShared f)
  lock0   : ∀ (s : State) (t : Tid), P s →
    P (s.modShared fun x => { x with lock1 := giveUp x.lock1 t, lock2 := giveUp x.lock2 t })
  lock1   : ∀ (s : State) (t : Tid), freeFor s.shared.lock1 t = true → P s →
    P (s.modShared fun x => { x with lock1 := some t, lock2 := giveUp x.lock2 t })
  lock2   : ∀ (s : State) (t : Tid), (freeFor s.shared.lock1 t && freeFor s.shared.lock2 t) = true → P s →
    P (s.modShared fun x => { x with lock1 := some t, lock2 := some t })
  core    : ∀ (s : State) (f : CoreRegs → CoreRegs), (s.core.Ok → (f s.core).Ok) → P s → P (s.modCore f)
  env     : ∀ (s : State) (f : Env → Env), Env.sameMemory s.env (f s.env) → P s → P (s.modEnv f)
  mem     : S → ∀ (s : State) (f : Env → Env), (s.env.Ok → (f s.env).Ok) → (f s.env).cur = s.env.cur → P s →
    P (s.modEnv f)

/-- `P` survives a read pipeline that shrinks or stays within its depth. -/
def RpClosed (P : State → Prop) : Prop := ∀ (s : State) (t : Tid) (l : List RpEntry),
  l.length ≤ (s.th t).h.rp.length ∨ l.length ≤ s.cfg.readPipelineDepth → P s → P (s.setRp t l)

/-- A change of one thread depends on what it makes of that thread only. -/
theorem State.modTh_congr {s : State} {t : Tid} {f g : Thread → Thread} (e : f (s.th t) = g (s.th t)) :
    s.modTh t f = s.modTh t g := by
  have e' : f s.thr[t.val] = g s.thr[t.val] := e
  simp [State.modTh, e']

namespace Closed

variable {P : State → Prop} {W : Tid → Reg → Prop} {S : Prop} (h : Closed P W S)
include h

theorem setPc {s : State} (t : Tid) (v : Word) (hs : P s) : P (s.setPc t v) := by
  have e : s.setPc t v = s.modU t fun u => { u with pc := v, pcx := (s.th t).u.pcx } := by
    unfold State.setPc State.modU; exact State.modTh_congr rfl
  rw [e]; exact h.pcs _ _ _ _ hs

theorem setPcx {s : State} (t : Tid) (v : Word) (hs : P s) : P (s.setPcx t v) := by
  have e : s.setPcx t v = s.modU t fun u => { u with pc := (s.th t).u.pc, pcx := v } := by
    unfold State.setPcx State.modU; exact State.modTh_congr rfl
  rw [e]; exact h.pcs _ _ _ _ hs

theorem setStatus {s : State} {t : Tid} {v : Word} (hv : v &&& 0xFF00F8E0#32 = s.status t &&& 0xFF00F8E0#32) (hs : P s) :
    P (s.setStatus t v) := h.ct _ _ _ ⟨hv, rfl, rfl, rfl, rfl⟩ hs

theorem modEnv {s : State} {f : Env → Env} (hf : Env.sameMemory s.env (f s.env)) (hs : P s) : P (s.modEnv f) := h.env s f hf hs

/-! ### Triggers -/

theorem emit {s : State} (e : OutEvent) (hs : P s) : P (s.emit e) := h.env _ _ ⟨rfl, rfl, rfl, rfl⟩ hs

theorem deliver {s : State} (v : BitVec 4) (hs : P s) : P (s.deliver v) := by
  unfold State.deliver
  split
  · exact hs
  · split
    · exact h.emit _ hs
    · split
      · exact h.emit _ hs
      · refine h.shared _ _ ⟨rfl, rfl, rfl, rfl, rfl, rfl, fun hz => ?_⟩ hs
        rename_i h3
        have hv : ∀ v : BitVec 4, ¬ v.toNat < 4 → (1#16 <<< v.toNat) &&& 0x000F#16 = 0#16 := by decide
        exact low4_or (hv v h3) hz

theorem raiseMeta {s : State} {b : Nat} (hb : (1#32 <<< b) &&& 0xFFFC8888#32 = 0#32) (v : BitVec 4) (hs : P s) :
    P (s.raiseMeta b v) :=
  h.deliver _ (h.core _ _ (fun hc => { hc with hwstatmeta := (withBit_and hb).trans hc.hwstatmeta }) hs)

theorem raiseThreadTrigger {s : State} (t : Tid) (hs : P s) : P (s.raiseThreadTrigger t) := by
  have hi : ∀ t : Tid, (1#32 <<< (4 * t.val + 1)) &&& 0xFFFC8888#32 = 0#32 := by decide
  have hb : ∀ t : Tid, (1#32 <<< (4 * t.val)) &&& 0xFFFC8888#32 = 0#32 := by decide
  unfold State.raiseThreadTrigger
  split
  · exact h.raiseMeta (hi t) _ hs
  · exact h.raiseMeta (hb t) _ hs

theorem raisePageTrigger {s : State} (t : Tid) (hs : P s) : P (s.raisePageTrigger t) := by
  have hp : ∀ t : Tid, (1#32 <<< (4 * t.val + 2)) &&& 0xFFFC8888#32 = 0#32 := by decide
  exact h.raiseMeta (hp t) _ hs

theorem takeKick {s : State} (t : Tid) (l : Level) (hs : P s) : P (s.takeKick t l) := by
  refine h.tr _ _ _ (fun hm => ?_) hs
  cases l <;> exact hm

theorem setIrqEnc {s : State} (t : Tid) (n : Nat) (hs : P s) : P (s.setIrqEnc t n) :=
  h.ct _ _ _ ⟨rfl, rfl, rfl, withBits_and (by decide), rfl⟩ hs

theorem passTriggerRead {s : State} (t : Tid) (l : Level) (hs : P s) : P (s.passTriggerRead t l) := by
  unfold State.passTriggerRead
  split
  · exact hs
  · simp only
    split
    · refine h.setIrqEnc _ _ ?_
      split
      · exact h.takeKick _ _ hs
      · exact hs
    · split
      · exact h.takeKick _ _ hs
      · exact hs

end Closed

/-- Clearing reasons leaves the reserved bits of TXDEFR. -/
theorem clearReasons_and (d w : Word) (l : Level) : clearReasons d w l &&& 0x0040FF40#32 = d &&& 0x0040FF40#32 := by
  have step : ∀ (r : Nat) (x : Word), r ∈ deferredReasons →
      (if bitOf w r && routedTo d r l then (if r = 23 then withBits (withBit x 23 false) 24 8 0#8 else withBit x r false) else x)
        &&& 0x0040FF40#32 = x &&& 0x0040FF40#32 := by
    intro r x hr
    simp only [deferredReasons, List.mem_cons, List.not_mem_nil, or_false] at hr
    split
    · rcases hr with rfl | rfl | rfl | rfl | rfl | rfl | rfl
      · rw [if_pos rfl, withBits_and (by decide), withBit_and (by decide)]
      all_goals rw [if_neg (by decide), withBit_and (by decide)]
    · rfl
  exact List.foldlRecOn deferredReasons _ (motive := fun x => x &&& 0x0040FF40#32 = d &&& 0x0040FF40#32) rfl
    fun x hx r hr => (step r x hr).trans hx

/-- A recorded token leaves the reserved bits of TXDEFR. -/
theorem recordToken_and (d : Word) (i : Bool) (st : BitVec 6) : recordToken d i st &&& 0x0040FF40#32 = d &&& 0x0040FF40#32 := by
  unfold recordToken
  split
  · rfl
  · split
    · exact withBit_and (by decide)
    · rw [withBit_and (by decide), withBits_and (by decide)]

/-- Two changes of one thread are one. -/
theorem State.modTh_modTh (s : State) (t : Tid) (f g : Thread → Thread) :
    (s.modTh t f).modTh t g = s.modTh t fun x => g (f x) := by
  simp [State.modTh]

/-- A bit of HWSTATMETA with a vector is no reserved one. -/
theorem metaVector_bit {s : State} {b : Fin 18} {v : BitVec 4} (h : s.metaVector b = some v) :
    (1#32 <<< b.val) &&& 0xFFFC8888#32 = 0#32 := by
  have all : ∀ b : Fin 18, b.val = 16 ∨ b.val = 17 ∨ b.val % 4 = 3 ∨ (1#32 <<< b.val) &&& 0xFFFC8888#32 = 0#32 := by decide
  rcases all b with e | e | e | e
  · rw [e]; decide
  · rw [e]; decide
  · have hlt := b.isLt
    have h1 : b.val ≠ 16 := by omega
    have h2 : b.val ≠ 17 := by omega
    have h3 : b.val / 4 < 4 := by omega
    simp [State.metaVector, h1, h2, h3, e] at h
  · exact e

/-- A property of both branches of a choice of states. -/
theorem ite_keeps {P : State → Prop} {yes no : State} (hy : P yes) (hn : P no) {c : Prop} [Decidable c] :
    P (if c then yes else no) := by
  by_cases hc : c
  · exact (if_pos hc).symm ▸ hy
  · exact (if_neg hc).symm ▸ hn

namespace Closed

variable {P : State → Prop} {W : Tid → Reg → Prop} {S : Prop} (h : Closed P W S)
include h

theorem ackTriggers {s : State} (t : Tid) (l : Level) (w : Word) (hs : P s) : P (s.ackTriggers t l w) := by
  unfold State.ackTriggers
  simp only
  have h1 := h.shared s (fun x => { x with hwtrig := x.hwtrig &&& ~~~((bitsOf w 0 16 &&& s.maskOf t l) &&& 0xFFF0#16) })
    ⟨rfl, rfl, rfl, rfl, rfl, rfl, fun hz => low4_and hz⟩ hs
  split
  · refine h.ct _ _ _ ⟨rfl, rfl, clearReasons_and _ _ _, rfl, rfl⟩ ?_
    refine h.tr _ _ _ (fun hm => ?_) h1
    cases l <;> exact hm
  · refine h.tr _ _ _ (fun hm => ?_) h1
    cases l <;> exact hm

theorem kick {s : State} (n : Tid) (l : Level) (v : Word) (hs : P s) : P (s.kick n l v) := by
  refine h.tr _ _ _ (fun hm => ?_) hs
  cases l <;> exact hm

theorem modExt {s : State} (k : Fin 4) (f : ExtBlock → ExtBlock) (hs : P s) : P (s.modExt k f) :=
  h.core _ _ (fun hc => { hc with }) hs

theorem driveLine {s : State} (i : Fin 128) (b : Bool) (hs : P s) : P (s.driveLine i b) := by
  have h1 : ∀ l : BitVec 128, P (s.modEnv fun v => { v with extLines := l }) := fun l => h.env _ _ ⟨rfl, rfl, rfl, rfl⟩ hs
  exact ite_keeps (h.deliver _ (ite_keeps (h1 _) (h.modExt _ _ (h1 _)))) (h1 _)

theorem ackExtBit {s : State} (k : Fin 4) (b : Fin 32) (hs : P s) : P (s.ackExtBit k b) := by
  unfold State.ackExtBit
  simp only
  split
  · exact h.deliver _ hs
  · split
    · exact h.modExt _ _ hs
    · exact h.deliver _ (h.modExt _ _ hs)

theorem writeExtStatus {s : State} (k : Fin 4) (w : Word) (hs : P s) : P (s.writeExtStatus k w) := by
  refine List.foldlRecOn _ _ hs fun s hs b _ => ?_
  split
  · exact h.ackExtBit _ _ hs
  · exact hs

theorem ackMetaBit {s : State} (b : Fin 18) (hs : P s) : P (s.ackMetaBit b) := by
  unfold State.ackMetaBit
  split
  · exact hs
  · rename_i v hv
    have hb := metaVector_bit hv
    have hx := h.core s (fun c => { c with hwstatmeta := withBit c.hwstatmeta b.val (!bitOf c.hwstatmeta b.val) })
      (fun hc => { hc with hwstatmeta := (withBit_and hb).trans hc.hwstatmeta }) hs
    simp only
    split
    · exact hx
    · exact h.deliver _ hx

theorem writeMeta {s : State} (w : Word) (hs : P s) : P (s.writeMeta w) := by
  refine List.foldlRecOn _ _ hs fun s hs b _ => ?_
  split
  · exact h.ackMetaBit _ hs
  · exact hs

theorem timerTick {s : State} (t : Tid) (hs : P s) : P (s.modTh t Thread.timerTick) := by
  have tick : ∀ (s : State) (v : BitVec 8), P s → P (s.modH t fun k => { k with prescale := v }) := fun s v hs =>
    h.hid _ _ _ ⟨rfl, .inl rfl⟩ hs
  by_cases hc : (s.th t).h.prescale.toNat + 1 ≥ timerDivider (s.th t).ct.txdivtime
  · have e : s.modTh t Thread.timerTick =
        ((s.modCt t fun c => { c with txtimer := c.txtimer + 1#32, txtimeri := c.txtimeri + 1#32 }).modTr t fun x =>
          { x with
            timerTrig := x.timerTrig || (s.th t).ct.txtimer == 0xFFFFFFFF#32
            timerTrigI := x.timerTrigI || (s.th t).ct.txtimeri == 0xFFFFFFFF#32 }).modH t fun k => { k with prescale := 0#8 } := by
      unfold State.modCt State.modTr State.modH
      rw [State.modTh_modTh, State.modTh_modTh]
      exact State.modTh_congr (by simp [Thread.timerTick, hc, Thread.countTimers])
    rw [e]
    exact tick _ _ (h.tr _ _ _ (fun hm => hm) (h.ct _ _ _ ⟨rfl, rfl, rfl, rfl, rfl⟩ hs))
  · have e : s.modTh t Thread.timerTick = s.modH t fun k => { k with prescale := k.prescale + 1#8 } := by
      unfold State.modH
      exact State.modTh_congr (by simp only [Thread.timerTick, hc, if_false])
    rw [e]
    exact h.hid _ _ _ ⟨rfl, .inl rfl⟩ hs

/-! ### Tokens, exceptions, interrupts, on and off -/

theorem recordTok {s : State} (k : Token) (hs : P s) : P (s.recordTok k) :=
  h.ct _ _ _ ⟨rfl, rfl, recordToken_and _ _ _, rfl, rfl⟩ hs

theorem oweToken {s : State} (k : Token) (hs : P s) : P (s.oweToken k) := h.env _ _ ⟨rfl, rfl, rfl, rfl⟩ hs

theorem settle {s : State} (t : Tid) (hs : P s) : P (s.settle t) :=
  List.foldlRecOn _ _ (h.env _ _ ⟨rfl, rfl, rfl, rfl⟩ hs) fun _ hx k _ => h.recordTok k hx

theorem setRpDirty {s : State} (t : Tid) (b : Bool) (hs : P s) : P (s.setRpDirty t b) :=
  h.ct _ _ _ ⟨rfl, rfl, rfl, withBit_and (by decide), rfl⟩ hs

theorem quiesce {s : State} (t : Tid) (hs : P s) : P (s.quiesce t) := by
  unfold State.quiesce
  simp only
  have h1 := h.hid (s.settle t) t (fun k => { k with link := false, waiting := false, fetchBuf := [] }) ⟨rfl, .inl rfl⟩
    (h.settle t hs)
  split
  · exact h1
  · refine h.setStatus ?_ (h.setRpDirty _ _ h1)
    rw [withBit_and (by decide)]
    simp [State.status, State.setRpDirty]

theorem interruptEntry {s : State} (t : Tid) (hs : P s) : P (s.interruptEntry t) := by
  unfold State.interruptEntry
  simp only
  refine h.hid _ _ _ ⟨rfl, .inr (.inl rfl)⟩ (h.setStatus ?_ (h.pcs _ _ _ _ (h.quiesce t hs)))
  simp only [State.status, State.ct_modU]
  split
  · rw [withBit_and (by decide), withBit_and (by decide)]
  · rw [withBit_and (by decide)]

theorem catchSave {s : State} (t : Tid) (e : DataExc) (x : Xfer) (hs : P s) : P (s.catchSave t e x) := by
  unfold State.catchSave
  simp only
  have key : ∀ (f : Ctrl → Ctrl), (∀ c, (f c).txstatus = c.txstatus) →
      (∀ c, Ctrl.sameReserved c (f c)) →
      P ((s.modCt t f).setStatus t
        (if (s.modCt t f).istat t = true then withBit (withBit ((s.modCt t f).status t) 22 true) 23 true
          else withBit ((s.modCt t f).status t) 22 true)) := by
    intro f _ hf
    refine h.setStatus ?_ (h.ct _ _ _ (hf _) hs)
    split
    · rw [withBit_and (by decide), withBit_and (by decide)]
    · rw [withBit_and (by decide)]
  refine key _ (fun c => ?_) (fun c => ?_)
  · cases x <;> rfl
  · cases x <;> exact ⟨rfl, rfl, rfl, rfl, rfl⟩

theorem setReason {s : State} (t : Tid) (e : Exc) (hs : P s) : P (s.setReason t e) :=
  h.setStatus (withBits_and (by decide)) hs

theorem takeException {s : State} (t : Tid) (e : Exc) (hs : P s) : P (s.takeException t e) := by
  have h1 := h.quiesce t (h.setReason t e hs)
  have fin : ∀ s : State, P s → P (if s.ownsHalt t then
      (s.modTh t fun x => { x with tr := { x.tr with haltTrig := true }, h := { x.h with tstate := .halted } }).interruptEntry t
    else
      let s := (s.goOff t false).raiseThreadTrigger t
      if e.pageTrigger then s.raisePageTrigger t else s) := by
    intro s hs
    split
    · refine h.interruptEntry t ?_
      have e2 : (s.modTh t fun x => { x with tr := { x.tr with haltTrig := true }, h := { x.h with tstate := .halted } })
          = (s.modTr t fun x => { x with haltTrig := true }).modH t fun k => { k with tstate := .halted } := by
        unfold State.modTr State.modH
        rw [State.modTh_modTh]
      rw [e2]
      exact h.hid _ _ _ ⟨rfl, .inr (.inr (.inr rfl))⟩ (h.tr _ _ _ (fun hm => hm) hs)
    · have h2 := h.raiseThreadTrigger t (h.goOff _ t false hs)
      simp only
      split
      · exact h.raisePageTrigger t h2
      · exact h2
  unfold State.takeException
  cases e with
  | data d x => exact fin _ (h.catchSave t d x h1)
  | _ => exact fin _ h1

theorem returnFromInterrupt {s : State} (t : Tid) (v : Word) (hs : P s) : P (s.returnFromInterrupt t v) := by
  unfold State.returnFromInterrupt
  simp only
  have h1 := h.hid _ t (fun h => { h with fetchBuf := [] }) ⟨rfl, .inl rfl⟩ (h.pcs s t (s.th t).u.pcx v hs)
  split
  · refine h.hid _ _ _ ⟨rfl, ?_⟩ (h.setRpDirty _ _ (h.setStatus ?_ h1))
    · show (if s.cbMarker t = true then TState.cbRestore else _) = _ ∨ TState.isOn _
      split
      · exact .inr (.inr (.inl rfl))
      · exact .inl rfl
    · simp only [State.status, State.ct_modH, State.ct_modU]
      split
      · rw [withBit_and (by decide), withBit_and (by decide)]
      · rw [withBit_and (by decide)]
  · exact h1

theorem turnOn {s : State} (t : Tid) (hs : P s) : P (s.turnOn t) := by
  have e : (s.modTh t fun x =>
      { x with
        ct := { x.ct with enabled := true, stopped := false }
        h := { x.h with tstate := if bitOf x.ct.txstatus 22 then .cbRestore else .run } }) =
      s.modTh t fun y =>
        { y with
          ct := { y.ct with enabled := true, stopped := false }
          h := { y.h with tstate := if bitOf (s.th t).ct.txstatus 22 then .cbRestore else .run } } := State.modTh_congr rfl
  unfold State.turnOn
  simp only
  rw [e]
  have on := h.goOn s t (if bitOf (s.th t).ct.txstatus 22 then .cbRestore else .run)
    (by split; exacts [.inr (.inl rfl), .inl rfl]) hs
  exact ite_keeps on (h.setRpDirty _ _ on)

theorem turnOff {s : State} (t : Tid) (hs : P s) : P (s.turnOff t) :=
  h.raiseThreadTrigger t (h.goOff _ t true (h.quiesce t hs))

theorem writeEnable {s : State} (t : Tid) (b : Bool) (hs : P s) : P (s.writeEnable t b) := by
  unfold State.writeEnable
  simp only
  split
  · exact hs
  · split
    · split
      · exact h.turnOn t hs
      · exact h.enable _ _ _ (fun _ => ‹_›) hs
    · split
      · exact h.enable _ _ _ (fun hf => by cases hf) hs
      · exact h.turnOff t hs

theorem stopIfDisabled {s : State} (t : Tid) (hs : P s) : P (s.stopIfDisabled t) := ite_keeps (h.turnOff t hs) hs

theorem ctWrite {s : State} (t : Tid) (n : BitVec 5) (v : Word) (hs : P s) : P (s.ctWrite t n v) := by
  unfold State.ctWrite
  simp only
  split
  · exact h.writeEnable t _ hs
  · exact h.ct _ _ _ ⟨rfl, rfl, rfl, rfl, rfl⟩ hs
  · refine h.setStatus (maskWrite_and ?_) hs
    unfold statusMask; split <;> decide
  · exact h.ct _ _ _ ⟨rfl, rfl, rfl, rfl, rfl⟩ hs
  · exact h.ct _ _ _ ⟨rfl, rfl, rfl, rfl, rfl⟩ hs
  · exact h.ct _ _ _ ⟨rfl, rfl, rfl, rfl, rfl⟩ hs
  · exact h.ct _ _ _ ⟨rfl, rfl, rfl, rfl, rfl⟩ hs
  · exact h.ct _ _ _ ⟨rfl, rfl, rfl, rfl, rfl⟩ hs
  · exact h.ct _ _ _ ⟨rfl, rfl, rfl, rfl, rfl⟩ hs
  · exact h.ct _ _ _ ⟨rfl, rfl, rfl, rfl, rfl⟩ hs
  · refine h.ct _ _ _ ⟨rfl, rfl, maskWrite_and ?_, rfl, rfl⟩ hs
    unfold defrMask; split <;> decide
  · exact h.ct _ _ _ ⟨rfl, rfl, rfl, maskWrite_and (by decide), rfl⟩ hs
  · refine h.ct _ _ _ ⟨rfl, maskWrite_and ?_, rfl, rfl, rfl⟩ hs
    unfold privextMask; split <;> decide
  · exact h.ct _ _ _ ⟨rfl, rfl, rfl, rfl, rfl⟩ hs
  · exact h.shared _ _ ⟨rfl, rfl, rfl, rfl, rfl, rfl, fun hz => hz⟩ hs
  · exact hs

theorem statusWriteLow {s : State} (t : Tid) (v : Word) (hs : P s) : P (s.statusWriteLow t v) :=
  h.setStatus (maskWrite_and (by decide)) hs

/-! ### The issue of an instruction -/

theorem clearFetch {s : State} (t : Tid) (hs : P s) : P (s.modH t fun k => { k with fetchBuf := [] }) :=
  h.hid _ _ _ ⟨rfl, .inl rfl⟩ hs

theorem jump {s : State} (t : Tid) (v : Word) (hs : P s) : P (s.jump t v) := h.clearFetch t (h.setPc t v hs)

theorem retire {s : State} (t : Tid) (hs : P s) : P (s.retire t) := by
  have e : s.retire t = (s.modCt t fun c => { c with txtactcyc := c.txtactcyc + 1#24 }).modH t fun k =>
      { k with waiting := false } := by
    unfold State.modCt State.modH
    rw [State.modTh_modTh]
    rfl
  rw [e]
  exact h.hid _ _ _ ⟨rfl, .inl rfl⟩ (h.ct _ _ _ ⟨rfl, rfl, rfl, rfl, rfl⟩ hs)

theorem singleStep {s : State} (t : Tid) (hs : P s) : P (s.singleStep t) := by
  unfold State.singleStep
  split
  · exact h.turnOff t hs
  · exact hs

theorem complete {s : State} (t : Tid) (hs : P s) : P (s.complete t) := h.singleStep t (h.retire t hs)

theorem blocked {s : State} (t : Tid) (hs : P s) : P (s.blocked t) := h.hid _ _ _ ⟨rfl, .inl rfl⟩ hs

/-- An instruction keeps the property, however it ends, if its body does from where the instruction is issued. -/
theorem issue {c : Cond} {body : Word → M Unit} {s s' : State} (hs : P s)
    (hbody : P s.advanced → P (endState (body (s.pcOf s.cur) s.advanced))) (hn : issue c body s = .next s') : P s' :=
  issue_keeps hs (fun _ t v hx => h.setPc t v hx) (hbody (h.setPc _ _ hs)) (fun _ t hx => h.complete t hx)
    (fun _ t hx => h.retire t hx) (fun _ t e hx => h.takeException t e hx) (fun _ t hx => h.blocked t hx) hn

end Closed

end Sys2Proof.Machine
end

