-- ==== Sys2Proof/Laws/Memory.lean ====
section
/-! SUPPORT. Byte memories: a read after a write, the canonical form, and n-byte reads and writes. -/

namespace Sys2Proof.Machine

/-! ### One byte -/

/-- A byte other than the one written reads as before. -/
theorem Memory.read_write_of_ne {m : Memory} {a c : Nat} {v : Byte} (h : c ≠ a) :
    (Memory.write m a v).read c = m.read c := by
  induction m with
  | nil =>
    unfold Memory.write
    split
    · rfl
    · simp [Memory.read, h]
  | cons p m ih =>
    obtain ⟨b, x⟩ := p
    unfold Memory.write
    split
    · split
      · rfl
      · simp [Memory.read, h]
    · split
      · rename_i h2; subst h2
        split <;> simp [Memory.read, h]
      · simp only [Memory.read, ih]

theorem Memory.wfFrom_cons {lo : Option Nat} {a : Nat} {v : Byte} {m : Memory} :
    Memory.wfFrom lo ((a, v) :: m) = true ↔ (∀ l, lo = some l → l < a) ∧ v ≠ unlistedByte ∧ Memory.wfFrom (some a) m = true := by
  cases lo <;> simp [Memory.wfFrom, and_assoc]

theorem Memory.wfFrom_none_of {lo : Option Nat} {m : Memory} (h : Memory.wfFrom lo m = true) : Memory.wf m = true := by
  cases m with
  | nil => rfl
  | cons p m =>
    obtain ⟨a, v⟩ := p
    rw [Memory.wfFrom_cons] at h
    exact Memory.wfFrom_cons.mpr ⟨by simp, h.2⟩

theorem Memory.wfFrom_lower {l k : Nat} {m : Memory} (h : Memory.wfFrom (some l) m = true) (hk : k ≤ l) :
    Memory.wfFrom (some k) m = true := by
  cases m with
  | nil => rfl
  | cons p m =>
    obtain ⟨a, v⟩ := p
    rw [Memory.wfFrom_cons] at h ⊢
    exact ⟨fun q hq => by cases hq; exact lt_of_le_of_lt hk (h.1 l rfl), h.2⟩

/-- Above every listed address a canonical memory reads as unlisted. -/
theorem Memory.read_of_wfFrom {l : Nat} {m : Memory} (h : Memory.wfFrom (some l) m = true) {c : Nat} (hc : c ≤ l) :
    m.read c = unlistedByte := by
  induction m generalizing l with
  | nil => rfl
  | cons p m ih =>
    obtain ⟨a, v⟩ := p
    rw [Memory.wfFrom_cons] at h
    have ha : l < a := h.1 l rfl
    have hne : c ≠ a := by omega
    simp [Memory.read, hne, ih h.2.2 (by omega)]

theorem Memory.read_write_from {lo : Option Nat} {m : Memory} (h : Memory.wfFrom lo m = true) (a : Nat) (v : Byte) :
    (Memory.write m a v).read a = v := by
  induction m generalizing lo with
  | nil =>
    unfold Memory.write
    split <;> simp_all [Memory.read]
  | cons p m ih =>
    obtain ⟨b, x⟩ := p
    rw [Memory.wfFrom_cons] at h
    unfold Memory.write
    split
    · rename_i hlt
      split
      · rename_i hv
        have hne : a ≠ b := by omega
        simp [Memory.read, hne, hv, Memory.read_of_wfFrom h.2.2 (Nat.le_of_lt hlt)]
      · simp [Memory.read]
    · split
      · rename_i h2; subst h2
        split
        · rename_i hv; rw [hv]; exact Memory.read_of_wfFrom h.2.2 (Nat.le_refl _)
        · simp [Memory.read]
      · rename_i hlt hne
        simp [Memory.read, hne, ih h.2.2]

/-- A byte written to a canonical memory reads back. -/
theorem Memory.read_write_self {m : Memory} (h : m.wf = true) (a : Nat) (v : Byte) : (Memory.write m a v).read a = v :=
  Memory.read_write_from h a v

theorem Memory.wfFrom_write {lo : Option Nat} {m : Memory} (h : Memory.wfFrom lo m = true) {a : Nat} {v : Byte}
    (hlo : ∀ l, lo = some l → l < a) : Memory.wfFrom lo (Memory.write m a v) = true := by
  induction m generalizing lo with
  | nil =>
    unfold Memory.write
    split
    · rfl
    · exact Memory.wfFrom_cons.mpr ⟨hlo, ‹_›, rfl⟩
  | cons p m ih =>
    obtain ⟨b, x⟩ := p
    have h0 := h
    rw [Memory.wfFrom_cons] at h
    unfold Memory.write
    split
    · split
      · exact h0
      · exact Memory.wfFrom_cons.mpr ⟨hlo, ‹_›, Memory.wfFrom_cons.mpr ⟨fun l hl => by cases hl; assumption, h.2⟩⟩
    · split
      · rename_i h2; subst h2
        split
        · cases hl : lo with
          | none => exact Memory.wfFrom_none_of h.2.2
          | some l => exact Memory.wfFrom_lower h.2.2 (Nat.le_of_lt (hlo l hl))
        · exact Memory.wfFrom_cons.mpr ⟨hlo, ‹_›, h.2.2⟩
      · rename_i h1 h2
        exact Memory.wfFrom_cons.mpr ⟨h.1, h.2.1, ih h.2.2 (fun l hl => by cases hl; omega)⟩

/-- A write keeps the canonical form. -/
theorem Memory.wf_write {m : Memory} (h : m.wf = true) (a : Nat) (v : Byte) : (Memory.write m a v).wf = true :=
  Memory.wfFrom_write h (by simp)

/-! ### n bytes -/

/-- An n-byte write keeps the canonical form. -/
theorem Memory.wf_writeN {m : Memory} (h : m.wf = true) (a : Nat) (v : DWord) (n : Nat) : (Memory.writeN m a v n).wf = true := by
  induction n generalizing m a v with
  | zero => exact h
  | succ n ih => exact ih (Memory.wf_write h _ _) _ _

/-- A byte outside the n written ones reads as before. -/
theorem Memory.read_writeN_outside {m : Memory} {a n c : Nat} {v : DWord} (h : c < a ∨ a + n ≤ c) :
    (Memory.writeN m a v n).read c = m.read c := by
  induction n generalizing m a v with
  | zero => rfl
  | succ n ih =>
    show (Memory.writeN (Memory.write m a (byteOf v 0)) (a + 1) (v >>> 8) n).read c = _
    rw [ih (by omega), Memory.read_write_of_ne (by omega)]

theorem byteOf_shift (v : DWord) (k : Nat) : byteOf (v >>> 8) k = byteOf v (k + 1) := by
  apply BitVec.eq_of_getLsbD_eq
  intro i hi
  simp [byteOf, hi]
  congr 1
  omega

/-- Byte k of the n written ones. -/
theorem Memory.read_writeN_inside {m : Memory} (h : m.wf = true) {a n k : Nat} {v : DWord} (hk : k < n) :
    (Memory.writeN m a v n).read (a + k) = byteOf v k := by
  induction n generalizing m a v k with
  | zero => omega
  | succ n ih =>
    show (Memory.writeN (Memory.write m a (byteOf v 0)) (a + 1) (v >>> 8) n).read (a + k) = _
    cases k with
    | zero => rw [Memory.read_writeN_outside (by omega)]; exact Memory.read_write_self h _ _
    | succ k =>
      have e : a + (k + 1) = a + 1 + k := by omega
      rw [e, ih (Memory.wf_write h _ _) (by omega), byteOf_shift]

/-- Byte k of an n-byte read. -/
theorem Memory.byteOf_readN {m : Memory} {a n k : Nat} (hk : k < n) (hn : n ≤ 8) : byteOf (m.readN a n) k = m.read (a + k) := by
  induction n generalizing a k with
  | zero => omega
  | succ n ih =>
    apply BitVec.eq_of_getLsbD_eq
    intro i hi
    cases k with
    | zero =>
      have h1 : i < 64 := by omega
      simp [Memory.readN, byteOf, hi, h1]
    | succ k =>
      have e : a + (k + 1) = a + 1 + k := by omega
      have h1 : ¬ 8 * (k + 1) + i < 8 := by omega
      have h2 : 8 * (k + 1) + i < 64 := by omega
      have h3 : 8 * (k + 1) + i - 8 = 8 * k + i := by omega
      rw [e, ← ih (a := a + 1) (k := k) (by omega) (by omega)]
      simp only [Memory.readN, byteOf, BitVec.getLsbD_extractLsb', BitVec.getLsbD_or, BitVec.getLsbD_shiftLeft,
        BitVec.getLsbD_setWidth, hi, h1, h2, h3, BitVec.getLsbD_of_ge (m.read a) (8 * (k + 1) + i) (by omega)]
      simp

/-- An n-byte read depends on its n bytes only. -/
theorem Memory.readN_congr {m m' : Memory} {a n : Nat} (h : ∀ k, k < n → m.read (a + k) = m'.read (a + k)) :
    m.readN a n = m'.readN a n := by
  induction n generalizing a with
  | zero => rfl
  | succ n ih =>
    have h0 := h 0 (by omega)
    have h1 : m.readN (a + 1) n = m'.readN (a + 1) n := ih fun k hk => by
      have := h (k + 1) (by omega)
      simpa [Nat.add_assoc, Nat.add_comm 1 k] using this
    simp only [Nat.add_zero] at h0
    simp [Memory.readN, h0, h1]

/-- The bits above an n-byte read are zero. -/
theorem Memory.readN_high {m : Memory} {a n i : Nat} (hi : 8 * n ≤ i) : (m.readN a n).getLsbD i = false := by
  induction n generalizing a i with
  | zero => simp [Memory.readN]
  | succ n ih =>
    have h1 : ¬ i < 8 := by omega
    have h2 := ih (a := a + 1) (i := i - 8) (by omega)
    simp [Memory.readN, h2, BitVec.getLsbD_of_ge _ _ (show 8 ≤ i by omega)]

/-- What n bytes written read back as: the low n bytes of the value. -/
theorem Memory.readN_writeN {m : Memory} (h : m.wf = true) {a n : Nat} (hn : n ≤ 8) {v : DWord} :
    (Memory.writeN m a v n).readN a n = zextBytes n v := by
  apply BitVec.eq_of_getLsbD_eq
  intro i hi
  by_cases hin : i < 8 * n
  · have hk : i / 8 < n := by omega
    have e1 := congrArg (fun b : Byte => b.getLsbD (i % 8)) (Memory.byteOf_readN (m := Memory.writeN m a v n) (a := a) hk hn)
    have e2 := congrArg (fun b : Byte => b.getLsbD (i % 8)) (Memory.read_writeN_inside h (a := a) (v := v) hk)
    have hm : i % 8 < 8 := by omega
    have hs : 8 * (i / 8) + i % 8 = i := by omega
    simp [byteOf, hm, hs] at e1 e2
    rw [e1, e2]
    simp [zextBytes, hin, hi]
  · rw [Memory.readN_high (by omega)]
    simp [zextBytes, hin]

/-! ### The reset memories -/

theorem reset_memories_canonical : State.reset.env.phys.wf = true ∧ State.reset.env.coreCode.wf = true ∧
    State.reset.env.coreData.wf = true := ⟨rfl, rfl, rfl⟩

end Sys2Proof.Machine
end

