-- ==== Sys2Proof/Laws/ClosedAccess.lean ====
section
/-! SUPPORT. Which parts of the state the memory system changes: registers in memory, physical accesses, translation, caches, every access of a thread. -/

namespace Sys2Proof.Machine

theorem mem_ok_physWrite {e : Env} (a : Nat) (v : DWord) (n : Nat) (he : e.Ok) :
    Env.Ok { e with phys := Memory.writeN e.phys a v n } := ⟨Memory.wf_writeN he.phys _ _ _, he.coreCode, he.coreData⟩

theorem and_mask_zero {v m k : Word} (h : m &&& k = 0#32) : (v &&& m) &&& k = 0#32 := by
  rw [BitVec.and_assoc, h, BitVec.and_zero]

/-- One entry of a register table replaced by a sound one. -/
theorem forall_set_addr {len : Nat} {Entry : Type} {p : Entry → Prop} {table : Vector Entry len}
    (all : ∀ k : Fin len, p table[k.val]) {m : Fin len} {e : Entry} (he : p e) (k : Fin len) :
    p (table.set m.val e m.isLt)[k.val] := by
  by_cases same : m.val = k.val
  · simpa [Vector.getElem_set, same] using he
  · simpa [Vector.getElem_set, same] using all k

theorem countHit_and {w k : Word} (hk : 0x00FF0000#32 &&& k = 0#32) : countHit w &&& k = w &&& k := by
  unfold countHit
  split
  · rfl
  · exact withBits_and (by simpa using hk)

namespace Closed

variable {P : State → Prop} {W : Tid → Reg → Prop} {S : Prop} (h : Closed P W S)
include h

/-! ### Core registers -/

theorem emptyDcache {s : State} (hs : P s) : P s.emptyDcache := by
  unfold State.emptyDcache
  exact h.env _ _ ⟨rfl, rfl, rfl, rfl⟩ (h.hidAll s (fun k => { k with dcLocal := [] }) (fun _ => ⟨rfl, .inl rfl⟩) hs)

theorem emptyIcache {s : State} (hs : P s) : P s.emptyIcache := by
  unfold State.emptyIcache
  exact h.env _ _ ⟨rfl, rfl, rfl, rfl⟩ (h.hidAll s (fun k => { k with icLocal := [] }) (fun _ => ⟨rfl, .inl rfl⟩) hs)

theorem modDataw {s : State} (m : Fin 2) {f : Watchpoint → Watchpoint}
    (hf : s.core.dataw[m.val].ctrl &&& 0x00000004#32 = 0#32 → (f s.core.dataw[m.val]).ctrl &&& 0x00000004#32 = 0#32)
    (hs : P s) : P (s.modDataw m f) :=
  h.core _ _ (fun hc => { hc with
    datawCtrl := forall_set_addr (p := fun w : Watchpoint => w.ctrl &&& 0x00000004#32 = 0#32) hc.datawCtrl (hf (hc.datawCtrl m)) }) hs

theorem modCodeb {s : State} (m : Fin 4) {f : CodeBreakpoint → CodeBreakpoint}
    (ha : s.core.codeb[m.val].addr &&& 0x00000003#32 = 0#32 → (f s.core.codeb[m.val]).addr &&& 0x00000003#32 = 0#32)
    (hf : s.core.codeb[m.val].ctrl &&& 0x6F000000#32 = 0#32 → (f s.core.codeb[m.val]).ctrl &&& 0x6F000000#32 = 0#32)
    (hs : P s) : P (s.modCodeb m f) :=
  h.core _ _ (fun hc => { hc with
    codebAddr := forall_set_addr (p := fun w : CodeBreakpoint => w.addr &&& 0x00000003#32 = 0#32) hc.codebAddr (ha (hc.codebAddr m))
    codebCtrl := forall_set_addr (p := fun w : CodeBreakpoint => w.ctrl &&& 0x6F000000#32 = 0#32) hc.codebCtrl
      (hf (hc.codebCtrl m)) }) hs

theorem modPerf {s : State} (m : Fin 2) {f : PerfRegs → PerfRegs}
    (hi : s.core.perf[m.val].icore &&& 0xFFFFFCF0#32 = 0#32 → (f s.core.perf[m.val]).icore &&& 0xFFFFFCF0#32 = 0#32)
    (hc' : s.core.perf[m.val].chan &&& 0xFFFFFCF0#32 = 0#32 → (f s.core.perf[m.val]).chan &&& 0xFFFFFCF0#32 = 0#32)
    (hs : P s) : P (s.modPerf m f) :=
  h.core _ _ (fun hc => { hc with
    perfIcore := forall_set_addr (p := fun w : PerfRegs => w.icore &&& 0xFFFFFCF0#32 = 0#32) hc.perfIcore (hi (hc.perfIcore m))
    perfChan := forall_set_addr (p := fun w : PerfRegs => w.chan &&& 0xFFFFFCF0#32 = 0#32) hc.perfChan (hc' (hc.perfChan m)) }) hs

/-- A register write that the register takes. -/
theorem regWrite {s : State} {r : CoreReg} {v : Word} (hv : s.writeRefusal r v = none) (hs : P s) : P (s.regWrite r v) := by
  unfold State.regWrite
  cases r with
  | ct t n => exact h.ctWrite t n v hs
  | kick t => exact h.kick t _ v hs
  | kicki t => exact h.kick t _ v hs
  | ama4 t => exact h.mm _ _ _ (fun hm => { hm with amaReg4 := and_mask_zero (by decide) }) hs
  | ama5 t => exact h.mm _ _ _ (fun hm => { hm with amaReg5 := and_mask_zero (by decide) }) hs
  | ama6 t => exact h.mm _ _ _ (fun hm => { hm with amaReg6 := and_mask_zero (by decide) }) hs
  | privCore t => exact h.mm _ _ _ (fun hm => { hm with privCore := and_mask_zero (by decide) }) hs
  | codebAddr m => exact h.modCodeb m (fun _ => and_mask_zero (by decide)) (fun hx => hx) hs
  | codebCtrl m => exact h.modCodeb m (fun hx => hx) (fun _ => and_mask_zero (by decide)) hs
  | datawAddr m => exact h.modDataw m (fun hx => hx) hs
  | datawCtrl m => exact h.modDataw m (fun _ => and_mask_zero (by decide)) hs
  | datawMatch0 m => exact h.modDataw m (fun hx => hx) hs
  | datawMatch1 m => exact h.modDataw m (fun hx => hx) hs
  | datawMask0 m => exact h.modDataw m (fun hx => hx) hs
  | datawMask1 m => exact h.modDataw m (fun hx => hx) hs
  | perfIcore m => exact h.modPerf m (fun _ => and_mask_zero (by decide)) (fun hx => hx) hs
  | perfCount m => exact h.modPerf m (fun hx => hx) (fun hx => hx) hs
  | perfChan m => exact h.modPerf m (fun hx => hx) (fun _ => and_mask_zero (by decide)) hs
  | perfVec m => exact h.modPerf m (fun hx => hx) (fun hx => hx) hs
  | privSysr t => exact h.mm _ _ _ (fun hm => { hm with privSysr := and_mask_zero (by decide) }) hs
  | pioReg t => exact h.mm _ _ _ (fun hm => { hm with }) hs
  | psyReg t => exact h.mm _ _ _ (fun hm => { hm with }) hs
  | hwstatMeta => exact h.writeMeta v hs
  | hwstatExt k => exact h.writeExtStatus k v hs
  | hwlevelExt k => exact h.modExt k _ hs
  | hwmaskExt k => exact h.modExt k _ hs
  | vecB t => exact h.mm _ _ _ (fun hm => { hm with }) hs
  | vecI t => exact h.mm _ _ _ (fun hm => { hm with }) hs
  | vecP t => exact h.mm _ _ _ (fun hm => { hm with }) hs
  | hwvec e => exact h.core _ _ (fun hc => { hc with }) hs
  | metacId => exact hs
  | coreId => exact hs
  | coreRev => exact hs
  | coreConfig2 => exact hs
  | tablePhys => exact h.core _ _ (fun hc => { hc with tablePhys := and_mask_zero (by decide) }) hs
  | dcacheCtrl => exact h.core _ _ (fun hc => { hc with dcacheCtrl := and_mask_zero (by decide) }) hs
  | icacheCtrl => exact h.core _ _ (fun hc => { hc with icacheCtrl := and_mask_zero (by decide) }) hs
  | mmuConfig =>
    refine h.core _ _ (fun hc => { hc with mode := ?_ }) hs
    have hm : ¬ (bitsOf v 0 3 = 1#3 ∨ bitsOf v 0 3 = 3#3 ∨ bitsOf v 0 3 = 5#3) := fun hm => by
      simp [State.writeRefusal, hm] at hv
    simp only [not_or] at hm
    simp [mmuModeListed, hm]
  | jtagThread => exact h.core _ _ (fun hc => { hc with }) hs
  | dcacheFlush =>
    have h1 := h.core s (fun c => { c with dcacheFlush := v &&& 1#32 })
      (fun hc => { hc with dcacheFlush := and_mask_zero (by decide) }) hs
    exact ite_keeps (h.emptyDcache h1) h1
  | icacheFlush =>
    have h1 := h.core s (fun c => { c with icacheFlush := v &&& 1#32 })
      (fun hc => { hc with icacheFlush := and_mask_zero (by decide) }) hs
    exact ite_keeps (h.emptyIcache h1) h1
  | directMap m =>
    exact h.core _ _ (fun hc => { hc with
      directMap := forall_set_addr (p := fun w : Word => w &&& 0x007F3F20#32 = 0#32) hc.directMap (and_mask_zero (by decide)) }) hs
  | wrComb t => exact h.mm _ _ _ (fun hm => { hm with wrComb := and_mask_zero (by decide) }) hs
  | dcPart t => exact h.mm _ _ _ (fun hm => { hm with dcPart := and_mask_zero (by decide) }) hs
  | icPart t => exact h.mm _ _ _ (fun hm => { hm with icPart := and_mask_zero (by decide) }) hs
  | localEbCtrl => exact h.core _ _ (fun hc => { hc with localEb := and_mask_zero (by decide) }) hs
  | globalEbCtrl => exact h.core _ _ (fun hc => { hc with globalEb := and_mask_zero (by decide) }) hs
  | ebwcCtrl t => exact h.mm _ _ _ (fun hm => { hm with ebwcCtrl := and_mask_zero (by decide) }) hs
  | localPhys0 t => exact h.mm _ _ _ (fun hm => { hm with localPhys0 := and_mask_zero (by decide) }) hs
  | localPhys1 t => exact h.mm _ _ _ (fun hm => { hm with localPhys1 := and_mask_zero (by decide) }) hs
  | globalPhys0 t => exact h.mm _ _ _ (fun hm => { hm with globalPhys0 := and_mask_zero (by decide) }) hs
  | globalPhys1 t => exact h.mm _ _ _ (fun hm => { hm with globalPhys1 := and_mask_zero (by decide) }) hs

/-! ### Physical accesses and caches -/

theorem clearMonitors {s : State} (pa : Word) (n : Nat) (hs : P s) : P (s.clearMonitors pa n) :=
  h.hidAll s (fun k => { k with
    mon := match k.mon with
      | some m => if rangesMeet pa.toNat n m.pa.toNat m.len then none else some m
      | none => none }) (fun _ => ⟨rfl, .inl rfl⟩) hs

theorem physStore (hS : S) {s : State} (pa : Word) (n : Nat) (v : DWord) (hs : P s) : P (s.physStore pa n v) :=
  h.clearMonitors _ _ (h.mem hS _ _ (fun he => mem_ok_physWrite _ _ _ he) rfl hs)

theorem physWrite (hS : S) {s : State} (a : Acc) (pa : Word) (n : Nat) (v : DWord) (hs : P s) : P (s.physWrite a pa n v) :=
  ite_keeps (h.physStore hS _ _ _ hs) (ite_keeps hs (h.oweToken _ hs))

theorem setLines {s : State} (side : CacheSide) (p : Part) (l : List CacheLine) (hs : P s) : P (s.setLines side p l) := by
  unfold State.setLines
  split
  · exact h.hid _ _ _ ⟨rfl, .inl rfl⟩ hs
  · exact h.hid _ _ _ ⟨rfl, .inl rfl⟩ hs
  · exact h.env _ _ ⟨rfl, rfl, rfl, rfl⟩ hs
  · exact h.env _ _ ⟨rfl, rfl, rfl, rfl⟩ hs

theorem cacheUpdate {s : State} (p : Part) (pa : Word) (n : Nat) (v : DWord) (hs : P s) : P (s.cacheUpdate p pa n v) :=
  ite_keeps (h.setLines _ _ _ hs) hs

theorem drain (hS : S) {s : State} (t : Tid) (hs : P s) : P (s.drain t) :=
  List.foldlRecOn _ _ (h.hid _ _ _ ⟨rfl, .inl rfl⟩ hs) fun _ hx _ _ => h.cacheUpdate _ _ _ _ (h.physWrite hS _ _ _ _ hx)

theorem drainAll (hS : S) {s : State} (hs : P s) : P s.drainAll := List.foldlRecOn _ _ hs fun _ hx t _ => h.drain hS t hx

theorem flushSlot {s : State} (side : CacheSide) (i : Nat) (hs : P s) : P (s.flushSlot side i) :=
  List.foldlRecOn _ _ hs fun _ hx _ _ => h.setLines _ _ _ hx

theorem modTlb {s : State} (side : CacheSide) (t : Tid) (f : Tlb → Tlb) (hs : P s) : P (s.modTlb side t f) := by
  refine h.hid _ _ _ ?_ hs
  cases side <;> exact ⟨rfl, .inl rfl⟩

theorem flushTlb {s : State} (t : Tid) (hs : P s) : P (s.flushTlb t) := h.hid _ _ _ ⟨rfl, .inl rfl⟩ hs
theorem dropTlb {s : State} (t : Tid) (la : Word) (hs : P s) : P (s.dropTlb t la) := by
  unfold State.dropTlb
  exact h.hid _ _ _ ⟨rfl, .inl rfl⟩ hs

theorem drawFree : Keeps P Machine.drawFree := Keeps.drawFree fun _ hs => h.env _ _ ⟨rfl, rfl, rfl, rfl⟩ hs

theorem oweBusError (a : Acc) (i : Bool) : Keeps P (Machine.oweBusError a i) := by
  unfold Machine.oweBusError
  split
  · exact Keeps.pure _
  · exact Keeps.update fun _ hs => h.oweToken _ hs

theorem physRead (a : Acc) (i : Bool) (pa : Word) (n : Nat) : Keeps P (Machine.physRead a i pa n) := by
  unfold Machine.physRead
  repeat' first
    | with_reducible exact Keeps.pure _
    | with_reducible exact Keeps.view _
    | with_reducible exact Keeps.me
    | with_reducible exact Keeps.raise _
    | with_reducible exact Keeps.raiseLate _
    | with_reducible exact Keeps.block
    | with_reducible exact Keeps.refuse _
    | with_reducible exact h.oweBusError _ _
    | with_reducible exact h.drawFree
    | with_reducible refine Keeps.bind ?_ (fun _ => ?_)
    | split

theorem physReadLine (a : Acc) (i : Bool) (line : Nat) : Keeps P (Machine.physReadLine a i line) := by
  unfold Machine.physReadLine
  repeat' first
    | with_reducible exact Keeps.pure _
    | with_reducible exact Keeps.view _
    | with_reducible exact Keeps.me
    | with_reducible exact Keeps.raise _
    | with_reducible exact Keeps.raiseLate _
    | with_reducible exact Keeps.block
    | with_reducible exact Keeps.refuse _
    | with_reducible exact h.oweBusError _ _
    | with_reducible exact h.drawFree
    | with_reducible refine Keeps.bind ?_ (fun _ => ?_)
    | split

theorem walkEntry (a : Acc) (side : CacheSide) (b : Bool) (x la m : Word) : Keeps P (Machine.walkEntry a side b x la m) := by
  unfold Machine.walkEntry
  repeat' first
    | with_reducible exact Keeps.pure _
    | with_reducible exact Keeps.view _
    | with_reducible exact Keeps.me
    | with_reducible exact Keeps.raise _
    | with_reducible exact Keeps.raiseLate _
    | with_reducible exact Keeps.block
    | with_reducible exact Keeps.refuse _
    | with_reducible exact h.physRead _ _ _ _
    | (with_reducible refine Keeps.update ?_); exact fun _ hs => h.modTlb _ _ _ hs
    | with_reducible refine Keeps.bind ?_ (fun _ => ?_)
    | split
    | dsimp only

omit h in
theorem firstLevelAddr (t : Tid) (la : Word) : Keeps P (Machine.firstLevelAddr t la) := by
  unfold Machine.firstLevelAddr
  repeat' first
    | with_reducible exact Keeps.pure _
    | with_reducible exact Keeps.view _
    | with_reducible exact Keeps.me
    | with_reducible exact Keeps.raise _
    | with_reducible exact Keeps.raiseLate _
    | with_reducible exact Keeps.block
    | with_reducible exact Keeps.refuse _
    | with_reducible refine Keeps.bind ?_ (fun _ => ?_)
    | split

theorem walk (a : Acc) (side : CacheSide) (la : Word) : Keeps P (Machine.walk a side la) := by
  unfold Machine.walk
  repeat' first
    | with_reducible exact Keeps.pure _
    | with_reducible exact Keeps.view _
    | with_reducible exact Keeps.me
    | with_reducible exact Keeps.raise _
    | with_reducible exact Keeps.raiseLate _
    | with_reducible exact Keeps.block
    | with_reducible exact Keeps.refuse _
    | with_reducible exact firstLevelAddr _ _
    | with_reducible exact h.walkEntry _ _ _ _ _ _
    | with_reducible refine Keeps.bind ?_ (fun _ => ?_)
    | split

theorem translateRange (a : Acc) (la : Word) (k : Kind) : Keeps P (Machine.translateRange a la k) := by
  unfold Machine.translateRange
  repeat' first
    | with_reducible exact Keeps.pure _
    | with_reducible exact Keeps.view _
    | with_reducible exact Keeps.me
    | with_reducible exact Keeps.raise _
    | with_reducible exact Keeps.raiseLate _
    | with_reducible exact Keeps.block
    | with_reducible exact Keeps.refuse _
    | with_reducible exact h.walk _ _ _
    | with_reducible refine Keeps.bind ?_ (fun _ => ?_)
    | split

theorem translate (a : Acc) (la : Word) (k : Kind) : Keeps P (Machine.translate a la k) := by
  unfold Machine.translate
  repeat' first
    | with_reducible exact Keeps.pure _
    | with_reducible exact Keeps.view _
    | with_reducible exact Keeps.me
    | with_reducible exact Keeps.raise _
    | with_reducible exact Keeps.raiseLate _
    | with_reducible exact Keeps.block
    | with_reducible exact Keeps.refuse _
    | with_reducible exact h.translateRange _ _ _
    | with_reducible refine Keeps.bind ?_ (fun _ => ?_)
    | split

theorem fillLine (a : Acc) (side : CacheSide) (p : Part) (line : Nat) : Keeps P (Machine.fillLine a side p line) := by
  unfold Machine.fillLine
  repeat' first
    | with_reducible exact Keeps.pure _
    | with_reducible exact Keeps.view _
    | with_reducible exact Keeps.me
    | with_reducible exact Keeps.raise _
    | with_reducible exact Keeps.raiseLate _
    | with_reducible exact Keeps.block
    | with_reducible exact Keeps.refuse _
    | with_reducible exact h.physReadLine _ _ _
    | with_reducible exact h.drawFree
    | (with_reducible refine Keeps.update ?_); exact fun _ hs => h.setLines _ _ _ hs
    | with_reducible refine Keeps.bind ?_ (fun _ => ?_)

theorem cacheRead (a : Acc) (side : CacheSide) (x : Attr) (n : Nat) : Keeps P (Machine.cacheRead a side x n) := by
  unfold Machine.cacheRead
  repeat' first
    | with_reducible exact Keeps.pure _
    | with_reducible exact Keeps.view _
    | with_reducible exact Keeps.me
    | with_reducible exact Keeps.raise _
    | with_reducible exact Keeps.raiseLate _
    | with_reducible exact Keeps.block
    | with_reducible exact Keeps.refuse _
    | with_reducible exact h.physRead _ _ _ _
    | with_reducible exact h.fillLine _ _ _ _
    | with_reducible refine Keeps.bind ?_ (fun _ => ?_)
    | split

/-! ### Accesses -/

theorem watch (a : Acc) (la : Word) (w : Option (Nat × DWord)) : Keeps P (Machine.watch a la w) := by
  intro s hs
  have count : ∀ (s : State) (m : Fin 2), P s → P (s.modDataw m fun x => { x with ctrl := countHit x.ctrl }) := fun s m hx =>
    h.modDataw m (fun hz => by show countHit _ &&& _ = _; rw [countHit_and (by decide)]; exact hz) hx
  have h0 : P (if s.watchHit a la w 0 then s.modDataw 0 fun x => { x with ctrl := countHit x.ctrl } else s) :=
    ite_keeps (count _ _ hs) hs
  exact ite_keeps (count _ _ h0) h0

theorem openRead (n : Nat) : Keeps P (Machine.openRead n) := by
  unfold Machine.openRead
  repeat' first
    | with_reducible exact Keeps.pure _
    | with_reducible exact Keeps.view _
    | with_reducible exact Keeps.me
    | with_reducible exact Keeps.raise _
    | with_reducible exact Keeps.raiseLate _
    | with_reducible exact Keeps.block
    | with_reducible exact Keeps.refuse _
    | with_reducible exact h.drawFree
    | with_reducible refine Keeps.bind ?_ (fun _ => ?_)
    | split

theorem openWrite : Keeps P Machine.openWrite := by
  unfold Machine.openWrite
  repeat' first
    | with_reducible exact Keeps.pure _
    | with_reducible exact Keeps.view _
    | with_reducible exact Keeps.me
    | with_reducible exact Keeps.raise _
    | with_reducible exact Keeps.raiseLate _
    | with_reducible exact Keeps.block
    | with_reducible exact Keeps.refuse _
    | with_reducible exact h.drawFree
    | with_reducible refine Keeps.bind ?_ (fun _ => ?_)

theorem regRead (a : Acc) (la : Word) (n : Nat) : Keeps P (Machine.regRead a la n) := by
  unfold Machine.regRead
  repeat' first
    | with_reducible exact Keeps.pure _
    | with_reducible exact Keeps.view _
    | with_reducible exact Keeps.me
    | with_reducible exact Keeps.raise _
    | with_reducible exact Keeps.raiseLate _
    | with_reducible exact Keeps.block
    | with_reducible exact Keeps.refuse _
    | with_reducible exact h.drawFree
    | with_reducible refine Keeps.bind ?_ (fun _ => ?_)
    | split

theorem regStore (a : Acc) (la : Word) (n : Nat) (v : Word) : Keeps P (Machine.regStore a la n v) := by
  unfold Machine.regStore
  split
  · exact Keeps.refuse _
  · split
    · exact Keeps.refuse _
    · refine Keeps.bind (Keeps.view _) fun _ => Keeps.ite (Keeps.pure _) ?_
      refine Keeps.bind (Keeps.view _) fun _ => Keeps.ite (Keeps.pure _) ?_
      refine Keeps.ite (Keeps.refuse _) fun s hs => ?_
      simp only [view_bind]
      cases hq : s.writeRefusal ‹CoreReg› v with
      | some q => exact hs
      | none => exact h.regWrite hq hs

theorem systemEvent (hS : S) {s : State} (t : Tid) (c : Nat) (hs : P s) : P (s.systemEvent t c) := by
  have own : ∀ (s : State) (o : Option Tid), P s → P (s.modShared fun x => { x with atomicOwner := o }) := fun s o hx =>
    h.shared _ _ ⟨rfl, rfl, rfl, rfl, rfl, rfl, fun hz => hz⟩ hx
  have lf : ∀ b, P (s.modH t fun k => { k with lineFill := b }) := fun b => h.hid _ _ _ ⟨rfl, .inl rfl⟩ hs
  unfold State.systemEvent
  exact ite_keeps (h.emit _ (own _ _ (h.drainAll hS hs))) (ite_keeps (h.emit _ (h.drainAll hS (own _ _ hs)))
    (ite_keeps (lf _) (ite_keeps (lf _) (ite_keeps (h.emit _ (h.drain hS t hs)) (ite_keeps (h.emit _ (h.drain hS t hs))
      (ite_keeps hs (h.emit _ hs)))))))

theorem eventStore (hS : S) (a : Acc) (la : Word) (n : Nat) : Keeps P (Machine.eventStore a la n) := by
  unfold Machine.eventStore
  simp only
  repeat' first
    | with_reducible exact Keeps.pure _
    | with_reducible exact Keeps.view _
    | with_reducible exact Keeps.me
    | with_reducible exact Keeps.raise _
    | with_reducible exact Keeps.raiseLate _
    | with_reducible exact Keeps.block
    | with_reducible exact Keeps.refuse _
    | (with_reducible refine Keeps.update ?_); exact fun _ hs => h.systemEvent hS _ _ hs
    | with_reducible refine Keeps.bind ?_ (fun _ => ?_)
    | split

theorem cacheFlushStore (la : Word) (n : Nat) (v : Word) : Keeps P (Machine.cacheFlushStore la n v) := by
  unfold Machine.cacheFlushStore
  simp only
  repeat' first
    | with_reducible exact Keeps.pure _
    | with_reducible exact Keeps.view _
    | with_reducible exact Keeps.me
    | with_reducible exact Keeps.raise _
    | with_reducible exact Keeps.raiseLate _
    | with_reducible exact Keeps.block
    | with_reducible exact Keeps.refuse _
    | (with_reducible refine Keeps.update ?_); exact fun _ hs => h.flushSlot _ _ hs
    | with_reducible refine Keeps.bind ?_ (fun _ => ?_)
    | split

theorem tlbFlushStore (la : Word) (n : Nat) (v : Word) : Keeps P (Machine.tlbFlushStore la n v) := by
  unfold Machine.tlbFlushStore
  repeat' first
    | with_reducible exact Keeps.pure _
    | with_reducible exact Keeps.view _
    | with_reducible exact Keeps.me
    | with_reducible exact Keeps.raise _
    | with_reducible exact Keeps.raiseLate _
    | with_reducible exact Keeps.block
    | with_reducible exact Keeps.refuse _
    | (with_reducible refine Keeps.update ?_); exact fun _ hs => h.flushTlb _ hs
    | (with_reducible refine Keeps.update ?_); exact fun _ hs => List.foldlRecOn _ _ hs fun _ hx t _ => h.flushTlb t hx
    | with_reducible refine Keeps.bind ?_ (fun _ => ?_)
    | split

omit h in
theorem ownRead (a : Acc) (pa : Word) (n : Nat) {get : M DWord} (hg : Keeps P get) : Keeps P (Machine.ownRead a pa n get) := by
  unfold Machine.ownRead
  repeat' first
    | with_reducible exact hg
    | with_reducible exact Keeps.pure _
    | with_reducible exact Keeps.view _
    | with_reducible exact Keeps.block
    | with_reducible refine Keeps.bind ?_ (fun _ => ?_)
    | split

theorem dataRead (a : Acc) (x : Attr) (n : Nat) : Keeps P (Machine.dataRead a x n) :=
  Keeps.ite (h.physRead _ _ _ _) (ownRead a _ _ (h.cacheRead _ _ _ _))

theorem customRead (a : Acc) (pa : Word) (n : Nat) : Keeps P (Machine.customRead a pa n) :=
  Keeps.ite (h.physRead _ _ _ _) (ownRead a _ _ (h.physRead _ _ _ _))

theorem flushOverlap (hS : S) {s : State} (t : Tid) (pa : Word) (n : Nat) (hs : P s) : P (s.flushOverlap t pa n) :=
  ite_keeps (h.drain hS t hs) hs

theorem sendWrite (hS : S) {s : State} (a : Acc) (pa : Word) (n : Nat) (v : DWord) (hs : P s) : P (s.sendWrite a pa n v) :=
  h.physWrite hS _ _ _ _ (ite_keeps hs (h.flushOverlap hS _ _ _ hs))

theorem dataWrite (hS : S) {s : State} (a : Acc) (x : Attr) (n : Nat) (v : DWord) (hs : P s) : P (s.dataWrite a x n v) := by
  unfold State.dataWrite
  exact ite_keeps (h.sendWrite hS _ _ _ _ hs)
    (h.cacheUpdate _ _ _ _ (ite_keeps (h.hid _ _ _ ⟨rfl, .inl rfl⟩ hs) (h.sendWrite hS _ _ _ _ hs)))

theorem tableRead (a : Acc) (la : Word) (n : Nat) : Keeps P (Machine.tableRead a la n) := by
  unfold Machine.tableRead
  simp only
  repeat' first
    | with_reducible exact Keeps.pure _
    | with_reducible exact Keeps.view _
    | with_reducible exact Keeps.me
    | with_reducible exact Keeps.raise _
    | with_reducible exact Keeps.raiseLate _
    | with_reducible exact Keeps.block
    | with_reducible exact Keeps.refuse _
    | with_reducible exact h.dataRead _ _ _
    | with_reducible exact h.oweBusError _ _
    | with_reducible exact h.drawFree
    | with_reducible refine Keeps.bind ?_ (fun _ => ?_)
    | split

theorem tableStore (hS : S) (a : Acc) (la : Word) (n : Nat) (v : DWord) : Keeps P (Machine.tableStore a la n v) := by
  unfold Machine.tableStore
  repeat' first
    | with_reducible exact Keeps.pure _
    | with_reducible exact Keeps.view _
    | with_reducible exact Keeps.me
    | with_reducible exact Keeps.raise _
    | with_reducible exact Keeps.raiseLate _
    | with_reducible exact Keeps.block
    | with_reducible exact Keeps.refuse _
    | (with_reducible refine Keeps.update ?_); exact fun _ hs => h.dataWrite hS _ _ _ _ hs
    | with_reducible refine Keeps.bind ?_ (fun _ => ?_)
    | split

theorem liveRead (a : Acc) (la : Word) (n : Nat) (r : Region) : Keeps P (Machine.liveRead a la n r) := by
  unfold Machine.liveRead
  repeat' first
    | with_reducible exact Keeps.pure _
    | with_reducible exact Keeps.view _
    | with_reducible exact Keeps.me
    | with_reducible exact Keeps.raise _
    | with_reducible exact Keeps.raiseLate _
    | with_reducible exact Keeps.block
    | with_reducible exact Keeps.refuse _
    | with_reducible exact h.customRead _ _ _
    | with_reducible exact h.regRead _ _ _
    | with_reducible exact h.tableRead _ _ _
    | with_reducible exact h.translate _ _ _
    | with_reducible exact h.dataRead _ _ _
    | with_reducible refine Keeps.bind ?_ (fun _ => ?_)
    | split

theorem readAt (a : Acc) (la : Word) (n : Nat) : Keeps P (Machine.readAt a la n) := by
  unfold Machine.readAt
  simp only
  repeat' first
    | with_reducible exact Keeps.pure _
    | with_reducible exact Keeps.view _
    | with_reducible exact Keeps.me
    | with_reducible exact Keeps.raise _
    | with_reducible exact Keeps.raiseLate _
    | with_reducible exact Keeps.block
    | with_reducible exact Keeps.refuse _
    | with_reducible exact h.openRead _
    | with_reducible exact h.liveRead _ _ _ _
    | with_reducible refine Keeps.bind ?_ (fun _ => ?_)
    | split

/-- A read of memory changes neither memories nor registers (20_memory.md R262). -/
theorem memRead (a : Acc) (la : Word) (n : Nat) : Keeps P (Machine.memRead a la n) := by
  unfold Machine.memRead
  repeat' first
    | with_reducible exact Keeps.pure _
    | with_reducible exact Keeps.view _
    | with_reducible exact Keeps.me
    | with_reducible exact Keeps.raise _
    | with_reducible exact Keeps.raiseLate _
    | with_reducible exact Keeps.block
    | with_reducible exact Keeps.refuse _
    | with_reducible exact h.watch _ _ _
    | with_reducible exact h.readAt _ _ _
    | with_reducible refine Keeps.bind ?_ (fun _ => ?_)
    | split

theorem coreStore (hS : S) (b : Bool) (off n : Nat) (v : DWord) : Keeps P (Machine.coreStore b off n v) := by
  intro s hs
  unfold Machine.coreStore
  cases b
  · simp only [Bool.false_eq_true, if_false]
    split
    · exact h.mem hS s (fun e => { e with coreData := Memory.writeN e.coreData off v n })
        (fun he => ⟨he.phys, he.coreCode, Memory.wf_writeN he.coreData _ _ _⟩) rfl hs
    · exact hs
  · simp only [if_true]
    split
    · exact h.mem hS s (fun e => { e with coreCode := Memory.writeN e.coreCode off v n })
        (fun he => ⟨he.phys, Memory.wf_writeN he.coreCode _ _ _, he.coreData⟩) rfl hs
    · exact hs

theorem liveWrite (hS : S) (a : Acc) (la : Word) (n : Nat) (v : DWord) (r : Region) : Keeps P (Machine.liveWrite a la n v r) := by
  unfold Machine.liveWrite
  repeat' first
    | with_reducible exact Keeps.pure _
    | with_reducible exact Keeps.view _
    | with_reducible exact Keeps.me
    | with_reducible exact Keeps.raise _
    | with_reducible exact Keeps.raiseLate _
    | with_reducible exact Keeps.block
    | with_reducible exact Keeps.refuse _
    | with_reducible exact h.eventStore hS _ _ _
    | with_reducible exact h.cacheFlushStore _ _ _
    | with_reducible exact h.tlbFlushStore _ _ _
    | with_reducible exact h.regStore _ _ _ _
    | with_reducible exact h.tableStore hS _ _ _ _
    | with_reducible exact h.coreStore hS _ _ _ _
    | with_reducible exact h.translate _ _ _
    | (with_reducible refine Keeps.update ?_); exact fun _ hs => h.sendWrite hS _ _ _ _ hs
    | (with_reducible refine Keeps.update ?_); exact fun _ hs => h.dataWrite hS _ _ _ _ hs
    | with_reducible refine Keeps.bind ?_ (fun _ => ?_)
    | split

theorem writeAt (hS : S) (a : Acc) (la : Word) (n : Nat) (v : DWord) : Keeps P (Machine.writeAt a la n v) := by
  unfold Machine.writeAt
  simp only
  repeat' first
    | with_reducible exact Keeps.pure _
    | with_reducible exact Keeps.view _
    | with_reducible exact Keeps.me
    | with_reducible exact Keeps.raise _
    | with_reducible exact Keeps.raiseLate _
    | with_reducible exact Keeps.block
    | with_reducible exact Keeps.refuse _
    | with_reducible exact h.openWrite
    | with_reducible exact h.liveWrite hS _ _ _ _ _
    | with_reducible refine Keeps.bind ?_ (fun _ => ?_)
    | split

theorem memWrite (hS : S) (a : Acc) (la : Word) (n : Nat) (v : DWord) : Keeps P (Machine.memWrite a la n v) := by
  unfold Machine.memWrite
  repeat' first
    | with_reducible exact Keeps.pure _
    | with_reducible exact Keeps.view _
    | with_reducible exact Keeps.me
    | with_reducible exact Keeps.raise _
    | with_reducible exact Keeps.raiseLate _
    | with_reducible exact Keeps.block
    | with_reducible exact Keeps.refuse _
    | with_reducible exact h.watch _ _ _
    | with_reducible exact h.writeAt hS _ _ _ _
    | with_reducible refine Keeps.bind ?_ (fun _ => ?_)
    | split

theorem linkedAttr (a : Acc) (la : Word) (k : Kind) : Keeps P (Machine.linkedAttr a la k) := by
  unfold Machine.linkedAttr
  simp only
  repeat' first
    | with_reducible exact Keeps.pure _
    | with_reducible exact Keeps.view _
    | with_reducible exact Keeps.me
    | with_reducible exact Keeps.raise _
    | with_reducible exact Keeps.raiseLate _
    | with_reducible exact Keeps.block
    | with_reducible exact Keeps.refuse _
    | with_reducible exact h.translate _ _ _
    | with_reducible refine Keeps.bind ?_ (fun _ => ?_)
    | split

theorem emitIf {s : State} (b : Bool) (e : OutEvent) (hs : P s) : P (s.emitIf b e) := ite_keeps (h.emit e hs) hs

theorem linkedRead (hS : S) (a : Acc) (la : Word) (n : Nat) : Keeps P (Machine.linkedRead a la n) := by
  unfold Machine.linkedRead
  repeat' first
    | with_reducible exact Keeps.pure _
    | with_reducible exact Keeps.view _
    | with_reducible exact Keeps.me
    | with_reducible exact Keeps.raise _
    | with_reducible exact Keeps.raiseLate _
    | with_reducible exact Keeps.block
    | with_reducible exact Keeps.refuse _
    | with_reducible exact h.watch _ _ _
    | with_reducible exact h.linkedAttr _ _ _
    | with_reducible exact h.physRead _ _ _ _
    | (with_reducible refine Keeps.update ?_); exact fun _ hs => h.flushOverlap hS _ _ _ hs
    | (with_reducible refine Keeps.update ?_); exact fun _ hs => h.emitIf _ _ (h.hid _ _ _ ⟨rfl, .inl rfl⟩ hs)
    | with_reducible refine Keeps.bind ?_ (fun _ => ?_)
    | split

theorem linkedStore (hS : S) {s : State} (t : Tid) (x : Attr) (n : Nat) (v : DWord) (b : Bool) (hs : P s) :
    P (s.linkedStore t x n v b) := by
  have h1 := h.hid s t (fun k => { k with mon := none }) ⟨rfl, .inl rfl⟩ hs
  exact ite_keeps (h.oweToken _ h1) (ite_keeps (h.oweToken _ (h.emitIf _ _ (h.physStore hS _ _ _ h1))) (h.oweToken _ h1))

theorem linkedWrite (hS : S) (a : Acc) (la : Word) (n : Nat) (v : DWord) : Keeps P (Machine.linkedWrite a la n v) := by
  unfold Machine.linkedWrite
  repeat' first
    | with_reducible exact Keeps.pure _
    | with_reducible exact Keeps.view _
    | with_reducible exact Keeps.me
    | with_reducible exact Keeps.raise _
    | with_reducible exact Keeps.raiseLate _
    | with_reducible exact Keeps.block
    | with_reducible exact Keeps.refuse _
    | with_reducible exact h.watch _ _ _
    | with_reducible exact h.linkedAttr _ _ _
    | with_reducible exact h.drawFree
    | (with_reducible refine Keeps.update ?_); exact fun _ hs => h.flushOverlap hS _ _ _ hs
    | (with_reducible refine Keeps.update ?_); exact fun _ hs => h.linkedStore hS _ _ _ _ _ hs
    | with_reducible refine Keeps.bind ?_ (fun _ => ?_)
    | split

theorem liveFetch (a : Acc) (la : Word) (r : Region) : Keeps P (Machine.liveFetch a la r) := by
  unfold Machine.liveFetch
  repeat' first
    | with_reducible exact Keeps.pure _
    | with_reducible exact Keeps.view _
    | with_reducible exact Keeps.me
    | with_reducible exact Keeps.raise _
    | with_reducible exact Keeps.raiseLate _
    | with_reducible exact Keeps.block
    | with_reducible exact Keeps.refuse _
    | with_reducible exact h.translate _ _ _
    | with_reducible exact h.cacheRead _ _ _ _
    | with_reducible refine Keeps.bind ?_ (fun _ => ?_)
    | split

theorem fetchWord (a : Acc) (la : Word) : Keeps P (Machine.fetchWord a la) := by
  unfold Machine.fetchWord
  simp only
  repeat' first
    | with_reducible exact Keeps.pure _
    | with_reducible exact Keeps.view _
    | with_reducible exact Keeps.me
    | with_reducible exact Keeps.raise _
    | with_reducible exact Keeps.raiseLate _
    | with_reducible exact Keeps.block
    | with_reducible exact Keeps.refuse _
    | with_reducible exact h.openRead _
    | with_reducible exact h.liveFetch _ _ _
    | with_reducible refine Keeps.bind ?_ (fun _ => ?_)
    | split

theorem breakpoints (t : Tid) (la : Word) : Keeps P (Machine.breakpoints t la) := by
  intro s hs
  refine List.foldlRecOn (motive := fun r : Bool × State => P r.2) (List.finRange 4) (fun r m => tryBreakpoint t la m r) hs
    fun r hr m _ => ?_
  have counted : P (r.2.modCodeb m fun x => { x with ctrl := countHit x.ctrl }) :=
    h.modCodeb m (fun hz => hz) (fun hz => (countHit_and (by decide)).trans hz) hr
  unfold tryBreakpoint
  simp only
  split
  · exact hr
  · split
    · exact hr
    · exact counted

theorem fetch (t : Tid) (pc : Word) : Keeps P (Machine.fetch t pc) := by
  unfold Machine.fetch
  simp only
  repeat' first
    | with_reducible exact Keeps.pure _
    | with_reducible exact Keeps.view _
    | with_reducible exact Keeps.me
    | with_reducible exact Keeps.raise _
    | with_reducible exact Keeps.raiseLate _
    | with_reducible exact Keeps.block
    | with_reducible exact Keeps.refuse _
    | with_reducible exact h.fetchWord _ _
    | with_reducible exact h.breakpoints _ _
    | with_reducible refine Keeps.bind ?_ (fun _ => ?_)
    | split

end Closed

end Sys2Proof.Machine
end

