-- ==== Sys2Proof/Laws/Operands.lean ====
section
/-! SUPPORT. What a register write leaves and what a register read gives after it. -/

namespace Sys2Proof.Machine

/-- A register write changes data and address registers only: one thread's, or the shared ones. -/
theorem State.setReg_cases (s : State) (t : Tid) (r : Reg) (v : Word) :
    (∃ f : Units → Units, s.setReg t r v = s.modU t f ∧ ∀ u, (f u).pc = u.pc ∧ (f u).pcx = u.pcx) ∨
    (∃ f : Shared → Shared, s.setReg t r v = s.modShared f ∧
      ∀ g, (f g).hwtrig = g.hwtrig ∧ (f g).idlecyc = g.idlecyc ∧ (f g).lock1 = g.lock1 ∧ (f g).lock2 = g.lock2 ∧
        (f g).atomicOwner = g.atomicOwner) ∨
    s.setReg t r v = s := by
  unfold State.setReg
  cases r.unit <;> dsimp only <;> (repeat' split) <;>
    first
    | exact .inr (.inr rfl)
    | exact .inl ⟨_, rfl, fun _ => ⟨rfl, rfl⟩⟩
    | exact .inr (.inl ⟨_, rfl, fun _ => ⟨rfl, rfl, rfl, rfl, rfl⟩⟩)

section
variable (s : State) (t u : Tid) (r : Reg) (v : Word)

@[simp] theorem State.cfg_setReg : (s.setReg t r v).cfg = s.cfg := by
  obtain ⟨f, e, -⟩ | ⟨f, e, -⟩ | e := s.setReg_cases t r v <;> rw [e] <;> simp
@[simp] theorem State.env_setReg : (s.setReg t r v).env = s.env := by
  obtain ⟨f, e, -⟩ | ⟨f, e, -⟩ | e := s.setReg_cases t r v <;> rw [e] <;> simp
@[simp] theorem State.core_setReg : (s.setReg t r v).core = s.core := by
  obtain ⟨f, e, -⟩ | ⟨f, e, -⟩ | e := s.setReg_cases t r v <;> rw [e] <;> simp
@[simp] theorem State.h_setReg : ((s.setReg t r v).th u).h = (s.th u).h := by
  obtain ⟨f, e, -⟩ | ⟨f, e, -⟩ | e := s.setReg_cases t r v <;> rw [e] <;> simp
@[simp] theorem State.ct_setReg : ((s.setReg t r v).th u).ct = (s.th u).ct := by
  obtain ⟨f, e, -⟩ | ⟨f, e, -⟩ | e := s.setReg_cases t r v <;> rw [e] <;> simp
@[simp] theorem State.tr_setReg : ((s.setReg t r v).th u).tr = (s.th u).tr := by
  obtain ⟨f, e, -⟩ | ⟨f, e, -⟩ | e := s.setReg_cases t r v <;> rw [e] <;> simp
@[simp] theorem State.mm_setReg : ((s.setReg t r v).th u).mm = (s.th u).mm := by
  obtain ⟨f, e, -⟩ | ⟨f, e, -⟩ | e := s.setReg_cases t r v <;> rw [e] <;> simp
@[simp] theorem State.pc_setReg : ((s.setReg t r v).th u).u.pc = (s.th u).u.pc := by
  obtain ⟨f, e, h⟩ | ⟨f, e, -⟩ | e := s.setReg_cases t r v <;> rw [e]
  · rw [State.u_modU]; split
    · exact (h _).1
    · rfl
  · simp
@[simp] theorem State.pcx_setReg : ((s.setReg t r v).th u).u.pcx = (s.th u).u.pcx := by
  obtain ⟨f, e, h⟩ | ⟨f, e, -⟩ | e := s.setReg_cases t r v <;> rw [e]
  · rw [State.u_modU]; split
    · exact (h _).2
    · rfl
  · simp
theorem State.shared_setReg : (s.setReg t r v).shared.hwtrig = s.shared.hwtrig ∧
    (s.setReg t r v).shared.idlecyc = s.shared.idlecyc ∧ (s.setReg t r v).shared.lock1 = s.shared.lock1 ∧
    (s.setReg t r v).shared.lock2 = s.shared.lock2 ∧ (s.setReg t r v).shared.atomicOwner = s.shared.atomicOwner := by
  obtain ⟨f, e, -⟩ | ⟨f, e, h⟩ | e := s.setReg_cases t r v <;> rw [e]
  · exact ⟨rfl, rfl, rfl, rfl, rfl⟩
  · exact h _
  · exact ⟨rfl, rfl, rfl, rfl, rfl⟩

end

/-- A data or address register reads back what was written to it. -/
theorem State.reg_setReg_self {s : State} {t : Tid} {r : Reg} {v : Word} (h : regInUnit r = true) : (s.setReg t r v).reg t r = v := by
  unfold State.reg State.setReg
  unfold regInUnit Reg.isData Reg.isAddress at h
  cases hu : r.unit <;> rw [hu] at h <;> dsimp only
  case d0 => split <;> simp [dataGet, *]
  case d1 => split <;> simp [dataGet, *]
  case a0 =>
    have h16 : r.num.toNat < 16 := by simpa using h
    split <;> simp [addrGet, *]
  case a1 =>
    have h16 : r.num.toNat < 16 := by simpa using h
    split <;> simp [addrGet, *]
  all_goals simp at h

theorem Vector.getElem_set_mod {n : Nat} {x : Vector Word n} {i j : Nat} {v : Word} (hi : i % n < n) (hj : j % n < n)
    (h : i % n ≠ j % n) : (x.set (i % n) v hi)[j % n] = x[j % n] := Vector.getElem_set_ne _ _ h

/-- A register at another place reads as before; a global one is every thread's. -/
theorem State.reg_setReg_of_ne {s : State} {t u : Tid} {d r : Reg} {v : Word} (h : r = d → u ≠ t ∧ isGlobalReg r = false) :
    (s.setReg t d v).reg u r = s.reg u r := by
  obtain ⟨du, dn⟩ := d
  obtain ⟨ru, rn⟩ := r
  have hdn : dn.toNat < 32 := dn.isLt
  have hrn : rn.toNat < 32 := rn.isLt
  by_cases hunit : ru = du
  · subst hunit
    by_cases hnum : rn = dn
    · subst hnum
      obtain ⟨hu, hg⟩ := h rfl
      cases ru <;> simp [isGlobalReg] at hg <;> unfold State.reg State.setReg <;> dsimp only <;>
        simp [dataGet, addrGet, hg, State.u_modU_of_ne hu]
    · have hne : dn.toNat ≠ rn.toNat := fun e => hnum (BitVec.eq_of_toNat_eq e.symm)
      cases ru <;> unfold State.reg State.setReg <;> dsimp only
      case d0 | d1 | a0 | a1 =>
        (repeat' split) <;> simp only [State.u_modU, State.shared_modU, State.th_modShared, State.shared_modShared, dataGet, addrGet]
          <;> (repeat' split) <;> first | rfl | (rw [Vector.getElem_set_mod]; omega)
  · cases du <;> cases ru <;> first | exact absurd rfl hunit | skip
    all_goals unfold State.reg State.setReg
    all_goals dsimp only
    all_goals first
      | rfl
      | ((repeat' split) <;> simp only [State.u_modU, State.shared_modU, State.th_modShared, State.shared_modShared] <;> split <;>
          rfl)

/-- Data and address registers live in the register units of the threads and in the shared units. -/
theorem State.reg_congr {s s' : State} {u : Tid} {r : Reg} (hu : (s'.th u).u.d0 = (s.th u).u.d0 ∧ (s'.th u).u.d1 = (s.th u).u.d1 ∧
    (s'.th u).u.a0 = (s.th u).u.a0 ∧ (s'.th u).u.a1 = (s.th u).u.a1) (hg : s'.shared.d0 = s.shared.d0 ∧
    s'.shared.d1 = s.shared.d1 ∧ s'.shared.a0 = s.shared.a0 ∧ s'.shared.a1 = s.shared.a1) : s'.reg u r = s.reg u r := by
  unfold State.reg
  simp only [hu.1, hu.2.1, hu.2.2.1, hu.2.2.2, hg.1, hg.2.1, hg.2.2.1, hg.2.2.2]

section
variable (s : State) (t u : Tid) (r : Reg)

@[simp] theorem State.reg_modCt (f : Ctrl → Ctrl) : (s.modCt t f).reg u r = s.reg u r := by unfold State.reg; simp
@[simp] theorem State.reg_modTr (f : Trig → Trig) : (s.modTr t f).reg u r = s.reg u r := by unfold State.reg; simp
@[simp] theorem State.reg_modMm (f : ThreadRegs → ThreadRegs) : (s.modMm t f).reg u r = s.reg u r := by unfold State.reg; simp
@[simp] theorem State.reg_modH (f : Hidden → Hidden) : (s.modH t f).reg u r = s.reg u r := by unfold State.reg; simp
@[simp] theorem State.reg_modCore (f : CoreRegs → CoreRegs) : (s.modCore f).reg u r = s.reg u r := rfl
@[simp] theorem State.reg_modEnv (f : Env → Env) : (s.modEnv f).reg u r = s.reg u r := rfl
@[simp] theorem State.reg_setStatus (v : Word) : (s.setStatus t v).reg u r = s.reg u r := State.reg_modCt _ _ _ _ _
@[simp] theorem State.reg_setPc (v : Word) : (s.setPc t v).reg u r = s.reg u r := by
  refine State.reg_congr ?_ ⟨rfl, rfl, rfl, rfl⟩
  simp only [State.setPc, State.u_modU]
  split <;> exact ⟨rfl, rfl, rfl, rfl⟩
@[simp] theorem State.reg_setPcx (v : Word) : (s.setPcx t v).reg u r = s.reg u r := by
  refine State.reg_congr ?_ ⟨rfl, rfl, rfl, rfl⟩
  simp only [State.setPcx, State.u_modU]
  split <;> exact ⟨rfl, rfl, rfl, rfl⟩

end

end Sys2Proof.Machine
end

