-- ==== Sys2Proof/Laws/ClosedExec.lean ====
section
/-! SUPPORT. Which parts of the state an instruction changes: its operands, its body, and every arm of the dispatch. -/

namespace Sys2Proof.Machine

/-- A body that starts with the executing thread, where `P` says which one that is. -/
theorem Keeps.me_bind {β : Type} {P : State → Prop} {c : Tid} {f : Tid → M β} (hc : ∀ s, P s → s.cur = c) (hf : Keeps P (f c)) :
    Keeps P (Machine.me >>= f) := by
  intro s hs
  have e := hc s hs
  show P (endState (f s.cur s))
  rw [e]
  exact hf s hs

/-- `P` together with room in a read pipeline. -/
theorem Closed.withRoom {P : State → Prop} {W : Tid → Reg → Prop} {S : Prop} (h : Closed P W S) (t : Tid) :
    Closed (fun s => P s ∧ (s.th t).h.rp.length < s.cfg.readPipelineDepth) W S where
  pcs := fun s u v w hs => ⟨h.pcs s u v w hs.1, by simpa using hs.2⟩
  setReg := fun s u r v hw hs => ⟨h.setReg s u r v hw hs.1, by simpa using hs.2⟩
  ct := fun s u f hf hs => ⟨h.ct s u f hf hs.1, by simpa using hs.2⟩
  enable := fun s u b hb hs => ⟨h.enable s u b hb hs.1, by simpa using hs.2⟩
  tr := fun s u f hf hs => ⟨h.tr s u f hf hs.1, by simpa using hs.2⟩
  mm := fun s u f hf hs => ⟨h.mm s u f hf hs.1, by simpa using hs.2⟩
  hid := fun s u f hf hs => ⟨h.hid s u f hf hs.1, by
    rw [State.h_modH]
    split
    · rename_i e; subst e; rw [hf.1]; exact hs.2
    · exact hs.2⟩
  hidAll := fun s f hf hs => ⟨h.hidAll s f hf hs.1, by simpa [State.th, (hf _).1] using hs.2⟩
  goOff := fun s u b hs => ⟨h.goOff s u b hs.1, by
    unfold State.goOff; rw [State.th_modTh]; split <;> exact hs.2⟩
  goOn := fun s u x hx hs => ⟨h.goOn s u x hx hs.1, by rw [State.th_modTh]; split <;> exact hs.2⟩
  shared := fun s f hf hs => ⟨h.shared s f hf hs.1, hs.2⟩
  lock0 := fun s u hs => ⟨h.lock0 s u hs.1, hs.2⟩
  lock1 := fun s u hf hs => ⟨h.lock1 s u hf hs.1, hs.2⟩
  lock2 := fun s u hf hs => ⟨h.lock2 s u hf hs.1, hs.2⟩
  core := fun s f hf hs => ⟨h.core s f hf hs.1, hs.2⟩
  env := fun s f hf hs => ⟨h.env s f hf hs.1, hs.2⟩
  mem := fun hS s f hf hc hs => ⟨h.mem hS s f hf hc hs.1, hs.2⟩

/-- A property with a side condition is kept by what keeps it on the states that meet the condition. -/
theorem Keeps.of_imp {α : Type} {P Q : State → Prop} {x : M α} (hx : ∀ s, P s → Q s) (hk : Keeps Q x) (hb : ∀ s, Q s → P s) :
    Keeps P x := fun s hs => hb _ (hk s (hx s hs))

/-- The bits of one unit name no pair. -/
theorem pair_of_unit {b : BitVec 11} {u : UnitId} {first : Bool} (hu : unitOfBit b = some u) : pairOfBits b first = none := by
  have hb : destBit u = b := by simpa using List.find?_some hu
  subst hb
  cases u <;> cases first <;> rfl

@[simp] theorem State.replays_advanced (s : State) : s.advanced.replays = s.replays := by
  simp [State.replays, State.istat, State.cbMarker, State.status, State.advanced, State.setPc, State.cur]

@[simp] theorem State.dests_advanced (s : State) (i : Instr) : s.advanced.dests i = s.dests i := by
  simp only [State.dests, State.replays_advanced]
  simp [State.advanced, State.setPc, State.cur]

@[simp] theorem State.mayStore_advanced (s : State) (i : Instr) : s.advanced.mayStore i = s.mayStore i := by
  simp [State.mayStore]

@[simp] theorem State.dests_repeatForm (s : State) (i : Instr) : s.dests (.repeatForm i) = s.dests i := rfl
@[simp] theorem State.mayStore_repeatForm (s : State) (i : Instr) : s.mayStore (.repeatForm i) = s.mayStore i := rfl

/-- The body of a return from interrupt, however many repeat bits it carries. -/
theorem iteration_return {i : Instr} (hi : isReturn i = true) : iteration i = (.al, rtiBody) := by
  induction i with
  | rti => rfl
  | repeatForm i ih => exact ih hi
  | _ => cases hi

namespace Closed

variable {P : State → Prop} {W : Tid → Reg → Prop} {S : Prop} (h : Closed P W S)

theorem check (t : Tid) (l : List Use) : Keeps P (Machine.check t l) := by
  intro s hs
  unfold Machine.check
  split <;> exact hs

theorem popRead (hr : RpClosed P) (t : Tid) : Keeps P (Machine.popRead t) := by
  intro s hs
  unfold Machine.popRead
  split
  · split <;> exact hs
  · rename_i e l hl
    exact hr s t l (.inl (by rw [hl]; simp)) hs

include h

theorem prefetch (t : Tid) (la : Word) : Keeps P (Machine.prefetch t la) := by
  unfold Machine.prefetch
  repeat' first
    | with_reducible exact Keeps.pure _
    | with_reducible exact Keeps.view _
    | with_reducible exact Keeps.me
    | with_reducible exact Keeps.raise _
    | with_reducible exact Keeps.raiseLate _
    | with_reducible exact Keeps.block
    | with_reducible exact Keeps.refuse _
    | with_reducible exact h.translate _ _ _
    | (with_reducible refine Keeps.update ?_); exact fun _ hs => h.hid _ _ _ ⟨rfl, .inl rfl⟩ hs
    | with_reducible refine Keeps.bind ?_ (fun _ => ?_)
    | split


theorem issueRead (hr : RpClosed P) (t : Tid) (p : ReadPort) (la : Word) : Keeps P (Machine.issueRead t p la) := by
  intro s hs
  unfold Machine.issueRead
  rw [view_bind, view_bind]
  dsimp only
  split
  · exact hs
  · rename_i hfull
    have room : (s.th t).h.rp.length < s.cfg.readPipelineDepth := by
      simp at hfull
      exact hfull.1
    rw [view_bind, view_bind]
    have hm := (h.withRoom t).memRead (s.accOf t) la (portBytes s.cfg p) s ⟨hs, room⟩
    rw [M.bind_run]
    cases hx : Machine.memRead (s.accOf t) la (portBytes s.cfg p) s with
    | error e s' => rw [hx] at hm; exact hm.1
    | ok v s' =>
      rw [hx] at hm
      cases v with
      | error f => exact hm.1
      | ok v =>
        have hlen : (s'.th t).h.rp.length < s'.cfg.readPipelineDepth := hm.2
        exact hr s' t _ (.inr (by simp; omega)) hm.1

theorem writePort (hr : RpClosed P) (t : Tid) (p : ReadPort) (la : Word) : Keeps P (Machine.writePort t p la) := by
  unfold Machine.writePort
  split
  · exact h.prefetch t la
  · exact Keeps.refuse _
  · exact Keeps.refuse _
  · exact Keeps.refuse _
  all_goals exact h.issueRead hr t _ la

theorem blockingRead (t : Tid) (l : Level) : Keeps P (Machine.blockingRead t l) := by
  intro s hs
  unfold Machine.blockingRead
  split
  · exact hs
  · split
    · exact hs
    · exact h.passTriggerRead t l hs

theorem trRead (t : Tid) (n : BitVec 5) : Keeps P (Machine.trRead t n) := by
  unfold Machine.trRead
  repeat' first
    | with_reducible exact Keeps.pure _
    | with_reducible exact Keeps.view _
    | with_reducible exact Keeps.me
    | with_reducible exact Keeps.raise _
    | with_reducible exact Keeps.raiseLate _
    | with_reducible exact Keeps.block
    | with_reducible exact Keeps.refuse _
    | with_reducible exact h.blockingRead _ _
    | with_reducible refine Keeps.bind ?_ (fun _ => ?_)
    | split

theorem trWrite {s : State} (t : Tid) (n : BitVec 5) (v : Word) (hs : P s) : P (s.trWrite t n v) := by
  unfold State.trWrite
  split
  · exact h.ackTriggers t _ v hs
  · exact h.tr _ _ _ (fun _ => by
      show bitOf (bitsOf v 0 16 &&& 0xFFFB#16) 2 = false
      unfold bitOf
      rw [BitVec.getLsbD_and]
      simp) hs
  · exact h.ackTriggers t _ v hs
  · exact h.tr _ _ _ (fun hm => hm) hs
  · exact hs

theorem readReg (hr : RpClosed P) (t : Tid) (pc : Word) (r : Reg) : Keeps P (Machine.readReg t pc r) := by
  unfold Machine.readReg
  repeat' first
    | with_reducible exact Keeps.pure _
    | with_reducible exact Keeps.view _
    | with_reducible exact Keeps.me
    | with_reducible exact Keeps.raise _
    | with_reducible exact Keeps.raiseLate _
    | with_reducible exact Keeps.block
    | with_reducible exact Keeps.refuse _
    | with_reducible exact h.trRead _ _
    | with_reducible exact popRead hr _
    | with_reducible refine Keeps.bind ?_ (fun _ => ?_)
    | split

theorem ctWriteOwn {s : State} (t : Tid) (n : BitVec 5) (v : Word) (hs : P s) : P (s.ctWriteOwn t n v) :=
  ite_keeps (h.statusWriteLow t v hs) (h.ctWrite t n v hs)

theorem writeReg (hr : RpClosed P) {t : Tid} {r : Reg} (hw : r.isGeneral = true → W t r) (v : Word) :
    Keeps P (Machine.writeReg t r v) := by
  unfold Machine.writeReg
  split
  · exact Keeps.update fun _ hs => h.setReg _ _ _ _ (hw (by simp [Reg.isGeneral, *])) hs
  · exact Keeps.update fun _ hs => h.setReg _ _ _ _ (hw (by simp [Reg.isGeneral, *])) hs
  · exact Keeps.update fun _ hs => h.setReg _ _ _ _ (hw (by simp [Reg.isGeneral, *])) hs
  · exact Keeps.update fun _ hs => h.setReg _ _ _ _ (hw (by simp [Reg.isGeneral, *])) hs
  · exact Keeps.update fun _ hs => ite_keeps (h.jump _ _ hs) (h.setPcx _ _ hs)
  · exact Keeps.update fun _ hs => h.ctWriteOwn _ _ _ hs
  · exact Keeps.update fun _ hs => h.trWrite _ _ _ hs
  · split
    · exact h.writePort hr _ _ _
    · exact Keeps.raise _
  · exact Keeps.refuse _
  · exact Keeps.refuse _

theorem readSrc (hr : RpClosed P) (t : Tid) (pc : Word) (x : Src) : Keeps P (Machine.readSrc t pc x) := by
  unfold Machine.readSrc
  repeat' first
    | with_reducible exact Keeps.pure _
    | with_reducible exact Keeps.view _
    | with_reducible exact Keeps.me
    | with_reducible exact Keeps.raise _
    | with_reducible exact Keeps.raiseLate _
    | with_reducible exact Keeps.block
    | with_reducible exact Keeps.refuse _
    | with_reducible exact h.readReg hr _ _ _
    | with_reducible refine Keeps.bind ?_ (fun _ => ?_)
    | split

theorem readAuSrc (hr : RpClosed P) (t : Tid) (pc : Word) (x : AuSrc) : Keeps P (Machine.readAuSrc t pc x) := by
  unfold Machine.readAuSrc
  repeat' first
    | with_reducible exact Keeps.pure _
    | with_reducible exact Keeps.view _
    | with_reducible exact Keeps.me
    | with_reducible exact Keeps.raise _
    | with_reducible exact Keeps.raiseLate _
    | with_reducible exact Keeps.block
    | with_reducible exact Keeps.refuse _
    | with_reducible exact h.readReg hr _ _ _
    | with_reducible refine Keeps.bind ?_ (fun _ => ?_)
    | split

theorem updateBase {t : Tid} {m : MemMode} (hw : ∀ r ∈ modeDests m, W t r) (v : Word) : Keeps P (Machine.updateBase t m v) := by
  unfold Machine.updateBase
  unfold modeDests at hw
  split
  · exact Keeps.pure _
  · rename_i e; rw [e] at hw
    exact Keeps.update fun _ hs => h.setReg _ _ _ _ (hw _ (List.mem_singleton_self _)) hs
  · rename_i e; rw [e] at hw
    exact Keeps.update fun _ hs => h.setReg _ _ _ _ (hw _ (List.mem_singleton_self _)) hs

theorem loadValue (t : Tid) (w : Width) (la : Word) (n : BitVec 5) (u : BitVec 11) (b : Bool) :
    Keeps P (Machine.loadValue t w la n u b) := by
  unfold Machine.loadValue
  repeat' first
    | with_reducible exact Keeps.pure _
    | with_reducible exact Keeps.view _
    | with_reducible exact Keeps.me
    | with_reducible exact Keeps.raise _
    | with_reducible exact Keeps.raiseLate _
    | with_reducible exact Keeps.block
    | with_reducible exact Keeps.refuse _
    | with_reducible exact h.memRead _ _ _
    | with_reducible refine Keeps.bind ?_ (fun _ => ?_)
    | split

theorem loadReg (hr : RpClosed P) {t : Tid} {r : Reg} (hw : W t r) (w : Width) (la : Word) : Keeps P (Machine.loadReg t w la r) := by
  unfold Machine.loadReg
  exact Keeps.bind (h.loadValue _ _ _ _ _ _) fun _ => h.writeReg hr (fun _ => hw) _

theorem loadPair {t : Tid} {ra rb : Reg} (ha : W t ra) (hb : W t rb) (la : Word) : Keeps P (Machine.loadPair t la ra rb) := by
  unfold Machine.loadPair
  exact Keeps.bind (h.loadValue _ _ _ _ _ _) fun _ => Keeps.update fun _ hs => h.setReg _ _ _ _ hb (h.setReg _ _ _ _ ha hs)

theorem storeValue (hS : S) (t : Tid) (w : Width) (la : Word) (v : DWord) : Keeps P (Machine.storeValue t w la v) := by
  unfold Machine.storeValue
  repeat' first
    | with_reducible exact Keeps.pure _
    | with_reducible exact Keeps.view _
    | with_reducible exact Keeps.me
    | with_reducible exact Keeps.raise _
    | with_reducible exact Keeps.raiseLate _
    | with_reducible exact Keeps.block
    | with_reducible exact Keeps.refuse _
    | with_reducible exact h.memWrite hS _ _ _ _
    | with_reducible refine Keeps.bind ?_ (fun _ => ?_)
    | split


/-! ### Bodies -/

variable {c : Tid} (hc : ∀ s, P s → s.cur = c) (hr : RpClosed P)
include hc

omit h hc in
theorem lockCheck_keeps (t : Tid) : Keeps P (Machine.lockCheck t) := by
  unfold Machine.lockCheck
  repeat' first
    | with_reducible exact Keeps.pure _
    | with_reducible exact Keeps.view _
    | with_reducible exact Keeps.me
    | with_reducible exact Keeps.raise _
    | with_reducible exact Keeps.raiseLate _
    | with_reducible exact Keeps.block
    | with_reducible exact Keeps.refuse _
    | with_reducible refine Keeps.bind ?_ (fun _ => ?_)
    | split

omit h hc in
theorem dspCheck_keeps (t : Tid) : Keeps P (Machine.dspCheck t) := by
  unfold Machine.dspCheck
  repeat' first
    | with_reducible exact Keeps.pure _
    | with_reducible exact Keeps.view _
    | with_reducible exact Keeps.me
    | with_reducible exact Keeps.raise _
    | with_reducible exact Keeps.raiseLate _
    | with_reducible exact Keeps.block
    | with_reducible exact Keeps.refuse _
    | with_reducible refine Keeps.bind ?_ (fun _ => ?_)
    | split

include hr

theorem moveBody {d s : Reg} (hw : d.isGeneral = true → W c d) (pc : Word) : Keeps P (Machine.moveBody d s pc) := by
  unfold Machine.moveBody
  refine Keeps.me_bind hc (Keeps.bind (check _ _) fun _ => Keeps.bind (h.readReg hr _ _ _) fun _ => h.writeReg hr hw _)

theorem issueBody (p : ReadPort) (s : Reg) (pc : Word) : Keeps P (Machine.issueBody p s pc) := by
  unfold Machine.issueBody
  refine Keeps.me_bind hc (Keeps.bind (check _ _) fun _ => Keeps.bind (h.readReg hr _ _ _) fun _ => h.writePort hr _ _ _)

theorem swapBody {a b : Reg} (ha : W c a) (hb : W c b) (pc : Word) : Keeps P (Machine.swapBody a b pc) := by
  have exchange : Keeps P (do
      Machine.check c [rd a, wr a, rd b, wr b]
      let x ← Machine.readReg c pc a
      let y ← Machine.readReg c pc b
      Machine.writeReg c a y
      Machine.writeReg c b x) :=
    Keeps.bind (check _ _) fun _ => Keeps.bind (h.readReg hr _ _ _) fun _ => Keeps.bind (h.readReg hr _ _ _) fun _ =>
      Keeps.bind (h.writeReg hr (fun _ => ha) _) fun _ => h.writeReg hr (fun _ => hb) _
  unfold Machine.swapBody
  refine Keeps.me_bind hc (Keeps.ite (Keeps.bind (Keeps.view _) fun e => ?_) exchange)
  cases e <;> exact Keeps.bind (Keeps.raise _) fun _ => exchange

theorem movRdBody {d : RdDest} (hw : ∀ r ∈ rdRegs d, W c r) (pc : Word) : Keeps P (Machine.movRdBody d pc) := by
  cases d with
  | one d => exact h.moveBody hc hr (fun _ => hw d (List.mem_singleton_self _)) pc
  | pair ra rb =>
    exact Keeps.me_bind hc (Keeps.bind (check _ _) fun _ => Keeps.bind (popRead hr _) fun _ => Keeps.update fun _ hs =>
      h.setReg _ _ _ _ (hw rb (by simp [rdRegs])) (h.setReg _ _ _ _ (hw ra (by simp [rdRegs])) hs))

theorem loadBody {w : Width} {x : MemArgs} (hw : ∀ r ∈ x.r :: modeDests x.mem, W c r) (pc : Word) :
    Keeps P (Machine.loadBody w x pc) := by
  unfold Machine.loadBody
  refine Keeps.me_bind hc (Keeps.bind (check _ _) fun _ => Keeps.bind (Keeps.view _) fun _ => Keeps.bind (Keeps.view _) fun _ => ?_)
  exact Keeps.afterwards (h.loadReg hr (hw _ List.mem_cons_self) _ _) (h.updateBase (fun r hr => hw r (List.mem_cons_of_mem _ hr)) _)

omit hr in
theorem loadPairBody {x : PairArgs} (hw : ∀ r ∈ x.ra :: x.rb :: modeDests x.mem, W c r) (pc : Word) :
    Keeps P (Machine.loadPairBody x pc) := by
  unfold Machine.loadPairBody
  refine Keeps.me_bind hc (Keeps.bind (check _ _) fun _ => Keeps.bind (Keeps.view _) fun _ => Keeps.bind (Keeps.view _) fun _ => ?_)
  exact Keeps.afterwards (h.loadPair (hw _ (by simp)) (hw _ (by simp)) _)
    (h.updateBase (fun r hr => hw r (List.mem_cons_of_mem _ (List.mem_cons_of_mem _ hr))) _)

theorem storeBody (hS : S) {w : Width} {x : MemArgs} (hw : ∀ r ∈ modeDests x.mem, W c r) (pc : Word) :
    Keeps P (Machine.storeBody w x pc) := by
  unfold Machine.storeBody
  refine Keeps.me_bind hc (Keeps.bind (check _ _) fun _ => Keeps.bind (Keeps.view _) fun _ => Keeps.bind (Keeps.view _) fun _ => ?_)
  exact Keeps.bind (h.readReg hr _ _ _) fun _ => Keeps.afterwards (h.storeValue hS _ _ _ _) (h.updateBase hw _)

omit hr in
theorem storePairBody (hS : S) {x : PairArgs} (hw : ∀ r ∈ modeDests x.mem, W c r) (pc : Word) :
    Keeps P (Machine.storePairBody x pc) := by
  unfold Machine.storePairBody
  refine Keeps.me_bind hc (Keeps.bind (check _ _) fun _ => Keeps.bind (Keeps.view _) fun _ => Keeps.bind (Keeps.view _) fun _ => ?_)
  exact Keeps.bind (Keeps.view _) fun _ => Keeps.afterwards (h.storeValue hS _ _ _ _) (h.updateBase hw _)

omit hr hc in
theorem lsmAdvance {s : State} {t : Tid} {base : Reg} (hw : W t base) (v : Word) (i k : Nat) (pc : Word) (hs : P s) :
    P (s.lsmAdvance t base v i k pc) := by
  have h1 := h.setReg s t base v hw hs
  exact ite_keeps (h.setStatus (withBits_and (by decide)) h1) (h.setPc _ _ (h.setStatus (withBits_and (by decide)) h1))

omit hr hc in
theorem multiple {α : Type} {t : Tid} {base : Reg} (hw : W t base) (pc : Word) (l : List α) (n : Nat) {move : α → Word → M Unit}
    (hm : ∀ x ∈ l, ∀ la, Keeps P (move x la)) : Keeps P (Machine.multiple t pc base l n move) := by
  unfold Machine.multiple
  refine Keeps.bind (Keeps.view _) fun i => ?_
  split
  · exact Keeps.refuse _
  · rename_i x hx
    exact Keeps.bind (Keeps.view _) fun _ => Keeps.afterwards (hm x (List.mem_of_getElem? hx) _)
      (Keeps.update fun _ hs => h.lsmAdvance hw _ _ _ _ hs)

theorem mgetdBody {b : Reg} {l : List Reg} (hw : ∀ r ∈ b :: l, W c r) (pc : Word) : Keeps P (Machine.mgetdBody b l pc) := by
  unfold Machine.mgetdBody
  exact Keeps.me_bind hc (Keeps.bind (check _ _) fun _ => h.multiple (hw _ (by simp)) _ _ _ fun x hx _ =>
    h.loadReg hr (hw x (List.mem_cons_of_mem _ hx)) _ _)

omit hr in
theorem mgetlBody {b : Reg} {l : List (Reg × Reg)} (hw : ∀ r ∈ b :: l.flatMap fun p => [p.1, p.2], W c r) (pc : Word) :
    Keeps P (Machine.mgetlBody b l pc) := by
  unfold Machine.mgetlBody
  refine Keeps.me_bind hc (Keeps.bind (check _ _) fun _ => h.multiple (hw _ (by simp)) _ _ _ fun x hx _ => ?_)
  exact h.loadPair (hw _ (List.mem_cons_of_mem _ (List.mem_flatMap.mpr ⟨x, hx, by simp⟩)))
    (hw _ (List.mem_cons_of_mem _ (List.mem_flatMap.mpr ⟨x, hx, by simp⟩))) _

omit hr in
theorem msetdBody (hS : S) {b : Reg} {l : List Reg} (hw : W c b) (pc : Word) : Keeps P (Machine.msetdBody b l pc) := by
  unfold Machine.msetdBody
  exact Keeps.me_bind hc (Keeps.bind (check _ _) fun _ => h.multiple hw _ _ _ fun x _ _ =>
    Keeps.bind (Keeps.view _) fun _ => h.storeValue hS _ _ _ _)

omit hr in
theorem msetlBody (hS : S) {b : Reg} {l : List (Reg × Reg)} (hw : W c b) (pc : Word) : Keeps P (Machine.msetlBody b l pc) := by
  unfold Machine.msetlBody
  exact Keeps.me_bind hc (Keeps.bind (check _ _) fun _ => h.multiple hw _ _ _ fun x _ _ =>
    Keeps.bind (Keeps.view _) fun _ => h.storeValue hS _ _ _ _)

theorem aluBody {op : AluOp} {x : AluArgs} (hw : W c x.d) (pc : Word) : Keeps P (Machine.aluBody op x pc) := by
  unfold Machine.aluBody
  refine Keeps.me_bind hc (Keeps.bind (check _ _) fun _ => Keeps.bind (dspCheck_keeps _) fun _ => ?_)
  refine Keeps.bind (h.readReg hr _ _ _) fun _ => Keeps.bind (h.readSrc hr _ _ _) fun _ => ?_
  refine Keeps.bind (h.writeReg hr (fun _ => hw) _) fun _ => Keeps.ite (Keeps.update fun _ hs => ?_) (Keeps.pure _)
  exact h.setStatus (withBits_and (by decide)) hs

theorem testBody (op : AluOp) (x : TestArgs) (pc : Word) : Keeps P (Machine.testBody op x pc) := by
  unfold Machine.testBody
  refine Keeps.me_bind hc (Keeps.bind (check _ _) fun _ => Keeps.bind (dspCheck_keeps _) fun _ => ?_)
  refine Keeps.bind (h.readReg hr _ _ _) fun _ => Keeps.bind (h.readSrc hr _ _ _) fun _ => Keeps.update fun _ hs => ?_
  exact h.setStatus (withBits_and (by decide)) hs

theorem auBody {op : AuOp} {x : AuArgs} (hw : W c x.d) (pc : Word) : Keeps P (Machine.auBody op x pc) := by
  unfold Machine.auBody
  refine Keeps.me_bind hc (Keeps.bind (check _ _) fun _ => Keeps.bind (dspCheck_keeps _) fun _ => ?_)
  exact Keeps.bind (h.readAuSrc hr _ _ _) fun _ => Keeps.bind (h.readAuSrc hr _ _ _) fun _ => h.writeReg hr (fun _ => hw) _

omit hr hc in
theorem repAdvance {s : State} (t : Tid) (b : Bool) (pc : Word) (hs : P s) : P (s.repAdvance t b pc) := by
  unfold State.repAdvance
  exact ite_keeps hs (h.setPc _ _ (h.ct _ _ _ ⟨rfl, rfl, rfl, rfl, rfl⟩ hs))

omit hr hc in
theorem repBranch {s : State} (t : Tid) (v : Word) (hs : P s) : P (s.repBranch t v) :=
  ite_keeps hs (h.jump _ _ (h.ct _ _ _ ⟨rfl, rfl, rfl, rfl, rfl⟩ hs))

omit hr hc in
theorem linkedLoad (hS : S) (t : Tid) (w : Width) (la : Word) (n : BitVec 5) (u : BitVec 11) (b : Bool) :
    Keeps P (Machine.linkedLoad t w la n u b) := by
  unfold Machine.linkedLoad
  repeat' first
    | with_reducible exact Keeps.pure _
    | with_reducible exact Keeps.view _
    | with_reducible exact Keeps.me
    | with_reducible exact Keeps.raise _
    | with_reducible exact Keeps.raiseLate _
    | with_reducible exact Keeps.block
    | with_reducible exact Keeps.refuse _
    | with_reducible exact h.linkedRead hS _ _ _
    | with_reducible refine Keeps.bind ?_ (fun _ => ?_)
    | split

omit hr hc in
theorem linkedPut (hS : S) (t : Tid) (w : Width) (la : Word) (v : DWord) : Keeps P (Machine.linkedPut t w la v) := by
  unfold Machine.linkedPut
  repeat' first
    | with_reducible exact Keeps.pure _
    | with_reducible exact Keeps.view _
    | with_reducible exact Keeps.me
    | with_reducible exact Keeps.raise _
    | with_reducible exact Keeps.raiseLate _
    | with_reducible exact Keeps.block
    | with_reducible exact Keeps.refuse _
    | with_reducible exact h.linkedWrite hS _ _ _ _
    | (with_reducible refine Keeps.update ?_); exact fun _ hs => h.hid _ _ _ ⟨rfl, .inl rfl⟩ hs
    | (with_reducible refine Keeps.update ?_); exact fun _ hs => h.recordTok _ hs
    | with_reducible refine Keeps.bind ?_ (fun _ => ?_)
    | split

omit hr in
theorem defrBody (l : Level) (b : Bool) {d : Reg} (hw : W c d) : Keeps P (Machine.defrBody l b d) := by
  unfold Machine.defrBody
  refine Keeps.me_bind hc (Keeps.bind (check _ _) fun _ => ?_)
  repeat' first
    | with_reducible exact Keeps.pure _
    | with_reducible exact Keeps.view _
    | with_reducible exact Keeps.me
    | with_reducible exact Keeps.raise _
    | with_reducible exact Keeps.raiseLate _
    | with_reducible exact Keeps.block
    | with_reducible exact Keeps.refuse _
    | (with_reducible refine Keeps.update ?_); exact fun _ hs => h.setReg _ _ _ _ hw hs
    | (with_reducible refine Keeps.update ?_); exact fun _ hs => h.ct _ _ _ ⟨rfl, rfl, clearReasons_and _ _ _, rfl, rfl⟩ hs
    | with_reducible refine Keeps.bind ?_ (fun _ => ?_)
    | split

omit h hr hc in
theorem portCheck (t : Tid) (ports : Config → Nat) (p : Fin 8) (l : List Use) : Keeps P (Machine.portCheck t ports p l) := by
  unfold Machine.portCheck
  repeat' first
    | with_reducible exact Keeps.pure _
    | with_reducible exact Keeps.view _
    | with_reducible exact Keeps.me
    | with_reducible exact Keeps.raise _
    | with_reducible exact Keeps.raiseLate _
    | with_reducible exact Keeps.block
    | with_reducible exact Keeps.refuse _
    | with_reducible exact check _ _
    | with_reducible refine Keeps.bind ?_ (fun _ => ?_)
    | split

omit hr hc in
theorem setCoproc {s : State} {t : Tid} {ra : Reg} {rb : Option Reg} (hw : ∀ r ∈ coprocRegs ra rb, W t r) (v : DWord) (hs : P s) :
    P (s.setCoproc t ra rb v) := by
  unfold State.setCoproc
  cases rb with
  | none => exact h.setReg _ _ _ _ (hw _ (by simp [coprocRegs])) hs
  | some r => exact h.setReg _ _ _ _ (hw _ (by simp [coprocRegs])) (h.setReg _ _ _ _ (hw _ (by simp [coprocRegs])) hs)

omit hr hc in
theorem cacherlValue (t : Tid) (side : CacheSide) (la : Word) : Keeps P (Machine.cacherlValue t side la) := by
  unfold Machine.cacherlValue
  repeat' first
    | with_reducible exact Keeps.pure _
    | with_reducible exact Keeps.view _
    | with_reducible exact Keeps.me
    | with_reducible exact Keeps.raise _
    | with_reducible exact Keeps.raiseLate _
    | with_reducible exact Keeps.block
    | with_reducible exact Keeps.refuse _
    | with_reducible exact h.walk _ _ _
    | with_reducible exact h.drawFree
    | with_reducible refine Keeps.bind ?_ (fun _ => ?_)
    | split

omit hr hc in
theorem lineAddress (t : Tid) (side : CacheSide) (la : Word) : Keeps P (Machine.lineAddress t side la) := by
  unfold Machine.lineAddress
  repeat' first
    | with_reducible exact Keeps.pure _
    | with_reducible exact Keeps.view _
    | with_reducible exact Keeps.me
    | with_reducible exact Keeps.raise _
    | with_reducible exact Keeps.raiseLate _
    | with_reducible exact Keeps.block
    | with_reducible exact Keeps.refuse _
    | with_reducible exact h.walk _ _ _
    | with_reducible exact h.translate _ _ _
    | with_reducible refine Keeps.bind ?_ (fun _ => ?_)
    | split

omit hr hc in
theorem dropLinear (t : Tid) (side : CacheSide) (la : Word) : Keeps P (Machine.dropLinear t side la) := by
  unfold Machine.dropLinear
  repeat' first
    | with_reducible exact Keeps.pure _
    | with_reducible exact Keeps.view _
    | with_reducible exact Keeps.me
    | with_reducible exact Keeps.raise _
    | with_reducible exact Keeps.raiseLate _
    | with_reducible exact Keeps.block
    | with_reducible exact Keeps.refuse _
    | with_reducible exact h.lineAddress _ _ _
    | (with_reducible refine Keeps.update ?_); exact fun _ hs => h.setLines _ _ _ hs
    | with_reducible refine Keeps.bind ?_ (fun _ => ?_)
    | split

omit hr hc in
theorem preloadLine (t : Tid) (la : Word) : Keeps P (Machine.preloadLine t la) := by
  unfold Machine.preloadLine
  repeat' first
    | with_reducible exact Keeps.pure _
    | with_reducible exact Keeps.view _
    | with_reducible exact Keeps.me
    | with_reducible exact Keeps.raise _
    | with_reducible exact Keeps.raiseLate _
    | with_reducible exact Keeps.block
    | with_reducible exact Keeps.refuse _
    | with_reducible exact h.translate _ _ _
    | (with_reducible refine Keeps.update ?_); exact fun _ hs => h.hid _ _ _ ⟨rfl, .inl rfl⟩ hs
    | with_reducible refine Keeps.bind ?_ (fun _ => ?_)
    | split

omit hr hc in
theorem preloadLines (t : Tid) (la : Word) (n : Nat) : Keeps P (Machine.preloadLines t la n) := by
  induction n generalizing la with
  | zero => exact Keeps.pure _
  | succ n ih => exact Keeps.bind (h.preloadLine _ _) fun _ => ih _

/-! ### Replays -/

omit hc in
/-- A caught load that is made again writes the registers its catch state names. -/
theorem replayLoad (hS : S) {t : Tid} {k : Word} (hw : ∀ r ∈ caughtDests k, W t r) (la : Word) :
    Keeps P (Machine.replayLoad t k la) := by
  have get : Keeps P (if bitOf k 3 then Machine.linkedLoad t (widthOfCode (bitsOf k 0 2)) la (bitsOf k 27 5) (bitsOf k 16 11) (bitOf k 2)
      else Machine.loadValue t (widthOfCode (bitsOf k 0 2)) la (bitsOf k 27 5) (bitsOf k 16 11) (bitOf k 2)) :=
    Keeps.ite (h.linkedLoad hS _ _ _ _ _ _) (h.loadValue _ _ _ _ _ _)
  unfold Machine.replayLoad
  dsimp only
  refine Keeps.ite ?_ ?_
  · match hp : pairOfBits (bitsOf k 16 11) (bitOf k 2) with
    | none => exact Keeps.refuse _
    | some (ua, ub) =>
      have hd : caughtDests k = [⟨ua, bitsOf k 27 5⟩, ⟨ub, bitsOf k 27 5⟩] := by simp [caughtDests, hp]
      exact Keeps.bind (check _ _) fun _ => Keeps.bind get fun _ => Keeps.update fun _ hs =>
        h.setReg _ _ _ _ (hw _ (by simp [hd])) (h.setReg _ _ _ _ (hw _ (by simp [hd])) hs)
  · match hu : unitOfBit (bitsOf k 16 11) with
    | none => exact Keeps.refuse _
    | some u =>
      have hd : caughtDests k = [⟨u, bitsOf k 27 5⟩] := by simp [caughtDests, pair_of_unit hu, hu]
      exact Keeps.bind (check _ _) fun _ => Keeps.bind get fun _ => h.writeReg hr (fun _ => hw _ (by simp [hd])) _

omit hc hr in
theorem replayStore (hS : S) (t : Tid) (k la lo hi : Word) : Keeps P (Machine.replayStore t k la lo hi) := by
  unfold Machine.replayStore
  split
  · exact Keeps.refuse _
  · exact h.storeValue hS _ _ _ _

omit hc in
theorem replayIssue (t : Tid) (k la : Word) : Keeps P (Machine.replayIssue t k la) := by
  unfold Machine.replayIssue
  split
  · exact Keeps.refuse _
  · exact Keeps.bind (check _ _) fun _ => h.writePort hr _ _ _

omit hc in
/-- The replay of the transfer that the catch state of a thread holds. -/
theorem replayTransfer (hS : S) {t : Tid} {s : State} (hw : ∀ r ∈ caughtDests (s.th t).ct.txcatch0, W t r) (hs : P s) :
    P (endState (Machine.replayTransfer t s)) := by
  unfold Machine.replayTransfer
  rw [view_bind]
  exact Keeps.ite (Keeps.pure _) (Keeps.ite (Keeps.raiseLate _) (Keeps.ite (h.replayStore hS _ _ _ _ _)
    (Keeps.ite (h.replayLoad hr hS hw _) (h.replayIssue hr _ _ _)))) s hs

omit hc hr in
theorem endReplay {s : State} (t : Tid) (hs : P s) : P (s.endReplay t) := by
  refine h.hid _ _ _ ⟨rfl, ?_⟩ (h.setStatus ?_ hs)
  · show (if _ then TState.run else _) = _ ∨ TState.isOn _
    split
    · exact .inr (.inl rfl)
    · exact .inl rfl
  · rw [withBit_and (by decide), withBit_and (by decide)]

omit hc in
theorem replayNow (hS : S) {t : Tid} {s : State} (hw : ∀ r ∈ caughtDests (s.th t).ct.txcatch0, W t r) (hs : P s) :
    P (endState (Machine.replayNow t s)) := by
  have moved := h.replayTransfer hr hS hw hs
  unfold Machine.replayNow
  match Machine.replayTransfer t s, moved with
  | .ok _ x, hx => exact h.stopIfDisabled t (h.endReplay t hx)
  | .error (.exc _) _, _ => exact hs
  | .error (.late _) _, hx | .error .block _, hx | .error (.refused _) _, hx => exact hx

omit hc in
/-- A return from interrupt writes the registers of the transfer it makes again. -/
theorem rtiBody {s : State} (hw : s.replays = true → ∀ r ∈ caughtDests (s.th s.cur).ct.txcatch0, W s.cur r)
    (hS : s.replays = true → S) (pc : Word) (hs : P s) : P (endState (Machine.rtiBody pc s)) := by
  have back := h.returnFromInterrupt s.cur (pc + 4#32) hs
  have last : ∀ b : Bool, Keeps P (if b then update fun s' => s'.modH s.cur fun k => { k with link := false } else pure ()) := fun b =>
    Keeps.ite (Keeps.update fun _ hx => h.hid _ _ _ ⟨rfl, .inl rfl⟩ hx) (Keeps.pure _)
  have caught : ((s.returnFromInterrupt s.cur (pc + 4#32)).th s.cur).ct.txcatch0 = (s.th s.cur).ct.txcatch0 := by
    unfold State.returnFromInterrupt
    simp only
    split <;> simp [State.setRpDirty, State.setStatus]
  unfold Machine.rtiBody
  simp only [me_bind, view_bind, update_bind]
  by_cases again : (s.istat s.cur && s.cbMarker s.cur) = true
  · rw [if_pos again]
    exact endState_bind (h.replayNow hr (hS again) (by rw [caught]; exact hw again) back) fun _ => last _
  · rw [if_neg again]
    exact last _ _ back

/-! ### Instructions -/

/-- One iteration of an instruction that is no return from interrupt. -/
theorem iteration_keeps {i : Instr} (plain : isReturn i = false) (hw : ∀ d ∈ instrDests i, W c d) (hS : instrStores i = true → S)
    (pc : Word) : Keeps P ((iteration i).2 pc) := by
  induction i with
  | repeatForm i ih => exact ih plain hw hS
  | rti => cases plain
  | lock0 =>
    exact Keeps.me_bind hc (Keeps.bind (lockCheck_keeps _) fun _ => Keeps.update fun _ hs => h.lock0 _ _ hs)
  | lock1 =>
    refine Keeps.me_bind hc (Keeps.bind (lockCheck_keeps _) fun _ s hs => ?_)
    rw [view_bind]
    split
    · exact hs
    · rename_i hf; exact h.lock1 s c (by simpa using hf) hs
  | lock2 =>
    refine Keeps.me_bind hc (Keeps.bind (lockCheck_keeps _) fun _ s hs => ?_)
    rw [view_bind]
    split
    · exact hs
    · rename_i hf; exact h.lock2 s c (by simpa using hf) hs
  | nop => exact Keeps.pure _
  | switch cc imm => exact Keeps.raise _
  | memToMem | xfr | hardwareLoop => exact Keeps.refuse _
  | bcc cc imm => exact Keeps.me_bind hc (Keeps.update fun _ hs => h.jump _ _ hs)
  | movRd cc d => exact h.movRdBody hc hr hw pc
  | mov cc d r => exact h.moveBody hc hr (fun _ => hw _ (List.mem_singleton_self _)) pc
  | movPc cc r => exact h.moveBody hc hr (fun hg => by simp [Reg.isGeneral] at hg) pc
  | swap cc a b => exact h.swapBody hc hr (hw _ (by simp [instrDests])) (hw _ (by simp [instrDests])) pc
  | movImm cc d imm =>
    exact Keeps.me_bind hc (Keeps.bind (check _ _) fun _ => h.writeReg hr (fun _ => hw _ (List.mem_singleton_self _)) _)
  | getb x | getw x | getd x => exact h.loadBody hc hr hw pc
  | getl x => exact h.loadPairBody hc hw pc
  | setb x | setw x | setd x => exact h.storeBody hc hr (hS rfl) hw pc
  | setl x => exact h.storePairBody hc (hS rfl) hw pc
  | mgetd b l => exact h.mgetdBody hc hr hw pc
  | mgetl b l => exact h.mgetlBody hc hw pc
  | msetd b l => exact h.msetdBody hc (hS rfl) (hw _ (List.mem_singleton_self _)) pc
  | msetl b l => exact h.msetlBody hc (hS rfl) (hw _ (List.mem_singleton_self _)) pc
  | movRa cc r | movRapf cc r | movRabz cc r | movRawz cc r | movRadz cc r | movRabx cc r | movRawx cc r | movRadx cc r
  | movRam8x cc r | movRam16x cc r | movRam8x32 cc r => exact h.issueBody hc hr _ _ pc
  | coprocRead p ra rb =>
    refine Keeps.me_bind hc (Keeps.bind (portCheck _ _ _ _) fun _ => Keeps.bind (Keeps.view _) fun l => ?_)
    split
    · exact Keeps.block
    · exact Keeps.update fun _ hs => h.setCoproc hw _ (h.env _ _ ⟨rfl, rfl, rfl, rfl⟩ hs)
  | coprocWrite p ra rb =>
    refine Keeps.me_bind hc (Keeps.bind (portCheck _ _ _ _) fun _ => Keeps.bind (Keeps.view _) fun l => ?_)
    exact Keeps.ite (Keeps.update fun _ hs => h.emit _ hs) Keeps.block
  | add x | sub x | and x | or x | xor x | lsl x | lsr x | asr x | mulw x | muld x =>
    exact h.aluBody hc hr (hw _ (List.mem_singleton_self _)) pc
  | tst x | cmp x => exact h.testBody hc hr _ _ pc
  | auAdd x | auSub x => exact h.auBody hc hr (hw _ (List.mem_singleton_self _)) pc
  | callr d imm =>
    exact Keeps.me_bind hc (Keeps.bind (check _ _) fun _ => Keeps.afterwards
      (h.writeReg hr (fun _ => hw _ (List.mem_singleton_self _)) _) (Keeps.update fun _ hs => h.jump _ _ hs))
  | jump b off =>
    exact Keeps.me_bind hc (Keeps.bind (check _ _) fun _ => Keeps.bind (h.readReg hr _ _ _) fun _ => Keeps.update fun _ hs =>
      h.jump _ _ hs)
  | call d b off =>
    exact Keeps.me_bind hc (Keeps.bind (check _ _) fun _ => Keeps.afterwards
      (h.writeReg hr (fun _ => hw _ (List.mem_singleton_self _)) _) (Keeps.bind (h.readReg hr _ _ _) fun _ => Keeps.update fun _ hs =>
      h.jump _ _ hs))
  | lnkgetd d b =>
    exact Keeps.me_bind hc (Keeps.bind (check _ _) fun _ => Keeps.bind (Keeps.view _) fun _ =>
      Keeps.bind (h.linkedLoad (hS rfl) _ _ _ _ _ _) fun _ => Keeps.update fun _ hs =>
      h.setReg _ _ _ _ (hw _ (List.mem_singleton_self _)) hs)
  | lnkgetl ra rb b =>
    exact Keeps.me_bind hc (Keeps.bind (check _ _) fun _ => Keeps.bind (Keeps.view _) fun _ =>
      Keeps.bind (h.linkedLoad (hS rfl) _ _ _ _ _ _) fun _ => Keeps.update fun _ hs =>
      h.setReg _ _ _ _ (hw _ (by simp [instrDests])) (h.setReg _ _ _ _ (hw _ (by simp [instrDests])) hs))
  | lnksetd cc b r | lnksetl cc b ra rb =>
    exact Keeps.me_bind hc (Keeps.bind (check _ _) fun _ => Keeps.bind (Keeps.view _) fun _ =>
      Keeps.bind (Keeps.view _) fun _ => h.linkedPut (hS rfl) _ _ _ _)
  | defrTxstat d | defrTxpoll d | defrTxstati d | defrTxpolli d => exact h.defrBody hc _ _ (hw _ (List.mem_singleton_self _))
  | cacherl side ra rb b =>
    exact Keeps.me_bind hc (Keeps.bind (check _ _) fun _ => Keeps.bind (Keeps.view _) fun _ =>
      Keeps.bind (h.cacherlValue _ _ _) fun _ => Keeps.update fun _ hs =>
      h.setReg _ _ _ _ (hw _ (by simp [instrDests])) (h.setReg _ _ _ _ (hw _ (by simp [instrDests])) hs))
  | dcache b =>
    exact Keeps.me_bind hc (Keeps.bind (check _ _) fun _ => Keeps.bind (Keeps.view _) fun _ =>
      Keeps.bind (h.dropLinear _ _ _) fun _ => Keeps.pure _)
  | cachew b r =>
    exact Keeps.me_bind hc (Keeps.bind (check _ _) fun _ => Keeps.bind (Keeps.view _) fun _ =>
      Keeps.bind (h.dropLinear _ _ _) fun _ => Keeps.bind (h.dropLinear _ _ _) fun _ =>
      Keeps.ite (Keeps.update fun _ hs => h.dropTlb _ _ hs) (Keeps.pure _))
  | icache base off n =>
    exact Keeps.me_bind hc (Keeps.bind (check _ _) fun _ => Keeps.bind (h.readAuSrc hr _ _ _) fun _ => h.preloadLines _ _ _)

/-- One iteration of any instruction, from a state in which it is issued. -/
theorem iteration {i : Instr} {s : State} (hw : ∀ d ∈ s.dests i, W c d) (hS : s.mayStore i = true → S) (pc : Word) (hs : P s) :
    P (endState ((Machine.iteration i).2 pc s)) := by
  by_cases ret : isReturn i = true
  · have e := hc s hs
    rw [iteration_return ret]
    exact h.rtiBody hr (fun again => by simpa [State.dests, ret, again, e] using hw) (fun again => hS (by simp [State.mayStore, ret, again]))
      pc hs
  · rw [Bool.not_eq_true] at ret
    exact h.iteration_keeps hc hr ret (by simpa [State.dests, ret] using hw) (by simpa [State.mayStore, ret] using hS) pc s hs

/-- One issue of a repeating form. -/
theorem repBody {i : Instr} {s : State} (hw : ∀ d ∈ s.dests i, W c d) (hS : s.mayStore i = true → S) (pc : Word) (hs : P s) :
    P (endState (Machine.repBody i pc s)) := by
  unfold Machine.repBody
  rw [me_bind]
  split
  · exact h.repBranch _ _ hs
  · exact endState_afterwards (h.iteration hc hr hw hS pc hs) (Keeps.update fun _ hx => h.repAdvance _ _ _ hx)

/-- What an instruction keeps, whatever it answers as its next state: the registers it may write are its destinations. -/
theorem exec {i : Instr} {s s' : State} (hw : ∀ d ∈ s.dests i, W c d) (hS : s.mayStore i = true → S) (hs : P s)
    (hn : Machine.exec i s = .next s') : P s' := by
  have one := fun hx => h.iteration (i := i) (s := s.advanced) hc hr (by simpa using hw) (by simpa using hS) (s.pcOf s.cur) hx
  cases i with
  | memToMem | xfr | hardwareLoop => cases hn
  | switch cc imm => exact h.issue (body := fun _ => raiseLate .switch) hs (fun hx => hx) hn
  | repeatForm r => exact h.issue hs (h.repBody (i := r) hc hr (by simpa using hw) (by simpa using hS) _) hn
  | _ => exact h.issue hs one hn

end Closed

end Sys2Proof.Machine
end

