-- ==== Sys2Proof/Laws/ClosedStep.lean ====
section
/-! SUPPORT. Which parts of the state a step changes: replays, hosts, the bus and the fill engines, interrupts, fetch and execution. -/

namespace Sys2Proof.Machine

theorem RpClosed.withCur {P : State → Prop} (h : RpClosed P) (c : Tid) : RpClosed fun s => P s ∧ s.cur = c :=
  fun s t l hl hs => ⟨h s t l hl hs.1, hs.2⟩

/-- `P` together with which thread executes. -/
theorem Closed.withCur {P : State → Prop} {W : Tid → Reg → Prop} {S : Prop} (h : Closed P W S) (c : Tid) :
    Closed (fun s => P s ∧ s.cur = c) W S where
  pcs := fun s u v w hs => ⟨h.pcs s u v w hs.1, hs.2⟩
  setReg := fun s u r v hw hs => ⟨h.setReg s u r v hw hs.1, by simpa [State.cur] using hs.2⟩
  ct := fun s u f hf hs => ⟨h.ct s u f hf hs.1, hs.2⟩
  enable := fun s u b hb hs => ⟨h.enable s u b hb hs.1, hs.2⟩
  tr := fun s u f hf hs => ⟨h.tr s u f hf hs.1, hs.2⟩
  mm := fun s u f hf hs => ⟨h.mm s u f hf hs.1, hs.2⟩
  hid := fun s u f hf hs => ⟨h.hid s u f hf hs.1, hs.2⟩
  hidAll := fun s f hf hs => ⟨h.hidAll s f hf hs.1, hs.2⟩
  goOff := fun s u b hs => ⟨h.goOff s u b hs.1, hs.2⟩
  goOn := fun s u x hx hs => ⟨h.goOn s u x hx hs.1, hs.2⟩
  shared := fun s f hf hs => ⟨h.shared s f hf hs.1, hs.2⟩
  lock0 := fun s u hs => ⟨h.lock0 s u hs.1, hs.2⟩
  lock1 := fun s u hf hs => ⟨h.lock1 s u hf hs.1, hs.2⟩
  lock2 := fun s u hf hs => ⟨h.lock2 s u hf hs.1, hs.2⟩
  core := fun s f hf hs => ⟨h.core s f hf hs.1, hs.2⟩
  env := fun s f hf hs => ⟨h.env s f hf hs.1, by show (f s.env).cur = c; rw [hf.2.2.2]; exact hs.2⟩
  mem := fun hS s f hf hc hs => ⟨h.mem hS s f hf hc hs.1, by show (f s.env).cur = c; rw [hc]; exact hs.2⟩

namespace Closed

variable {P : State → Prop} (h : Closed P (fun _ _ => True) True) (hr : RpClosed P)
include h

/-! ### Agents -/

omit h in
/-- What a computation that keeps `P` leaves. -/
theorem after {α : Type} {x : M α} (hx : Keeps P x) {s : State} (hs : P s) : P (s.after x) := by
  have hk := hx s hs
  unfold State.after
  split
  · rename_i e; rw [e] at hk; exact hk
  · exact hs

theorem hostRoute {s : State} (hs : P s) : P s.hostRoute.2 := by
  unfold State.hostRoute
  split
  · exact hs
  · split
    · exact hs
    · exact h.env s (fun e => { e with freeCtr := e.freeCtr + 1 }) ⟨rfl, rfl, rfl, rfl⟩ hs

theorem hostRead {s : State} (p : HostPort) (a : Word) (hs : P s) : P (s.hostRead p a) := by
  refine ite_keeps hs ?_
  have hk := h.memRead (s.portAcc p s.hostRoute.1) a 4 s.hostRoute.2 (h.hostRoute hs)
  dsimp only
  split
  · rename_i e; rw [e] at hk; exact h.emit _ hk
  · exact h.emit _ hs
  · exact hs
  all_goals exact h.emit _ hs

theorem hostWrite {s : State} (p : HostPort) (a v : Word) (hs : P s) : P (s.hostWrite p a v) := by
  refine ite_keeps hs ?_
  have hk := h.memWrite trivial (s.portAcc p s.hostRoute.1) a 4 (v.setWidth 64) s.hostRoute.2 (h.hostRoute hs)
  dsimp only
  split
  · rename_i e; rw [e] at hk; exact hk
  · exact hs
  · exact hs

theorem hostSelect {s : State} (p : HostPort) (t : Tid) (hs : P s) : P (s.hostSelect p t) := by
  unfold State.hostSelect
  split
  · exact h.core _ _ (fun hc => by cases p <;> exact { hc with }) hs
  · exact hs

theorem hostGetReg {s : State} (t : Tid) (r : Reg) (hs : P s) : P (s.hostGetReg t r) := by
  unfold State.hostGetReg
  split <;> exact h.emit _ hs

theorem hostSetReg {s : State} (t : Tid) (r : Reg) (v : Word) (hs : P s) : P (s.hostSetReg t r v) :=
  ite_keeps (ite_keeps (ite_keeps (h.setPc _ _ hs) (h.setPcx _ _ hs)) (h.setReg _ _ _ _ trivial hs)) hs

theorem deliverToken {s : State} (t : Tid) (hs : P s) : P (s.deliverToken t) := by
  unfold State.deliverToken
  split
  · exact hs
  · exact h.recordTok _ (h.env _ _ ⟨rfl, rfl, rfl, rfl⟩ hs)

theorem dmaWrite {s : State} (pa : Word) (l : List Byte) (hs : P s) : P (s.dmaWrite pa l) := by
  induction l generalizing s pa with
  | nil => exact hs
  | cons b l ih => exact ih _ (ite_keeps (h.physStore trivial _ _ _ hs) hs)

theorem fill {s : State} (t : Tid) (side : CacheSide) (f : FillReq) (hs : P s) : P (s.fill t side f) :=
  ite_keeps (after (h.fillLine _ _ _ _) hs) hs

theorem perfEvent {s : State} (n : Fin 2) (hs : P s) : P (s.perfEvent n) := by
  have bit : ∀ n : Fin 2, (1#32 <<< (16 + n.val)) &&& 0xFFFC8888#32 = 0#32 := by decide
  have counted : ∀ k : Word → Word, P (s.modPerf n fun p => { p with count := k p.count }) := fun k => h.modPerf n (fun hz => hz) (fun hz => hz) hs
  exact ite_keeps (h.raiseMeta (bit n) _ (counted fun w => withBits w 0 24 _)) (counted fun w => withBits w 0 24 _)

theorem act {s : State} (x : Action) (hs : P s) : P (s.act x) := by
  cases x with
  | thread t => exact hs
  | timerTick => exact List.foldlRecOn _ _ hs fun _ hx t _ => ite_keeps (h.timerTick t hx) hx
  | extLine i b => exact h.driveLine i b hs
  | hostRead p a => exact h.hostRead p a hs
  | hostWrite p a v => exact h.hostWrite p a v hs
  | hostSelect p t => exact h.hostSelect p t hs
  | hostGetReg t r => exact h.hostGetReg t r hs
  | hostSetReg t r v => exact h.hostSetReg t r v hs
  | deliverToken t => exact h.deliverToken t hs
  | busToken t i st => exact ite_keeps (h.oweToken _ hs) hs
  | dmaWrite pa l => exact h.dmaWrite pa l hs
  | drain t => exact h.drain trivial t hs
  | prefetchFill t =>
    show P (s.prefetchFill t)
    unfold State.prefetchFill
    split
    · exact hs
    · exact ite_keeps hs (h.hid _ _ _ ⟨rfl, .inl rfl⟩ (h.fill _ _ _ hs))
  | icacheFill t =>
    show P (s.icacheFill t)
    unfold State.icacheFill
    split
    · exact hs
    · exact ite_keeps hs (h.hid _ _ _ ⟨rfl, .inl rfl⟩ (h.fill _ _ _ hs))
  | specFetch t a => exact ite_keeps (after (h.fetchWord _ _) hs) hs
  | specWord t a =>
    show P (s.specWord t a)
    unfold State.specWord
    have hk := h.fetchWord (s.accOf t) (alignDown a 4) s hs
    dsimp only
    split
    · split
      · rename_i e; rw [e] at hk; exact h.hid _ _ _ ⟨rfl, .inl rfl⟩ hk
      · rename_i e; rw [e] at hk; exact hk
      · exact hs
    · exact hs
  | dropLine side p l => exact h.setLines _ _ _ hs
  | tlbForget side t a =>
    show P (s.tlbForget side t a)
    unfold State.tlbForget
    exact h.modTlb _ _ _ hs
  | coprocSupply p v => exact ite_keeps (h.env _ _ ⟨rfl, rfl, rfl, rfl⟩ hs) hs
  | coprocReady p b =>
    show P (s.coprocReady p b)
    unfold State.coprocReady
    exact h.env _ _ ⟨rfl, rfl, rfl, rfl⟩ hs
  | perfEvent n => exact h.perfEvent n hs
  | idle n =>
    show P (s.idleCycles n)
    unfold State.idleCycles
    exact h.shared _ _ ⟨rfl, rfl, rfl, rfl, rfl, rfl, fun hz => hz⟩ hs

/-! ### Replay -/

include hr

theorem replayStep {t : Tid} {s s' : State} (hs : P s) (hn : Machine.replayStep t s = .next s') : P s' := by
  have moved := h.replayTransfer hr trivial (t := t) (fun _ _ => trivial) hs
  unfold Machine.replayStep at hn
  match ends : Machine.replayTransfer t s, moved with
  | .ok _ x, hx =>
    rw [ends] at hn
    exact Host.Outcome.next.inj hn ▸ h.stopIfDisabled t (h.setRpDirty t false (h.endReplay t hx))
  | .error (.exc e) _, _ =>
    rw [ends] at hn
    exact Host.Outcome.next.inj hn ▸ h.stopIfDisabled t (h.takeException t e (h.setRpDirty t false hs))
  | .error (.late e) x, hx =>
    rw [ends] at hn
    exact Host.Outcome.next.inj hn ▸ h.stopIfDisabled t (h.takeException t e (h.setRpDirty t false hx))
  | .error .block _, _ =>
    rw [ends] at hn
    exact Host.Outcome.next.inj hn ▸ h.blocked t hs
  | .error (.refused _) _, _ =>
    rw [ends] at hn
    cases hn

/-! ### Steps -/

theorem runWord {t : Tid} {w : Word} {s s' : State} (hs : P s) (hn : Machine.runWord t w s = .next s') : P s' := by
  unfold Machine.runWord at hn
  split at hn
  · exact ((h.withCur s.cur).exec (fun _ hx => hx.2) (hr.withCur _) (fun _ _ => trivial) (fun _ => trivial) ⟨hs, rfl⟩ hn).1
  · cases hn; exact h.takeException _ _ hs

theorem fetchRun {t : Tid} {s s' : State} (hs : P s) (hn : Machine.fetchRun t s = .next s') : P s' := by
  have hk := h.fetch t (s.pcOf t) s hs
  unfold Machine.fetchRun at hn
  split at hn
  · rename_i e; rw [e] at hk; exact h.runWord hr hk hn
  · rename_i e; rw [e] at hk; cases hn; exact h.takeException _ _ hk
  · cases hn
  · rename_i e; rw [e] at hk; cases hn; exact h.takeException _ _ hk
  · rename_i e; rw [e] at hk; cases hn; exact h.takeException _ _ hk
  · cases hn; exact h.blocked _ hs

/-- A property that survives the elementary updates survives a step. -/
theorem step (hcur : ∀ (s : State) (t : Tid), P s → P (s.modEnv fun e => { e with cur := t })) {s s' : State} (hs : P s)
    (hn : Machine.step s = .next s') : P s' := by
  have ts : ∀ {t : Tid} {s s' : State}, P s → threadStep t s = .next s' → P s' := by
    intro t s s' hs hn
    have h1 := hcur s t hs
    unfold threadStep at hn
    dsimp only at hn
    split at hn
    · exact h.replayStep hr h1 hn
    · split at hn
      · cases hn; exact h.interruptEntry _ h1
      · split at hn
        · cases hn
        · exact h.fetchRun hr h1 hn
  have pf : ∀ {x : Action} {s s' : State}, P s → perform x s = .next s' → P s' := by
    intro x s s' hs hn
    unfold perform at hn
    split at hn
    · split at hn
      · exact ts hs hn
      · cases hn; exact hs
    · cases hn; exact h.act _ hs
  unfold Machine.step at hn
  split at hn
  · cases hn
  · split at hn
    · cases hn
    · split at hn
      · cases hn
      · refine pf ?_ hn
        unfold State.nextAction
        split
        · rename_i x l _
          exact h.env s (fun e => { e with schedule := l }) ⟨rfl, rfl, rfl, rfl⟩ hs
        · exact hs

end Closed

end Sys2Proof.Machine
end

