-- ==== Sys2Proof/Laws/Exceptions.lean ====
section
/-! SUPPORT. What leaving the running state changes: waiting for the linked answers, the quiet state, going off. -/

namespace Sys2Proof.Machine

/-- A change that leaves a thread as it is leaves the state as it is. -/
theorem State.modTh_of_eq {s : State} {t : Tid} {f : Thread → Thread} (h : f (s.th t) = s.th t) : s.modTh t f = s := by
  have h' : f s.thr[t.val] = s.thr[t.val] := h
  simp [State.modTh, h']

/-! ### Settled tokens -/

/-- The tokens delivered at a level change are the thread's own, and none that is left is a linked one of the thread. -/
theorem settleTokens_spec (t : Tid) (l : List Token) :
    (∀ k ∈ (settleTokens t l).1, k.tid = t) ∧
    (∀ k ∈ (settleTokens t l).2, (k.tid == t && k.linked) = false) := by
  induction l with
  | nil => simp [settleTokens]
  | cons k ks ih =>
    unfold settleTokens
    by_cases hc : (k.tid == t && (k :: ks).any fun x => x.tid == t && x.linked) = true
    · simp only [hc, if_true]
      refine ⟨fun x hx => ?_, ih.2⟩
      rcases List.mem_cons.mp hx with rfl | hx
      · simp only [Bool.and_eq_true, beq_iff_eq] at hc; exact hc.1
      · exact ih.1 x hx
    · simp only [hc, Bool.false_eq_true, if_false]
      refine ⟨ih.1, fun x hx => ?_⟩
      rcases List.mem_cons.mp hx with rfl | hx
      · by_contra hn
        apply hc
        simp only [Bool.not_eq_false] at hn
        simp only [List.any_cons, hn, Bool.true_or, Bool.and_true]
        simp only [Bool.and_eq_true] at hn; exact hn.1
      · exact ih.2 x hx

/-- Delivering tokens of one thread changes its TXDEFR only. -/
theorem recordTokens_eq (t : Tid) (l : List Token) (h : ∀ k ∈ l, k.tid = t) (s : State) :
    ∃ d, l.foldl State.recordTok s = s.modCt t fun c => { c with txdefr := d } := by
  induction l generalizing s with
  | nil =>
    exact ⟨(s.th t).ct.txdefr, (State.modTh_of_eq rfl).symm⟩
  | cons k ks ih =>
    obtain ⟨d, hd⟩ := ih (fun x hx => h x (List.mem_cons_of_mem _ hx)) (s.recordTok k)
    refine ⟨d, ?_⟩
    rw [List.foldl_cons, hd]
    unfold State.recordTok
    rw [h k (List.mem_cons_self ..)]
    simp [State.modCt, State.modTh]

/-- Waiting for the linked answers changes the tokens on their way and the thread's TXDEFR. -/
theorem State.settle_eq (s : State) (t : Tid) :
    ∃ d l, (∀ k ∈ l, (k.tid == t && k.linked) = false) ∧
      s.settle t = (s.modEnv fun v => { v with tokens := l }).modCt t fun c => { c with txdefr := d } := by
  obtain ⟨h1, h2⟩ := settleTokens_spec t s.env.tokens
  obtain ⟨d, hd⟩ := recordTokens_eq t _ h1 (s.modEnv fun v => { v with tokens := (settleTokens t s.env.tokens).2 })
  exact ⟨d, _, h2, hd⟩

/-! ### The quiet state -/

/-- The quiet state: the tokens, TXDEFR, LINK and the fetch's own bits, and RPDirty with CBMarker where the read pipeline holds data. -/
theorem State.quiesce_eq (s : State) (t : Tid) :
    ∃ d l, (∀ k ∈ l, (k.tid == t && k.linked) = false) ∧
      s.quiesce t = (s.modEnv fun v => { v with tokens := l }).modTh t fun x =>
        { x with
          ct := { x.ct with
            txdefr := d
            txdivtime := if x.h.rp.isEmpty then x.ct.txdivtime else withBit x.ct.txdivtime 31 true
            txstatus := if x.h.rp.isEmpty then x.ct.txstatus else withBit x.ct.txstatus 22 true }
          h := { x.h with link := false, waiting := false, fetchBuf := [] } } := by
  obtain ⟨d, l, hl, e⟩ := s.settle_eq t
  refine ⟨d, l, hl, ?_⟩
  unfold State.quiesce
  rw [e]
  simp only
  by_cases hr : (s.th t).h.rp.isEmpty = true
  · have hr' : s.thr[t.val].h.rp.isEmpty = true := hr
    rw [if_pos (by simpa [State.th, State.modCt, State.modH, State.modTh] using hr)]
    simp [State.modCt, State.modH, State.modTh, State.modEnv, hr']
  · have hr' : s.thr[t.val].h.rp.isEmpty = false := Bool.eq_false_iff.mpr hr
    rw [if_neg (by simpa [State.th, State.modCt, State.modH, State.modTh] using hr')]
    simp [State.modCt, State.modH, State.modTh, State.modEnv, State.setStatus, State.setRpDirty, State.status, State.th, hr']

section
variable (s : State) (t u : Tid)

@[simp] theorem State.cfg_quiesce : (s.quiesce t).cfg = s.cfg := by
  obtain ⟨d, l, -, e⟩ := s.quiesce_eq t; rw [e]; rfl
@[simp] theorem State.shared_quiesce : (s.quiesce t).shared = s.shared := by
  obtain ⟨d, l, -, e⟩ := s.quiesce_eq t; rw [e]; rfl
@[simp] theorem State.core_quiesce : (s.quiesce t).core = s.core := by
  obtain ⟨d, l, -, e⟩ := s.quiesce_eq t; rw [e]; rfl
theorem State.env_quiesce : ∃ l, (∀ k ∈ l, (k.tid == t && k.linked) = false) ∧
    (s.quiesce t).env = { s.env with tokens := l } := by
  obtain ⟨d, l, hl, e⟩ := s.quiesce_eq t; rw [e]; exact ⟨l, hl, rfl⟩
@[simp] theorem State.u_quiesce : ((s.quiesce t).th u).u = (s.th u).u := by
  obtain ⟨d, l, -, e⟩ := s.quiesce_eq t; rw [e, State.th_modTh]; split <;> rfl
@[simp] theorem State.tr_quiesce : ((s.quiesce t).th u).tr = (s.th u).tr := by
  obtain ⟨d, l, -, e⟩ := s.quiesce_eq t; rw [e, State.th_modTh]; split <;> rfl
@[simp] theorem State.mm_quiesce : ((s.quiesce t).th u).mm = (s.th u).mm := by
  obtain ⟨d, l, -, e⟩ := s.quiesce_eq t; rw [e, State.th_modTh]; split <;> rfl
@[simp] theorem State.h_quiesce : ((s.quiesce t).th t).h = { (s.th t).h with link := false, waiting := false, fetchBuf := [] } := by
  obtain ⟨d, l, -, e⟩ := s.quiesce_eq t; rw [e, State.th_modTh, if_pos rfl]; rfl
theorem State.th_quiesce_of_ne (h : u ≠ t) : (s.quiesce t).th u = s.th u := by
  obtain ⟨d, l, -, e⟩ := s.quiesce_eq t; rw [e, State.th_modTh_of_ne h]; rfl
theorem State.ct_quiesce : ∃ d, ((s.quiesce t).th t).ct =
    { (s.th t).ct with
      txdefr := d
      txdivtime := if (s.th t).h.rp.isEmpty then (s.th t).ct.txdivtime else withBit (s.th t).ct.txdivtime 31 true
      txstatus := if (s.th t).h.rp.isEmpty then s.status t else withBit (s.status t) 22 true } := by
  obtain ⟨d, l, -, e⟩ := s.quiesce_eq t; rw [e, State.th_modTh, if_pos rfl]; exact ⟨d, rfl⟩
theorem State.status_quiesce : (s.quiesce t).status t =
    if (s.th t).h.rp.isEmpty then s.status t else withBit (s.status t) 22 true := by
  obtain ⟨d, e⟩ := s.ct_quiesce t; unfold State.status; rw [e]; rfl
@[simp] theorem State.pendingLnk_quiesce : (s.quiesce t).pendingLnk t = 0 := by
  obtain ⟨l, hl, e⟩ := s.env_quiesce t
  unfold State.pendingLnk; rw [e]
  simp only [List.length_eq_zero_iff, List.filter_eq_nil_iff]
  intro k hk; simp [hl k hk]
@[simp] theorem State.reg_quiesce (r : Reg) : (s.quiesce t).reg u r = s.reg u r := by unfold State.reg; simp

end

/-! ### Triggers that go out -/

section
variable (s : State) (t u : Tid)

@[simp] theorem State.cfg_deliver (v : BitVec 4) : (s.deliver v).cfg = s.cfg := by
  unfold State.deliver; (repeat' split) <;> rfl
@[simp] theorem State.core_deliver (v : BitVec 4) : (s.deliver v).core = s.core := by
  unfold State.deliver; (repeat' split) <;> rfl
@[simp] theorem State.th_deliver (v : BitVec 4) : (s.deliver v).th u = s.th u := by
  unfold State.deliver; (repeat' split) <;> rfl
theorem State.env_deliver (v : BitVec 4) : ∃ o, (s.deliver v).env = { s.env with out := o } := by
  unfold State.deliver; (repeat' split) <;> exact ⟨_, rfl⟩
theorem State.shared_deliver (v : BitVec 4) : ∃ w, (s.deliver v).shared = { s.shared with hwtrig := w } := by
  unfold State.deliver; (repeat' split) <;> exact ⟨_, rfl⟩
@[simp] theorem State.reg_deliver (v : BitVec 4) (r : Reg) : (s.deliver v).reg u r = s.reg u r := by
  obtain ⟨w, e⟩ := s.shared_deliver v
  unfold State.reg; simp [e]

@[simp] theorem State.cfg_raiseMeta (b : Nat) (v : BitVec 4) : (s.raiseMeta b v).cfg = s.cfg := by simp [State.raiseMeta]
@[simp] theorem State.core_raiseMeta (b : Nat) (v : BitVec 4) :
    (s.raiseMeta b v).core = { s.core with hwstatmeta := withBit s.core.hwstatmeta b true } := by simp [State.raiseMeta]
@[simp] theorem State.th_raiseMeta (b : Nat) (v : BitVec 4) : (s.raiseMeta b v).th u = s.th u := by
  simp [State.raiseMeta]
theorem State.env_raiseMeta (b : Nat) (v : BitVec 4) : ∃ o, (s.raiseMeta b v).env = { s.env with out := o } :=
  State.env_deliver _ _
@[simp] theorem State.reg_raiseMeta (b : Nat) (v : BitVec 4) (r : Reg) : (s.raiseMeta b v).reg u r = s.reg u r := by
  simp [State.raiseMeta]

/-- The B or I trigger of a thread is one bit of HWSTATMETA and its vector. -/
theorem State.raiseThreadTrigger_eq :
    ∃ v, s.raiseThreadTrigger t = s.raiseMeta (4 * t.val + (if s.istat t then 1 else 0)) v := by
  unfold State.raiseThreadTrigger
  split <;> exact ⟨_, rfl⟩

@[simp] theorem State.th_raiseThreadTrigger : (s.raiseThreadTrigger t).th u = s.th u := by
  obtain ⟨v, e⟩ := s.raiseThreadTrigger_eq t; rw [e]; simp

end

/-! ### Turning off -/

/-- A thread turned off: ThreadEnable 0, TStopped 1, OFF, its PC kept. -/
theorem State.turnOff_thread (s : State) (t : Tid) :
    ((s.turnOff t).th t).ct.enabled = false ∧ ((s.turnOff t).th t).ct.stopped = true ∧
      ((s.turnOff t).th t).h.tstate = .off ∧ ((s.turnOff t).th t).u = (s.th t).u := by
  unfold State.turnOff
  simp only [State.th_raiseThreadTrigger, State.goOff, State.th_modTh_self]
  exact ⟨trivial, trivial, trivial, State.u_quiesce s t t⟩

end Sys2Proof.Machine
end

