-- ==== Sys2Proof/Laws/Entry.lean ====
section
/-! SUPPORT. What taking an exception and entering an interrupt leave, said once: the state saved, then the entry. -/

namespace Sys2Proof.Machine

/-- The reason field of TXSTATUS reads back. -/
theorem bitsOf_withBits_reason (w : Word) (v : BitVec 4) : bitsOf (withBits w 18 4 v) 18 4 = v := by
  unfold bitsOf withBits maskWrite
  apply BitVec.eq_of_getLsbD_eq; intro i hi
  interval_cases i <;> simp

/-- Every other bit of TXSTATUS keeps its value. -/
theorem bitOf_withBits_reason (w : Word) (v : BitVec 4) (i : Nat) (h : i < 18 ∨ 22 ≤ i) : bitOf (withBits w 18 4 v) i = bitOf w i := by
  unfold bitOf withBits maskWrite
  by_cases hi : i < 32
  · interval_cases i <;> first | omega | simp
  · rw [BitVec.getLsbD_of_ge _ _ (by omega), BitVec.getLsbD_of_ge _ _ (by omega)]

/-- The state of R640 after its reason, the quiet state and the catch state, where the two ways of taking an exception part. -/
def State.exceptionSaved (s : State) (t : Tid) (e : Exc) : State :=
  match e with
  | .data d x => ((s.setReason t e).quiesce t).catchSave t d x
  | _ => (s.setReason t e).quiesce t

/-- Taking an exception: the thread's own interrupt entry, or OFF with its triggers (60_exceptions.md R640). -/
theorem State.takeException_eq (s : State) (t : Tid) (e : Exc) : s.takeException t e = 
  if (s.exceptionSaved t e).ownsHalt t then
    ((s.exceptionSaved t e).modTh t fun x => { x with tr := { x.tr with haltTrig := true }, h := { x.h with tstate := .halted } }).interruptEntry t
  else
    let s' := ((s.exceptionSaved t e).goOff t false).raiseThreadTrigger t
    if e.pageTrigger then s'.raisePageTrigger t else s' := by
  unfold State.takeException State.exceptionSaved
  cases e <;> rfl

/-- What the first half of taking an exception leaves of a thread and of the rest. -/
structure ExceptionSaved (s p : State) (t : Tid) (e : Exc) : Prop where
  u : ∀ v, (p.th v).u = (s.th v).u
  tr : ∀ v, (p.th v).tr = (s.th v).tr
  mm : ∀ v, (p.th v).mm = (s.th v).mm
  h : (p.th t).h = { (s.th t).h with link := false, waiting := false, fetchBuf := [] }
  oth : ∀ v, v ≠ t → p.th v = s.th v
  cfg : p.cfg = s.cfg
  core : p.core = s.core
  shared : p.shared = s.shared
  env : ∃ l, p.env = { s.env with tokens := l }
  en : (p.th t).ct.enabled = (s.th t).ct.enabled
  rpt : (p.th t).ct.txrpt = (s.th t).ct.txrpt
  pe : (p.th t).ct.txprivext = (s.th t).ct.txprivext
  dirty : (s.th t).h.rp ≠ [] → p.rpDirty t = true
  pend : p.pendingLnk t = 0
  st : ∀ i, (i < 18 ∨ 24 ≤ i) → bitOf (p.status t) i = bitOf (s.status t) i
  hr : bitsOf (p.status t) 18 4 = e.freason ++ e.hreason
  cb : (s.th t).h.rp ≠ [] → p.cbMarker t = true

@[simp] theorem State.status_setStatus (s : State) (t v) : (s.setStatus t v).status t = v := by simp [State.status, State.setStatus]

theorem exceptionSaved_quiesce (s : State) (t : Tid) (e : Exc) : ExceptionSaved s ((s.setReason t e).quiesce t) t e := by
  have hst : (s.setReason t e).status t = withBits (s.status t) 18 4 (e.freason ++ e.hreason) := State.status_setStatus _ _ _
  obtain ⟨d, hd⟩ := (s.setReason t e).ct_quiesce t
  have hst2 : ((s.setReason t e).quiesce t).status t = if (s.th t).h.rp.isEmpty then withBits (s.status t) 18 4 (e.freason ++ e.hreason) else withBit (withBits (s.status t) 18 4 (e.freason ++ e.hreason)) 22 true := by
    rw [State.status_quiesce, hst]; simp [State.setReason, State.setStatus]
  constructor
  · intro v; simp [State.setReason, State.setStatus]
  · intro v; simp [State.setReason, State.setStatus]
  · intro v; simp [State.setReason, State.setStatus]
  · rw [State.h_quiesce]; simp [State.setReason, State.setStatus]
  · intro v hv; rw [State.th_quiesce_of_ne _ _ _ hv]; simp only [State.setReason, State.setStatus, State.modCt, State.th_modTh_of_ne hv]
  · simp [State.setReason, State.setStatus]
  · simp [State.setReason, State.setStatus]
  · simp [State.setReason, State.setStatus]
  · obtain ⟨l, -, h⟩ := (s.setReason t e).env_quiesce t; exact ⟨l, h⟩
  · rw [hd]; simp [State.setReason, State.setStatus]
  · rw [hd]; simp [State.setReason, State.setStatus]
  · rw [hd]; simp [State.setReason, State.setStatus]
  · intro h
    unfold State.rpDirty; rw [hd]
    have : ((s.setReason t e).th t).h.rp.isEmpty = false := by simpa [State.setReason, State.setStatus] using h
    simp only [this, Bool.false_eq_true, if_false]
    exact bitOf_withBit_self (by omega)
  · simp
  · intro i hi
    rw [hst2]; split
    · exact bitOf_withBits_reason _ _ _ (by omega)
    · rw [bitOf_withBit_of_ne (by omega)]; exact bitOf_withBits_reason _ _ _ (by omega)
  · rw [hst2]; split
    · exact bitsOf_withBits_reason _ _
    · rw [← bitsOf_withBits_reason (s.status t) (e.freason ++ e.hreason)]
      rw [bitsOf_withBits_reason (s.status t) (e.freason ++ e.hreason)]
      have h0 := bitsOf_withBits_reason (s.status t) (e.freason ++ e.hreason)
      conv_rhs => rw [← h0]
      unfold bitsOf
      apply BitVec.eq_of_getLsbD_eq; intro i hi
      simp only [BitVec.getLsbD_extractLsb']
      have := bitOf_withBit_of_ne (w := withBits (s.status t) 18 4 (e.freason ++ e.hreason)) (i := 22) (j := 18 + i) (b := true) (by omega)
      unfold bitOf at this; rw [this]
  · intro h
    unfold State.cbMarker; rw [hst2]
    have : (s.th t).h.rp.isEmpty = false := by simpa using h
    simp only [this, Bool.false_eq_true, if_false]
    exact bitOf_withBit_self (by omega)

theorem exceptionSaved_catch (s p : State) (t : Tid) (e : Exc) (d x) (h : ExceptionSaved s p t e) : ExceptionSaved s (p.catchSave t d x) t e := by
  have hst : (p.catchSave t d x).status t = if p.istat t then withBit (withBit (p.status t) 22 true) 23 true else withBit (p.status t) 22 true := by
    unfold State.catchSave
    cases x <;> (simp [State.status, State.setStatus, State.istat]; rfl)
  have hother : ∀ i, i ≠ 22 → i ≠ 23 → bitOf ((p.catchSave t d x).status t) i = bitOf (p.status t) i := by
    intro i h1 h2; rw [hst]; split
    · rw [bitOf_withBit_of_ne h2, bitOf_withBit_of_ne h1]
    · rw [bitOf_withBit_of_ne h1]
  have hex : ∃ f, p.catchSave t d x = p.modCt t f ∧ ∀ c, (f c).enabled = c.enabled ∧ (f c).txrpt = c.txrpt ∧ (f c).txprivext = c.txprivext ∧ (f c).txdivtime = c.txdivtime := by
    unfold State.catchSave
    have comp : ∀ (q : State) (f : Ctrl → Ctrl) (w : Word), (q.modCt t f).setStatus t w = q.modCt t fun c => { f c with txstatus := w } := by
      intro q f w; simp [State.setStatus, State.modCt, State.modTh]
    cases x <;> (simp only; rw [comp]; exact ⟨_, rfl, fun c => ⟨rfl, rfl, rfl, rfl⟩⟩)
  obtain ⟨f, hf, hf'⟩ := hex
  constructor
  · intro v; rw [hf]; simp [h.u]
  · intro v; rw [hf]; simp [h.tr]
  · intro v; rw [hf]; simp [h.mm]
  · rw [hf]; simp [h.h]
  · intro v hv; rw [hf]; simp only [State.modCt, State.th_modTh_of_ne hv, h.oth v hv]
  · rw [hf]; simp [h.cfg]
  · rw [hf]; simp [h.core]
  · rw [hf]; simp [h.shared]
  · rw [hf]; exact h.env
  · rw [hf]; simp [hf', h.en]
  · rw [hf]; simp [hf', h.rpt]
  · rw [hf]; simp [hf', h.pe]
  · intro hr; have := h.dirty hr; rw [hf]; unfold State.rpDirty at *; simp [hf', this]
  · rw [hf]; exact h.pend
  · intro i hi; rw [hother i (by omega) (by omega), h.st i hi]
  · rw [← h.hr]; unfold bitsOf
    apply BitVec.eq_of_getLsbD_eq; intro i hi
    simp only [BitVec.getLsbD_extractLsb']
    have := hother (18 + i) (by omega) (by omega)
    unfold bitOf at this; rw [this]
  · intro hr; unfold State.cbMarker; rw [hst]; split
    · rw [bitOf_withBit_of_ne (by omega)]; exact bitOf_withBit_self (by omega)
    · exact bitOf_withBit_self (by omega)

theorem exceptionSaved_spec (s : State) (t e) : ExceptionSaved s (s.exceptionSaved t e) t e := by
  unfold State.exceptionSaved
  cases e <;> first | exact exceptionSaved_quiesce _ _ _ | exact exceptionSaved_catch _ _ _ _ _ _ (exceptionSaved_quiesce _ _ _)

theorem ExceptionSaved.owns {s p t e} (h : ExceptionSaved s p t e) : p.ownsHalt t = s.ownsHalt t := by
  unfold State.ownsHalt State.istat; rw [h.tr, h.st 16 (by omega)]

/-- Words that agree in bits 15:0. -/
theorem low16_ext {a b : Word} (h : ∀ i, i < 16 → bitOf a i = bitOf b i) : a &&& 0x0000FFFF#32 = b &&& 0x0000FFFF#32 := by
  apply BitVec.eq_of_getLsbD_eq; intro i hi
  rw [BitVec.getLsbD_and, BitVec.getLsbD_and]
  by_cases h16 : i < 16
  · have := h i h16; unfold bitOf at this; rw [this]
  · interval_cases i <;> first | omega | simp

/-- HReason and FReason out of the reason field. -/
theorem reason_fields {w : Word} {e : Exc} (h : bitsOf w 18 4 = e.freason ++ e.hreason) : bitsOf w 18 2 = e.hreason ∧ bitsOf w 20 2 = e.freason := by
  constructor
  · have := congrArg (fun z : BitVec 4 => z.extractLsb' 0 2) h
    rw [show (e.freason ++ e.hreason : BitVec 4).extractLsb' 0 2 = e.hreason by
       apply BitVec.eq_of_getLsbD_eq; intro i hi; simp only [BitVec.getLsbD_extractLsb', BitVec.getLsbD_append]; simp [hi]] at this
    rw [← this]; unfold bitsOf
    apply BitVec.eq_of_getLsbD_eq; intro i hi; simp only [BitVec.getLsbD_extractLsb']; interval_cases i <;> simp
  · have := congrArg (fun z : BitVec 4 => z.extractLsb' 2 2) h
    rw [show (e.freason ++ e.hreason : BitVec 4).extractLsb' 2 2 = e.freason by
       apply BitVec.eq_of_getLsbD_eq; intro i hi; simp only [BitVec.getLsbD_extractLsb', BitVec.getLsbD_append]; interval_cases i <;> simp] at this
    rw [← this]; unfold bitsOf
    apply BitVec.eq_of_getLsbD_eq; intro i hi; simp only [BitVec.getLsbD_extractLsb']; interval_cases i <;> simp

/-- What an interrupt entry leaves of a thread and of the rest (60_exceptions.md R633). -/
structure Entered (s p : State) (t : Tid) : Prop where
  pc : p.pcOf t = (s.th t).u.pcx
  pcx : (p.th t).u.pcx = s.pcOf t
  h : (p.th t).h = { (s.th t).h with link := false, waiting := false, fetchBuf := [], tstate := .run }
  pend : p.pendingLnk t = 0
  istat : p.istat t = true
  priv : p.priv t = (if s.pToggle t then !s.priv t else s.priv t)
  st : ∀ i, i ≠ 16 → i ≠ 17 → i ≠ 22 → bitOf (p.status t) i = bitOf (s.status t) i
  cb : (s.th t).h.rp ≠ [] → p.cbMarker t = true
  cb' : s.cbMarker t = true → p.cbMarker t = true
  dirty : (s.th t).h.rp ≠ [] → p.rpDirty t = true
  ct : ∃ a b d, (p.th t).ct = { (s.th t).ct with txstatus := a, txdivtime := b, txdefr := d }
  tr : ∀ v, (p.th v).tr = (s.th v).tr
  mm : ∀ v, (p.th v).mm = (s.th v).mm
  oth : ∀ v, v ≠ t → p.th v = s.th v
  cfg : p.cfg = s.cfg
  core : p.core = s.core
  shared : p.shared = s.shared
  env : ∃ l, p.env = { s.env with tokens := l }
  reg : ∀ v r, p.reg v r = s.reg v r

theorem interruptEntry_spec (s : State) (t : Tid) : Entered s (s.interruptEntry t) t := by
  obtain ⟨d, hd⟩ := s.ct_quiesce t
  have hq := s.status_quiesce t
  have hpt : (s.quiesce t).pToggle t = s.pToggle t := by
    unfold State.pToggle State.privExt; rw [hd]
  have hpr : (s.quiesce t).priv t = s.priv t := by
    unfold State.priv; rw [hq]; split
    · rfl
    · exact bitOf_withBit_of_ne (by omega)
  have hst : (s.interruptEntry t).status t = (if s.pToggle t then withBit (withBit ((s.quiesce t).status t) 16 true) 17 (!s.priv t) else withBit ((s.quiesce t).status t) 16 true) := by
    unfold State.interruptEntry
    simp only [State.status, State.setStatus, State.ct_modH, State.ct_modCt_self, hpt, hpr]
  have hbit : ∀ i, i ≠ 16 → i ≠ 17 → bitOf ((s.interruptEntry t).status t) i = bitOf ((s.quiesce t).status t) i := by
    intro i h1 h2; rw [hst]; split
    · rw [bitOf_withBit_of_ne h2, bitOf_withBit_of_ne h1]
    · rw [bitOf_withBit_of_ne h1]
  have hqb : ∀ i, i ≠ 22 → bitOf ((s.quiesce t).status t) i = bitOf (s.status t) i := by
    intro i h1; rw [hq]; split
    · rfl
    · exact bitOf_withBit_of_ne h1
  constructor
  · simp [State.pcOf, State.interruptEntry, State.setStatus]
  · simp [State.pcOf, State.interruptEntry, State.setStatus]
  · simp [State.interruptEntry, State.setStatus]
  · show (s.quiesce t).pendingLnk t = 0; simp
  · unfold State.istat; rw [hst]; split
    · rw [bitOf_withBit_of_ne (by omega)]; exact bitOf_withBit_self (by omega)
    · exact bitOf_withBit_self (by omega)
  · unfold State.priv at *; rw [hst]; split
    · exact bitOf_withBit_self (by omega)
    · rw [bitOf_withBit_of_ne (by omega), hqb _ (by omega)]
  · intro i h1 h2 h3; rw [hbit i h1 h2, hqb i h3]
  · intro hr; unfold State.cbMarker; rw [hbit 22 (by omega) (by omega), hq]
    have : (s.th t).h.rp.isEmpty = false := by simpa using hr
    simp only [this, Bool.false_eq_true, if_false]
    exact bitOf_withBit_self (by omega)
  · intro hr; unfold State.cbMarker at *; rw [hbit 22 (by omega) (by omega), hq]; split
    · exact hr
    · exact bitOf_withBit_self (by omega)
  · intro hr
    have h1 : ((s.interruptEntry t).th t).ct.txdivtime = ((s.quiesce t).th t).ct.txdivtime := by
      simp [State.interruptEntry, State.setStatus]
    unfold State.rpDirty; rw [h1, hd]
    have : (s.th t).h.rp.isEmpty = false := by simpa using hr
    simp only [this, Bool.false_eq_true, if_false]
    exact bitOf_withBit_self (by omega)
  · simp only [State.interruptEntry, State.setStatus, State.ct_modH, State.ct_modCt_self, State.ct_modU, hd]
    exact ⟨_, _, _, rfl⟩
  · intro v; simp [State.interruptEntry, State.setStatus]
  · intro v; simp [State.interruptEntry, State.setStatus]
  · intro v hv; simp only [State.interruptEntry, State.setStatus, State.modH, State.modCt, State.modU, State.th_modTh_of_ne hv]
    exact State.th_quiesce_of_ne _ _ _ hv
  · simp [State.interruptEntry, State.setStatus]
  · simp [State.interruptEntry, State.setStatus]
  · simp [State.interruptEntry, State.setStatus]
  · obtain ⟨l, -, h⟩ := s.env_quiesce t; exact ⟨l, h⟩
  · intro v r
    refine State.reg_congr ?_ (by simp [State.interruptEntry, State.setStatus])
    simp only [State.interruptEntry, State.setStatus, State.u_modH, State.u_modCt, State.u_modU]
    split <;> simp

end Sys2Proof.Machine
end

