-- ==== Sys2Proof/Laws/Exec.lean ====
section
/-! SUPPORT. Every instruction as one issue of its condition and its body. -/

namespace Sys2Proof.Machine

/-- An instruction whose one issue is one iteration: not a form that is only refused, not SWITCH, whose trap comes after the issue, and not
a repeat, which counts. -/
def onceIssued : Instr → Bool
  | .memToMem | .xfr | .hardwareLoop | .switch _ _ | .repeatForm _ => false
  | _ => true

theorem exec_once {i : Instr} (h : onceIssued i = true) (s : State) : exec i s = issue (iteration i).1 (iteration i).2 s := by
  cases i <;> first | rfl | cases h

theorem exec_switch (c : Cond) (imm : BitVec 24) (s : State) : exec (.switch c imm) s = issue c (fun _ => raiseLate .switch) s := rfl

theorem exec_repeatForm (i : Instr) (s : State) : exec (.repeatForm i) s = issue (iteration i).1 (repBody i) s := rfl

/-- The condition of an instruction and of its iterations are one. -/
theorem iteration_cond (i : Instr) : (iteration i).1 = instrCond i := by
  induction i with
  | repeatForm i ih => exact ih
  | _ => rfl

/-- Every instruction the spec describes is one issue of its condition and a body that does not depend on the state. -/
theorem exec_issue (i : Instr) (h : i ≠ .memToMem ∧ i ≠ .xfr ∧ i ≠ .hardwareLoop) :
    ∃ body, ∀ s, exec i s = issue (instrCond i) body s := by
  by_cases once : onceIssued i = true
  · exact ⟨_, fun s => iteration_cond i ▸ exec_once once s⟩
  · cases i with
    | switch c imm => exact ⟨_, exec_switch c imm⟩
    | repeatForm i => exact ⟨_, fun s => iteration_cond i ▸ exec_repeatForm i s⟩
    | _ => simp [onceIssued] at once h

end Sys2Proof.Machine
end

