-- ==== Sys2Proof/Laws/Issue.lean ====
section
/-! SUPPORT. How an instruction that runs goes from its body to its outcome, and what PC's advance leaves. -/

namespace Sys2Proof.Machine

/-! ### PC advanced -/

section
variable (s : State) (t u : Tid) (v : Word)

@[simp] theorem State.cur_setPc : (s.setPc t v).cur = s.cur := rfl
@[simp] theorem State.cfg_setPc : (s.setPc t v).cfg = s.cfg := rfl
@[simp] theorem State.core_setPc : (s.setPc t v).core = s.core := rfl
@[simp] theorem State.env_setPc : (s.setPc t v).env = s.env := rfl
@[simp] theorem State.shared_setPc : (s.setPc t v).shared = s.shared := rfl
@[simp] theorem State.ct_setPc : ((s.setPc t v).th u).ct = (s.th u).ct := State.ct_modU _ _ _ _
@[simp] theorem State.tr_setPc : ((s.setPc t v).th u).tr = (s.th u).tr := State.tr_modU _ _ _ _
@[simp] theorem State.mm_setPc : ((s.setPc t v).th u).mm = (s.th u).mm := State.mm_modU _ _ _ _
@[simp] theorem State.h_setPc : ((s.setPc t v).th u).h = (s.th u).h := State.h_modU _ _ _ _
@[simp] theorem State.pcOf_setPc_self : (s.setPc t v).pcOf t = v := by simp [State.pcOf, State.setPc]
@[simp] theorem State.pcx_setPc : ((s.setPc t v).th u).u.pcx = (s.th u).u.pcx := by
  simp only [State.setPc, State.u_modU]; split <;> rfl

@[simp] theorem State.cur_advanced : s.advanced.cur = s.cur := rfl
@[simp] theorem State.cfg_advanced : s.advanced.cfg = s.cfg := rfl
@[simp] theorem State.core_advanced : s.advanced.core = s.core := rfl
@[simp] theorem State.env_advanced : s.advanced.env = s.env := rfl
@[simp] theorem State.shared_advanced : s.advanced.shared = s.shared := rfl
@[simp] theorem State.ct_advanced : (s.advanced.th u).ct = (s.th u).ct := State.ct_setPc _ _ _ _
@[simp] theorem State.tr_advanced : (s.advanced.th u).tr = (s.th u).tr := State.tr_setPc _ _ _ _
@[simp] theorem State.mm_advanced : (s.advanced.th u).mm = (s.th u).mm := State.mm_setPc _ _ _ _
@[simp] theorem State.h_advanced : (s.advanced.th u).h = (s.th u).h := State.h_setPc _ _ _ _
@[simp] theorem State.pcx_advanced : (s.advanced.th u).u.pcx = (s.th u).u.pcx := State.pcx_setPc _ _ _ _
@[simp] theorem State.pcOf_advanced : s.advanced.pcOf s.cur = s.pcOf s.cur + 4#32 := State.pcOf_setPc_self _ _ _
@[simp] theorem State.reg_advanced (r : Reg) : s.advanced.reg u r = s.reg u r := State.reg_setPc _ _ _ _ _
@[simp] theorem State.status_advanced : s.advanced.status u = s.status u := by simp [State.status]
@[simp] theorem State.istat_advanced : s.advanced.istat u = s.istat u := by simp [State.istat]
@[simp] theorem State.priv_advanced : s.advanced.priv u = s.priv u := by simp [State.priv]
@[simp] theorem State.privExt_advanced (i : Nat) : s.advanced.privExt u i = s.privExt u i := by simp [State.privExt]
@[simp] theorem State.pToggle_advanced : s.advanced.pToggle u = s.pToggle u := by simp [State.pToggle]
@[simp] theorem State.cbMarker_advanced : s.advanced.cbMarker u = s.cbMarker u := by simp [State.cbMarker]
@[simp] theorem State.lsmStep_advanced : s.advanced.lsmStep u = s.lsmStep u := by simp [State.lsmStep]
@[simp] theorem State.accOf_advanced : s.advanced.accOf u = s.accOf u := by simp [State.accOf]
@[simp] theorem State.pendingLnk_advanced : s.advanced.pendingLnk u = s.pendingLnk u := rfl
@[simp] theorem State.dspModeOn_advanced : s.advanced.dspModeOn u = s.dspModeOn u := by simp [State.dspModeOn]
@[simp] theorem State.mmuMode_advanced (side : CacheSide) : s.advanced.mmuMode side = s.mmuMode side := rfl
@[simp] theorem State.offset_advanced (m : MemMode) : s.advanced.offset u m = s.offset u m := by
  unfold State.offset; split <;> simp
@[simp] theorem State.address_advanced (m : MemMode) : s.advanced.address u m = s.address u m := by
  unfold State.address; split <;> simp
@[simp] theorem State.newBase_advanced (m : MemMode) : s.advanced.newBase u m = s.newBase u m := by simp [State.newBase]
@[simp] theorem State.operandStop_advanced (l : List Use) : s.advanced.operandStop u l = s.operandStop u l := by
  have e : s.advanced.needsPriv u = s.needsPriv u := by
    funext x; unfold State.needsPriv; split <;> simp
  simp [State.operandStop, e]

end

/-! ### From the body to the outcome -/

/-- An instruction that runs is its body, started with PC advanced. -/
theorem issue_runs {s : State} {c : Cond} {body : Word → M Unit} (h : s.runs c) :
    issue c body s = finishIssue s s.cur (body (s.pcOf s.cur) s.advanced) := by
  have h1 := h.1
  have h2 := h.2
  unfold issue
  simp only [h1, h2, if_true, Bool.false_eq_true, if_false]
  rfl

/-- An instruction without a condition always runs. -/
theorem State.runs_al (s : State) : s.runs .al := by
  refine ⟨?_, rfl⟩
  simp [splitTest]

theorem issue_ok {s s' : State} {c : Cond} {body : Word → M Unit} (h : s.runs c)
    (hb : body (s.pcOf s.cur) s.advanced = .ok () s') : issue c body s = .next (s'.complete s.cur) := by
  rw [issue_runs h, hb]; rfl

theorem issue_exc {s s' : State} {c : Cond} {body : Word → M Unit} {e : Exc} (h : s.runs c)
    (hb : body (s.pcOf s.cur) s.advanced = .error (.exc e) s') : issue c body s = .next (s.takeException s.cur e) := by
  rw [issue_runs h, hb]; rfl

theorem issue_late {s s' : State} {c : Cond} {body : Word → M Unit} {e : Exc} (h : s.runs c)
    (hb : body (s.pcOf s.cur) s.advanced = .error (.late e) s') :
    issue c body s = .next ((s'.retire s.cur).takeException s.cur e) := by
  rw [issue_runs h, hb]; rfl

theorem issue_block {s s' : State} {c : Cond} {body : Word → M Unit} (h : s.runs c)
    (hb : body (s.pcOf s.cur) s.advanced = .error .block s') : issue c body s = .next (s.blocked s.cur) := by
  rw [issue_runs h, hb]; rfl

theorem issue_refused {s s' : State} {c : Cond} {body : Word → M Unit} {q : Refusal} (h : s.runs c)
    (hb : body (s.pcOf s.cur) s.advanced = .error (.refused q) s') : issue c body s = .refused q := by
  rw [issue_runs h, hb]; rfl

/-- A skipped instruction. -/
theorem issue_skipped {s : State} {c : Cond} {body : Word → M Unit} (h1 : splitTest (s.status s.cur) c = false)
    (h2 : condHolds (s.status s.cur) c = false) : issue c body s = .next (s.advanced.complete s.cur) := by
  unfold issue
  simp only [h1, h2, Bool.false_eq_true, if_false]
  rfl

theorem issue_split {s : State} {c : Cond} {body : Word → M Unit} (h : splitTest (s.status s.cur) c = true) :
    issue c body s = .refused .splitConditions := by
  unfold issue
  simp only [h, if_true]

/-! ### Checks and the rest of a transfer -/

theorem check_ok {s : State} {t : Tid} {l : List Use} (h : s.operandStop t l = none) : check t l s = .ok () s := by
  unfold check; rw [h]

theorem check_stop {s : State} {t : Tid} {l : List Use} {e : Stop} (h : s.operandStop t l = some e) :
    check t l s = .error e s := by
  unfold check; rw [h]

/-- Checked operands pass on to the rest of a body. -/
theorem check_bind {β : Type} {s : State} {t : Tid} {l : List Use} {f : Unit → M β} (h : s.operandStop t l = none) :
    (check t l >>= f) s = f () s := M.bind_ok (check_ok h)

/-- The operands of an instruction that runs, checked in the state with PC advanced. -/
theorem State.operandsOk.bind {β : Type} {s : State} {l : List Use} {f : Unit → M β} (h : s.operandsOk l) :
    (check s.cur l >>= f) s.advanced = f () s.advanced :=
  check_bind ((State.operandStop_advanced s s.cur l).trans h)

theorem check_bind_stop {β : Type} {s : State} {t : Tid} {l : List Use} {f : Unit → M β} {e : Stop}
    (h : s.operandStop t l = some e) : (check t l >>= f) s = .error e s := M.bind_error (check_stop h)

theorem dspCheck_bind {β : Type} {s : State} {t : Tid} {f : Unit → M β} (h : s.dspModeOn t = false) :
    (dspCheck t >>= f) s = f () s := by
  refine M.bind_ok ?_
  unfold dspCheck
  simp [h]

theorem afterwards_ok {x r : M Unit} {s s' : State} (h : x s = .ok () s') : afterwards x r s = r s' := by
  unfold afterwards; rw [h]

theorem afterwards_late {x : M Unit} {f : State → State} {s s' : State} {e : Exc} (h : x s = .error (.late e) s') :
    afterwards x (update f) s = .error (.late e) (f s') := by
  unfold afterwards; rw [h]; rfl

theorem updateBase_run (s : State) (t : Tid) (m : MemMode) (v : Word) :
    updateBase t m v s = .ok () (s.withBase t m v) := by
  unfold updateBase State.withBase
  cases m.update <;> rfl

theorem afterwards_base_late {x : M Unit} {t : Tid} {m : MemMode} {v : Word} {s s' : State} {e : Exc}
    (h : x s = .error (.late e) s') : afterwards x (updateBase t m v) s = .error (.late e) (s'.withBase t m v) := by
  unfold afterwards; rw [h]
  simp only [updateBase_run]

end Sys2Proof.Machine
end

