-- ==== Sys2Proof/Laws/PerInstr.lean ====
section
/-! SUPPORT. What holds of every instruction as syntax, one lemma for each constructor: its word lies in its row of the opcode table. -/

namespace Sys2Proof.Laws

/-- Mask and match of an instruction's row of spec/opcode_table.json; the rows without a pattern have none (30_encoding.md R426). The moves
with a row of their own share the pattern of the unit-to-unit move. -/
def tableRow : Instr → Option (Word × Word)
  | .lock0 => some (0xFFFFFFFF#32, 0xA8000000#32)
  | .lock1 => some (0xFFFFFFFF#32, 0xA8000001#32)
  | .lock2 => some (0xFFFFFFFF#32, 0xA8000003#32)
  | .rti => some (0xFFFFFFFF#32, 0xA3FFFFFF#32)
  | .nop => some (0xFFFFFFFF#32, 0xA0FFFFFE#32)
  | .switch _ _ => some (0xFF000000#32, 0xAF000000#32)
  | .bcc _ _ => some (0xFF000001#32, 0xA0000000#32)
  | .swap _ _ _ => some (0xFF000201#32, 0xA3000200#32)
  | .mov _ _ _ | .movPc _ _ | .movRd _ _ | .movRa _ _ | .movRapf _ _ | .movRabz _ _ | .movRawz _ _ | .movRadz _ _ | .movRabx _ _ | .movRawx _ _ | .movRadx _ _ | .movRam8x _ _ | .movRam16x _ _ | .movRam8x32 _ _
    => some (0xFF000201#32, 0xA3000000#32)
  | .movImm _ _ _ | .getb _ | .getw _ | .getd _ | .getl _ | .setb _ | .setw _ | .setd _ | .setl _ | .mgetd _ _ | .mgetl _ _
  | .msetd _ _ | .msetl _ _ | .memToMem | .xfr | .coprocRead _ _ _ | .coprocWrite _ _ _ | .add _ | .sub _ | .and _ | .or _
  | .xor _ | .lsl _ | .lsr _ | .asr _ | .mulw _ | .muld _ | .tst _ | .cmp _ | .auAdd _ | .auSub _ | .callr _ _ | .jump _ _
  | .call _ _ _ | .repeatForm _ | .hardwareLoop | .lnkgetd _ _ | .lnkgetl _ _ _ | .lnksetd _ _ _ | .lnksetl _ _ _ _
  | .defrTxstat _ | .defrTxpoll _ | .defrTxstati _ | .defrTxpolli _ | .cacherl _ _ _ _ | .dcache _ | .cachew _ _ | .icache _ _ _ => none

/-- The word of an instruction has its row's fixed bits. -/
def Encoding.Statement (i : Instr) : Prop :=
  ∀ w, encode i = some w → ∃ m p, tableRow i = some (m, p) ∧ w &&& m = p

theorem moveWord_row (sw : BitVec 1) (c : Cond) (d s : Reg) :
    moveWord sw c d s &&& 0xFF000201#32 = 0xA3000000#32 ||| (sw.setWidth 32 <<< 9) := by
  unfold moveWord
  apply BitVec.eq_of_getLsbD_eq
  intro i hi
  simp only [BitVec.getLsbD_and, BitVec.getLsbD_or, BitVec.getLsbD_append, BitVec.getLsbD_shiftLeft, BitVec.getLsbD_setWidth]
  interval_cases i <;> simp

theorem bccWord_row (c : Cond) (imm : BitVec 19) :
    (0xA0#8 ++ imm ++ c.code ++ 0#1 : Word) &&& 0xFF000001#32 = 0xA0000000#32 := by
  apply BitVec.eq_of_getLsbD_eq
  intro i hi
  simp only [BitVec.getLsbD_and, BitVec.getLsbD_append]
  interval_cases i <;> simp

theorem switchWord_row (imm : BitVec 24) : (0xAF#8 ++ imm : Word) &&& 0xFF000000#32 = 0xAF000000#32 := by
  apply BitVec.eq_of_getLsbD_eq
  intro i hi
  simp only [BitVec.getLsbD_and, BitVec.getLsbD_append]
  interval_cases i <;> simp

theorem Encoding.lock0 : Encoding.Statement .lock0 := by
  intro w h
  cases h
  exact ⟨_, _, rfl, by decide⟩

theorem Encoding.lock1 : Encoding.Statement .lock1 := by
  intro w h
  cases h
  exact ⟨_, _, rfl, by decide⟩

theorem Encoding.lock2 : Encoding.Statement .lock2 := by
  intro w h
  cases h
  exact ⟨_, _, rfl, by decide⟩

theorem Encoding.rti : Encoding.Statement .rti := by
  intro w h
  cases h
  exact ⟨_, _, rfl, by decide⟩

theorem Encoding.nop : Encoding.Statement .nop := by
  intro w h
  cases h
  exact ⟨_, _, rfl, by decide⟩

theorem Encoding.switch (cc : Cond) (imm : BitVec 24) : Encoding.Statement (.switch cc imm) := by
  intro w h
  have h' : (if cc = .al then some (0xAF#8 ++ imm : Word) else none) = some w := h
  split at h'
  · cases h'
    exact ⟨_, _, rfl, switchWord_row _⟩
  · cases h'

theorem Encoding.bcc (cc : Cond) (imm : BitVec 19) : Encoding.Statement (.bcc cc imm) := by
  intro w h
  cases h
  exact ⟨_, _, rfl, bccWord_row _ _⟩

theorem Encoding.mov (cc : Cond) (d s : Reg) : Encoding.Statement (.mov cc d s) := by
  intro w h
  cases h
  exact ⟨_, _, rfl, moveWord_row _ _ _ _⟩

theorem Encoding.swap (cc : Cond) (a b : Reg) : Encoding.Statement (.swap cc a b) := by
  intro w h
  cases h
  exact ⟨_, _, rfl, moveWord_row _ _ _ _⟩

theorem Encoding.movImm (cc : Cond) (d : Reg) (imm : Word) : Encoding.Statement (.movImm cc d imm) := by
  intro w h
  cases h

theorem Encoding.getb (x : MemArgs) : Encoding.Statement (.getb x) := by
  intro w h
  cases h

theorem Encoding.getw (x : MemArgs) : Encoding.Statement (.getw x) := by
  intro w h
  cases h

theorem Encoding.getd (x : MemArgs) : Encoding.Statement (.getd x) := by
  intro w h
  cases h

theorem Encoding.getl (x : PairArgs) : Encoding.Statement (.getl x) := by
  intro w h
  cases h

theorem Encoding.setb (x : MemArgs) : Encoding.Statement (.setb x) := by
  intro w h
  cases h

theorem Encoding.setw (x : MemArgs) : Encoding.Statement (.setw x) := by
  intro w h
  cases h

theorem Encoding.setd (x : MemArgs) : Encoding.Statement (.setd x) := by
  intro w h
  cases h

theorem Encoding.setl (x : PairArgs) : Encoding.Statement (.setl x) := by
  intro w h
  cases h

theorem Encoding.mgetd (base : Reg) (regs : List Reg) : Encoding.Statement (.mgetd base regs) := by
  intro w h
  cases h

theorem Encoding.mgetl (base : Reg) (regs : List (Reg × Reg)) : Encoding.Statement (.mgetl base regs) := by
  intro w h
  cases h

theorem Encoding.msetd (base : Reg) (regs : List Reg) : Encoding.Statement (.msetd base regs) := by
  intro w h
  cases h

theorem Encoding.msetl (base : Reg) (regs : List (Reg × Reg)) : Encoding.Statement (.msetl base regs) := by
  intro w h
  cases h

theorem Encoding.memToMem : Encoding.Statement .memToMem := by
  intro w h
  cases h

theorem Encoding.movRa (cc : Cond) (s : Reg) : Encoding.Statement (.movRa cc s) := by
  intro w h
  cases h
  exact ⟨_, _, rfl, moveWord_row _ _ _ _⟩

theorem Encoding.movRapf (cc : Cond) (s : Reg) : Encoding.Statement (.movRapf cc s) := by
  intro w h
  cases h
  exact ⟨_, _, rfl, moveWord_row _ _ _ _⟩

theorem Encoding.movRabz (cc : Cond) (s : Reg) : Encoding.Statement (.movRabz cc s) := by
  intro w h
  cases h
  exact ⟨_, _, rfl, moveWord_row _ _ _ _⟩

theorem Encoding.movRawz (cc : Cond) (s : Reg) : Encoding.Statement (.movRawz cc s) := by
  intro w h
  cases h
  exact ⟨_, _, rfl, moveWord_row _ _ _ _⟩

theorem Encoding.movRadz (cc : Cond) (s : Reg) : Encoding.Statement (.movRadz cc s) := by
  intro w h
  cases h
  exact ⟨_, _, rfl, moveWord_row _ _ _ _⟩

theorem Encoding.movRabx (cc : Cond) (s : Reg) : Encoding.Statement (.movRabx cc s) := by
  intro w h
  cases h
  exact ⟨_, _, rfl, moveWord_row _ _ _ _⟩

theorem Encoding.movRawx (cc : Cond) (s : Reg) : Encoding.Statement (.movRawx cc s) := by
  intro w h
  cases h
  exact ⟨_, _, rfl, moveWord_row _ _ _ _⟩

theorem Encoding.movRadx (cc : Cond) (s : Reg) : Encoding.Statement (.movRadx cc s) := by
  intro w h
  cases h
  exact ⟨_, _, rfl, moveWord_row _ _ _ _⟩

theorem Encoding.movRam8x (cc : Cond) (s : Reg) : Encoding.Statement (.movRam8x cc s) := by
  intro w h
  cases h
  exact ⟨_, _, rfl, moveWord_row _ _ _ _⟩

theorem Encoding.movRam16x (cc : Cond) (s : Reg) : Encoding.Statement (.movRam16x cc s) := by
  intro w h
  cases h
  exact ⟨_, _, rfl, moveWord_row _ _ _ _⟩

theorem Encoding.movRam8x32 (cc : Cond) (s : Reg) : Encoding.Statement (.movRam8x32 cc s) := by
  intro w h
  cases h
  exact ⟨_, _, rfl, moveWord_row _ _ _ _⟩

theorem Encoding.movRd (cc : Cond) (d : RdDest) : Encoding.Statement (.movRd cc d) := by
  intro w h
  cases d <;> cases h
  exact ⟨_, _, rfl, moveWord_row _ _ _ _⟩

theorem Encoding.xfr : Encoding.Statement .xfr := by
  intro w h
  cases h

theorem Encoding.coprocRead (p : Fin 8) (ra : Reg) (rb : Option Reg) : Encoding.Statement (.coprocRead p ra rb) := by
  intro w h
  cases h

theorem Encoding.coprocWrite (p : Fin 8) (ra : Reg) (rb : Option Reg) : Encoding.Statement (.coprocWrite p ra rb) := by
  intro w h
  cases h

theorem Encoding.add (x : AluArgs) : Encoding.Statement (.add x) := by
  intro w h
  cases h

theorem Encoding.sub (x : AluArgs) : Encoding.Statement (.sub x) := by
  intro w h
  cases h

theorem Encoding.and (x : AluArgs) : Encoding.Statement (.and x) := by
  intro w h
  cases h

theorem Encoding.or (x : AluArgs) : Encoding.Statement (.or x) := by
  intro w h
  cases h

theorem Encoding.xor (x : AluArgs) : Encoding.Statement (.xor x) := by
  intro w h
  cases h

theorem Encoding.lsl (x : AluArgs) : Encoding.Statement (.lsl x) := by
  intro w h
  cases h

theorem Encoding.lsr (x : AluArgs) : Encoding.Statement (.lsr x) := by
  intro w h
  cases h

theorem Encoding.asr (x : AluArgs) : Encoding.Statement (.asr x) := by
  intro w h
  cases h

theorem Encoding.mulw (x : AluArgs) : Encoding.Statement (.mulw x) := by
  intro w h
  cases h

theorem Encoding.muld (x : AluArgs) : Encoding.Statement (.muld x) := by
  intro w h
  cases h

theorem Encoding.tst (x : TestArgs) : Encoding.Statement (.tst x) := by
  intro w h
  cases h

theorem Encoding.cmp (x : TestArgs) : Encoding.Statement (.cmp x) := by
  intro w h
  cases h

theorem Encoding.auAdd (x : AuArgs) : Encoding.Statement (.auAdd x) := by
  intro w h
  cases h

theorem Encoding.auSub (x : AuArgs) : Encoding.Statement (.auSub x) := by
  intro w h
  cases h

theorem Encoding.callr (d : Reg) (imm : Word) : Encoding.Statement (.callr d imm) := by
  intro w h
  cases h

theorem Encoding.jump (b : Reg) (off : Word) : Encoding.Statement (.jump b off) := by
  intro w h
  cases h

theorem Encoding.call (d b : Reg) (off : Word) : Encoding.Statement (.call d b off) := by
  intro w h
  cases h

theorem Encoding.movPc (cc : Cond) (s : Reg) : Encoding.Statement (.movPc cc s) := by
  intro w h
  cases h
  exact ⟨_, _, rfl, moveWord_row _ _ _ _⟩

theorem Encoding.repeatForm (i : Instr) : Encoding.Statement (.repeatForm i) := by
  intro w h
  cases h

theorem Encoding.hardwareLoop : Encoding.Statement .hardwareLoop := by
  intro w h
  cases h

theorem Encoding.lnkgetd (d b : Reg) : Encoding.Statement (.lnkgetd d b) := by
  intro w h
  cases h

theorem Encoding.lnkgetl (ra rb b : Reg) : Encoding.Statement (.lnkgetl ra rb b) := by
  intro w h
  cases h

theorem Encoding.lnksetd (cc : Cond) (b s : Reg) : Encoding.Statement (.lnksetd cc b s) := by
  intro w h
  cases h

theorem Encoding.lnksetl (cc : Cond) (b ra rb : Reg) : Encoding.Statement (.lnksetl cc b ra rb) := by
  intro w h
  cases h

theorem Encoding.defrTxstat (d : Reg) : Encoding.Statement (.defrTxstat d) := by
  intro w h
  cases h

theorem Encoding.defrTxpoll (d : Reg) : Encoding.Statement (.defrTxpoll d) := by
  intro w h
  cases h

theorem Encoding.defrTxstati (d : Reg) : Encoding.Statement (.defrTxstati d) := by
  intro w h
  cases h

theorem Encoding.defrTxpolli (d : Reg) : Encoding.Statement (.defrTxpolli d) := by
  intro w h
  cases h

theorem Encoding.cacherl (side : CacheSide) (ra rb b : Reg) : Encoding.Statement (.cacherl side ra rb b) := by
  intro w h
  cases h

theorem Encoding.dcache (b : Reg) : Encoding.Statement (.dcache b) := by
  intro w h
  cases h

theorem Encoding.cachew (b s : Reg) : Encoding.Statement (.cachew b s) := by
  intro w h
  cases h

theorem Encoding.icache (base : AuSrc) (off : Word) (lines : Nat) : Encoding.Statement (.icache base off lines) := by
  intro w h
  cases h

end Sys2Proof.Laws
end

