-- ==== Sys2Proof/Laws/Stores.lean ====
section
/-! SUPPORT. A store changes no byte of memory outside its place, and outside what the write combiners held. -/

namespace Sys2Proof.Machine

/-- No write combiner differs. -/
def SameCombiners (s0 s : State) : Prop := ∀ t, (s.th t).h.wc = (s0.th t).h.wc

theorem SameCombiners.modH {s0 s : State} {t f} (h : SameCombiners s0 s) (hf : (f (s.th t).h).wc = (s.th t).h.wc) : SameCombiners s0 (s.modH t f) := by
  intro u; rw [← h u, State.h_modH]; split
  · rename_i e; subst e; exact hf
  · rfl

theorem wc_physRead (s0) (a i pa n) : Keeps (SameCombiners s0) (Machine.physRead a i pa n) := by
  unfold Machine.physRead Machine.oweBusError
  repeat' first
    | with_reducible exact Keeps.pure _
    | with_reducible exact Keeps.view _
    | (with_reducible refine Keeps.drawFree ?_); exact fun _ hs => hs
    | (with_reducible refine Keeps.update ?_); exact fun _ hs => hs
    | with_reducible refine Keeps.bind ?_ (fun _ => ?_)
    | split

theorem wc_walkEntry (s0) (a : Acc) (side : CacheSide) (b : Bool) (x la m : Word) : Keeps (SameCombiners s0) (Machine.walkEntry a side b x la m) := by
  unfold Machine.walkEntry
  repeat' first
    | with_reducible exact Keeps.pure _
    | with_reducible exact Keeps.view _
    | with_reducible exact wc_physRead _ _ _ _ _
    | (with_reducible refine Keeps.update ?_); exact fun _ hs => SameCombiners.modH hs (by cases side <;> rfl)
    | with_reducible refine Keeps.bind ?_ (fun _ => ?_)
    | split
    | dsimp only

theorem wc_walk (s0) (a : Acc) (side : CacheSide) (la : Word) : Keeps (SameCombiners s0) (Machine.walk a side la) := by
  unfold Machine.walk
  repeat' first
    | with_reducible exact Keeps.pure _
    | with_reducible exact Keeps.view _
    | with_reducible exact Closed.firstLevelAddr _ _
    | with_reducible exact wc_walkEntry _ _ _ _ _ _ _
    | with_reducible refine Keeps.bind ?_ (fun _ => ?_)
    | split

theorem wc_translate (s0) (a : Acc) (la : Word) (k : Kind) : Keeps (SameCombiners s0) (Machine.translate a la k) := by
  unfold Machine.translate Machine.translateRange
  repeat' first
    | with_reducible exact Keeps.pure _
    | with_reducible exact Keeps.view _
    | with_reducible exact wc_walk _ _ _ _
    | with_reducible refine Keeps.bind ?_ (fun _ => ?_)
    | split

theorem wc_readReg (s0) (t : Tid) (pc : Word) (r : Reg) : Keeps (SameCombiners s0) (Machine.readReg t pc r) := by
  unfold Machine.readReg Machine.trRead
  have hp : Keeps (SameCombiners s0) (popRead t) := by
    intro s hs
    unfold popRead
    split
    · split <;> exact hs
    · intro u; rw [← hs u]; simp only [endState, State.setRp, State.th_modTh]; split <;> rfl
  have hb : ∀ l, Keeps (SameCombiners s0) (blockingRead t l) := by
    intro l s hs
    unfold blockingRead
    split
    · exact hs
    · split
      · exact hs
      · intro u; rw [← hs u]; simp only [endState, State.passTriggerRead]
        split
        · rfl
        · (repeat' split) <;> simp [State.takeKick, State.setIrqEnc]
  repeat' first
    | with_reducible exact Keeps.pure _
    | with_reducible exact Keeps.view _
    | with_reducible exact Keeps.refuse _
    | with_reducible exact hp
    | with_reducible exact hb _
    | with_reducible refine Keeps.bind ?_ (fun _ => ?_)
    | split

/-- `SameOutside` with the changed state last, for the rules of `Keeps`. -/
abbrev Out (s0 : State) (x : Place) (n : Nat) (s : State) : Prop := SameOutside s0 s x n

theorem Out.of_env {s0 x n} {s s' : State} (h : Out s0 x n s) (e : s'.env.phys = s.env.phys ∧ s'.env.coreCode = s.env.coreCode ∧ s'.env.coreData = s.env.coreData) : Out s0 x n s' := by
  intro p; have := h p; rw [e.1, e.2.1, e.2.2]; exact this

/-- Everything that writes no memory keeps `Out`. -/
theorem out_closed (s0 : State) (x : Place) (n : Nat) : Closed (Out s0 x n) (fun _ _ => True) False where
  pcs := fun s u v w hs => hs
  setReg := fun s u r v _ hs => hs.of_env (by simp)
  ct := fun s u f _ hs => hs
  enable := fun s u b _ hs => hs
  tr := fun s u f _ hs => hs
  mm := fun s u f _ hs => hs
  hid := fun s u f _ hs => hs
  hidAll := fun s f _ hs => hs
  goOff := fun s u b hs => hs
  goOn := fun s u x _ hs => hs
  shared := fun s f _ hs => hs
  lock0 := fun s u hs => hs
  lock1 := fun s u _ hs => hs
  lock2 := fun s u _ hs => hs
  core := fun s f _ hs => hs
  env := fun s f hf hs => hs.of_env ⟨hf.1, hf.2.1, hf.2.2.1⟩
  mem := fun h => h.elim

theorem out_rp (s0 x n) : RpClosed (Out s0 x n) := fun _ _ _ _ h => h

theorem out_store {s0 : State} {x n} {s : State} (hs : Out s0 x n s) {pa : Word} {k v} (hk : ∀ p, pa.toNat ≤ p → p < pa.toNat + k → (∃ a, x = .phys a ∧ a ≤ p ∧ p < a + n) ∨ s0.combined p) : Out s0 x n (s.physStore pa k v) := by
  intro p
  obtain ⟨h1, h2, h3⟩ := hs p
  refine ⟨fun hx hc => ?_, h2, h3⟩
  rw [← h1 hx hc]
  show (Memory.writeN s.env.phys pa.toNat v k).read p = _
  apply Memory.read_writeN_outside
  by_contra hn
  rcases hk p (by omega) (by omega) with ⟨a, ha, hb⟩ | h
  · have := hx a ha; omega
  · exact hc h

theorem out_physWrite {s0 : State} {x n} {s : State} (hs : Out s0 x n s) {a} {pa : Word} {k v} (hk : ∀ p, pa.toNat ≤ p → p < pa.toNat + k → (∃ a, x = .phys a ∧ a ≤ p ∧ p < a + n) ∨ s0.combined p) : Out s0 x n (s.physWrite a pa k v) := by
  have owed : ∀ k, Out s0 x n (s.oweToken k) := fun _ => hs
  unfold State.physWrite
  exact ite_keeps (out_store hs hk) (ite_keeps hs (owed _))

/-- Every byte a write combiner holds is one that a combiner of the first state held. -/
def CombinersWithin (s0 s : State) : Prop := ∀ t, ∀ c ∈ (s.th t).h.wc, s0.combined (BitVec.ofNat 32 c.1).toNat

theorem CombinersWithin.of_wc {s0 s1 s} (h : CombinersWithin s0 s1) (hw : SameCombiners s1 s) : CombinersWithin s0 s := by
  intro t c hc; rw [hw t] at hc; exact h t c hc
theorem CombinersWithin.self (s0) : CombinersWithin s0 s0 := fun t c hc => ⟨t, c, hc, rfl⟩

theorem sub_physWrite {s0 s a pa n v} (h : CombinersWithin s0 s) : CombinersWithin s0 (s.physWrite a pa n v) := by
  have stored : CombinersWithin s0 (s.physStore pa n v) := fun t c hc =>
    h t c (by simpa [State.physStore, State.clearMonitors, State.th, State.modEnv] using hc)
  have owed : ∀ k, CombinersWithin s0 (s.oweToken k) := fun _ => h
  unfold State.physWrite
  exact ite_keeps stored (ite_keeps h (owed _))

theorem wc_cacheUpdate (s : State) (p : Part) (pa n v) : SameCombiners s (s.cacheUpdate p pa n v) := by
  intro u
  unfold State.cacheUpdate State.setLines
  split
  · cases p with
    | loc t => exact SameCombiners.modH (s0 := s) (fun _ => rfl) rfl u
    | glob t => rfl
  · rfl

/-- A thread's combined bytes sent out: no byte outside them changes, and no combiner gains one. -/
theorem both_drain {s0 : State} {x n} {s : State} (t : Tid) (hs : Out s0 x n s ∧ CombinersWithin s0 s) :
    Out s0 x n (s.drain t) ∧ CombinersWithin s0 (s.drain t) := by
  refine List.foldlRecOn (motive := fun q => Out s0 x n q ∧ CombinersWithin s0 q) _ _ ⟨hs.1, fun u c hc => ?_⟩ fun q hq c mem => ?_
  · rw [State.h_modH] at hc
    split at hc
    · cases hc
    · exact hs.2 u c hc
  · refine ⟨(out_closed s0 x n).cacheUpdate _ _ _ _ (out_physWrite hq.1 fun p low high => .inr ?_),
      (sub_physWrite hq.2).of_wc (wc_cacheUpdate _ _ _ _ _)⟩
    have e : p = (BitVec.ofNat 32 c.1).toNat := by omega
    exact e ▸ hs.2 t c mem

theorem out_drain {s0 : State} {x n} {s : State} (t) (hs : Out s0 x n s) (hc : CombinersWithin s0 s) : Out s0 x n (s.drain t) :=
  (both_drain t ⟨hs, hc⟩).1

theorem out_drainAll {s0 x n s} (hs : Out s0 x n s) (h : CombinersWithin s0 s) : Out s0 x n s.drainAll :=
  (List.foldlRecOn (motive := fun q => Out s0 x n q ∧ CombinersWithin s0 q) _ _ ⟨hs, h⟩ fun _ hq t _ => both_drain t hq).1

theorem out_flush {s0 : State} {x n} {s : State} {t pa k} (hs : Out s0 x n s) (h : CombinersWithin s0 s) : Out s0 x n (s.flushOverlap t pa k) :=
  ite_keeps (out_drain t hs h) hs

theorem out_sendWrite {s0 : State} {x n} {s : State} {a} {pa : Word} {k v} (hs : Out s0 x n s) (h : CombinersWithin s0 s) (hx : x = .phys pa.toNat) (hk : k = n) : Out s0 x n (s.sendWrite a pa k v) :=
  out_physWrite (ite_keeps hs (out_flush hs h)) fun _ low high => .inl ⟨_, hx, low, by omega⟩

theorem out_dataWrite {s0 : State} {x n} {s : State} {a : Acc} {y : Attr} {k v} (hs : Out s0 x n s) (h : CombinersWithin s0 s) (hx : x = .phys y.pa.toNat) (hk : k = n) : Out s0 x n (s.dataWrite a y k v) := by
  unfold State.dataWrite
  have sent := out_sendWrite (a := a) (v := v) hs h hx hk
  have held : Out s0 x n (s.combine a.tid y k v) := hs
  exact ite_keeps sent ((out_closed s0 x n).cacheUpdate _ _ _ _ (ite_keeps held sent))

/-- A property of the state a sequence ends in. -/
theorem bindOut {α β} {P : State → Prop} {x : M α} {f : α → M β} {s : State} (h1 : P (endState (x s))) (h2 : ∀ a s', x s = .ok a s' → P (endState (f a s'))) : P (endState ((x >>= f) s)) := by
  rw [M.bind_run]
  exact match hx : x s, h1 with
  | .ok a s', _ => h2 a s' hx
  | .error _ _, h1 => h1

theorem out_emit {s0 x n s} (hs : Out s0 x n s) (e) : Out s0 x n (s.emit e) := hs.of_env ⟨rfl, rfl, rfl⟩
theorem out_sh {s0 x n s} (hs : Out s0 x n s) (f) : Out s0 x n (s.modShared f) := hs.of_env ⟨rfl, rfl, rfl⟩
theorem sub_sh {s0 s} (hs : CombinersWithin s0 s) (f) : CombinersWithin s0 (s.modShared f) := hs
theorem out_modH {s0 x n s} (hs : Out s0 x n s) (t f) : Out s0 x n (s.modH t f) := hs.of_env ⟨rfl, rfl, rfl⟩
theorem out_systemEvent {s0 : State} {x : Place} {n : Nat} {s : State} (t : Tid) (c : Nat) (hs : Out s0 x n s) (h : CombinersWithin s0 s) : Out s0 x n (s.systemEvent t c) := by
  unfold State.systemEvent
  exact ite_keeps (out_emit (out_sh (out_drainAll hs h) _) _) (ite_keeps (out_emit (out_drainAll (out_sh hs _) (sub_sh h _)) _) (ite_keeps (out_modH hs _ _) (ite_keeps (out_modH hs _ _) (ite_keeps (out_emit (out_drain t hs h) _) (ite_keeps (out_emit (out_drain t hs h) _) (ite_keeps hs (out_emit hs _)))))))

theorem out_eventStore {s0 : State} {x : Place} {k n : Nat} {a : Acc} {la : Word} {s : State} (hs : Out s0 x n s) (h : CombinersWithin s0 s) : Out s0 x n (endState (eventStore a la k s)) := by
  unfold eventStore
  simp only
  rw [view_bind]
  by_cases hg : s.eventGuarded a la = true
  · simp only [hg, if_true]; exact hs
  · simp only [hg, Bool.false_eq_true, if_false]
    by_cases hw : k ≠ 4 ∨ 0x04001000 ≤ la.toNat
    · simp only [hw, if_true]; exact hs
    · simp only [hw, if_false]
      rw [view_bind]
      by_cases hc : (la.toNat / 64) % 64 = 1 ∧ (!s.atomicAllowed a.tid) = true
      · simp only [hc, and_self, if_true]; exact hs
      · simp only [hc, if_false]; exact out_systemEvent _ _ hs h

theorem out_liveWrite {s0 : State} {x : Place} {a : Acc} {la : Word} {n : Nat} {v : DWord} {s : State} (hs : Out s0 x n s) (h : CombinersWithin s0 s)
   (hx : x = match regionOf la with
      | .custom => .phys la.toNat
      | .mmuTable => .phys (tableAttr (s.tableRoot la) la).pa.toNat
      | .coreCode => .coreCode (la.toNat - 0x80000000)
      | .coreData => .coreData (la.toNat - 0x82000000)
      | .directMap | .local | .global =>
        match Machine.translate a la .write s with
        | .ok (.ok x) _ => .phys x.pa.toNat
        | _ => .elsewhere
      | _ => .elsewhere) : Out s0 x n (endState (liveWrite a la n v (regionOf la) s)) := by
  have hC := out_closed s0 x n
  unfold liveWrite
  have tr : (hx : x = match Machine.translate a la .write s with
        | .ok (.ok x) _ => .phys x.pa.toNat
        | _ => .elsewhere) → Out s0 x n (endState ((do
    match ← Machine.translate a la .write with
    | .error e => return .error e
    | .ok x =>
      update fun s => s.dataWrite a x n v
      return .ok () : M (Except FReason Unit)) s)) := by
    intro hx
    refine bindOut (hC.translate a la .write s hs) ?_
    intro r s' hr
    rw [hr] at hx
    cases r with
    | error e => have := hC.translate a la .write s hs; rw [hr] at this; exact this
    | ok y =>
      have h1 := hC.translate a la .write s hs; rw [hr] at h1
      have h2 := wc_translate s a la .write s (fun _ => rfl); rw [hr] at h2
      exact out_dataWrite h1 (h.of_wc h2) hx rfl
  cases hr : regionOf la <;> rw [hr] at hx <;> simp only
  case invalid => exact hs
  case sysReserved => exact hs
  case coreCached => exact hs
  case sysEvent => exact out_eventStore hs h
  case cacheFlush => exact hC.cacheFlushStore _ _ _ s hs
  case tlbFlush => exact hC.tlbFlushStore _ _ _ s hs
  case custom =>
    exact out_sendWrite hs h hx rfl
  case expansion => exact hC.regStore _ _ _ _ s hs
  case coreRegs => exact hC.regStore _ _ _ _ s hs
  case mmuTable =>
    unfold tableStore
    rw [view_bind]
    cases permission (bitOf (s.tableRoot la).1 1) (bitOf (s.tableRoot la).1 2) Kind.write a.priv with
    | some e => exact hs
    | none => exact out_dataWrite hs h hx rfl
  case coreCode =>
    unfold coreStore; simp only [if_true]
    split
    · intro p
      obtain ⟨h1, h2, h3⟩ := hs p
      refine ⟨h1, fun hx' => ?_, h3⟩
      rw [← h2 hx']
      show (Memory.writeN s.env.coreCode _ v n).read p = _
      exact Memory.read_writeN_outside (hx' _ hx)
    · exact hs
  case coreData =>
    unfold coreStore; simp only [Bool.false_eq_true, if_false]
    split
    · intro p
      obtain ⟨h1, h2, h3⟩ := hs p
      refine ⟨h1, h2, fun hx' => ?_⟩
      rw [← h3 hx']
      show (Memory.writeN s.env.coreData _ v n).read p = _
      exact Memory.read_writeN_outside (hx' _ hx)
    · exact hs
  all_goals exact tr hx

theorem out_writeAt {s0 : State} {x : Place} {a : Acc} {la : Word} {n : Nat} {v : DWord} {s : State} (hs : Out s0 x n s) (h : CombinersWithin s0 s)
   (hx : x = match regionOf la with
      | .custom => .phys la.toNat
      | .mmuTable => .phys (tableAttr (s.tableRoot la) la).pa.toNat
      | .coreCode => .coreCode (la.toNat - 0x80000000)
      | .coreData => .coreData (la.toNat - 0x82000000)
      | .directMap | .local | .global =>
        match Machine.translate a la .write s with
        | .ok (.ok x) _ => .phys x.pa.toNat
        | _ => .elsewhere
      | _ => .elsewhere) : Out s0 x n (endState (writeAt a la n v s)) := by
  have hC := out_closed s0 x n
  unfold writeAt
  rw [view_bind]
  cases s.regionRefuses a la (regionOf la) .write
  · simp only [Bool.false_eq_true, if_false]
    rw [view_bind]
    cases rowState (regionOf la) (s.mmuMode .data)
    · exact hs
    · exact hC.openWrite s hs
    · exact out_liveWrite hs h hx
  · exact hs

/-- A write changes no byte outside its place. -/
theorem out_memWrite {s0 : State} {x : Place} {t : Tid} {la : Word} {n : Nat} {v : DWord} {s : State} (hs : Out s0 x n s) (h : CombinersWithin s0 s)
   (hx : x = s.storePlace t la n v) : Out s0 x n (endState (memWrite (s.accOf t) la n v s)) := by
  have hC := out_closed s0 x n
  unfold memWrite
  rw [view_bind]
  unfold State.storePlace at hx
  simp only at hx
  cases ha : s.aligned (s.accOf t) la n with
  | error e => exact hs
  | ok la' =>
    rw [ha] at hx
    simp only at hx ⊢
    have hw := hC.watch (s.accOf t) la' (some (n, v)) s hs
    have hwc : SameCombiners s (endState (watch (s.accOf t) la' (some (n, v)) s)) := by
      intro u; unfold watch; simp only [endState]; (repeat' split) <;> rfl
    cases hr : watch (s.accOf t) la' (some (n, v)) s with
    | error e s1 => rw [M.bind_error hr]; rw [hr] at hw; exact hw
    | ok r s1 =>
      rw [M.bind_ok hr]
      rw [hr] at hx hw hwc
      simp only at hx
      simp only [endState] at hw hwc
      split
      · exact hw
      · refine bindOut (P := Out s0 x n) ?_ ?_
        · exact out_writeAt hw (h.of_wc hwc) hx
        · intro r' s2 hr'
          have := out_writeAt (v := v) (a := s.accOf t) hw (h.of_wc hwc) hx
          rw [hr'] at this
          cases r' <;> exact this

theorem out_issue {s0 : State} {x n c body s s'} (hs : Out s0 x n s) (hb : s.runs c → Out s0 x n (endState (body (s.pcOf s.cur) s.advanced))) (h : issue c body s = .next s') : Out s0 x n s' := by
  have hC := out_closed s0 x n
  by_cases hr : s.runs c
  · exact hC.issue hs (fun _ => hb hr) h
  · by_cases h1 : splitTest (s.status s.cur) c = true
    · rw [issue_split h1] at h; cases h
    · rw [Bool.not_eq_true] at h1
      have h2 : condHolds (s.status s.cur) c = false := by simpa [State.runs, h1] using hr
      rw [issue_skipped h1 h2] at h
      exact Host.Outcome.next.inj h ▸ hC.complete _ (hC.setPc _ _ hs)

theorem out_self (s x n) : Out s x n s := fun _ => ⟨fun _ _ => rfl, fun _ => rfl, fun _ => rfl⟩

theorem out_storeValue {s0 : State} {x : Place} {t : Tid} {w : Width} {la : Word} {v : DWord} {s : State} (hs : Out s0 x (widthBytes w) s) (h : CombinersWithin s0 s)
   (hx : x = s.storePlace t la (widthBytes w) v) : Out s0 x (widthBytes w) (endState (storeValue t w la v s)) := by
  unfold storeValue
  rw [view_bind]
  refine bindOut (P := Out s0 x (widthBytes w)) (out_memWrite hs h hx) ?_
  intro r s' hr
  have := out_memWrite (v := v) hs h hx
  rw [hr] at this
  cases r <;> exact this

theorem out_afterwards {s0 x n} {a b : M Unit} {s} (ha : Out s0 x n (endState (a s))) (hb : Keeps (Out s0 x n) b) : Out s0 x n (endState (afterwards a b s)) :=
  endState_afterwards ha hb

theorem sub_adv (s : State) : CombinersWithin s s.advanced := (CombinersWithin.self s).of_wc fun t => by simp
theorem out_adv (s : State) (x n) : Out s x n s.advanced := out_self s x n

theorem endCheck {s0 x n} {t l} {f : Unit → M Unit} {s : State} (hs : Out s0 x n s) (hf : Out s0 x n (endState (f () s))) : Out s0 x n (endState ((Machine.check t l >>= f) s)) := by
  refine bindOut (P := Out s0 x n) (Closed.check t l s hs) ?_
  intro a s' h
  unfold Machine.check at h
  split at h <;> cases h
  exact hf

theorem storeBody_out {s : State} {w x v s1} (h : readReg s.cur (s.pcOf s.cur) x.r s.advanced = .ok v s1) :
   Out s (s1.storePlace s.cur (s.address s.cur x.mem) (widthBytes w) (v.setWidth 64)) (widthBytes w) (endState (storeBody w x (s.pcOf s.cur) s.advanced)) := by
  unfold storeBody
  have hC := out_closed s (s1.storePlace s.cur (s.address s.cur x.mem) (widthBytes w) (v.setWidth 64)) (widthBytes w)
  rw [me_bind, State.cur_advanced]
  refine endCheck (out_adv _ _ _) ?_
  rw [view_bind, view_bind, M.bind_ok h, State.address_advanced, State.newBase_advanced]
  have h1 := hC.readReg (out_rp _ _ _) s.cur (s.pcOf s.cur) x.r s.advanced (out_adv _ _ _)
  have h2 := wc_readReg s s.cur (s.pcOf s.cur) x.r s.advanced (fun t => by simp)
  rw [h] at h1 h2
  refine out_afterwards (out_storeValue h1 ((CombinersWithin.self s).of_wc h2) rfl) (hC.updateBase (fun _ _ => trivial) _)

theorem storePair_out {s : State} {x : PairArgs} :
   Out s (s.advanced.storePlace s.cur (s.address s.cur x.mem) 8 (joinWords (s.reg s.cur x.rb) (s.reg s.cur x.ra))) 8 (endState (storePairBody x (s.pcOf s.cur) s.advanced)) := by
  unfold storePairBody
  have hC := out_closed s (s.advanced.storePlace s.cur (s.address s.cur x.mem) 8 (joinWords (s.reg s.cur x.rb) (s.reg s.cur x.ra))) 8
  rw [me_bind, State.cur_advanced]
  refine endCheck (out_adv _ _ _) ?_
  rw [view_bind, view_bind, view_bind, State.address_advanced, State.newBase_advanced, State.reg_advanced, State.reg_advanced]
  exact out_afterwards (out_storeValue (w := .lword) (out_adv _ _ _) (sub_adv s) rfl) (hC.updateBase (fun _ _ => trivial) _)

/-- A repeating form changes what one iteration of it changes. -/
theorem repOut {s0 x n} {i : Instr} {pc} {s : State} (h : Out s0 x n (endState ((iteration i).2 pc s))) : Out s0 x n (endState (repBody i pc s)) := by
  have hC := out_closed s0 x n
  unfold repBody
  rw [me_bind]
  split
  · rename_i c imm
    refine hC.repBranch _ _ ?_
    exact (show Out s0 x n (s.jump s.cur _) from h).of_env ⟨rfl, rfl, rfl⟩
  · exact out_afterwards h (Keeps.update fun q hq => hC.repAdvance _ _ _ hq)

theorem out_linkedStore {s0 : State} {x n} {s : State} {t} {y : Attr} {k v b} (hs : Out s0 x n s) (hx : x = .phys y.pa.toNat) (hk : k = n) : Out s0 x n (s.linkedStore t y k v b) := by
  unfold State.linkedStore
  simp only
  apply ite_keeps
  · exact hs
  · apply ite_keeps
    · have stored : Out s0 x n ((s.modH t fun h => { h with mon := none }).physStore y.pa k v) := out_store hs fun _ h1 h2 => .inl ⟨_, hx, h1, by omega⟩
      exact ((out_closed s0 x n).emitIf _ _ stored).of_env ⟨rfl, rfl, rfl⟩
    · exact hs

/-- A linked write changes no byte outside its place. -/
theorem out_linkedWrite {s0 : State} {x : Place} {t : Tid} {la : Word} {n : Nat} {v : DWord} {s : State} (hs : Out s0 x n s) (h : CombinersWithin s0 s)
   (hx : x = s.storePlace t la n v) : Out s0 x n (endState (linkedWrite (s.accOf t) la n v s)) := by
  have hC := out_closed s0 x n
  unfold linkedWrite
  rw [view_bind]
  unfold State.storePlace at hx
  simp only at hx
  cases ha : s.aligned (s.accOf t) la n with
  | error e => exact hs
  | ok la' =>
    rw [ha] at hx
    simp only at hx ⊢
    have hw := hC.watch (s.accOf t) la' (some (n, v)) s hs
    have hwc : SameCombiners s (endState (watch (s.accOf t) la' (some (n, v)) s)) := by
      intro u; unfold watch; simp only [endState]; (repeat' split) <;> rfl
    cases hr : watch (s.accOf t) la' (some (n, v)) s with
    | error e s1 => rw [M.bind_error hr]; rw [hr] at hw; exact hw
    | ok r s1 =>
      rw [M.bind_ok hr]
      rw [hr] at hx hw hwc
      simp only at hx
      simp only [endState] at hw hwc
      split
      · exact hw
      · refine bindOut (P := Out s0 x n) (hC.linkedAttr _ _ _ s1 hw) ?_
        intro r' s2 hr'
        have h1 := hC.linkedAttr (s.accOf t) la' .write s1 hw
        rw [hr'] at h1
        cases r' with
        | error e => exact h1
        | ok y =>
          have hy : Machine.translate (s.accOf t) la' .write s1 = .ok (.ok y) s2 ∧ (regionOf la' = .directMap ∨ regionOf la' = .local ∨ regionOf la' = .global) := by
            unfold linkedAttr at hr'
            rw [view_bind] at hr'
            cases hq : s1.regionRefuses (s.accOf t) la' (regionOf la') .write <;> rw [hq] at hr'
            · simp only [Bool.false_eq_true, if_false] at hr'
              rw [view_bind] at hr'
              cases hq2 : rowState (regionOf la') (s1.mmuMode .data) <;> rw [hq2] at hr'
              · cases hr'
              · cases hr'
              · cases hq3 : regionOf la' <;> rw [hq3] at hr' <;> first | exact ⟨hr', by simp⟩ | cases hr'
            · cases hr'
          have hxx : x = .phys y.pa.toNat := by
            rcases hy.2 with e | e | e <;> rw [e] at hx <;> simp only [hy.1] at hx <;> exact hx
          have h2 := wc_translate s1 (s.accOf t) la' .write s1 (fun _ => rfl)
          rw [hy.1] at h2
          have hsub : CombinersWithin s0 s2 := (h.of_wc hwc).of_wc h2
          simp only
          rw [update_bind, view_bind]
          have hfo := out_flush (t := (s.accOf t).tid) (pa := y.pa) (k := n) h1 hsub
          split
          · exact out_linkedStore (s := ((s2.flushOverlap (s.accOf t).tid y.pa n).modEnv _)) hfo hxx rfl
          · exact out_linkedStore hfo hxx rfl

theorem out_linkedPut {s0 : State} {x : Place} {t : Tid} {w : Width} {la : Word} {v : DWord} {s : State} (hs : Out s0 x (widthBytes w) s) (h : CombinersWithin s0 s)
   (hx : x = (s.modH t fun h => { h with link := false }).storePlace t la (widthBytes w) v) : Out s0 x (widthBytes w) (endState (linkedPut t w la v s)) := by
  unfold linkedPut
  rw [view_bind, view_bind, update_bind]
  have hsub : CombinersWithin s0 (s.modH t fun h => { h with link := false }) := h.of_wc (SameCombiners.modH (fun _ => rfl) rfl)
  have hac : s.accOf t = (s.modH t fun h => { h with link := false }).accOf t := by simp [State.accOf, State.priv, State.status]
  split
  · rw [hac]
    have := out_linkedWrite (v := v) (s := s.modH t fun h => { h with link := false }) hs hsub hx
    refine bindOut (P := Out s0 x (widthBytes w)) this ?_
    intro r s' hr
    rw [hr] at this
    cases r <;> exact this
  · exact hs

end Sys2Proof.Machine
end

