-- ==== Sys2Proof/Laws/Transfers.lean ====
section
/-! SUPPORT. What one register operand and one transfer between a register and memory answer, and the plain data path in MMU bypass mode. -/

namespace Sys2Proof.Machine

/-! ### Register operands -/

theorem writeReg_general {t : Tid} {r : Reg} {v : Word} {s : State} (h : r.isGeneral = true) :
    writeReg t r v s = .ok () (s.setReg t r v) := by
  unfold writeReg; unfold Reg.isGeneral at h
  cases hu : r.unit <;> simp [hu] at h <;> rfl

theorem readReg_general {t : Tid} {pc : Word} {r : Reg} {s : State} (h : r.isGeneral = true) :
    readReg t pc r s = .ok (s.reg t r) s := by
  unfold readReg; unfold Reg.isGeneral at h
  cases hu : r.unit <;> simp [hu] at h <;> rfl

/-! ### Loads and stores -/

theorem loadReg_ok {t : Tid} {w : Width} {la : Word} {r : Reg} {v : DWord} {s s1 s2 : State}
    (h : memRead (s.accOf t) la (widthBytes w) s = .ok (.ok v) s1) (h2 : writeReg t r (loWord v) s1 = .ok () s2) :
    loadReg t w la r s = .ok () s2 := by
  have e : loadValue t w la r.num (destBit r.unit) (firstIsOne r) s = .ok v s1 := by
    unfold loadValue; rw [view_bind, M.bind_ok h]; rfl
  unfold loadReg
  rw [M.bind_ok e, h2]

theorem loadPair_ok {t : Tid} {la : Word} {ra rb : Reg} {v : DWord} {s s1 : State}
    (h : memRead (s.accOf t) la 8 s = .ok (.ok v) s1) :
    loadPair t la ra rb s = .ok () ((s1.setReg t ra (loWord v)).setReg t rb (hiWord v)) := by
  have e : loadValue t .lword la ra.num (destBit ra.unit ||| destBit rb.unit) (firstIsOne ra) s = .ok v s1 := by
    unfold loadValue; rw [view_bind, show widthBytes .lword = 8 from rfl, M.bind_ok h]; rfl
  unfold loadPair
  rw [M.bind_ok e]; rfl

theorem storeValue_ok {t : Tid} {w : Width} {la : Word} {v : DWord} {s s1 : State}
    (h : memWrite (s.accOf t) la (widthBytes w) v s = .ok (.ok ()) s1) : storeValue t w la v s = .ok () s1 := by
  unfold storeValue; rw [view_bind, M.bind_ok h]; rfl

/-- A load whose access is not performed. -/
theorem loadReg_late {t : Tid} {w : Width} {la : Word} {r : Reg} {f : Failed} {s s1 : State}
    (h : memRead (s.accOf t) la (widthBytes w) s = .ok (.error f) s1) :
    loadReg t w la r s = .error (.late (.data f.exc (.load w f.la r.num (destBit r.unit) false (firstIsOne r)))) s1 := by
  have e : loadValue t w la r.num (destBit r.unit) (firstIsOne r) s =
      .error (.late (.data f.exc (.load w f.la r.num (destBit r.unit) false (firstIsOne r)))) s1 := by
    unfold loadValue; rw [view_bind, M.bind_ok h]; rfl
  unfold loadReg
  rw [M.bind_error e]

/-- A store whose access is not performed. -/
theorem storeValue_late {t : Tid} {w : Width} {la : Word} {v : DWord} {f : Failed} {s s1 : State}
    (h : memWrite (s.accOf t) la (widthBytes w) v s = .ok (.error f) s1) :
    storeValue t w la v s = .error (.late (.data f.exc (.store w f.la v))) s1 := by
  unfold storeValue; rw [view_bind, M.bind_ok h]; rfl

/-! ### The data path -/

/-- An access that no watchpoint matches counts no hit. -/
theorem watch_none {s : State} {t : Tid} {la : Word} {w : Option (Nat × DWord)} (h : s.unwatched t la w) :
    watch (s.accOf t) la w s = .ok (0#2, false) s := by
  have h0 := h 0
  have h1 := h 1
  unfold watch
  simp only [h0, h1]; rfl

theorem aligned_ok {s : State} {a : Acc} {la : Word} {n : Nat} (h : la.toNat % n = 0) : s.aligned a la n = .ok la := by
  unfold State.aligned; simp [h]

/-- No privilege check by address stops an access to the local and global ranges or to core data memory. -/
theorem regionRefuses_plain {s : State} {t : Tid} {la : Word} {r : Region} {k : Kind} (h : r = .local ∨ r = .global ∨ r = .coreData) :
    s.regionRefuses (s.accOf t) la r k = false := by
  unfold State.regionRefuses
  rcases h with rfl | rfl | rfl <;> simp [privSysrRefuses, pioRegRefuses]

/-- In MMU bypass mode the linear address is the physical one (21_mmu_cache.md R330). -/
theorem translate_bypass {s : State} {a : Acc} {la : Word} {k : Kind} (hr : regionOf la = .local ∨ regionOf la = .global)
    (hm : s.mmuMode k.side = .bypass) :
    Machine.translate a la k s = .ok (.ok ⟨la, 0#2, false, regionOf la == .global, false⟩) s := by
  have e : Machine.translate a la k s = translateRange a la k s := by
    unfold Machine.translate; rcases hr with h | h <;> simp [h]
  rw [e]
  unfold translateRange
  rw [view_bind, hm]; rfl

theorem linkedAttr_bypass {s : State} {t : Tid} {la : Word} {k : Kind} (hk : k.side = .data)
    (hr : regionOf la = .local ∨ regionOf la = .global) (hm : s.mmuMode .data = .bypass) :
    linkedAttr (s.accOf t) la k s = .ok (.ok ⟨la, 0#2, false, regionOf la == .global, false⟩) s := by
  have hl : rowState (regionOf la) (s.mmuMode .data) = .live := by
    rw [hm]; rcases hr with h | h <;> rw [h] <;> rfl
  have ht := translate_bypass (a := s.accOf t) (k := k) hr (hk ▸ hm)
  unfold linkedAttr
  rw [view_bind, regionRefuses_plain (by rcases hr with h | h <;> simp [h])]
  simp only [Bool.false_eq_true, if_false]
  rw [view_bind, hl]
  simp only
  rcases hr with h | h <;> (rw [h] at ht ⊢; exact ht)

theorem physRead_backed {a : Acc} {i : Bool} {pa : Word} {n : Nat} {s : State} (h : s.backed pa n = true) :
    physRead a i pa n s = .ok (Memory.readN s.env.phys pa.toNat n) s := by
  unfold physRead; rw [view_bind]; simp [h]

/-- A buffer that holds none of the bytes leaves a value as it is. -/
theorem ByteBuf.mergeN_of_disjoint (b : ByteBuf) : ∀ (n a : Nat) (v : DWord), ByteBuf.overlaps b a n = false → n ≤ 8 →
    ByteBuf.mergeN b a v n = zextBytes n v := by
  intro n
  induction n with
  | zero => intro a v _ _; unfold ByteBuf.mergeN zextBytes; ext; simp
  | succ n ih =>
    intro a v h hn
    have h1 : ByteBuf.overlaps b (a + 1) n = false := by
      unfold ByteBuf.overlaps at *
      simp only [List.any_eq_false, Bool.and_eq_true, decide_eq_true_eq] at *
      intro x hx; have := h x hx; omega
    have h2 : ByteBuf.find b a = none := by
      unfold ByteBuf.find
      rw [Option.map_eq_none_iff, List.find?_eq_none]
      unfold ByteBuf.overlaps at h
      simp only [List.any_eq_false, Bool.and_eq_true, decide_eq_true_eq, beq_iff_eq] at *
      intro x hx; have := h x hx; omega
    unfold ByteBuf.mergeN
    simp only [h2]
    rw [ih _ _ h1 (by omega)]
    unfold zextBytes byteOf
    ext i hi
    simp
    by_cases h8 : i < 8
    · simp [h8]; omega
    · simp [h8]
      have : 8 + (i - 8) = i := by omega
      rw [this]
      by_cases hc : i - 8 < 8 * n
      · simp [hc]; omega
      · simp [hc]; omega

/-- An n-byte read has no bits above its n bytes. -/
theorem Memory.zextBytes_readN (m : Memory) (a n : Nat) : zextBytes n (m.readN a n) = m.readN a n := by
  apply BitVec.eq_of_getLsbD_eq
  intro i hi
  by_cases h : i < 8 * n
  · simp [zextBytes, h, hi]
  · rw [Memory.readN_high (by omega)]; simp [zextBytes, h]

end Sys2Proof.Machine
end

