-- ==== Sys2Proof/Tests/Slice0.lean ====
section
/-! SUPPORT. Tests: ill-formed terms refused, words decoded bit by bit, one step of each instruction, a witness for each statement with hypotheses. -/

set_option Elab.async false

open Sys2Proof Sys2Proof.Machine

namespace Sys2Proof.Tests

/-! ### Helpers -/

abbrev Out := Host.Outcome State Fault Refusal

/-- What a test looks at in a next state. -/
def sees {α : Type} (o : Out) (f : State → α) : Option α :=
  match o with
  | .next s => some (f s)
  | .fault _ | .refused _ => none

/-- The refusal a step ends in. -/
def refusalOf (o : Out) : Option Refusal :=
  match o with
  | .refused r => some r
  | .next _ | .fault _ => none

/-- The outcome is a next state. -/
def goes (o : Out) : Bool := (sees o fun _ => ()).isSome

/-- The computation ends with a value, of which `p` holds. -/
def yields {α : Type} (r : EStateM.Result Stop State α) (p : α → Bool) : Bool :=
  match r with
  | .ok v _ => p v
  | .error _ _ => false

/-- The computation stops, for a reason of which `p` holds. -/
def ends {α : Type} (r : EStateM.Result Stop State α) (p : Stop → Bool) : Bool :=
  match r with
  | .ok _ _ => false
  | .error e _ => p e

def gives {α : Type} (r : EStateM.Result Stop State α) : Bool := yields r fun _ => true
def performed {α : Type} (r : EStateM.Result Stop State (Except Failed α)) : Bool := yields r Except.isOk
def caught {α : Type} (r : EStateM.Result Stop State (Except Failed α)) : Bool := yields r fun v => !v.isOk

theorem goes_next : {o : Out} → goes o = true → ∃ s', o = .next s'
  | .next s, _ => ⟨s, rfl⟩
  | .fault _, h | .refused _, h => absurd h Bool.false_ne_true

theorem sees_next {o : Out} {p : State → Prop} [DecidablePred p] (h : sees o (fun s => decide (p s)) = some true) :
    ∃ s', o = .next s' ∧ p s' := by
  obtain ⟨s, rfl⟩ := goes_next (o := o) (by unfold goes; unfold sees at h ⊢; split at h <;> simp_all)
  exact ⟨s, rfl, of_decide_eq_true (Option.some.inj h)⟩

theorem yields_ok {α : Type} {p : α → Bool} : {r : EStateM.Result Stop State α} → yields r p = true → ∃ v s', r = .ok v s' ∧ p v = true
  | .ok v s, h => ⟨v, s, rfl, h⟩
  | .error _ _, h => absurd h Bool.false_ne_true

theorem ends_error {α : Type} {p : Stop → Bool} : {r : EStateM.Result Stop State α} → ends r p = true → ∃ e s', r = .error e s' ∧ p e = true
  | .error e s, h => ⟨e, s, rfl, h⟩
  | .ok _ _, h => absurd h Bool.false_ne_true

theorem gives_ok {α : Type} {r : EStateM.Result Stop State α} (h : gives r = true) : ∃ v s', r = .ok v s' :=
  let ⟨v, s, e, _⟩ := yields_ok h
  ⟨v, s, e⟩

theorem performed_ok {α : Type} {r : EStateM.Result Stop State (Except Failed α)} (h : performed r = true) :
    ∃ v s', r = .ok (.ok v) s' :=
  match yields_ok h with
  | ⟨.ok v, s, e, _⟩ => ⟨v, s, e⟩
  | ⟨.error _, _, _, h⟩ => absurd h Bool.false_ne_true

theorem caught_ok {α : Type} {r : EStateM.Result Stop State (Except Failed α)} (h : caught r = true) : ∃ f s', r = .ok (.error f) s' :=
  match yields_ok h with
  | ⟨.error f, s, e, _⟩ => ⟨f, s, e⟩
  | ⟨.ok _, _, _, h⟩ => absurd h Bool.false_ne_true

def isLate : Stop → Bool
  | .late _ => true
  | .exc _ | .block | .refused _ => false

def isTrap : Stop → Bool
  | .exc _ => true
  | .late _ | .block | .refused _ => false

theorem ends_late {α : Type} {r : EStateM.Result Stop State α} (h : ends r isLate = true) : ∃ e s', r = .error (.late e) s' :=
  match ends_error h with
  | ⟨.late e, s, eq, _⟩ => ⟨e, s, eq⟩
  | ⟨.exc _, _, _, h⟩ | ⟨.block, _, _, h⟩ | ⟨.refused _, _, _, h⟩ => absurd h Bool.false_ne_true

theorem ends_trap {α : Type} {r : EStateM.Result Stop State α} (h : ends r isTrap = true) : ∃ e s', r = .error (.exc e) s' :=
  match ends_error h with
  | ⟨.exc e, s, eq, _⟩ => ⟨e, s, eq⟩
  | ⟨.late _, _, _, h⟩ | ⟨.block, _, _, h⟩ | ⟨.refused _, _, _, h⟩ => absurd h Bool.false_ne_true

def D0 (n : Nat) : Reg := ⟨.d0, BitVec.ofNat 5 n⟩
def D1 (n : Nat) : Reg := ⟨.d1, BitVec.ofNat 5 n⟩
def A0 (n : Nat) : Reg := ⟨.a0, BitVec.ofNat 5 n⟩
def A1 (n : Nat) : Reg := ⟨.a1, BitVec.ofNat 5 n⟩
def CT (n : Nat) : Reg := ⟨.ct, BitVec.ofNat 5 n⟩
def TR (n : Nat) : Reg := ⟨.tr, BitVec.ofNat 5 n⟩
def PC : Reg := ⟨.pc, 0#5⟩
def PCX : Reg := ⟨.pc, 1#5⟩
def RD : Reg := ⟨.port, 0#5⟩

def z : State := State.reset
def reg (r : Reg) (s : State) : Word := s.reg 0 r
def ct (n : Nat) (s : State) : Word := s.ctRead 0 (BitVec.ofNat 5 n)
def setReg (r : Reg) (v : Word) (s : State) : State := s.setReg 0 r v
def setPc (v : Word) (s : State) : State := s.setPc 0 v
def setPcx (v : Word) (s : State) : State := s.setPcx 0 v
def setStatus (v : Word) (s : State) : State := s.setStatus 0 v
def setCt (f : Ctrl → Ctrl) (s : State) : State := s.modCt 0 f
def setTr (f : Trig → Trig) (s : State) : State := s.modTr 0 f
def privExt (v : Word) (s : State) : State := setCt (fun c => { c with txprivext := v }) s
def defr (v : Word) (s : State) : State := setCt (fun c => { c with txdefr := v }) s
def rpt (v : Word) (s : State) : State := setCt (fun c => { c with txrpt := v }) s
def masks (a b : BitVec 16) (s : State) : State := setTr (fun x => { x with mask := a, maski := b }) s
def hwtrig (v : BitVec 16) (s : State) : State := s.modShared fun x => { x with hwtrig := v }
def mem4 (a : Nat) (v : Word) (s : State) : State :=
  s.modEnv fun e => { e with phys := Memory.writeN e.phys a (v.setWidth 64) 4 }
def code4 (a : Nat) (v : Word) (s : State) : State :=
  s.modEnv fun e => { e with coreCode := Memory.writeN e.coreCode (a - 0x80000000) (v.setWidth 64) 4 }
def rd4 (a : Nat) (s : State) : Word := loWord (Memory.readN s.env.phys a 4)
def after (s : State) : List Instr → Out
  | [] => .next s
  | i :: l => match exec i s with | .next s' => after s' l | o => o
/-- Thread 1 turned on. -/
def on1 (s : State) : State :=
  s.modTh 1 fun x => { x with ct := { x.ct with enabled := true }, h := { x.h with tstate := .run } }
def asThread (t : Tid) (s : State) : State := s.modEnv fun e => { e with cur := t }
def locks (a b : Option Tid) (s : State) : State := s.modShared fun x => { x with lock1 := a, lock2 := b }

/-! ### Well-formedness: what each check refuses -/

def off0 (b : Reg) : MemMode := ⟨b, .imm 0#32, .none⟩

/-- Branches: BNV -1 is NOP's word. -/
theorem test_wf_branch : [Instr.bcc .nv 0x7FFFF#19].all (fun i => !i.wf) = true := by decide

/-- Moves: to PC, to an output port, from RD are rows of their own, a pair of RD is one register number of two units; an immediate goes to a
data or address register. -/
theorem test_wf_moves : [Instr.mov .al PC (D0 0), .mov .al ⟨.port, 16#5⟩ (D0 0), .mov .al (D0 0) RD, .movRd .al (.one PC),
    .movRd .al (.one ⟨.port, 20#5⟩), .movRd .al (.pair (D0 0) (D1 1)), .movRd .al (.pair (D0 0) (A0 0)), .movImm .al (CT 1) 0#32].all (fun i => !i.wf) = true := by decide

/-- Loads and stores: units, bases, register offsets of another unit, pairs. -/
theorem test_wf_accesses : [Instr.getb ⟨.al, RD, off0 (A0 0)⟩, .getw ⟨.al, D0 0, off0 (CT 1)⟩,
    .getd ⟨.al, D0 0, ⟨A0 0, .reg (A1 0), .none⟩⟩, .getl ⟨.al, D0 0, D0 0, off0 (A0 0)⟩, .getl ⟨.al, D0 0, D1 1, off0 (A0 0)⟩,
    .setb ⟨.al, ⟨.tt, 0#5⟩, off0 (A0 0)⟩, .setw ⟨.al, D0 0, off0 PC⟩, .setd ⟨.al, D0 0, ⟨D0 0, .reg (D1 0), .pre⟩⟩,
    .setl ⟨.al, A0 0, D1 0, off0 (A0 0)⟩, .setl ⟨.al, D0 0, D1 0, off0 PC⟩].all (fun i => !i.wf) = true := by decide

/-- Register lists: one to eight, of data and address registers or pairs. -/
theorem test_wf_lists : [Instr.mgetd (A0 0) [], .mgetd (A0 0) (List.replicate 9 (D0 0)), .mgetd (CT 1) [D0 0], .msetd (A0 0) [CT 1],
    .mgetl (A0 0) [(D0 0, D0 1)], .mgetl (A0 0) [], .msetl PC [(D0 0, D1 0)]].all (fun i => !i.wf) = true := by decide

/-- Data unit and address unit operations. -/
theorem test_wf_arithmetic : [Instr.add ⟨.al, true, A0 0, D0 0, .imm 0#32⟩, .sub ⟨.al, true, D0 0, PC, .imm 0#32⟩,
    .and ⟨.al, true, D0 0, D0 0, .reg PC⟩, .or ⟨.al, true, PC, D0 0, .imm 0#32⟩, .xor ⟨.al, true, CT 1, D0 0, .imm 0#32⟩,
    .lsl ⟨.al, true, D0 0, CT 1, .imm 0#32⟩, .lsr ⟨.al, true, D0 0, TR 4, .imm 0#32⟩, .asr ⟨.al, true, A1 0, D0 0, .imm 0#32⟩,
    .mulw ⟨.al, true, D0 0, D0 0, .reg (CT 1)⟩, .muld ⟨.al, true, RD, D0 0, .imm 0#32⟩, .tst ⟨.al, CT 1, .imm 0#32⟩,
    .cmp ⟨.al, D0 0, .reg (TR 1)⟩, .auAdd ⟨.al, D0 0, .cpc, .imm 0#32⟩, .auSub ⟨.al, A0 0, .reg (A1 0), .imm 0#32⟩].all
    (fun i => !i.wf) = true := by decide

/-- Repeating forms: of a well-formed instruction that does not repeat. -/
theorem test_wf_control : [Instr.repeatForm (.getl ⟨.al, D0 0, D0 1, off0 (A0 0)⟩), .repeatForm (.setl ⟨.al, D0 0, D0 1, off0 (A0 0)⟩),
    .repeatForm (.mov .al PC (D0 0)), .repeatForm (.add ⟨.al, false, A0 0, D0 0, .imm 0#32⟩), .repeatForm (.auAdd ⟨.al, D0 0, .cpc, .cpc⟩),
    .repeatForm (.repeatForm .nop)].all (fun i => !i.wf) = true := by decide

/-- Coprocessor, linked, deferred and cache instructions. -/
theorem test_wf_system : [Instr.coprocRead 0 (CT 1) none, .coprocWrite 7 (D0 0) (some (D0 1)), .lnkgetd (CT 1) (A0 0),
    .lnkgetl (D0 0) (D1 1) (A0 0), .lnksetd .al PC (D0 0), .lnksetl .al (A0 0) (D0 0) (A1 0), .defrTxstat (TR 0), .defrTxpoll PC,
    .defrTxstati RD, .defrTxpolli (CT 1), .cacherl .data (D0 0) (D0 1) (A0 0), .dcache PC, .cachew (A0 0) (CT 1),
    .icache (.reg (CT 1)) 0#32 1].all (fun i => !i.wf) = true := by decide

/-! ### Decoding: words written out from 30_encoding.md R426 (bits 31:24, then the fields of the pattern) -/

def decodes (w : Word) (i : Instr) : Bool :=
  match decodeWith [] w with
  | .ok j => j == i
  | .error _ => false

def rejects (tbl : List (Word × Instr)) (w : Word) (r : Reject) : Bool :=
  match decodeWith tbl w with
  | .ok _ => false
  | .error e => e == r

/-- LOCK0, LOCK1, LOCK2, RTI, NOP (95_test_vectors.md V1). -/
theorem test_decode_fixed : (decodes 0b10101000000000000000000000000000#32 .lock0 && decodes 0b10101000000000000000000000000001#32 .lock1 &&
    decodes 0b10101000000000000000000000000011#32 .lock2 && decodes 0b10100011111111111111111111111111#32 .rti &&
    decodes 0b10100000111111111111111111111110#32 .nop) = true := by decide

/-- SWITCH: AF, imm24. -/
theorem test_decode_switch : (decodes 0b10101111010001000000000000000001#32 (.switch .al 0x440001#24) &&
    decodes 0xAF000000#32 (.switch .al 0#24) && decodes 0xAFFFFFFF#32 (.switch .al 0xFFFFFF#24)) = true := by decide

/-- Bcc: A0, imm19 in 23:5, cc in 4:1, 0. -/
theorem test_decode_branches : (decodes 0b10100000111111111111111011100100#32 (.bcc .ne 0x7FFF7#19) && decodes 0xA0000000#32 (.bcc .al 0#19) &&
    decodes 0xA0000020#32 (.bcc .al 1#19) && decodes 0xA07FFFE0#32 (.bcc .al 0x3FFFF#19) &&
    decodes 0xA0800000#32 (.bcc .al 0x40000#19) && decodes 0xA0FFFFA0#32 (.bcc .al 0x7FFFD#19) &&
    decodes 0xA0FFFFDE#32 (.bcc .nv 0x7FFFE#19)) = true := by decide

/-- The sixteen conditions in the order of their codes (R427). -/
theorem test_decode_conditions : ([Cond.al, .eq, .ne, .lo, .hs, .mi, .pl, .vs, .vc, .hi, .ls, .ge, .lt, .gt, .le, .nv].zipIdx.all fun p =>
    decodes (0xA0000000#32 + BitVec.ofNat 32 (2 * p.2)) (.bcc p.1 0#19)) = true := by decide

/-- MOV: A3, s in 23:19, d in 18:14, Us in 13:10, 0, Ud in 8:5, cc in 4:1, 0 (the words of 95_test_vectors.md V1). -/
theorem test_decode_moves : (decodes 0b10100011001000000001110000100000#32 (.mov .al (D0 0) (TR 4)) &&
    decodes 0xA3001C20#32 (.mov .al (D0 0) (TR 0)) && decodes 0xA3101C20#32 (.mov .al (D0 0) (TR 2)) &&
    decodes 0xA30084E0#32 (.mov .al (TR 2) (D0 0)) && decodes 0xA30044E0#32 (.mov .al (TR 1) (D0 0)) &&
    decodes 0xA300C4E0#32 (.mov .al (TR 3) (D0 0)) && decodes 0xA3001C22#32 (.mov .eq (D0 0) (TR 0)) &&
    decodes 0xA3005C20#32 (.mov .al (D0 1) (TR 0)) && decodes 0xA3001C40#32 (.mov .al (D1 0) (TR 0)) &&
    decodes 0xA31844E0#32 (.mov .al (TR 1) (D0 3)) && decodes 0xA3001420#32 (.mov .al (D0 0) PC)) = true := by decide

/-- MOV to PC. -/
theorem test_decode_mov_pc : (decodes 0b10100011000110000000010010100000#32 (.movPc .al (D0 3)) &&
    decodes 0xA30814A0#32 (.movPc .al PCX)) = true := by decide

/-- SWAP: bit 9 set. -/
theorem test_decode_swap : (decodes 0b10100011001000000000001000100000#32 (.swap .al (D0 0) (CT 4)) &&
    decodes 0xA3208220#32 (.swap .al (D0 2) (CT 4))) = true := by decide

/-- MOV to an output port from A0.0: d is 16 to 26, Us = 3, Ud = 6. -/
theorem test_decode_ports : (decodes 0b10100011000001000000110011000000#32 (.movRa .al (A0 0)) &&
    decodes 0b10100011000001000100110011000000#32 (.movRapf .al (A0 0)) &&
    decodes 0b10100011000001001000110011000000#32 (.movRabz .al (A0 0)) &&
    decodes 0b10100011000001001100110011000000#32 (.movRawz .al (A0 0)) &&
    decodes 0b10100011000001010000110011000000#32 (.movRadz .al (A0 0)) &&
    decodes 0b10100011000001010100110011000000#32 (.movRabx .al (A0 0)) &&
    decodes 0b10100011000001011000110011000000#32 (.movRawx .al (A0 0)) &&
    decodes 0b10100011000001011100110011000000#32 (.movRadx .al (A0 0)) &&
    decodes 0b10100011000001100000110011000000#32 (.movRam8x .al (A0 0)) &&
    decodes 0b10100011000001100100110011000000#32 (.movRam16x .al (A0 0)) &&
    decodes 0b10100011000001101000110011000000#32 (.movRam8x32 .al (A0 0))) = true := by decide

/-- MOV D0.1, RD: s = 0, d = 1, Us = 6, Ud = 1. -/
theorem test_decode_mov_rd : decodes 0b10100011000000000101100000100000#32 (.movRd .al (.one (D0 1))) = true := by decide

/-- A unit number past 9, bit 0 set, and a first byte without a pattern. -/
theorem test_decode_rejects : (rejects [] 0xA3002820#32 .noSuchUnit && rejects [] 0xA3000140#32 .noSuchUnit && rejects [] 0xA3001C21#32 .unknownWord &&
    rejects [] 0xA0000001#32 .unknownWord && rejects [] 0xA8000002#32 .unknownWord && rejects [] 0x00000000#32 .unknownWord &&
    rejects [(0#32, .dcache PC)] 0#32 .illFormed) = true := by decide

def alu0 : AluArgs := ⟨.al, true, D0 0, D0 1, .imm 3#32⟩
def mem0 : MemArgs := ⟨.al, D0 0, off0 (A0 0)⟩
def pair0 : PairArgs := ⟨.al, D0 0, D1 0, off0 (A0 0)⟩

/-- One form of every row that R426 gives no word. -/
def tableForms : List Instr :=
  [.movImm .al (A0 2) 0x12345678#32, .getb mem0, .getw mem0, .getd mem0, .getl pair0, .setb mem0, .setw mem0, .setd mem0, .setl pair0,
    .mgetd (A0 0) [D0 0, D0 1], .mgetl (A0 0) [(D0 0, D1 0)], .msetd (A0 0) [D0 0], .msetl (A0 0) [(D0 0, D1 0)], .memToMem, .xfr,
    .coprocRead 1 (D0 0) none, .coprocWrite 2 (D0 0) (some (D1 0)), .add alu0, .sub alu0, .and alu0, .or alu0, .xor alu0, .lsl alu0,
    .lsr alu0, .asr alu0, .mulw alu0, .muld alu0, .tst ⟨.al, D0 0, .reg RD⟩, .cmp ⟨.al, D0 0, .imm 2#32⟩,
    .auAdd ⟨.al, A0 2, .cpc, .imm 0x20#32⟩, .auSub ⟨.al, A0 2, .reg (A0 1), .imm 1#32⟩, .callr (D1 7) 0x10#32, .jump (D0 0) 0#32,
    .call (D1 7) (D0 0) 0#32, .call ⟨.ct, 1#5⟩ (TR 4) 0#32, .repeatForm (.getd mem0), .repeatForm .lock0,
    .movRd .al (.pair (D0 0) (D1 0)), .hardwareLoop, .lnkgetd (D0 0) (A0 0), .lnkgetl (D0 0) (D1 0) (A0 0),
    .lnksetd .eq (A0 0) (D0 0), .lnksetl .al (A0 0) (D0 0) (D1 0), .defrTxstat (D0 0), .defrTxpoll (D0 0), .defrTxstati (D0 0),
    .defrTxpolli (D0 0), .cacherl .data (D0 0) (D1 0) (A0 0), .dcache (A0 0), .cachew (A0 0) (D0 0), .icache .cpc 0#32 1, .icache .cpc 0#32 0]

/-- A build's table word decodes to the form it lists (R422); it has no word of R426. -/
theorem test_decode_table : (tableForms.all fun i =>
    (match decodeWith [(1#32, i)] 1#32 with | .ok j => j == i | .error _ => false) && encode i == none) = true := by decide +kernel

/-- The same words through bytes, low byte first. -/
theorem test_decode_bytes : (decodeTableWord 32 0xA0FFFFFE = some .nop) ∧ (decodeTableWord 32 0xA3001C21 = none) ∧
    (match decodeBytes [] [0x01#8, 0x00#8, 0x00#8, 0xA8#8, 0x55#8] with | .ok (i, l) => i == .lock1 && l == [0x55#8] | _ => false) = true ∧
    (match decodeBytes [] [0x01#8, 0x00#8, 0x00#8] with | .error r => r == .truncated | _ => false) = true := by decide +kernel

/-- A word placed for the fetch is the word the next step runs (log 7): SWITCH #0 as the first instruction. -/
theorem test_placed_word_runs : sees (step (z.withFetchWord 32 0xAF000000)) (fun s => (s.pcOf 0, ct 2 s, ct 30 s)) =
    some (0x80000004#32, 0x00020000#32, 1#32) := by decide +kernel

/-! ### One step of each instruction (95_test_vectors.md part 2, and by hand from the rules) -/

def m0 : State := mem4 0x08001004 0x89ABCDEF (mem4 0x08001000 0x12345678 (setReg (A0 0) 0x08001000 z))
def at0 (off : Word) (u : Update) : MemMode := ⟨A0 0, .imm off, u⟩

/-- V2 R461: PC reads as the address of the instruction. -/
theorem test_mov_pc_reads : sees (exec (.mov .al (D0 0) PC) (setPc 0x80000010 z)) (fun s => (reg (D0 0) s, s.pcOf 0)) =
    some (0x80000010#32, 0x80000014#32) := by decide +kernel

/-- V2 R461: PCX with PToggle, unprivileged: PrivilegeViolation, HReason 10. -/
theorem test_mov_pcx_privilege : sees (exec (.mov .al (D0 0) PCX) (privExt 1 (setStatus 0 z)))
    (fun s => (ct 2 s, s.pcOf 0, ct 0 s &&& 7, s.core.hwstatmeta)) = some (0x00080000#32, 0x80000000#32, 2#32, 1#32) := by decide +kernel

/-- V4 R533. -/
theorem test_mov_to_pc : sees (exec (.movPc .al (D0 3)) (setReg (D0 3) 0x80001002 z)) (fun s => s.pcOf 0) = some 0x80001002#32 := by
  decide +kernel

/-- V2 R463. -/
theorem test_mov_immediate : sees (exec (.movImm .al (A0 2) 0x12345678) z) (reg (A0 2)) = some 0x12345678#32 := by decide +kernel

/-- V2 R462: mask bit 2 of TXMASK stays 0, TXMASKI takes all sixteen. -/
theorem test_mov_masks : sees (after (setReg (D0 0) 0xFFFFFFFF z) [.mov .al (TR 1) (D0 0), .mov .al (TR 3) (D0 0)])
    (fun s => ((s.th 0).tr.mask, (s.th 0).tr.maski)) = some (0xFFFB#16, 0xFFFF#16) := by decide +kernel

/-- V2 R477: a running thread's write keeps ISTAT and PSTAT; R42, a write to TXTACTCYC clears it before its own count. -/
theorem test_mov_control : sees (after (setReg (D0 0) 0x0001000F z) [.mov .al (CT 2) (D0 0), .mov .al (CT 30) (D0 0)])
    (fun s => (ct 2 s, ct 30 s)) = some (0x0002000F#32, 1#32) := by decide +kernel

/-- R55, C9: without an FPU only the bus error and its routing can be set. -/
theorem test_mov_txdefr : sees (exec (.mov .al (CT 20) (D0 0)) (setReg (D0 0) 0xFFFFFFFF z)) (ct 20) = some 0x00800080#32 := by decide +kernel

/-- V2 R477: TStatusPriv lets an unprivileged write change bits 4:0 only. -/
theorem test_mov_status_unprivileged : sees (exec (.mov .al (CT 2) (D0 0)) (setReg (D0 0) 0x000C000F (privExt 0x200 (setStatus 0 z)))) (ct 2) =
    some 0xF#32 := by decide +kernel

/-- V6 R622: TXMASK 0 cannot be passed; a selected trigger blocks until it comes. -/
theorem test_mov_trigger_blocks : sees (exec (.mov .al (D0 0) (TR 0)) z) (ct 2) = some 0x00060000#32 ∧
    sees (exec (.mov .al (D0 0) (TR 0)) (masks 2 0 z)) (fun s => (s.pcOf 0, (s.th 0).h.waiting)) = some (0x80000000#32, true) := by
  decide +kernel

/-- V6 R622, R626: kicks outrank the timer; an external trigger outranks kicks. -/
theorem test_mov_trigger_passes : sees (exec (.mov .al (D0 0) (TR 0)) (setTr (fun x => { x with kick := 1, timerTrig := true }) (masks 3 0 z)))
      (fun s => (reg (D0 0) s, (s.th 0).tr.kick, (s.th 0).tr.timerTrig)) = some (0x00010003#32, 0#16, true) ∧
    sees (exec (.mov .al (D0 0) (TR 0)) (hwtrig 0x10 (setTr (fun x => { x with kick := 1 }) (masks 0x13 0 z))))
      (fun s => (reg (D0 0) s, (s.th 0).tr.kick)) = some (0x00010012#32, 1#16) := by decide +kernel

/-- V6 R622: TXSTATI names the source in IRQEnc. -/
theorem test_mov_txstati : sees (exec (.mov .al (D0 0) (TR 2)) (setStatus 0x30000 (setTr (fun x => { x with haltTrig := true }) (masks 0 4 z))))
    (fun s => (reg (D0 0) s, ct 28 s)) = some (4#32, 0x02000001#32) := by decide +kernel

/-- V6 R621, R664: polls: kick count, deferred status, kicks over deferred. -/
theorem test_mov_poll : sees (exec (.mov .al (D0 0) (TR 4)) (setTr (fun x => { x with kick := 2 }) (masks 2 0 z)))
      (fun s => (reg (D0 0) s, (s.th 0).tr.kick)) = some (0x00020002#32, 2#16) ∧
    sees (exec (.mov .al (D0 0) (TR 4)) (defr 0x04800000 (masks 8 0 z))) (reg (D0 0)) = some 0x04800008#32 ∧
    sees (exec (.mov .al (D0 0) (TR 4)) (defr 0x04800000 (setTr (fun x => { x with kick := 1 }) (masks 0xA 0 z)))) (reg (D0 0)) =
      some 0x0001000A#32 := by decide +kernel

/-- V6 R624: acknowledging needs the mask bit. -/
theorem test_mov_acknowledge : sees (exec (.mov .al (TR 0) (D0 0)) (setReg (D0 0) 0x11 (hwtrig 0x10 (setTr (fun x => { x with timerTrig := true })
      (masks 0x11 0 z))))) (fun s => (s.shared.hwtrig, (s.th 0).tr.timerTrig)) = some (0#16, false) ∧
    sees (exec (.mov .al (TR 0) (D0 0)) (setReg (D0 0) 0x10 (hwtrig 0x10 (masks 1 0 z)))) (fun s => s.shared.hwtrig) = some 0x10#16 := by
  decide +kernel

/-- V2 R465. -/
theorem test_swap : sees (exec (.swap .al (D0 0) (CT 4)) (setCt (fun c => { c with txtimer := 0x123 }) (setReg (D0 0) 0xFFFFFF00 z)))
      (fun s => (reg (D0 0) s, ct 4 s)) = some (0x123#32, 0xFFFFFF00#32) ∧
    ([Instr.swap .al (CT 2) PCX, .swap .al (CT 9) (TR 0)].all fun i =>
      sees (exec i z) (fun s => (ct 2 s, s.pcOf 0)) == some (0x00060000#32, 0x80000000#32)) = true := by decide +kernel

/-- V2 R466, R274. -/
theorem test_getd : sees (exec (.getd ⟨.al, D0 0, at0 0 .none⟩) m0) (reg (D0 0)) = some 0x12345678#32 ∧
    sees (exec (.getd ⟨.al, D0 0, at0 8 .post⟩) m0) (fun s => (reg (D0 0) s, reg (A0 0) s)) = some (0x12345678#32, 0x08001008#32) := by
  decide +kernel
theorem test_getw : sees (exec (.getw ⟨.al, D0 0, at0 0 .none⟩) m0) (reg (D0 0)) = some 0x5678#32 := by decide +kernel
theorem test_getb : sees (exec (.getb ⟨.al, D0 0, at0 4 .none⟩) m0) (reg (D0 0)) = some 0xEF#32 := by decide +kernel
theorem test_getl : sees (exec (.getl ⟨.al, D0 0, D1 0, at0 0 .none⟩) m0) (fun s => (reg (D0 0) s, reg (D1 0) s)) =
    some (0x12345678#32, 0x89ABCDEF#32) := by decide +kernel

/-- V2 R468: a pre-update with a negative offset; the destination is also the base: the base update is last (log 15). -/
theorem test_get_base_updates : sees (exec (.getd ⟨.al, D0 0, at0 (-4) .pre⟩) m0) (reg (A0 0)) = some 0x08000FFC#32 ∧
    sees (exec (.getd ⟨.al, A0 0, at0 4 .post⟩) m0) (reg (A0 0)) = some 0x08001004#32 := by decide +kernel

/-- V2 R259, R656. -/
theorem test_getd_unaligned : sees (exec (.getd ⟨.al, D0 5, at0 2 .none⟩) (setStatus 0 (privExt 0x10 m0)))
      (fun s => (ct 16 s, ct 17 s, ct 2 s, s.pcOf 0)) = some (0x28024102#32, 0x08001002#32, 0x004C0000#32, 0x80000004#32) ∧
    sees (exec (.getd ⟨.al, D0 5, at0 2 .none⟩) m0) (reg (D0 5)) = some 0x12345678#32 := by decide +kernel

theorem test_setd : sees (exec (.setd ⟨.al, D0 1, at0 4 .none⟩) (setReg (D0 1) 0xAABBCCDD m0)) (fun s => (rd4 0x08001000 s, rd4 0x08001004 s)) =
    some (0x12345678#32, 0xAABBCCDD#32) := by decide +kernel
/-- V2 R467. -/
theorem test_setw : sees (exec (.setw ⟨.al, D0 1, at0 2 .none⟩) (setReg (D0 1) 0xAABBCCDD m0)) (rd4 0x08001000) = some 0xCCDD5678#32 := by
  decide +kernel
theorem test_setb : sees (exec (.setb ⟨.al, D0 1, at0 1 .none⟩) (setReg (D0 1) 0xAABBCCDD m0)) (rd4 0x08001000) = some 0x1234DD78#32 := by
  decide +kernel
theorem test_setl : sees (exec (.setl ⟨.al, D0 1, D1 1, at0 8 .pre⟩) (setReg (D0 1) 0x11223344 (setReg (D1 1) 0x55667788 m0)))
    (fun s => (rd4 0x08001008 s, rd4 0x0800100C s, reg (A0 0) s)) = some (0x11223344#32, 0x55667788#32, 0x08001008#32) := by decide +kernel

/-- A store to core data memory, and one past the fitted memory. -/
theorem test_setd_core_memory : sees (after (setReg (A0 0) 0x8200FFFC (setReg (D0 1) 0xCAFE z))
      [.setd ⟨.al, D0 1, at0 0 .none⟩, .getd ⟨.al, D0 2, at0 0 .none⟩]) (reg (D0 2)) = some 0xCAFE#32 ∧
    sees (exec (.setd ⟨.al, D0 1, at0 0 .none⟩) (setReg (A0 0) 0x82010000 z)) (fun s => ct 2 s &&& 0x003C0000) = some 0x001C0000#32 := by
  decide +kernel

/-- V2 R469: one register an issue, PC and LSM_STEP holding the progress. -/
theorem test_mgetd : sees (after m0 [.mgetd (A0 0) [D0 0, D0 1]]) (fun s => (reg (D0 0) s, reg (D0 1) s, reg (A0 0) s, s.pcOf 0, ct 2 s)) =
      some (0x12345678#32, 0#32, 0x08001004#32, 0x80000000#32, 0x00020100#32) ∧
    sees (after m0 [.mgetd (A0 0) [D0 0, D0 1], .mgetd (A0 0) [D0 0, D0 1]])
      (fun s => (reg (D0 1) s, reg (A0 0) s, s.pcOf 0, ct 2 s)) = some (0x89ABCDEF#32, 0x08001008#32, 0x80000004#32, 0x00020000#32) := by
  decide +kernel
theorem test_mgetl : sees (exec (.mgetl (A0 0) [(D1 2, D0 2)]) m0) (fun s => (reg (D1 2) s, reg (D0 2) s, reg (A0 0) s, s.pcOf 0)) =
    some (0x12345678#32, 0x89ABCDEF#32, 0x08001008#32, 0x80000004#32) := by decide +kernel
theorem test_msetd : sees (after (setReg (D0 1) 0x11 (setReg (D0 2) 0x22 m0)) [.msetd (A0 0) [D0 1, D0 2], .msetd (A0 0) [D0 1, D0 2]])
    (fun s => (rd4 0x08001000 s, rd4 0x08001004 s, reg (A0 0) s, ct 2 s)) = some (0x11#32, 0x22#32, 0x08001008#32, 0x00020000#32) := by
  decide +kernel
theorem test_msetl : sees (exec (.msetl (A0 0) [(D0 1, D1 1)]) (setReg (D0 1) 0x11 (setReg (D1 1) 0x22 m0)))
    (fun s => (rd4 0x08001000 s, rd4 0x08001004 s, reg (A0 0) s)) = some (0x11#32, 0x22#32, 0x08001008#32) := by decide +kernel

/-- Where the spec gives no effect (R470, R475, R536). -/
theorem test_refused_rows : refusalOf (exec .memToMem z) = some .memoryToMemoryTransfer ∧ refusalOf (exec .xfr z) = some .xfr ∧
    refusalOf (exec .hardwareLoop z) = some .hardwareLoop := by decide +kernel

/-- V2 R471, R472: first in, first out. -/
theorem test_mov_ra : sees (after (setReg (A0 1) 0x08001004 m0) [.movRa .al (A0 0), .movRa .al (A0 1), .movRd .al (.one (D0 0))])
    (fun s => (reg (D0 0) s, ct 28 s)) = some (0x12345678#32, 0x00010001#32) := by decide +kernel

/-- V2 R472: an empty pipeline; a pair takes the 64 bits of an entry. -/
theorem test_mov_rd : sees (exec (.movRd .al (.one (D0 0))) z) (fun s => (ct 2 s, s.pcOf 0)) = some (0x00060000#32, 0x80000000#32) ∧
    sees (exec (.movRd .al (.one (D0 0))) (z.setRpDirty 0 true)) (fun s => (reg (D0 0) s, s.pcOf 0)) = some (0#32, 0x80000004#32) ∧
    sees (exec (.movRd .al (.pair (D1 3) (D0 3))) (z.setRp 0 [⟨0, .ra, 0x1122334455667788⟩])) (fun s => (reg (D1 3) s, reg (D0 3) s)) =
      some (0x55667788#32, 0x11223344#32) := by decide +kernel

/-- A read through one port and the move from RD. -/
def through (i : Instr) (w : Word) : Option Word := sees (after (mem4 0x08001000 w m0) [i, .movRd .al (.one (D0 0))]) (reg (D0 0))
/-- V2 R473. -/
theorem test_mov_rabz : through (.movRabz .al (A0 0)) 0x80 = some 0x00000080#32 := by decide +kernel
theorem test_mov_rabx : through (.movRabx .al (A0 0)) 0x80 = some 0xFFFFFF80#32 := by decide +kernel
theorem test_mov_rawz : through (.movRawz .al (A0 0)) 0x8001 = some 0x00008001#32 := by decide +kernel
theorem test_mov_rawx : through (.movRawx .al (A0 0)) 0x8001 = some 0xFFFF8001#32 := by decide +kernel
theorem test_mov_radz : through (.movRadz .al (A0 0)) 0x80000001 = some 0x80000001#32 := by decide +kernel
theorem test_mov_radx : through (.movRadx .al (A0 0)) 0x80000001 = some 0x80000001#32 := by decide +kernel
theorem test_mov_rapf : sees (exec (.movRapf .al (A0 0)) m0) (fun s => ((s.th 0).h.pf, s.pcOf 0)) =
    some (some ⟨0x08001000 / 64, false, false⟩, 0x80000004#32) := by decide +kernel

/-- R473: a GP thread has no MX port. -/
theorem test_mov_mx_ports : [Instr.movRam8x .al (A0 0), .movRam16x .al (A0 0), .movRam8x32 .al (A0 0)].all
    (fun i => sees (exec i m0) (fun s => (ct 2 s, s.pcOf 0)) == some (0x00060000#32, 0x80000000#32)) = true := by decide +kernel

/-- R476: a read takes the oldest value, a write goes out, an empty port waits. -/
theorem test_coprocessor : sees (exec (.coprocRead 3 (D0 0) (some (D1 0))) (z.act (.coprocSupply 3 0x1122334455667788)))
      (fun s => (reg (D0 0) s, reg (D1 0) s)) = some (0x55667788#32, 0x11223344#32) ∧
    sees (exec (.coprocRead 3 (D0 0) none) z) (fun s => (s.pcOf 0, (s.th 0).h.waiting)) = some (0x80000000#32, true) := by decide +kernel
theorem test_coprocessor_write : sees (exec (.coprocWrite 7 (D0 0) none) (setReg (D0 0) 0xFFFFFFFF z)) (fun s => s.env.out) =
    some [.coproc 7 0xFFFFFFFF#64] := by decide +kernel

/-- Result and flags Z N V C of an S form (V3). -/
def alu (op : AluArgs → Instr) (a b : Word) : Option (Word × Word) :=
  sees (exec (op ⟨.al, true, D0 0, D0 1, .imm b⟩) (setReg (D0 1) a z)) fun s => (reg (D0 0) s, ct 2 s &&& 0x1F)
theorem test_add : alu .add 0xFFFFFFFE 4 = some (2#32, 1#32) ∧ alu .add 0x80000000 0x80000000 = some (0#32, 0xB#32) := by decide +kernel
theorem test_sub : alu .sub 0x7FFFFFFF 0xFFFFFFFF = some (0x80000000#32, 7#32) ∧ alu .sub 0x80000000 1 = some (0x7FFFFFFF#32, 2#32) := by
  decide +kernel
theorem test_and : alu .and 0x80000000 0xFFFFFFFF = some (0x80000000#32, 4#32) := by decide +kernel
theorem test_or : alu .or 0x00000100 0x00000001 = some (0x00000101#32, 0#32) := by decide +kernel
theorem test_xor : alu .xor 0xFFFFFFFF 0xFFFFFFFF = some (0#32, 8#32) := by decide +kernel
theorem test_lsl : alu .lsl 1 31 = some (0x80000000#32, 4#32) ∧ alu .lsl 1 32 = some (1#32, 0#32) := by decide +kernel
theorem test_lsr : alu .lsr 0x82000000 24 = some (0x82#32, 0#32) := by decide +kernel
theorem test_asr : alu .asr 0x80000000 31 = some (0xFFFFFFFF#32, 4#32) := by decide +kernel
theorem test_mulw : alu .mulw 0xFFFF0003 5 = some (0xF#32, 0#32) ∧ alu .mulw 0xFFFF 0xFFFF = some (0xFFFE0001#32, 4#32) := by decide +kernel
theorem test_muld : alu .muld 0x00010000 0x00010000 = some (0#32, 8#32) ∧ alu .muld 0xFFFFFFFF 2 = some (0xFFFFFFFE#32, 4#32) := by
  decide +kernel

/-- A false condition does nothing but advance; without S the flags stay (V3). -/
theorem test_conditional : sees (exec (.or ⟨.eq, false, D0 0, D0 0, .imm 1⟩) z) (fun s => (reg (D0 0) s, s.pcOf 0, ct 30 s)) =
      some (0#32, 0x80000004#32, 1#32) ∧
    sees (exec (.or ⟨.eq, false, D0 0, D0 0, .imm 1⟩) (setStatus 0x20008 z)) (fun s => (reg (D0 0) s, ct 2 s)) = some (1#32, 0x20008#32) := by
  decide +kernel

theorem test_tst : sees (exec (.tst ⟨.al, D0 0, .imm 1⟩) (setReg (D0 0) 0x100 z)) (ct 2) = some 0x20008#32 := by decide +kernel
theorem test_cmp : sees (exec (.cmp ⟨.al, D0 0, .imm 1⟩) z) (ct 2) = some 0x20005#32 ∧
    sees (exec (.cmp ⟨.al, D0 0, .imm 1⟩) (setReg (D0 0) 0x80000000 z)) (ct 2) = some 0x20002#32 := by decide +kernel
theorem test_au_add : sees (exec (.auAdd ⟨.al, A0 2, .cpc, .imm 0x20⟩) (setPc 0x80001000 z)) (fun s => (reg (A0 2) s, ct 2 s)) =
    some (0x80001020#32, 0x20000#32) := by decide +kernel
theorem test_au_sub : sees (exec (.auSub ⟨.al, A0 2, .reg (A0 1), .imm 1⟩) z) (reg (A0 2)) = some 0xFFFFFFFF#32 := by decide +kernel

/-- V4. -/
theorem test_bcc : sees (exec (.bcc .ne (-9)) (setPc 0x80000024 z)) (fun s => s.pcOf 0) = some 0x80000000#32 ∧
    sees (exec (.bcc .ne (-9)) (setPc 0x80000024 (setStatus 0x20008 z))) (fun s => s.pcOf 0) = some 0x80000028#32 := by decide +kernel
theorem test_nop : sees (exec .nop (setPc 0x80000100 z)) (fun s => (s.pcOf 0, ct 30 s)) = some (0x80000104#32, 1#32) := by decide +kernel
theorem test_callr : sees (exec (.callr (D1 7) 0x10) (setPc 0x80000100 z)) (fun s => (s.pcOf 0, reg (D1 7) s)) =
    some (0x80000140#32, 0x80000104#32) := by decide +kernel
theorem test_jump : sees (exec (.jump (A0 1) 8) (setReg (A0 1) 0x80000200 z)) (fun s => s.pcOf 0) = some 0x80000208#32 := by decide +kernel
/-- R532: the return address is written first, so a base that is the link register holds it. -/
theorem test_call : sees (exec (.call (D1 7) (A0 1) 8) (setReg (A0 1) 0x80000200 z)) (fun s => (s.pcOf 0, reg (D1 7) s)) =
      some (0x80000208#32, 0x80000004#32) ∧
    sees (exec (.call (A0 1) (A0 1) 8) (setReg (A0 1) 0x80000200 z)) (fun s => (s.pcOf 0, reg (A0 1) s)) =
      some (0x8000000C#32, 0x80000004#32) := by decide +kernel

def increment : Instr := .repeatForm (.add ⟨.al, false, D0 0, D0 0, .imm 1⟩)
theorem test_repeat : sees (exec increment (rpt 2 z)) (fun s => (ct 3 s, s.pcOf 0)) = some (1#32, 0x80000000#32) ∧
    sees (after (rpt 2 z) [increment, increment, increment]) (fun s => (ct 3 s, s.pcOf 0, reg (D0 0) s)) =
      some (0#32, 0x80000004#32, 3#32) := by decide +kernel
/-- R535, R469: two registers a pass, two passes: four issues, and TXRPT counts with the second of each. -/
def gather : Instr := .repeatForm (.mgetd (A0 0) [D0 0, D0 1])
theorem test_repeat_multiple : sees (after (rpt 1 m0) [gather, gather]) (fun s => (ct 3 s, s.pcOf 0, reg (A0 0) s)) =
      some (0#32, 0x80000000#32, 0x08001008#32) ∧
    sees (after (rpt 1 m0) [gather, gather, gather, gather]) (fun s => (ct 3 s, s.pcOf 0, reg (A0 0) s)) =
      some (0#32, 0x80000004#32, 0x08001010#32) := by decide +kernel
theorem test_repeat_branch : sees (exec (.repeatForm (.bcc .al (-2))) (rpt 1 (setPc 0x80000010 z))) (fun s => (ct 3 s, s.pcOf 0)) =
      some (0#32, 0x80000008#32) ∧
    sees (exec (.repeatForm (.bcc .al (-2))) (setPc 0x80000010 z)) (fun s => (ct 3 s, s.pcOf 0)) = some (0#32, 0x80000014#32) := by
  decide +kernel

theorem test_rti : sees (exec .rti (setPcx 0x80001238 (setPc 0x80000F1C (privExt 1 (setStatus 0x30000 z)))))
      (fun s => (s.pcOf 0, (s.th 0).u.pcx, ct 2 s)) = some (0x80001238#32, 0x80000F20#32, 0#32) ∧
    sees (exec .rti (setPcx 0x80000F00 (setPc 0x80000100 z))) (fun s => (s.pcOf 0, (s.th 0).u.pcx, ct 2 s)) =
      some (0x80000F00#32, 0x80000104#32, 0x20000#32) := by decide +kernel

/-- V4 R538: handled by the thread; not handled, the thread goes OFF and the B trigger out. -/
theorem test_switch : sees (exec (.switch .al 0x440001) (masks 0 4 (setPcx 0x80000F00 (setPc 0x80000200 z))))
      (fun s => (s.pcOf 0, (s.th 0).u.pcx, ct 2 s, (s.th 0).tr.haltTrig, ct 30 s)) = some (0x80000F00#32, 0x80000204#32, 0x30000#32, true, 1#32) ∧
    sees (exec (.switch .al 0x440001) (setPc 0x80000200 z)) (fun s => (s.pcOf 0, ct 2 s, ct 0 s &&& 7, s.core.hwstatmeta)) =
      some (0x80000204#32, 0x20000#32, 2#32, 1#32) := by decide +kernel
/-- V4 R538 at interrupt level: the I trigger. -/
theorem test_switch_in_handler : sees (exec (.switch .al 0x440001) (masks 0 4 (setStatus 0x30000 (setPc 0x80000200 z))))
    (fun s => (s.pcOf 0, ct 0 s &&& 7, s.core.hwstatmeta)) = some (0x80000204#32, 2#32, 2#32) := by decide +kernel

/-- V5. -/
theorem test_lock1 : sees (exec .lock1 z) (fun s => s.shared.lock1) = some (some 0) ∧
    sees (exec .lock1 (asThread 1 (on1 (locks (some 0) none z)))) (fun s => (s.shared.lock1, (s.th 1).h.waiting)) = some (some 0, true) := by
  decide +kernel
theorem test_lock2 : sees (exec .lock2 z) (fun s => (s.shared.lock1, s.shared.lock2, (on1 s).eligible 1)) = some (some 0, some 0, false) ∧
    sees (after z [.lock2, .lock1]) (fun s => (s.shared.lock1, s.shared.lock2, (on1 s).eligible 1)) = some (some 0, none, true) := by
  decide +kernel
theorem test_lock0 : sees (exec .lock0 (locks (some 0) (some 0) z)) (fun s => (s.shared.lock1, s.shared.lock2)) = some (none, none) ∧
    sees (exec .lock0 (locks (some 1) none z)) (fun s => s.shared.lock1) = some (some 1) := by decide +kernel
theorem test_lock_privilege : sees (exec .lock1 (privExt 0x4000 (setStatus 0 z))) (ct 2) = some 0x00080000#32 := by decide +kernel

/-- Thread 0 with a linked address in the global range. -/
def l0 : State := mem4 0xB0001000 0x100 (setReg (D1 1) 0xB0001000 (setReg (D0 0) 0x101 z))
theorem test_lnkgetd : sees (exec (.lnkgetd (D0 0) (D1 1)) l0) (fun s => (reg (D0 0) s, (s.th 0).h.link, (s.th 0).h.mon)) =
    some (0x100#32, true, some ⟨0xB0001000#32, 4, false⟩) := by decide +kernel
theorem test_lnkgetl : sees (exec (.lnkgetl (D0 0) (D1 0) (D1 1)) (mem4 0xB0001004 7 l0)) (fun s => (reg (D0 0) s, reg (D1 0) s, (s.th 0).h.link)) =
    some (0x100#32, 7#32, true) := by decide +kernel
/-- V5 R567, R568: with the monitor in place the write is made and a token owed; a write by another agent in between loses it. -/
theorem test_lnksetd : sees (after l0 [.lnkgetd (D0 2) (D1 1), .lnksetd .al (D1 1) (D0 0)])
      (fun s => (rd4 0xB0001000 s, s.pendingLnk 0, (s.th 0).h.link, s.env.tokens.map fun k => k.state)) =
      some (0x101#32, 1, false, [2#6]) ∧
    sees (exec (.lnksetd .al (D1 1) (D0 0)) (((l0.modH 0 fun h => { h with link := true, mon := some ⟨0xB0001000, 4, true⟩ }).act
      (.dmaWrite 0xB0001002 [0x55])))) (fun s => (rd4 0xB0001000 s, s.env.tokens.map fun k => k.state)) =
      some (0x00550100#32, [4#6]) := by decide +kernel
theorem test_lnksetl : sees (after l0 [.lnkgetl (D0 2) (D1 2) (D1 1), .lnksetl .al (D1 1) (D0 0) (D1 1)])
    (fun s => (rd4 0xB0001000 s, rd4 0xB0001004 s)) = some (0x101#32, 0xB0001000#32) := by decide +kernel

/-- V5 R571. -/
theorem test_defr_txstat : sees (exec (.defrTxstat (D1 0)) (defr 0x81800000 z)) (fun s => (reg (D1 0) s, ct 20 s)) =
      some (0x81800008#32, 0#32) ∧
    sees (after l0 [.lnkgetd (D0 2) (D1 1), .lnksetd .al (D1 1) (D0 0), .defrTxstat (D1 0)]) (fun s => (s.pcOf 0, (s.th 0).h.waiting)) =
      some (0x80000008#32, true) := by decide +kernel
theorem test_defr_txpoll : sees (exec (.defrTxpoll (D1 0)) (defr 0x02800000 z)) (fun s => (reg (D1 0) s, ct 20 s)) =
    some (0x02800008#32, 0x02800000#32) := by decide +kernel
theorem test_defr_txstati : sees (exec (.defrTxstati (D1 0)) (defr 0x02800080 z)) (fun s => (reg (D1 0) s, ct 20 s)) =
    some (0x02800008#32, 0x80#32) := by decide +kernel
theorem test_defr_txpolli : sees (exec (.defrTxpolli (D1 0)) (defr 0x02800000 z)) (reg (D1 0)) = some 0#32 := by decide +kernel

/-- MMU active: page 0x08002000 at 0x30005000, writable (V8). -/
def paged : State :=
  ((mem4 0x20000000 0x20001001 (mem4 0x20001008 0x30005003 z)).modMm 0 fun m => { m with localPhys0 := 0x08000001, localPhys1 := 0x20000000 }).modCore
    fun c => { c with mmuConfig := 7, tablePhys := 1 }
def load (a : Word) (s : State) : Out := exec (.getd ⟨.al, D0 0, at0 0 .none⟩) (setReg (A0 0) a s)
def store (a v : Word) (s : State) : Out := exec (.setd ⟨.al, D0 0, at0 0 .none⟩) (setReg (D0 0) v (setReg (A0 0) a s))

/-- V8: a mapped page read and written. -/
theorem test_translation : sees (load 0x08002004 (mem4 0x30005004 0xCAFE paged)) (reg (D0 0)) = some 0xCAFE#32 ∧
    sees (store 0x08002004 0x1234 paged) (rd4 0x30005004) = some 0x1234#32 := by decide +kernel
/-- V8, V7: a read-only page, an unprivileged access, an invalid entry, outside the table's range. -/
theorem test_translation_faults : sees (store 0x08002004 0x1234 (mem4 0x20001008 0x30005001 paged)) (ct 2) = some 0x007E0000#32 ∧
    sees (load 0x08002004 (setStatus 0 (mem4 0x20001008 0x30005007 paged))) (ct 2) = some 0x005C0000#32 ∧
    sees (load 0x08002004 (mem4 0x20001008 0 paged)) (ct 2) = some 0x006E0000#32 ∧
    sees (load 0x08400000 paged) (ct 2) = some 0x006E0000#32 := by decide +kernel
theorem test_cacherl : sees (exec (.cacherl .data (D0 0) (D1 0) (A0 0)) (setReg (A0 0) 0x08002004 paged))
    (fun s => (reg (D0 0) s &&& 0xFFFFF000, reg (D0 0) s &&& 3)) = some (0x30005000#32, 3#32) := by decide +kernel
/-- A line read into the data cache is dropped by DCACHE and by CACHEW. -/
def cacheOn : State := (mem4 0x20001008 0x300050C3 paged).modCore fun c => { c with dcacheCtrl := 1, icacheCtrl := 1 }
def cached : State := match load 0x08002004 cacheOn with | .next s => s | .fault _ | .refused _ => z
theorem test_dcache : (cached.th 0).h.dcLocal.length = 1 ∧ sees (exec (.dcache (A0 0)) cached) (fun s => (s.th 0).h.dcLocal.length) = some 0 := by
  decide +kernel
theorem test_cachew : sees (exec (.cachew (A0 0) (D0 0)) cached) (fun s => ((s.th 0).h.dcLocal.length, (s.th 0).h.tlbD.l2.length)) =
    some (0, 0) := by decide +kernel
theorem test_icache : sees (exec (.icache (.reg (A0 0)) 0 2) (setReg (A0 0) 0x08002004 cacheOn)) (fun s => (s.th 0).h.ipf.map fun q => q.line) =
    some [0x30005000 / 64, 0x30005040 / 64] := by decide +kernel

/-- Kicks by a store to TnKICK (V6 R619), the privilege of T0KICK's block and of core registers (V7 R712). -/
theorem test_kick : sees (store 0x04800800 0x30002 z) (fun s => (s.th 0).tr.kick) = some 2#16 ∧
    sees (store 0x04800800 5 (setTr (fun x => { x with kick := 0xFFFE }) z)) (fun s => (s.th 0).tr.kick) = some 0xFFFF#16 ∧
    sees (store 0x04830010 5 (setStatus 0 z)) (ct 2) = some 0x005C0000#32 := by decide +kernel

/-! ### Steps: fetch, interrupts, exceptions, replay -/

/-- V7 R633, R642. -/
theorem test_interrupt_entry : sees (step ((privExt 1 (setStatus 5 (masks 0 2 (setPcx 0x80000F00 (setPc 0x80000100 z))))).kick 0 .interrupt 1))
    (fun s => (s.pcOf 0, (s.th 0).u.pcx, ct 2 s)) = some (0x80000F00#32, 0x80000100#32, 0x00030005#32) := by decide +kernel
theorem test_fetch_faults : sees (step (setPc 0x82000000 z)) (fun s => (s.pcOf 0, ct 2 s)) = some (0x82000000#32, 0x00160000#32) ∧
    sees (step z) (fun s => (s.pcOf 0, ct 2 s)) = some (0x80000000#32, 0x00060000#32) := by decide +kernel
/-- V7: a read of the system event region. -/
theorem test_event_region_read : sees (load 0x04000100 z) (ct 2) = some 0x005E0000#32 := by decide +kernel
/-- R263, R713, U14: a byte store at the address of command 10 is the General fault of an unprivileged thread, and refused with privilege. -/
def eventByte (s : State) : Out := exec (.setb ⟨.al, D0 0, at0 0 .none⟩) (setReg (A0 0) 0x04000280 s)
theorem test_event_order : sees (eventByte (setStatus 0 z)) (fun s => bitsOf (ct 2 s) 18 4) = some 0b0111#4 ∧
    refusalOf (eventByte z) = some .eventRegion := by decide +kernel

/-- R669: a page fault handled by its own thread. -/
def faulting : State :=
  masks 0 4 (privExt 1 (setStatus 0 (setPcx 0x80000F00 (setPc 0x80000100 (setReg (A0 0) 0x08002000
    (code4 0x80000F40 0xA3FFFFFF (mem4 0x30004000 0xCAFE (mem4 0x20001008 0 paged))))))))
def atFault : Out := exec (.getd ⟨.al, D0 2, at0 0 .none⟩) faulting
theorem test_page_fault_saved : sees atFault (fun s => (ct 16 s, ct 17 s, (s.th 0).u.pcx, s.pcOf 0, ct 2 s)) =
    some (0x10020902#32, 0x08002000#32, 0x80000104#32, 0x80000F00#32, 0x006F0000#32) := by decide +kernel
/-- The handler maps the page and returns: the RTI makes the load again (R537). -/
def replayed : Out :=
  match atFault with
  | .next s => step ((setTr (fun x => { x with haltTrig := false }) (mem4 0x20001008 0x30004001 s)).setPc 0 0x80000F40)
  | o => o
theorem test_replay : sees replayed (fun s => (reg (D0 2) s, s.cbMarker 0, s.pcOf 0, (s.th 0).u.pcx)) =
    some (0xCAFE#32, false, 0x80000104#32, 0x80000F44#32) := by decide +kernel
/-- R652: a pipelined read caught, its thread turned on again: its replay meets RPDirty as it stood (R471), then RPDirty is clear. -/
theorem test_turned_on_replay : sees (step (((setCt (fun c => { c with txcatch0 := 0x00000510, txcatch1 := 0x08001000, enabled := false })
      (setStatus 0x00420000 (m0.setRpDirty 0 true))).modH 0 fun h => { h with tstate := .off }).writeEnable 0 true))
    (fun s => ((s.th 0).h.tstate, ct 2 s &&& 0x000C0000, s.rpDirty 0)) = some (.off, 0x00040000#32, false) := by decide +kernel

/-- V6 R716: the roll-over sets the trigger. -/
theorem test_timer : sees (.next ((setCt (fun c => { c with txtimer := 0xFFFFFFFF }) z).act .timerTick)) (fun s => (ct 4 s, (s.th 0).tr.timerTrig)) =
    some (0#32, true) := by decide +kernel

/-- R277: a store combined at a custom-area address is seen by the load, and goes out with the default action (R814). -/
def combining : State :=
  ((setReg (A0 0) 0x02000040 z).modH 0 fun h => { h with wc := ByteBuf.putN h.wc 0x02000040 0xBEEF 4 }).modMm 0 fun m => { m with wrComb := 0x2000 }
theorem test_custom_order : sees (exec (.getd ⟨.al, D0 0, at0 0 .none⟩) combining) (reg (D0 0)) = some 0xBEEF#32 ∧
    sees (step combining) (fun s => (s.th 0).h.wc.length) = some 0 := by decide +kernel

/-- R283: a host access is one of the selected thread, with its UnalignedFault, its write combiner and its prefetch. -/
def cored : State := { z with cfg := { z.cfg with coreDebugType := 2 } }
theorem test_host_unaligned : rd4 0x20001000 (cored.act (.hostWrite .debug 0x20001002 5)) = 5#32 ∧
    rd4 0x20001000 ((privExt 0x10 cored).act (.hostWrite .debug 0x20001002 5)) = rd4 0x20001000 cored := by decide +kernel
theorem test_host_combined : (((cored.modMm 0 fun m => { m with wrComb := 0x2000, ebwcCtrl := 7 }).modCore fun c =>
    { c with mmuConfig := 2 }).act (.hostWrite .debug 0x20001000 5) |> fun s => (s.th 0).h.wc.length) = 4 := by decide +kernel

/-- R277: a drained write reaches the line another thread filled into the shared partition meanwhile. -/
def held : State :=
  (((z.modH 0 fun h => { h with wc := ByteBuf.putN h.wc 0x90000040 0xBEEF 4, wcGlob := noteRange h.wcGlob 0x90000040 4 true }).modEnv fun e =>
    { e with dcGlobal := e.dcGlobal.set 0 [⟨0x90000040 / 64, 0, 0⟩] }).modCore fun c => { c with mmuConfig := 2, dcacheCtrl := 1 })
theorem test_drain_keeps_own_order : sees (step held) (fun s => (rd4 0x90000040 s, s.env.dcGlobal[0].map fun c => lineRead c.data 0 4)) =
    some (0xBEEF#32, [0xBEEF#64]) := by decide +kernel

/-- R568: another bus master's write clears a monitor, with EX-MODE or without; R336: the devices see the linked accesses with it. -/
theorem test_outside_write_clears : [true, false].all (fun x =>
    !(((z.modH 0 fun h => { h with mon := some ⟨0x20001000, 4, x⟩ }).dmaWrite 0x20001003 [1]).monitorHolds 0 0x20001000)) = true := by
  decide +kernel
theorem test_exclusive : [0x30005013, 0x30005003].map (fun e => sees (exec (.lnkgetd (D0 0) (A0 0)) (setReg (A0 0) 0x08002004 (mem4 0x20001008 e paged)))
    fun s => s.env.out) = [some [.exclusive 0 false 0x30005004], some []] := by decide +kernel

/-- R358: one global instruction store in every build. -/
theorem test_one_global_icache (s : State) (t u : Tid) (l : List CacheLine) :
    (s.setLines .instruction (.glob t) l).linesOf .instruction (.glob u) = l := rfl

/-! ### Witnesses: for each statement with hypotheses a concrete state and operands that meet them, clause by clause -/

def isMapped : Walk → Bool
  | .mapped _ _ _ => true
  | .firstInvalid | .secondInvalid => false

theorem isMapped_mapped : {w : Walk} → isMapped w = true → ∃ e ps pa, w = .mapped e ps pa
  | .mapped e ps pa, _ => ⟨e, ps, pa, rfl⟩
  | .firstInvalid, h | .secondInvalid, h => absurd h Bool.false_ne_true

/-- A build whose threads have the DSP extensions. -/
def dsp : State := { z with cfg := { z.cfg with caps := #v[0x0#4, 0x0#4, 0x0#4, 0x0#4] } }
/-- Thread 0 unprivileged. -/
def user : State := setStatus 0 z
/-- A NOP at the boot address. -/
def nopNext : State := code4 0x80000000 0xA0FFFFFE z
def rpEntry : RpEntry := ⟨0x08001000, .ra, 0x1122334455667788⟩

theorem test_witness_DecodeOfEncode : (Instr.bcc .nv 0x7FFFE#19).wf = true ∧ encode (.bcc .nv 0x7FFFE#19) = some 0xA0FFFFDE#32 ∧
    (Instr.switch .al 0xFFFFFF#24).wf = true ∧ encode (.switch .al 0xFFFFFF#24) = some 0xAFFFFFFF#32 ∧
    (Instr.mov .nv ⟨.fx, 31#5⟩ ⟨.fx, 31#5⟩).wf = true ∧ encode (.mov .nv ⟨.fx, 31#5⟩ ⟨.fx, 31#5⟩) = some 0xA3FFE53E#32 := by decide

theorem test_witness_EncodeOfDecode : decodeFixed 0xA0FFFFFE#32 = some (.ok .nop) ∧ decodeFixed 0xA3FFFFFF#32 = some (.ok .rti) ∧
    decodeFixed 0xA3001C20#32 = some (.ok (.mov .al (D0 0) (TR 0))) := ⟨rfl, rfl, rfl⟩

theorem test_witness_StepRunsDecodedInstruction : configLegal nopNext.cfg = true ∧ nopNext.cfg.dcacheWriteBack = false ∧
    nopNext.cfg.cacheType = 0#3 ∧ nopNext.nextAction = (.thread 0, nopNext) ∧ nopNext.eligible 0 = true ∧
    (nopNext.th 0).h.tstate ≠ .cbRestore ∧ nopNext.interruptDue 0 = false ∧ nopNext.privExt 0 7 = false := by decide +kernel

theorem test_witness_StepRunsDecodedInstruction_fetched :
    (∃ v s1, fetch 0 (nopNext.pcOf 0) (nopNext.modEnv fun e => { e with cur := 0 }) = .ok v s1 ∧
      (match v with | .ok w => decodes w .nop | .error _ => false) = true) ∧
    ∃ v s1, fetch 0 (z.pcOf 0) (z.modEnv fun e => { e with cur := 0 }) = .ok v s1 ∧
      (match v with | .ok w => rejects [] w .unknownWord | .error _ => false) = true :=
  ⟨yields_ok (by decide +kernel), yields_ok (by decide +kernel)⟩

theorem test_witness_FetchReadsMemory : (∀ m : Fin 4, bitOf z.core.codeb[m.val].ctrl 31 = false) ∧ (z.th 0).h.fetchBuf = [] ∧
    (regionOf (alignDown 0x8000FFFE 4) = .coreCode ∧ z.priv 0 = true ∧ coreMemFits z.cfg.coreCodeMemSize 0xFFFC 4 = true) ∧
    (user.priv 0 = false ∧ bitOf (user.th 0).mm.privSysr 4 = false) ∧
    (regionOf 0x08000000 = .local ∧ regionOf 0x7FFFFFFC = .local ∧ regionOf 0x88000000 = .global ∧ regionOf 0xFFFDFFFC = .global) ∧
    z.mmuMode .instruction = .bypass ∧ z.backed 0x08000000 4 = true ∧ z.backed 0xFFFDFFFC 4 = true := by decide +kernel

theorem test_witness_StepKeepsMemoryCanonical : m0.env.Ok ∧ ∃ s', step m0 = .next s' :=
  ⟨⟨by decide +kernel, by decide +kernel, by decide +kernel⟩, goes_next (by decide +kernel)⟩

theorem test_witness_StepKeepsThreadsSound : (asThread 3 (on1 nopNext)).threadsOk ∧ ∃ s', step (asThread 3 (on1 nopNext)) = .next s' :=
  ⟨fun t => by constructor <;> revert t <;> decide +kernel, goes_next (by decide +kernel)⟩

theorem test_witness_StepKeepsRegistersSound : paged.registersOk ∧ ∃ s', step paged = .next s' :=
  ⟨⟨fun t => by constructor <;> revert t <;> decide +kernel, by constructor <;> decide +kernel⟩, goes_next (by decide +kernel)⟩

theorem test_witness_StepKeepsLocksNested : (locks (some 0) (some 0) nopNext).shared.Ok ∧
    ∃ s', step (locks (some 0) (some 0) nopNext) = .next s' :=
  ⟨⟨by decide +kernel, by decide +kernel⟩, goes_next (by decide +kernel)⟩

/-- A thread turned on with CBMarker: the replay of its catch state is its next step. -/
def replaying (s : State) : State := (setStatus 0x00420000 s).modH 0 fun h => { h with tstate := .cbRestore }

/-- A thread in a handler with a catch state: an RTI makes the transfer again. The page of 0x08002000 is mapped. -/
def returning (c la lo : Word) : State :=
  setCt (fun x => { x with txcatch0 := c, txcatch1 := la, txcatch2 := lo }) (setStatus 0x00430000 (mem4 0x20001008 0x30004003 paged))
/-- A caught load of D0.2 (R669), a linked one, a pair, a store of four bytes, a pipelined read, nothing, one a watchpoint stopped. -/
def toReturn : State := returning 0x10020902 0x08002000 0
def backLinked : State := returning 0x1002090A 0x08002000 0
def backPair : State := returning 0x10060903 0x08002000 0
def backStore : State := returning 0x0000080F 0x08002000 0x55AA
def backIssue : State := returning 0x00000910 0x08002000 0
def backNone : State := returning 0 0 0
def backWatch : State := returning 0x10025102 0x08002000 0

def toReplay : State := replaying toReturn

theorem test_witness_ExecLeavesOtherRegisters : (∃ s', exec (.getl ⟨.al, D0 0, D1 0, at0 8 .post⟩) m0 = .next s') ∧
    (∃ s', exec (.movImm .al (D0 31) 7) z = .next s') ∧ (toReturn.dests .rti = [D0 2] ∧ ∃ s', exec .rti toReturn = .next s') :=
  ⟨goes_next (by decide +kernel), goes_next (by decide +kernel), by decide +kernel, goes_next (by decide +kernel)⟩

theorem test_witness_ExecStoringNothingLeavesMemory : m0.mayStore (.getd ⟨.al, D0 0, at0 0 .none⟩) = false ∧
    (∃ s', exec (.getd ⟨.al, D0 0, at0 0 .none⟩) m0 = .next s') ∧ z.mayStore .rti = false ∧ ∃ s', exec .rti z = .next s' :=
  ⟨rfl, goes_next (by decide +kernel), by decide +kernel, goes_next (by decide +kernel)⟩

/-- A base at the last word of the local range, a linked thread. -/
def atEnd : State := (setReg (A0 0) 0x7FFFFFF8 z).modH 0 fun h => { h with link := true, mon := some ⟨0x7FFFFFF8, 8, false⟩ }
def endMode : MemMode := ⟨A0 0, .imm 4, .none⟩

theorem test_witness_StoresLeaveOtherBytes : (∃ s', exec (.setd ⟨.al, D0 0, endMode⟩) atEnd = .next s') ∧
    (∃ v s1, readReg 0 (atEnd.pcOf 0) (D0 0) atEnd.advanced = .ok v s1) ∧
    (∃ s', exec (.repeatForm (.setb ⟨.al, D0 0, endMode⟩)) atEnd = .next s') ∧
    (∃ s', exec (.setw ⟨.al, RD, endMode⟩) atEnd = .next s') ∧ (∃ e s1, readReg 0 (atEnd.pcOf 0) RD atEnd.advanced = .error (.exc e) s1) ∧
    (∃ s', exec (.setl ⟨.al, D0 0, D1 0, at0 0 .none⟩) atEnd = .next s') :=
  ⟨goes_next (by decide +kernel), gives_ok (by decide +kernel), goes_next (by decide +kernel), goes_next (by decide +kernel),
    ends_trap (by decide +kernel), goes_next (by decide +kernel)⟩

theorem test_witness_StoresLeaveOtherBytes_multiple : (∃ s', exec (.msetd (A0 0) [D0 0, D0 1]) (setStatus 0x20100 atEnd) = .next s') ∧
    [D0 0, D0 1][((setStatus 0x20100 atEnd).lsmStep 0).toNat]? = some (D0 1) ∧
    (∃ s', exec (.msetl (A0 0) [(D0 0, D1 0)]) atEnd = .next s') ∧ [(D0 0, D1 0)][(atEnd.lsmStep 0).toNat]? = some (D0 0, D1 0) :=
  ⟨goes_next (by decide +kernel), by decide +kernel, goes_next (by decide +kernel), by decide +kernel⟩

theorem test_witness_StoresLeaveOtherBytes_linked : (∃ s', exec (.lnksetd .al (A0 0) (D0 0)) atEnd = .next s') ∧
    (∃ s', exec (.lnksetl .al (A0 0) (D0 0) (D1 0)) atEnd = .next s') ∧ (∃ s', exec (.lnkgetd (D0 0) (A0 0)) atEnd = .next s') ∧
    ∃ s', exec (.lnkgetl (D0 0) (D1 0) (A0 0)) atEnd = .next s' :=
  ⟨goes_next (by decide +kernel), goes_next (by decide +kernel), goes_next (by decide +kernel), goes_next (by decide +kernel)⟩

theorem test_witness_StoresLeaveOtherBytes_return : ([toReturn, backLinked, backStore, backIssue, backNone, backWatch].all fun s =>
      s.replays && goes (exec .rti s) && goes (exec (.repeatForm .rti) s)) = true ∧
    ((bitsOf 0x0000080F#32 10 5 : BitVec 5) ≠ 0#5 ∧ bitOf 0x0000080F#32 14 = false ∧ bitOf 0x0000080F#32 8 = false ∧
      widthOfLanes 0x08002000#32 (bitsOf 0x0000080F#32 0 8) = some .dword) ∧
    (bitOf 0x1002090A#32 8 = true ∧ bitOf 0x1002090A#32 14 = false ∧ bitOf 0x1002090A#32 3 = true) ∧
    (bitOf 0x10020902#32 8 = true ∧ bitOf 0x10020902#32 3 = false) ∧ (bitsOf 0x00000910#32 16 11 : BitVec 11) = 0#11 ∧
    (bitsOf 0#32 10 5 : BitVec 5) = 0#5 ∧ bitOf 0x10025102#32 14 = true := by decide +kernel

theorem test_witness_RegisterInstructionsLeaveTheRest : registerInstr (.cmp ⟨.al, D0 0, .imm 1⟩) = true ∧
    ∃ s', exec (.cmp ⟨.al, D0 0, .imm 1⟩) z = .next s' ∧ (s'.th 0).ct.txtactcyc = (z.th 0).ct.txtactcyc + 1#24 ∧
      (s'.th 0).h.tstate = (z.th 0).h.tstate ∧ s'.istat 0 = z.istat 0 := ⟨rfl, sees_next (by decide +kernel)⟩

theorem test_witness_FalseConditionOnlyAdvances : (splitTest (z.status 0) (instrCond (.bcc .eq 1)) = false ∧
    condHolds (z.status 0) (instrCond (.bcc .eq 1)) = false) ∧ splitTest ((setStatus 0x20010 z).status 0) (instrCond (.bcc .eq 1)) = true := by
  decide +kernel

theorem test_witness_CompletionCounts : z.privExt 0 2 = false ∧ (privExt 4 z).privExt 0 2 = true ∧ ((privExt 4 z).th 0).h.tstate = .run := by
  decide +kernel

/-- D0.8 and A0.4 are absent in the default build, D0.31 and A0.15 are globals (the ends of the ranges); CT.9 and TR.5 are reserved. -/
theorem test_witness_OperandStopsTrap : isCoproc (.mov .al (D0 8) (D0 0)) = false ∧ isSpecialSwap (.mov .al (CT 9) (D0 0)) = false ∧
    (splitTest (z.status 0) .al = false ∧ condHolds (z.status 0) .al = true) ∧
    z.operandStop 0 (instrUses (.mov .al (D0 8) (D0 0))) = some (.exc .unknownInstruction) ∧
    z.operandStop 0 (instrUses (.mov .al (CT 9) (D0 0))) = some (.refused .reservedControl) ∧
    dataPresent z.cfg 0 8#5 = false ∧ addrPresent z.cfg 0 4#5 = false ∧ addrPresent z.cfg 0 16#5 = false ∧
    z.operandStop 0 [rd (D0 8), rd (A0 0), wr (A1 4), wr (CT 9)] = some (.exc .unknownInstruction) ∧
    ((∀ u ∈ [rd (D0 31), wr (A0 15)], presence z.cfg 0 u = none) ∧ z.priv 0 = true) ∧
    ((∀ u ∈ [rd (D0 31), wr (A0 15)], presence z.cfg 0 u = none) ∧ user.priv 0 = false) ∧
    ((privExt 0x10000 user).operandStop 0 [rd (D0 31)] = some (.exc .privilegeViolation)) ∧
    ((privExt 0x10000 user).operandStop 0 [rd (D0 7)] = none) ∧
    (user.operandStop 0 [wr (CT 29)] = some (.exc .privilegeViolation) ∧ (privExt 0x2000 user).privExt 0 13 = true ∧
      (privExt 0x2000 user).operandStop 0 [wr (CT 31)] = some (.exc .privilegeViolation)) := by decide +kernel

/-- An absent operand behind an absent and a present one. -/
theorem test_witness_OperandStopsTrap_absent : ∀ x ∈ [rd (D0 8), rd (A0 0)], ∀ q, presence z.cfg 0 x ≠ some (.refused q) := by
  have d : presence z.cfg 0 (rd (D0 8)) = some (.exc .unknownInstruction) := by decide +kernel
  have a : presence z.cfg 0 (rd (A0 0)) = none := by decide +kernel
  intro x hx q h
  rcases List.mem_pair.mp hx with rfl | rfl
  · exact nomatch d.symm.trans h
  · exact nomatch a.symm.trans h

theorem test_witness_MovesComplete : (z.runs .al ∧ z.operandsOk [rd (D0 0), wr (D1 7)] ∧ z.operandsOk [wr (A1 15)]) ∧
    (∃ v s1, readReg 0 (z.pcOf 0) (D0 0) z.advanced = .ok v s1) ∧
    (∃ s2, writeReg 0 (D1 7) 5#32 z.advanced = .ok () s2) := by
  refine ⟨by unfold State.runs State.operandsOk; decide +kernel, gives_ok (by decide +kernel), ?_⟩
  obtain ⟨_, s, h⟩ := gives_ok (r := writeReg 0 (D1 7) 5#32 z.advanced) (by decide +kernel)
  exact ⟨s, h⟩

/-- From RD, and to PC. -/
theorem test_witness_MovesComplete_units : (z.setRp 0 [rpEntry]).operandsOk [rd RD, wr PC] ∧
    (∃ v s1, readReg 0 ((z.setRp 0 [rpEntry]).pcOf 0) RD (z.setRp 0 [rpEntry]).advanced = .ok v s1) ∧
    (∃ v s2, writeReg 0 PC 0x80000100#32 z.advanced = .ok v s2) ∧ (z.setRp 0 [rpEntry]).operandsOk [rd RD, wr (D1 0), wr (D0 0)] ∧
    ∃ v s1, popRead 0 (z.setRp 0 [rpEntry]).advanced = .ok v s1 :=
  ⟨by unfold State.operandsOk; decide +kernel, gives_ok (by decide +kernel), gives_ok (by decide +kernel),
    by unfold State.operandsOk; decide +kernel, gives_ok (by decide +kernel)⟩

theorem test_witness_UnitReads : (A1 7).isGeneral = true ∧ z.maskOf 0 .background = 0#16 ∧ z.maskOf 0 .interrupt = 0#16 ∧
    ((masks 2 4 z).maskOf 0 .background ≠ 0#16 ∧ (masks 2 4 z).visTriggers 0 .background = 0#16) ∧
    ((masks 2 4 z).maskOf 0 .interrupt ≠ 0#16 ∧ (masks 2 4 z).visTriggers 0 .interrupt = 0#16) ∧
    (hwtrig 0x8000 (masks 0x8000 0 z)).visTriggers 0 .background ≠ 0#16 ∧
    (setTr (fun x => { x with haltTrig := true }) (masks 2 4 z)).visTriggers 0 .interrupt ≠ 0#16 ∧
    ((z.setRp 0 [rpEntry]).th 0).h.rp = [rpEntry] ∧ ((z.setRpDirty 0 true).th 0).h.rp = [] ∧ (z.setRpDirty 0 true).rpDirty 0 = true ∧
    (z.th 0).h.rp = [] ∧ z.rpDirty 0 = false := by decide +kernel

theorem test_witness_UnitWrites : (D0 31).isGeneral = true ∧ regInUnit (D0 31) = true ∧ regInUnit (A0 15) = true ∧
    z.privExt 0 9 = false ∧ ((privExt 0x200 user).privExt 0 9 = true ∧ (privExt 0x200 user).priv 0 = false) ∧
    ((privExt 0x200 z).privExt 0 9 = true ∧ (privExt 0x200 z).priv 0 = true) := by decide +kernel

theorem test_witness_ControlRegisterFields : (z.th 0).h.tstate ≠ .off ∧ (z.th 1).h.tstate = .off ∧
    (1#5 ∈ [1#5, 3#5, 4#5, 13#5, 16#5, 17#5, 18#5, 19#5]) ∧
    (31#5 ∈ [1#5, 2#5, 3#5, 4#5, 13#5, 16#5, 17#5, 18#5, 19#5, 20#5, 28#5, 29#5, 30#5, 31#5]) ∧ (0#5 ≠ 31#5) := by decide +kernel

/-- A thread that is OFF, without and with CBMarker, a running one with data in its pipeline, one in CBRESTORE, one in HALTED. -/
theorem test_witness_ControlRegisterFields_enable : bitOf 1#32 0 = (z.th 0).ct.enabled ∧
    ((z.th 1).ct.enabled = false ∧ bitOf 1#32 0 = true ∧ (z.th 1).h.tstate = .off ∧ z.cbMarker 1 = false ∧
      (z.setStatus 1 0x00400000).cbMarker 1 = true) ∧
    ((z.th 0).ct.enabled = true ∧ bitOf 0#32 0 = false ∧ (z.th 0).h.tstate ≠ .off ∧ (z.th 0).h.tstate ≠ .cbRestore ∧
      ((z.setRp 0 [rpEntry]).th 0).h.rp ≠ []) ∧
    ((toReplay.th 0).ct.enabled = true ∧ (toReplay.th 0).h.tstate = .cbRestore) ∧
    (((z.modCt 0 fun c => { c with enabled := false }).th 0).ct.enabled = false ∧
      ((z.modCt 0 fun c => { c with enabled := false }).th 0).h.tstate ≠ .off) := by decide +kernel

theorem test_witness_SwapsComplete : (z.runs .al ∧ z.operandsOk [rd (D0 0), wr (D0 0), rd (CT 4), wr (CT 4)] ∧
      ¬ (UnitId.isSpecialist (D0 0).unit = true ∧ UnitId.isSpecialist (CT 4).unit = true)) ∧
    (∃ x s1, readReg 0 (z.pcOf 0) (D0 0) z.advanced = .ok x s1) ∧ (∃ y s2, readReg 0 (z.pcOf 0) (CT 4) z.advanced = .ok y s2) ∧
    (∃ u s3, writeReg 0 (D0 0) 1#32 z.advanced = .ok u s3) ∧ (∃ u s4, writeReg 0 (CT 4) 1#32 z.advanced = .ok u s4) ∧
    (UnitId.isSpecialist (CT 2).unit = true ∧ UnitId.isSpecialist PCX.unit = true ∧ z.priv 0 = true ∧
      ∀ u ∈ [rd (CT 9), wr (CT 9), rd PCX, wr PCX], presence z.cfg 0 u ≠ some (.exc .unknownInstruction)) :=
  ⟨by unfold State.runs State.operandsOk; decide +kernel, gives_ok (by decide +kernel), gives_ok (by decide +kernel),
    gives_ok (by decide +kernel), gives_ok (by decide +kernel), by decide +kernel⟩

/-- The first and the last places of each range. -/
theorem test_witness_PlainReads : (∀ m : Fin 2, z.watchHit (z.accOf 0) 0x82000000 none m = false) ∧ z.inCoreData 0x82000000 8 ∧
    z.inCoreData 0x8200FFFF 1 ∧ z.inCoreData 0x8200FFFE 2 ∧ z.inBypass 0 0x08000000 8 ∧ z.inBypass 0 0x7FFFFFFC 4 ∧
    z.inBypass 0 0x88000000 8 ∧ z.inBypass 3 0xFFFDFFFF 1 := by unfold State.inCoreData State.inBypass; decide +kernel

theorem test_witness_PlainReads_unwatched : z.unwatched 0 0x7FFFFFFC none ∧ z.unwatched 3 0xFFFDFFFF none := by
  unfold State.unwatched; decide +kernel

theorem test_witness_PlainWrites : z.unwatched 0 0x8200FFF8 (some (8, 0xFFFFFFFFFFFFFFFF)) ∧ z.inCoreData 0x8200FFF8 8 ∧
    z.unwatched 0 0xFFFDFFFC (some (4, 5)) ∧ z.inBypass 0 0xFFFDFFFC 4 ∧ m0.env.phys.wf = true := by
  unfold State.unwatched State.inCoreData State.inBypass; decide +kernel

theorem test_witness_UnalignedAccesses : (2 ∈ [2, 4, 8] ∧ (0x08000001#32).toNat % 2 ≠ 0) ∧ (8 ∈ [2, 4, 8] ∧ (0x0800000F#32).toNat % 8 ≠ 0) ∧
    (privExt 0x10 z).privExt 0 4 = true ∧ z.privExt 0 4 = false := by decide +kernel

/-- The second-level entry: invalid, privileged only, read only, permitted. -/
def pageEntry (e : Word) : State := mem4 0x20001008 e paged

theorem test_witness_TableWalkMaps : regionOf 0x08002004 = .local ∧ paged.mmuMode .data = .active ∧ bitOf paged.core.tablePhys 0 = true ∧
    htpFirst (paged.rootRegs 0 0x08002004).1 (paged.rootRegs 0 0x08002004).2 0x08002004 = some 0x20000000#32 ∧
    paged.tlb .data 0 = ⟨[], []⟩ ∧ paged.backed 0x20000000 4 = true ∧ rd4 0x20000000 paged = 0x20001001#32 ∧
    bitOf 0x20001001#32 0 = true ∧ pageBytesOf true 0x20001001#32 = some 4096 ∧
    ((0x20001001#32 &&& 0xFFFFFFC0#32) + BitVec.ofNat 32 (4 * (((0x08002004#32).toNat % 0x400000) / 4096))) = 0x20001008#32 ∧
    paged.backed 0x20001008 4 = true ∧ bitOf (rd4 0x20001008 (pageEntry 0x30005002)) 0 = false ∧
    (bitOf (rd4 0x20001008 (pageEntry 0x30005007)) 2 = true ∧ (user.accOf 0).priv = false) ∧
    (bitOf (rd4 0x20001008 (pageEntry 0x30005001)) 1 = false ∧ (paged.accOf 0).priv = true) ∧
    (bitOf (rd4 0x20001008 paged) 0 = true ∧ bitOf (rd4 0x20001008 paged) 1 = true) := by decide +kernel

theorem test_witness_LoadsComplete : (m0.runs .al ∧ m0.operandsOk (wr (D0 0) :: modeUses (at0 4 .pre))) ∧
    (∃ v s1, memRead (m0.accOf 0) (m0.address 0 (at0 4 .pre)) 4 m0.advanced = .ok (.ok v) s1) ∧
    (∃ u s2, writeReg 0 (D0 0) 5#32 m0.advanced = .ok u s2) ∧ m0.operandsOk (wr (D0 0) :: wr (D1 0) :: modeUses (at0 0 .post)) ∧
    (∃ v s1, memRead (m0.accOf 0) (m0.address 0 (at0 0 .post)) 8 m0.advanced = .ok (.ok v) s1) :=
  ⟨by unfold State.runs State.operandsOk; decide +kernel, performed_ok (by decide +kernel), gives_ok (by decide +kernel),
    by unfold State.operandsOk; decide +kernel, performed_ok (by decide +kernel)⟩

theorem test_witness_StoresComplete : (m0.runs .al ∧ m0.operandsOk (rd (D0 1) :: modeUses (at0 4 .pre)) ∧
      m0.operandsOk (rd (D0 1) :: rd (D1 1) :: modeUses (at0 8 .pre))) ∧
    (∃ v s1, readReg 0 (m0.pcOf 0) (D0 1) m0.advanced = .ok v s1) ∧
    (∃ u s2, memWrite (m0.accOf 0) (m0.address 0 (at0 4 .pre)) 4 5 m0.advanced = .ok (.ok u) s2) ∧
    (∃ u s2, memWrite (m0.accOf 0) (m0.address 0 (at0 8 .pre)) 8 5 m0.advanced = .ok (.ok u) s2) :=
  ⟨by unfold State.runs State.operandsOk; decide +kernel, gives_ok (by decide +kernel), performed_ok (by decide +kernel),
    performed_ok (by decide +kernel)⟩

/-- A load and a store of the event region, of which loads fault; a store to a read-only page. -/
theorem test_witness_DataExceptionsFinishTheInstruction : (z.runs .al ∧ z.operandsOk (wr (D0 0) :: modeUses (at0 0x04000100 .none)) ∧
      z.operandsOk (wr (D1 0) :: wr (D0 0) :: modeUses (at0 0x04000100 .post)) ∧
      z.operandsOk (rd (A0 1) :: rd (A1 1) :: modeUses (at0 0x04000100 .pre))) ∧
    (∃ f s1, memRead (z.accOf 0) (z.address 0 (at0 0x04000100 .none)) 4 z.advanced = .ok (.error f) s1) ∧
    (∃ f s1, memRead (z.accOf 0) (z.address 0 (at0 0x04000100 .pre)) 8 z.advanced = .ok (.error f) s1) ∧
    (∃ f s1, memWrite ((pageEntry 0x30005001).accOf 0) 0x08002004 4 5 (pageEntry 0x30005001).advanced = .ok (.error f) s1) ∧
    (∃ f s1, memWrite ((pageEntry 0x30005001).accOf 0) 0x08002008 8 5 (pageEntry 0x30005001).advanced = .ok (.error f) s1) :=
  ⟨by unfold State.runs State.operandsOk; decide +kernel, caught_ok (by decide +kernel), caught_ok (by decide +kernel),
    caught_ok (by decide +kernel), caught_ok (by decide +kernel)⟩

/-- A multiple transfer at step 1 with its base in an invalid page. -/
def badBase : State := setStatus 0x20100 (setReg (A0 0) 0x08002000 (pageEntry 0))

theorem test_witness_DataExceptionsFinishTheInstruction_multiple : [D0 0, D0 1][(badBase.lsmStep 0).toNat]? = some (D0 1) ∧
    [(D0 0, D1 0), (D1 2, D0 2)][(badBase.lsmStep 0).toNat]? = some (D1 2, D0 2) ∧
    (badBase.operandsOk (wr (A0 0) :: [D0 0, D0 1].map wr) ∧ badBase.operandsOk (wr (A0 0) :: [D0 0, D0 1].map rd) ∧
      badBase.operandsOk (wr (A0 0) :: [(D0 0, D1 0), (D1 2, D0 2)].flatMap fun p => [wr p.1, wr p.2]) ∧
      badBase.operandsOk (wr (A0 0) :: [(D0 0, D1 0), (D1 2, D0 2)].flatMap fun p => [rd p.1, rd p.2])) ∧
    (∃ f s1, memRead (badBase.accOf 0) (badBase.reg 0 (A0 0)) 4 badBase.advanced = .ok (.error f) s1) ∧
    (∃ f s1, memRead (badBase.accOf 0) (badBase.reg 0 (A0 0)) 8 badBase.advanced = .ok (.error f) s1) ∧
    (∃ f s1, memWrite (badBase.accOf 0) (badBase.reg 0 (A0 0)) 4 0 badBase.advanced = .ok (.error f) s1) ∧
    (∃ f s1, memWrite (badBase.accOf 0) (badBase.reg 0 (A0 0)) 8 0 badBase.advanced = .ok (.error f) s1) :=
  ⟨by decide +kernel, by decide +kernel, by unfold State.operandsOk; decide +kernel, caught_ok (by decide +kernel),
    caught_ok (by decide +kernel), caught_ok (by decide +kernel), caught_ok (by decide +kernel)⟩

/-- A base at the last double word of the local range. -/
theorem test_witness_MultiplesStep : atEnd.operandsOk (wr (A0 0) :: [D0 0, D0 1].map wr) ∧
    [D0 0, D0 1][(atEnd.lsmStep 0).toNat]? = some (D0 0) ∧ (D0 0).isGeneral = true ∧
    (∃ v s1, memRead (atEnd.accOf 0) (atEnd.reg 0 (A0 0)) 4 atEnd.advanced = .ok (.ok v) s1) ∧
    (∃ v s1, memRead (atEnd.accOf 0) (atEnd.reg 0 (A0 0)) 8 atEnd.advanced = .ok (.ok v) s1) ∧
    (∃ u s1, memWrite (atEnd.accOf 0) (atEnd.reg 0 (A0 0)) 4 7 atEnd.advanced = .ok (.ok u) s1) ∧
    (∃ u s1, memWrite (atEnd.accOf 0) (atEnd.reg 0 (A0 0)) 8 7 atEnd.advanced = .ok (.ok u) s1) :=
  ⟨by unfold State.operandsOk; decide +kernel, by decide +kernel, rfl, performed_ok (by decide +kernel), performed_ok (by decide +kernel),
    performed_ok (by decide +kernel), performed_ok (by decide +kernel)⟩

/-- The last of eight steps, and the one before it. -/
theorem test_witness_MultiplesStep_steps : (((setStatus 0x20700 z).lsmStep 0).toNat + 1 = 8) ∧
    (((setStatus 0x20600 z).lsmStep 0).toNat + 1 ≠ 8 ∧ ((setStatus 0x20600 z).lsmStep 0).toNat < 7) ∧
    (List.replicate 8 (D0 0))[((setStatus 0x20700 z).lsmStep 0).toNat]? = some (D0 0) := by decide +kernel

theorem test_witness_ReadPortsPush : (m0.runs .al ∧ m0.operandsOk [rd (A0 0), wr (portReg .ra)] ∧ m0.operandsOk [rd (A0 0), wr (portReg .radx)]) ∧
    (∃ la s1, readReg 0 (m0.pcOf 0) (A0 0) m0.advanced = .ok la s1) ∧
    ((m0.setRp 0 (List.replicate 5 rpEntry)).th 0).h.rp.length < m0.cfg.readPipelineDepth ∧
    m0.cfg.readPipelineDepth ≤ ((m0.setRp 0 (List.replicate 6 rpEntry)).th 0).h.rp.length ∧ m0.rpDirty 0 = false ∧
    (m0.setRpDirty 0 true).rpDirty 0 = true ∧ (∃ v s2, memRead (m0.accOf 0) 0x08001000 4 m0.advanced = .ok (.ok v) s2) :=
  ⟨by unfold State.runs State.operandsOk; decide +kernel, gives_ok (by decide +kernel), by decide +kernel, by decide +kernel, by decide +kernel,
    by decide +kernel, performed_ok (by decide +kernel)⟩

theorem test_witness_PrefetchPort : (m0.runs .al ∧ m0.operandsOk [rd (A0 0), wr (portReg .rapf)]) ∧
    (∃ la s1, readReg 0 (m0.pcOf 0) (A0 0) m0.advanced = .ok la s1) ∧
    ((m0.th 0).h.pf = none ∧ regionOf 0x08001000 ∈ [Region.directMap, .local, .global] ∧
      rowState (regionOf 0x08001000) (m0.mmuMode .data) = .live) ∧
    (∃ v s2, Sys2Proof.Machine.translate (m0.accOf 0) 0x08001000 .read m0.advanced = .ok v s2 ∧ v.isOk = true) ∧
    (∃ v s2, Sys2Proof.Machine.translate ((pageEntry 0).accOf 0) 0x08002000 .read (pageEntry 0) = .ok v s2 ∧ (!v.isOk) = true) ∧
    (regionOf 0x05001008 = .mmuTable ∧ regionOf 0x05200000 = .mmuTable ∧ rowState .mmuTable (paged.mmuMode .data) = .live ∧
      paged.tableAt 0x05001008 = some ⟨0x20001008, 0, false, false, false⟩ ∧ paged.tableAt 0x05200000 = none) ∧
    (regionOf 0x82000000 ∉ [Region.directMap, .local, .global] ∧ regionOf 0x82000000 ≠ .mmuTable) ∧
    ((m0.modH 0 fun h => { h with pf := some ⟨0, false, false⟩ }).th 0).h.pf ≠ none :=
  ⟨by unfold State.runs State.operandsOk; decide +kernel, gives_ok (by decide +kernel), by decide +kernel, yields_ok (by decide +kernel),
    yields_ok (by decide +kernel), by decide +kernel, by decide +kernel, by decide +kernel⟩

theorem test_witness_UndescribedInstructionsStop : z.runs .al ∧ dsp.runs .al ∧ presence z.cfg 0 (rd (D0 0)) = none ∧
    presence dsp.cfg 0 (rd (D0 0)) = none ∧ isDsp z.cfg 0 = false ∧ isDsp dsp.cfg 0 = true := by unfold State.runs; decide +kernel

/-- A build with four ports each way: port 3 exists, port 4 does not. -/
def fourPorts : State := { z with cfg := { z.cfg with coprocReadPorts := 4, coprocWritePorts := 4 } }

theorem test_witness_CoprocessorPorts : z.operandsOk ((coprocRegs (D0 0) (some (D1 0))).map wr) ∧ z.operandsOk ((coprocRegs (D0 0) none).map rd) ∧
    (3 < fourPorts.cfg.coprocReadPorts ∧ fourPorts.cfg.coprocReadPorts ≤ 4 ∧ 3 < fourPorts.cfg.coprocWritePorts ∧
      fourPorts.cfg.coprocWritePorts ≤ 4) ∧
    (z.privExt 0 31 = false ∧ (privExt 0x80000000 user).privExt 0 (24 + 7) = true ∧ (privExt 0x80000000 user).priv 0 = false) ∧
    z.env.cpr[7] = [] ∧ ((z.act (.coprocSupply 7 9)).env.cpr[7] = [9]) ∧ z.env.cpwReady[7] = true ∧
    (z.act (.coprocReady 7 false)).env.cpwReady[7] = false := by unfold State.operandsOk; decide +kernel

/-- The hypotheses the arithmetic statements share, for the operands of one instruction. -/
theorem test_witness_AddSubResults : (z.runs .al ∧ z.operandsOk (aluUses ⟨.al, true, D0 7, A1 3, .reg (D1 31)⟩)) ∧ (D0 7).isGeneral = true ∧
    z.dspModeOn 0 = false ∧ (∃ a s1, readReg 0 (z.pcOf 0) (A1 3) z.advanced = .ok a s1) ∧
    (∃ b s2, readSrc 0 (z.pcOf 0) (.reg (D1 31)) z.advanced = .ok b s2) :=
  ⟨by unfold State.runs State.operandsOk; decide +kernel, rfl, by decide +kernel, gives_ok (by decide +kernel), gives_ok (by decide +kernel)⟩

theorem test_witness_LogicResults : ((setStatus 0x20008 z).runs .eq ∧
      (setStatus 0x20008 z).operandsOk (aluUses ⟨.eq, false, D1 0, D1 0, .imm 0xFFFFFFFF⟩)) ∧ (setStatus 0x20008 z).dspModeOn 0 = false ∧
    (∃ a s1, readReg 0 ((setStatus 0x20008 z).pcOf 0) (D1 0) (setStatus 0x20008 z).advanced = .ok a s1) ∧
    (∃ b s2, readSrc 0 ((setStatus 0x20008 z).pcOf 0) (.imm 0xFFFFFFFF) (setStatus 0x20008 z).advanced = .ok b s2) :=
  ⟨by unfold State.runs State.operandsOk; decide +kernel, by decide +kernel, gives_ok (by decide +kernel), gives_ok (by decide +kernel)⟩

theorem test_witness_ShiftAndMultiplyResults : (z.runs .al ∧ z.operandsOk (aluUses ⟨.al, true, D0 0, D0 1, .imm 32⟩)) ∧ z.dspModeOn 0 = false ∧
    (∃ a s1, readReg 0 (z.pcOf 0) (D0 1) z.advanced = .ok a s1) ∧ (∃ b s2, readSrc 0 (z.pcOf 0) (.imm 32) z.advanced = .ok b s2) :=
  ⟨by unfold State.runs State.operandsOk; decide +kernel, by decide +kernel, gives_ok (by decide +kernel), gives_ok (by decide +kernel)⟩

/-- The source RD, of a pipeline that holds an entry. -/
theorem test_witness_TestAndCompareResults : ((z.setRp 0 [rpEntry]).runs .al ∧ (z.setRp 0 [rpEntry]).operandsOk (rd RD :: srcUses (.imm 2))) ∧
    (z.setRp 0 [rpEntry]).dspModeOn 0 = false ∧
    (∃ a s1, readReg 0 ((z.setRp 0 [rpEntry]).pcOf 0) RD (z.setRp 0 [rpEntry]).advanced = .ok a s1) ∧
    (∃ b s2, readSrc 0 (z.pcOf 0) (.imm 2) z.advanced = .ok b s2) :=
  ⟨by unfold State.runs State.operandsOk; decide +kernel, by decide +kernel, gives_ok (by decide +kernel), gives_ok (by decide +kernel)⟩

theorem test_witness_AddressUnitResults : (⟨.al, A0 15, .cpc, .reg (A0 3)⟩ : AuArgs).ok = true ∧ z.runs .al ∧
    z.operandsOk (auUses ⟨.al, A0 15, .cpc, .reg (A0 3)⟩) ∧ z.dspModeOn 0 = false := by unfold State.runs State.operandsOk; decide +kernel

theorem test_witness_ControlTransfersComplete : (z.runs .al ∧ z.operandsOk [wr (D1 7)] ∧ z.operandsOk [rd (A1 15)] ∧ z.operandsOk [rd PCX] ∧
      z.operandsOk [wr (A0 0), rd (A0 0)] ∧ z.operandsOk [wr (CT 1), rd (CT 1)] ∧ (setStatus 0x2000F z).runs .le) ∧
    (∃ u s1, writeReg 0 (D1 7) 0x80000004#32 z.advanced = .ok u s1) ∧ (∃ v s1, readReg 0 (z.pcOf 0) PCX z.advanced = .ok v s1) ∧
    (∃ u s1, writeReg 0 (CT 1) 0x80000004#32 z.advanced = .ok u s1) ∧ (∃ v s1, readReg 0 (z.pcOf 0) (CT 1) z.advanced = .ok v s1) :=
  ⟨by unfold State.runs State.operandsOk; decide +kernel, gives_ok (by decide +kernel), gives_ok (by decide +kernel),
    gives_ok (by decide +kernel), gives_ok (by decide +kernel)⟩

/-- A link written to a read port: the read at the return address faults. -/
theorem test_witness_ControlTransfersComplete_caught : (setPc 0x04000100 z).operandsOk [wr (portReg .ra)] ∧
    ∃ e s1, writeReg 0 (portReg .ra) 0x04000104#32 (setPc 0x04000100 z).advanced = .error (.late e) s1 ∧
      (setPc 0x04000100 z).operandsOk [wr (portReg .ra), rd (A0 0)] ∧ ∃ v, readReg 0 0x04000100#32 (A0 0) s1 = .ok v s1 :=
  let ⟨e, s1, h⟩ := ends_late (by decide +kernel)
  ⟨by unfold State.operandsOk; decide +kernel, e, s1, h, by unfold State.operandsOk; decide +kernel, _, rfl⟩

theorem test_witness_ReturnFromInterrupt : z.istat 0 = false ∧ (setStatus 0x30000 z).istat 0 = true ∧ (setStatus 0x430000 z).cbMarker 0 = true ∧
    (setStatus 0x30000 z).cbMarker 0 = false ∧ toReturn.replays = true := by decide +kernel

/-- What the RTI of thread 0 replays. -/
def handed (s : State) : EStateM.Result Stop State Unit := replayTransfer 0 (s.advanced.returnFromInterrupt 0 (s.pcOf 0 + 4#32))

/-- A replay that is made, one caught again, one whose destination is absent. -/
theorem test_witness_ReturnFromInterrupt_replays :
    (∃ u s1, handed toReturn = .ok u s1) ∧
    (backWatch.replays = true ∧ ∃ e s1, handed backWatch = .error (.late e) s1) ∧
    ((returning 0x48020902 0x08002000 0).replays = true ∧ ∃ e s1, handed (returning 0x48020902 0x08002000 0) = .error (.exc e) s1) ∧
    sees (exec .rti toReturn) (fun s => (s.th 0).ct.enabled) = some true :=
  ⟨gives_ok (by decide +kernel), ⟨by decide +kernel, ends_late (by decide +kernel)⟩, ⟨by decide +kernel, ends_trap (by decide +kernel)⟩, by decide +kernel⟩

theorem test_witness_RepeatsComplete : ((Instr.bcc .al (-1)).isRepeat = false ∧ z.runs (instrCond (.bcc .al (-1)))) ∧ (z.th 0).ct.txrpt = 0#32 ∧
    ((rpt 0xFFFFFFFF z).th 0).ct.txrpt ≠ 0#32 ∧
    ((Instr.tst ⟨.al, D0 0, .imm 1⟩).isRepeat = false ∧ ∀ c imm, Instr.tst ⟨.al, D0 0, .imm 1⟩ ≠ .bcc c imm) ∧
    (∃ u s1, (iteration (.tst ⟨.al, D0 0, .imm 1⟩)).2 (z.pcOf 0) z.advanced = .ok u s1) ∧
    (∃ u s1, (iteration (.mgetd (A0 0) [D0 0, D0 1])).2 (m0.pcOf 0) m0.advanced = .ok u s1) ∧
    (∃ e s1, (iteration (.getd ⟨.al, D0 0, at0 0x04000100 .none⟩)).2 (z.pcOf 0) z.advanced = .error (.late e) s1) ∧
    (∃ e s1, (iteration (.switch .al 0)).2 (z.pcOf 0) z.advanced = .error (.exc e) s1) :=
  ⟨by unfold State.runs; decide +kernel, by decide +kernel, by decide +kernel, ⟨rfl, fun _ _ h => nomatch h⟩, gives_ok (by decide +kernel),
    gives_ok (by decide +kernel), ends_late (by decide +kernel), ends_trap (by decide +kernel)⟩

theorem test_witness_LocksTakenAndReleased : (z.privExt 0 14 = false ∧ z.shared.lock1 = none ∧ z.shared.lock2 = none ∧
      z.shared.atomicOwner = none ∧ z.present 0 = true ∧ (z.th 0).h.tstate ≠ .off) ∧
    ((privExt 0x4000 z).privExt 0 14 = true ∧ (privExt 0x4000 z).priv 0 = true) ∧ (locks (some 0) (some 0) z).shared.lock2 = some 0 ∧
    ¬ ((locks (some 3) none z).shared.lock1 = none ∨ (locks (some 3) none z).shared.lock1 = some 0) ∧
    ((privExt 0x4000 user).privExt 0 14 = true ∧ (privExt 0x4000 user).priv 0 = false) := by decide +kernel

/-- The core register area opened to thread 0 unprivileged, with the AMA registers and the kicks of thread 1 guarded. -/
def guarded : State := (user.modMm 0 fun m => { m with pioReg := 0 }).modMm 1 fun m => { m with privCore := 7 }

/-- Registers of each class and the last of their kind. -/
theorem test_witness_CoreRegisterAccesses : (coreRegAt 0x04801810 = some (.ama4 1) ∧ coreRegAt 0x04801808 = some (.kicki 1) ∧
      coreRegAt 0x04800818 = some (.ama5 0) ∧ coreRegAt 0x048000E8 = some (.ct 0 29#5) ∧ coreRegAt 0x04803828 = some (.privCore 3) ∧
      coreRegAt 0x0480FFE8 = some (.perfCount 1) ∧ coreRegAt 0x0480FF38 = some (.codebCtrl 3) ∧ coreRegAt 0x0482FFFF = none) ∧
    (regionOf 0x04801810 = .coreRegs ∧ (0x04801810#32).toNat % 4 = 0 ∧ guarded.priv 0 = false ∧
      (bitOf (user.th 0).mm.pioReg ((0x04801810 - 0x04800000) / 0x10000) = true) ∧
      (bitOf (guarded.th 0).mm.pioReg ((0x0480FF38 - 0x04800000) / 0x10000) = false) ∧ bitOf (guarded.th 1).mm.privCore 2 = true) ∧
    (z.priv 0 = true ∧ z.regFitted (.ama4 1) = true ∧ z.regFitted (.ct 0 29#5) = true ∧ (CoreReg.ct 0 29#5).reserved = false ∧
      z.writeRefusal .mmuConfig 2 = none ∧ z.writeRefusal .tablePhys 1 = none) ∧
    ({ z with cfg := { z.cfg with breakpointsCode := 1#2 } } : State).regFitted (.codebCtrl 3) = false := by decide +kernel

theorem test_witness_CoreRegisterAccesses_unwatched : z.unwatched 0 0x04801810 none ∧ z.unwatched 0 0x04801810 (some (4, 5)) ∧
    guarded.unwatched 0 0x0480FF38 none ∧ guarded.unwatched 0 0x0480FF38 (some (4, 5)) := by unfold State.unwatched; decide +kernel

theorem test_witness_LinkedReadsComplete : z.operandsOk [wr (D0 0), rd (A0 0)] ∧ z.operandsOk [wr (D0 0), wr (D1 0), rd (A0 0)] ∧
    (∃ v s1, linkedRead (atEnd.accOf 0) (atEnd.reg 0 (A0 0)) 4 atEnd.advanced = .ok (.ok v) s1) ∧
    (∃ v s1, linkedRead (atEnd.accOf 0) (atEnd.reg 0 (A0 0)) 8 atEnd.advanced = .ok (.ok v) s1) ∧
    (z.unwatched 0 0x7FFFFFF8 none ∧ z.inBypass 0 0x7FFFFFF8 8 ∧ z.unwatched 0 0x88000000 none ∧ z.inBypass 0 0x88000000 4) :=
  ⟨by unfold State.operandsOk; decide +kernel, by unfold State.operandsOk; decide +kernel, performed_ok (by decide +kernel),
    performed_ok (by decide +kernel), by unfold State.unwatched State.inBypass; decide +kernel⟩

theorem test_witness_LinkedWritesComplete : z.runs .al ∧ (z.th 0).h.link = false ∧ (atEnd.th 0).h.link = true ∧
    z.operandsOk [rd (A0 0), rd (D0 0)] ∧ z.operandsOk [rd (A0 0), rd (D0 0), rd (D1 0)] ∧
    (∃ u s1, linkedWrite (atEnd.accOf 0) (atEnd.reg 0 (A0 0)) 4 5 atEnd = .ok (.ok u) s1) ∧
    (∃ u s1, linkedWrite (atEnd.accOf 0) (atEnd.reg 0 (A0 0)) 8 5 atEnd = .ok (.ok u) s1) :=
  ⟨by unfold State.runs; decide +kernel, by decide +kernel, by decide +kernel, by unfold State.operandsOk; decide +kernel,
    by unfold State.operandsOk; decide +kernel, performed_ok (by decide +kernel), performed_ok (by decide +kernel)⟩

theorem test_witness_LinkedWritesComplete_bus : atEnd.unwatched 0 0x7FFFFFF8 (some (8, 5)) ∧ atEnd.inBypass 0 0x7FFFFFF8 8 ∧
    atEnd.cfg.lnkSpuriousFail = false ∧ atEnd.monitorHolds 0 0x7FFFFFF8 = true ∧ z.monitorHolds 0 0x7FFFFFF8 = false := by
  unfold State.unwatched State.inBypass; decide +kernel

/-- A linked answer outstanding. -/
def owing : State := z.oweToken ⟨0, false, 2#6, true⟩

theorem test_witness_DeferredReadsComplete : z.operandsOk (instrUses (.defrTxstat (D1 0))) ∧ z.operandsOk (instrUses (.defrTxstati (D1 0))) ∧
    owing.pendingLnk 0 ≠ 0 ∧ z.pendingLnk 0 = 0 ∧ reasonAt 0x02800000#32 23 .background = true ∧
    reasonAt 0x02800080#32 23 .interrupt = true ∧ reasonAt 0x00010000#32 23 .background = false ∧ deferredRaw 0#32 .background = false := by
  unfold State.operandsOk; decide +kernel

theorem test_witness_CacheInstructionsComplete : z.operandsOk [wr (D0 0), wr (D1 0), rd (A0 0)] ∧ z.operandsOk [rd (A0 0), rd (D0 0)] ∧
    (∃ v s1, cacherlValue 0 .data 0x08002004 paged.advanced = .ok v s1) ∧
    (regionOf 0x08002004 = .local ∧ paged.mmuMode .data = .active) ∧
    (∃ e ps pa s1, walk (paged.accOf 0) .data 0x08002004 paged.advanced = .ok (.mapped e ps pa) s1) ∧ z.mmuMode .data ≠ .active ∧
    ¬ (regionOf 0x82000000 = .local ∨ regionOf 0x82000000 = .global) := by
  refine ⟨by unfold State.operandsOk; decide +kernel, by unfold State.operandsOk; decide +kernel, gives_ok (by decide +kernel), by decide +kernel,
    ?_, by decide +kernel, by decide +kernel⟩
  obtain ⟨v, s, h, h'⟩ := yields_ok (r := walk (paged.accOf 0) .data 0x08002004 paged.advanced) (p := isMapped) (by decide +kernel)
  obtain ⟨e, ps, pa, rfl⟩ := isMapped_mapped h'
  exact ⟨e, ps, pa, s, h⟩

theorem test_witness_CacheInstructionsComplete_invalid :
    (∃ v s1, walk (paged.accOf 0) .data 0x08400000 paged.advanced = .ok v s1 ∧ (v == .firstInvalid) = true) ∧
    (∃ v s1, walk ((pageEntry 0).accOf 0) .data 0x08002004 (pageEntry 0).advanced = .ok v s1 ∧ (v == .secondInvalid) = true) :=
  ⟨yields_ok (by decide +kernel), yields_ok (by decide +kernel)⟩

/-- ICACHE of a cacheable line, of an uncached one, of one with no mapping; the page of the walk above is 4 Kbyte. -/
theorem test_witness_CacheInstructionsComplete_preload :
    (regionOf 0x08002000 = .local ∧ alignDown (0x08002004#32 + 0) 64 = 0x08002000#32 ∧
      rowState .local (cacheOn.mmuMode .instruction) = .live ∧ pageBytesOf true 0x20001001#32 = some (4096 * 2 ^ 0)) ∧
    (∃ v s1, Machine.translate (cacheOn.accOf 0) 0x08002000 .fetch cacheOn.advanced = .ok v s1 ∧
      (match v with | .ok x => x.win != 0#2 | .error _ => false) = true) ∧
    (∃ v s1, Machine.translate (paged.accOf 0) 0x08002000 .fetch paged.advanced = .ok v s1 ∧
      (match v with | .ok x => x.win == 0#2 | .error _ => false) = true) ∧
    (∃ v s1, Machine.translate (cacheOn.accOf 0) 0x08400000 .fetch cacheOn.advanced = .ok v s1 ∧
      (match v with | .ok _ => false | .error _ => true) = true) :=
  ⟨by decide +kernel, yields_ok (by decide +kernel), yields_ok (by decide +kernel), yields_ok (by decide +kernel)⟩

theorem test_witness_CacheInstructionsComplete_lines : (∃ x s1, dropLinear 0 .data 0x08002004 cached = .ok x s1) ∧
    (z.operandsOk [rd (A0 0)] ∧ regionOf 0x08000000 = .local ∧ z.core.mmuConfig = 0#3) ∧
    (z.operandsOk (auSrcUses (.reg (A0 0)))) ∧ (∃ a, readAuSrc 0 (z.pcOf 0) .cpc z.advanced = .ok a z.advanced) ∧
    (∃ u s1, preloadLines 0 0x08002000 2 cacheOn.advanced = .ok u s1) ∧
    (regionOf 0x05001008 = .mmuTable ∧ rowState .mmuTable (paged.mmuMode .data) = .live ∧ (paged.tableAt 0x05001008).isSome = true) :=
  ⟨gives_ok (by decide +kernel), by unfold State.operandsOk; decide +kernel, by unfold State.operandsOk; decide +kernel, ⟨_, rfl⟩,
    gives_ok (by decide +kernel), by decide +kernel⟩

theorem test_witness_ExceptionHandledByThread : (masks 0 4 z).ownsHalt 0 = true ∧
    ((masks 0 4 (z.setRp 0 [rpEntry])).ownsHalt 0 = true ∧ ((masks 0 4 (z.setRp 0 [rpEntry])).th 0).h.rp ≠ []) := by decide +kernel

theorem test_witness_ExceptionTurnsThreadOff : z.ownsHalt 0 = false ∧ (setStatus 0x30000 (masks 0 4 z)).ownsHalt 0 = false ∧
    (Exc.data (.fault .page 0) .again).pageTrigger = true ∧ Exc.switch.pageTrigger = false := by decide +kernel

theorem test_witness_CaughtTransferIsSaved : (0x7FFFFFFF#32).toNat % widthBytes .byte = 0 ∧ (0x0800100E#32).toNat % widthBytes .word = 0 ∧
    (0xFFFDFFF8#32).toNat % widthBytes .lword = 0 ∧ (setStatus 0x30000 z).istat 0 = true := by decide +kernel

/-- A step that replays, and one caught again. -/
theorem test_witness_CaughtTransfersAreReplayed : (configLegal toReplay.cfg = true ∧ toReplay.cfg.dcacheWriteBack = false ∧
      toReplay.cfg.cacheType = 0#3 ∧ toReplay.nextAction = (.thread 0, toReplay) ∧ toReplay.eligible 0 = true ∧
      (toReplay.th 0).h.tstate = .cbRestore) ∧
    (∃ u s1, replayTransfer 0 toReplay = .ok u s1) ∧ (∃ e s1, replayTransfer 0 (replaying backWatch) = .error (.late e) s1) ∧
    sees (step toReplay) (fun s => ((s.th 0).ct.enabled, (s.th 0).h.tstate, reg (D0 2) s)) = some (true, .run, 0#32) :=
  ⟨by decide +kernel, gives_ok (by decide +kernel), ends_late (by decide +kernel), by decide +kernel⟩

/-- The fields of the catch states. -/
theorem test_witness_CaughtTransfersAreReplayed_fields : ([0x10020902#32, 0x1002090A#32, 0x10060903#32, 0x00000910#32].all fun c =>
      (bitsOf c 10 5 : BitVec 5) != 0#5 && !bitOf c 14 && bitOf c 8) = true ∧
    (widthOfCode (bitsOf 0x10020902#32 0 2) = .dword ∧ (bitsOf 0x10020902#32 16 11 : BitVec 11) = destBit .d0 ∧
      widthOfCode (bitsOf 0x10060903#32 0 2) = .lword ∧
      (bitsOf 0x10060903#32 16 11 : BitVec 11) = destBit .d0 ||| destBit .d1) ∧
    ((bitsOf 0x0000080F#32 10 5 : BitVec 5) ≠ 0#5 ∧ bitOf 0x0000080F#32 14 = false ∧ bitOf 0x0000080F#32 8 = false ∧
      (bitsOf 0x0000080F#32 0 8 : Byte) = laneMask 0x08002000 (widthBytes .dword)) ∧
    ((bitsOf 0x00000910#32 16 11 : BitVec 11) = 0#11 ∧ (bitsOf 0x00000910#32 0 5 : BitVec 5) = ReadPort.ra.num) ∧
    (bitsOf 0#32 10 5 : BitVec 5) = 0#5 ∧ bitOf 0x10025102#32 14 = true := by decide +kernel

theorem test_witness_CaughtTransfersAreReplayed_accesses : toReplay.operandStop 0 [wr (D0 2)] = none ∧
    toReplay.operandStop 0 [wr (D0 2), wr (D1 2)] = none ∧ toReplay.operandStop 0 [wr (portReg .ra)] = none ∧
    (∃ v s1, memRead (toReplay.accOf 0) 0x08002000 4 toReplay = .ok (.ok v) s1) ∧
    (∃ v s1, linkedRead (toReplay.accOf 0) 0x08002000 4 toReplay = .ok (.ok v) s1) ∧
    (∃ v s1, memRead (toReplay.accOf 0) 0x08002000 8 toReplay = .ok (.ok v) s1) ∧
    (∃ u s1, memWrite (toReplay.accOf 0) 0x08002000 4 0x55AA toReplay = .ok (.ok u) s1) :=
  ⟨by decide +kernel, by decide +kernel, by decide +kernel, performed_ok (by decide +kernel), performed_ok (by decide +kernel),
    performed_ok (by decide +kernel), performed_ok (by decide +kernel)⟩

/-- A thread with a kick at interrupt level. -/
def kicked : State := (masks 0 2 (nopNext)).kick 0 .interrupt 1

theorem test_witness_InterruptsAreEntered : (configLegal kicked.cfg = true ∧ kicked.cfg.dcacheWriteBack = false ∧ kicked.cfg.cacheType = 0#3 ∧
    kicked.nextAction = (.thread 0, kicked) ∧ kicked.eligible 0 = true ∧ kicked.interruptDue 0 = true) ∧
    ((z.setRp 0 [rpEntry]).th 0).h.rp ≠ [] := by decide +kernel

theorem test_witness_TriggerReads : highestTrigger (0x8000#16) = some 15 ∧ highestTrigger (0x0002#16) = some 1 ∧
    highestTrigger ((defr 0x04800000 (masks 8 0 z)).visTriggers 0 .background) = some 3 ∧
    highestTrigger ((setTr (fun x => { x with kick := 1 }) (masks 0xA 0 z)).visTriggers 0 .background) ≠ some 3 ∧
    highestTrigger ((setTr (fun x => { x with haltTrig := true }) (masks 0 4 z)).visTriggers 0 .interrupt) = some 2 := by decide +kernel

theorem test_witness_TimersTick : ((z.th 0).h.prescale.toNat + 1 ≥ (bitsOf (z.th 0).ct.txdivtime 0 8).toNat) ∧
    (bitsOf (0#32) 0 8).toNat = 0 ∧ ({ (z.th 0).h with prescale := 254#8 } : Hidden).prescale.toNat + 1 < 256 ∧
    256 ≤ ({ (z.th 0).h with prescale := 255#8 } : Hidden).prescale.toNat + 1 := by decide +kernel

end Sys2Proof.Tests
end

section
/-! SUPPORT. Fields of a word: a word written as a row of fields, and the bits of a masked write. -/

namespace Sys2Proof.Machine

/-! ### Fields of a word written as a row of fields -/

theorem bitsOf_append_low {m n start len : Nat} {hi : BitVec m} {lo : BitVec n} (h : start + len ≤ n) :
    bitsOf (hi ++ lo) start len = bitsOf lo start len := BitVec.extractLsb'_append_eq_of_add_le h

theorem bitsOf_append_high {m n start len : Nat} {hi : BitVec m} {lo : BitVec n} (h : n ≤ start) :
    bitsOf (hi ++ lo) start len = bitsOf hi (start - n) len := BitVec.extractLsb'_append_eq_of_le h

theorem bitOf_append_low {m n i : Nat} {hi : BitVec m} {lo : BitVec n} (h : i < n) : bitOf (hi ++ lo) i = bitOf lo i := by
  simp [bitOf, BitVec.getLsbD_append, h]

theorem bitOf_append_high {m n i : Nat} {hi : BitVec m} {lo : BitVec n} (h : n ≤ i) :
    bitOf (hi ++ lo) i = bitOf hi (i - n) := by
  simp [bitOf, BitVec.getLsbD_append, Nat.not_lt.mpr h]

theorem bitsOf_self {n : Nat} (w : BitVec n) : bitsOf w 0 n = w := BitVec.extractLsb'_eq_self

theorem bitOf_b1 (b : Bool) : bitOf (b1 b) 0 = b := by cases b <;> rfl

/-! ### Masks -/

/-- A field of four bits, zero extended. -/
theorem setWidth_bitsOf_low4 (w : Word) : (bitsOf w 0 4).setWidth 32 = w &&& 0xF#32 := by
  apply BitVec.eq_of_getLsbD_eq
  intro i hi
  rw [BitVec.getLsbD_and]
  interval_cases i <;> simp [bitsOf]

/-- A masked write takes the bits of the mask and keeps the others. -/
theorem bitOf_maskWrite (old new mask : Word) {i : Nat} (hi : i < 32) :
    bitOf (maskWrite old new mask) i = if bitOf mask i then bitOf new i else bitOf old i := by
  unfold bitOf maskWrite
  rw [BitVec.getLsbD_or, BitVec.getLsbD_and, BitVec.getLsbD_and, BitVec.getLsbD_not]
  cases mask.getLsbD i <;> simp [hi]

/-- Bits above a mask, out of a word read as a double word. -/
theorem bitsOf_maskWrite_high (old new : Word) :
    bitsOf ((maskWrite old new 0x07FFFFFF#32).setWidth 64) 27 5 = bitsOf old 27 5 := by
  apply BitVec.eq_of_getLsbD_eq
  intro i hi
  interval_cases i <;> simp [bitsOf, maskWrite]

end Sys2Proof.Machine
end

section
/-! PROOFS. The reset state: its values (10_state.md R77, 11_core_registers.md R196, 70_reset_and_hazards.md R781) and its soundness. -/

namespace Sys2Proof.Machine

/-! ### Reset -/

/-- Each thread of the reset state is reset. -/
theorem State.th_resetOf (c : Config) (t : Tid) : (State.resetOf c).th t = Thread.reset c t := by
  fin_cases t <;> rfl

theorem State.th_reset (t : Tid) : State.reset.th t = Thread.reset Config.default t := State.th_resetOf _ t

/-- A thread other than thread 0 is OFF after reset, with TXSTATUS zero. -/
theorem Thread.reset_of_ne {c : Config} {t : Tid} (h : t ≠ 0) :
    (Thread.reset c t).h.tstate = .off ∧ (Thread.reset c t).ct.enabled = false ∧ (Thread.reset c t).ct.txstatus = 0#32 := by
  simp [Thread.reset, Hidden.reset, Ctrl.reset, h]

/-- Settles O6: each clause reads one field of the reset value of its part of the state. -/
theorem resetValues : Obligations.ResetValues := by
  have others : ∀ t : Tid, t ≠ 0 → (State.reset.th t).h.tstate = .off ∧ (State.reset.th t).ct.enabled = false ∧
      State.reset.status t = 0#32 := fun t ht => by
    rw [State.status, State.th_reset]
    exact Thread.reset_of_ne ht
  have all : ∀ t : Tid, (State.reset.th t).ct.stopped = false ∧ (State.reset.th t).ct.txmode = 0#32 ∧
      (State.reset.th t).ct.txrpt = 0#32 ∧ (State.reset.th t).ct.txdivtime = 1#32 ∧ (State.reset.th t).ct.txprivext = 0#32 ∧
      (State.reset.th t).ct.txdefr = 0#32 ∧ (State.reset.th t).tr.mask = 0#16 ∧ (State.reset.th t).tr.maski = 0#16 ∧
      (State.reset.th t).tr.kick = 0#16 ∧ (State.reset.th t).tr.kicki = 0#16 ∧ (State.reset.th t).h.link = false ∧
      (State.reset.th t).h.rp = [] ∧ (State.reset.th t).h.lineFill = true := fun t => by
    rw [State.th_reset]
    exact ⟨rfl, rfl, rfl, rfl, rfl, rfl, rfl, rfl, rfl, rfl, rfl, rfl, rfl⟩
  exact ⟨rfl, rfl, rfl, rfl, others, all, rfl, rfl, rfl, rfl, rfl, rfl⟩

/-- A reset thread is sound, whatever the build. -/
theorem Thread.ok_reset (c : Config) (t : Tid) (d : Nat) : (Thread.reset c t).Ok d where
  status := by
    show (if (t == 0) then 0x00020000#32 else 0#32 : Word) &&& 0xFF00F8E0#32 = 0#32
    split <;> decide
  privext := BitVec.zero_and
  defr := BitVec.zero_and
  divtime := show 1#32 &&& 0x70C0FF00#32 = 0#32 by decide
  mask := by simp [Thread.reset, Trig.reset, bitOf]
  off := by
    show (if (t == 0 && c.selfBoot) then TState.run else .off) = .off → (t == 0 && c.selfBoot) = false
    cases (t == 0 && c.selfBoot) <;> simp
  steady := by
    simp only [Thread.reset, Hidden.reset]
    cases (t == 0 && c.selfBoot) <;> simp
  pipeline := Nat.zero_le d

theorem ThreadRegs.ok_reset : ThreadRegs.reset.Ok := by
  constructor <;> decide

/-- The reset values of the shared core registers have their reserved bits at zero, whatever the build. -/
theorem CoreRegs.ok_reset (c : Config) : (CoreRegs.reset c).Ok := by
  constructor <;> simp [CoreRegs.reset, mmuModeListed]

/-- Settles O7: the reset value of each part of the state is sound. -/
theorem resetIsSound : Obligations.ResetIsSound := by
  refine ⟨⟨rfl, rfl, rfl⟩, fun t => ?_, ⟨fun t => ?_, CoreRegs.ok_reset _⟩, ⟨fun t held => ?_, rfl⟩⟩
  · rw [State.th_reset]
    exact Thread.ok_reset _ t _
  · rw [State.th_reset]
    exact ThreadRegs.ok_reset
  · cases held

end Sys2Proof.Machine
end

section
/-! PROOFS. What every step keeps (sound threads, 10_state.md R41 to R74, and nested locks) and the registers an instruction leaves. -/

namespace Sys2Proof.Machine

/-! ### Sound threads -/

/-- A thread that is on is not OFF, and in no intermediate state. -/
theorem TState.isOn.steady {x : TState} (on : x.isOn) : x ≠ .off ∧ x ≠ .tidyOff ∧ x ≠ .tidyHalt ∧ x ≠ .tidyIrq := by
  rcases on with rfl | rfl | rfl <;> decide

/-- Soundness of a thread speaks of its control unit, its background mask, and its state and read pipeline only. -/
theorem Thread.Ok.of_parts {d : Nat} {x y : Thread} (hx : x.Ok d) (ct : Ctrl.sameReserved x.ct y.ct)
    (mask : bitOf x.tr.mask 2 = false → bitOf y.tr.mask 2 = false) (hid : Hidden.sameRun x.h y.h) : y.Ok d := by
  obtain ⟨status, privext, defr, divtime, enabled⟩ := ct
  obtain ⟨rp, tstate⟩ := hid
  refine ⟨status.trans hx.status, privext.trans hx.privext, defr.trans hx.defr, divtime.trans hx.divtime, mask hx.mask, ?_, ?_, ?_⟩
  · intro off
    rw [enabled]
    obtain same | on := tstate
    · exact hx.off (same ▸ off)
    · exact absurd off on.steady.1
  · obtain same | on := tstate
    · rw [same]; exact hx.steady
    · exact on.steady.2
  · rw [rp]; exact hx.pipeline

/-- A change of one thread that leaves it sound leaves every thread sound. -/
theorem State.threadsOk_modTh {s : State} {t : Tid} {f : Thread → Thread} (hs : s.threadsOk)
    (hf : (s.th t).Ok s.cfg.readPipelineDepth → (f (s.th t)).Ok s.cfg.readPipelineDepth) : (s.modTh t f).threadsOk := by
  intro u
  by_cases hu : u = t
  · subst hu
    rw [State.th_modTh_self]
    exact hf (hs u)
  · rw [State.th_modTh_of_ne hu]
    exact hs u

theorem Ctrl.sameReserved_rfl (c : Ctrl) : Ctrl.sameReserved c c := ⟨rfl, rfl, rfl, rfl, rfl⟩

theorem Hidden.sameRun_rfl (h : Hidden) : Hidden.sameRun h h := ⟨rfl, .inl rfl⟩

/-- Every elementary update keeps the threads sound. -/
theorem threadsOk_closed : Closed State.threadsOk (fun _ _ => True) True where
  pcs := fun s t v w hs => State.threadsOk_modTh hs fun h => h.of_parts (Ctrl.sameReserved_rfl _) id (Hidden.sameRun_rfl _)
  setReg := fun s t r v _ hs u => by
    rw [State.cfg_setReg]
    exact (hs u).of_parts (by rw [State.ct_setReg]; exact Ctrl.sameReserved_rfl _) (by rw [State.tr_setReg]; exact id)
      (by rw [State.h_setReg]; exact Hidden.sameRun_rfl _)
  ct := fun s t f hf hs => State.threadsOk_modTh hs fun h => h.of_parts hf id (Hidden.sameRun_rfl _)
  enable := fun s t b hb hs => State.threadsOk_modTh hs fun h =>
    { h with off := fun off => Bool.eq_false_iff.mpr fun on => hb on off }
  tr := fun s t f hf hs => State.threadsOk_modTh hs fun h => h.of_parts (Ctrl.sameReserved_rfl _) hf (Hidden.sameRun_rfl _)
  mm := fun s t f _ hs => State.threadsOk_modTh hs fun h => h.of_parts (Ctrl.sameReserved_rfl _) id (Hidden.sameRun_rfl _)
  hid := fun s t f hf hs => State.threadsOk_modTh hs fun h => h.of_parts (Ctrl.sameReserved_rfl _) id hf
  hidAll := fun s f hf hs t => by
    have e : ({ s with thr := s.thr.map fun (x : Thread) => { x with h := f x.h } } : State).th t =
        { s.th t with h := f (s.th t).h } := by simp [State.th]
    rw [e]
    exact (hs t).of_parts (Ctrl.sameReserved_rfl _) id (hf _)
  goOff := fun s t b hs => State.threadsOk_modTh hs fun h =>
    { h with off := fun _ => rfl, steady := ⟨TState.noConfusion, TState.noConfusion, TState.noConfusion⟩ }
  goOn := fun s t x hx hs => State.threadsOk_modTh hs fun h =>
    { h with off := fun off => absurd off hx.steady.1, steady := hx.steady.2 }
  shared := fun _ _ _ hs => hs
  lock0 := fun _ _ hs => hs
  lock1 := fun _ _ _ hs => hs
  lock2 := fun _ _ _ hs => hs
  core := fun _ _ _ hs => hs
  env := fun _ _ _ hs => hs
  mem := fun _ _ _ _ _ hs => hs

/-- A read pipeline that shrinks or stays within its depth keeps the threads sound. -/
theorem threadsOk_rpClosed : RpClosed State.threadsOk := fun s t l hl hs => State.threadsOk_modTh hs fun h =>
  { h with
    divtime := (withBits_and (by decide)).trans h.divtime
    pipeline := by
      have room := h.pipeline
      show l.length ≤ s.cfg.readPipelineDepth
      omega }

/-- Settles O9, by the closure rules: each elementary update of a step keeps the threads sound. -/
theorem stepKeepsThreadsSound : Obligations.StepKeepsThreadsSound := fun _ _ hs hn =>
  threadsOk_closed.step threadsOk_rpClosed (fun _ _ hx => hx) hs hn

/-! ### Nested locks -/

/-- LOCK1 is free or the thread's where it is `freeFor` the thread. -/
theorem freeFor_cases {o : Option Tid} {t : Tid} (h : freeFor o t = true) : o = none ∨ o = some t := by
  simpa [freeFor] using h

/-- What a thread gave up it does not hold, and another keeps what it held. -/
theorem giveUp_eq_some {o : Option Tid} {t u : Tid} : giveUp o t = some u ↔ o = some u ∧ u ≠ t := by
  unfold giveUp
  split
  · rename_i held
    simp [held, eq_comm]
  · rename_i other
    constructor
    · intro held
      exact ⟨held, fun e => other (e ▸ held)⟩
    · exact fun held => held.1

/-- The trigger latches and both lock owners as they were, or the latches 3:0 still absent. -/
theorem Shared.Ok.of_sameOwners {g k : Shared} (hg : g.Ok) (h : Shared.sameOwners g k) : k.Ok := by
  obtain ⟨-, -, -, -, lock1, lock2, hwtrig⟩ := h
  refine ⟨fun t held => ?_, hwtrig hg.hwtrig⟩
  rw [lock1]
  exact hg.locks t (lock2 ▸ held)

/-- Every elementary update keeps LOCK2 nested in LOCK1 and the low trigger latches absent. -/
theorem sharedOk_closed : Closed (fun s => s.shared.Ok) (fun _ _ => True) True where
  pcs := fun _ _ _ _ hs => hs
  setReg := fun s t r v _ hs => by
    obtain ⟨hwtrig, -, lock1, lock2, -⟩ := s.shared_setReg t r v
    exact ⟨fun u held => by rw [lock1]; exact hs.locks u (lock2 ▸ held), by rw [hwtrig]; exact hs.hwtrig⟩
  ct := fun _ _ _ _ hs => hs
  enable := fun _ _ _ _ hs => hs
  tr := fun _ _ _ _ hs => hs
  mm := fun _ _ _ _ hs => hs
  hid := fun _ _ _ _ hs => hs
  hidAll := fun _ _ _ hs => hs
  goOff := fun _ _ _ hs => hs
  goOn := fun _ _ _ _ hs => hs
  shared := fun _ _ hf hs => hs.of_sameOwners hf
  lock0 := fun s t hs => ⟨fun u held => by
    obtain ⟨held, other⟩ := giveUp_eq_some.mp held
    exact giveUp_eq_some.mpr ⟨hs.locks u held, other⟩, hs.hwtrig⟩
  lock1 := fun s t free hs => ⟨fun u held => by
    obtain ⟨held, other⟩ := giveUp_eq_some.mp held
    have owner := hs.locks u held
    obtain none | mine := freeFor_cases free
    · rw [none] at owner; cases owner
    · exact absurd (Option.some.inj (owner.symm.trans mine)) other, hs.hwtrig⟩
  lock2 := fun _ _ _ hs => ⟨fun _ held => held, hs.hwtrig⟩
  core := fun _ _ _ hs => hs
  env := fun _ _ _ hs => hs
  mem := fun _ _ _ _ _ hs => hs

/-- Settles O11, by the closure rules: only the lock instructions move the owners, and they keep LOCK2's in LOCK1. -/
theorem stepKeepsLocksNested : Obligations.StepKeepsLocksNested := fun _ _ hs hn =>
  sharedOk_closed.step (fun _ _ _ _ hx => hx) (fun _ _ hx => hx) hs hn

/-! ### The registers an instruction leaves -/

/-- An update that leaves the register units of every thread and the shared ones leaves every register. -/
theorem SameRegisters.of_units {s0 s s' : State} {c : Tid} {l : List Reg} (h : SameRegisters s0 s c l)
    (units : ∀ u, (s'.th u).u.d0 = (s.th u).u.d0 ∧ (s'.th u).u.d1 = (s.th u).u.d1 ∧ (s'.th u).u.a0 = (s.th u).u.a0 ∧
      (s'.th u).u.a1 = (s.th u).u.a1)
    (shared : s'.shared.d0 = s.shared.d0 ∧ s'.shared.d1 = s.shared.d1 ∧ s'.shared.a0 = s.shared.a0 ∧ s'.shared.a1 = s.shared.a1) :
    SameRegisters s0 s' c l := fun u r hr hl => (State.reg_congr (units u) shared).trans (h u r hr hl)

/-- A change of a thread beside its register units leaves every register. -/
theorem SameRegisters.modTh {s0 s : State} {c t : Tid} {l : List Reg} {f : Thread → Thread} (h : SameRegisters s0 s c l)
    (hf : (f (s.th t)).u.d0 = (s.th t).u.d0 ∧ (f (s.th t)).u.d1 = (s.th t).u.d1 ∧ (f (s.th t)).u.a0 = (s.th t).u.a0 ∧
      (f (s.th t)).u.a1 = (s.th t).u.a1) : SameRegisters s0 (s.modTh t f) c l := by
  refine h.of_units (fun u => ?_) ⟨rfl, rfl, rfl, rfl⟩
  by_cases hu : u = t
  · subst hu
    rw [State.th_modTh_self]
    exact hf
  · rw [State.th_modTh_of_ne hu]
    exact ⟨rfl, rfl, rfl, rfl⟩

/-- Every elementary update but the write of a register of the list leaves the registers outside the list. -/
theorem sameRegisters_closed (s0 : State) (c : Tid) (l : List Reg) :
    Closed (fun s => SameRegisters s0 s c l) (fun t r => t = c ∧ r ∈ l) True where
  pcs := fun _ _ _ _ hs => hs.modTh ⟨rfl, rfl, rfl, rfl⟩
  setReg := fun s t d v hw hs u r hr hl => by
    obtain ⟨rfl, hd⟩ := hw
    exact (State.reg_setReg_of_ne fun e => hl (e ▸ hd)).trans (hs u r hr hl)
  ct := fun _ _ _ _ hs => hs.modTh ⟨rfl, rfl, rfl, rfl⟩
  enable := fun _ _ _ _ hs => hs.modTh ⟨rfl, rfl, rfl, rfl⟩
  tr := fun _ _ _ _ hs => hs.modTh ⟨rfl, rfl, rfl, rfl⟩
  mm := fun _ _ _ _ hs => hs.modTh ⟨rfl, rfl, rfl, rfl⟩
  hid := fun _ _ _ _ hs => hs.modTh ⟨rfl, rfl, rfl, rfl⟩
  hidAll := fun _ _ _ hs => hs.of_units (fun u => by simp [State.th]) ⟨rfl, rfl, rfl, rfl⟩
  goOff := fun _ _ _ hs => hs.modTh ⟨rfl, rfl, rfl, rfl⟩
  goOn := fun _ _ _ _ hs => hs.modTh ⟨rfl, rfl, rfl, rfl⟩
  shared := fun s f hf hs => by
    obtain ⟨d0, d1, a0, a1, -⟩ := hf
    exact hs.of_units (fun _ => ⟨rfl, rfl, rfl, rfl⟩) ⟨d0, d1, a0, a1⟩
  lock0 := fun _ _ hs => hs
  lock1 := fun _ _ _ hs => hs
  lock2 := fun _ _ _ hs => hs
  core := fun _ _ _ hs => hs
  env := fun _ _ _ hs => hs
  mem := fun _ _ _ _ _ hs => hs

theorem sameRegisters_rpClosed (s0 : State) (c : Tid) (l : List Reg) : RpClosed fun s => SameRegisters s0 s c l :=
  fun _ _ _ _ hs => hs.modTh ⟨rfl, rfl, rfl, rfl⟩

/-- Settles O12, by the closure rules: the only register writes of an instruction are of its destinations. -/
theorem execLeavesOtherRegisters : Obligations.ExecLeavesOtherRegisters := by
  intro i s s' hn
  have kept := ((sameRegisters_closed s s.cur (s.dests i)).withCur s.cur).exec (fun _ hx => hx.2)
    ((sameRegisters_rpClosed s s.cur (s.dests i)).withCur s.cur) (i := i) (s := s) (s' := s')
    (fun _ hd => ⟨rfl, hd⟩) (fun _ => trivial) ⟨fun _ _ _ _ => rfl, rfl⟩ hn
  exact kept.1

end Sys2Proof.Machine
end

section
/-! PROOFS. The coprocessor ports (40_data_movement.md R476). -/

namespace Sys2Proof.Machine

/-! ### The check of a port -/

section
variable {s : State} {ports : Config → Nat} {p : Fin 8} {l : List Use}

theorem portCheck_absent (absent : ports s.cfg ≤ p.val) :
    portCheck s.cur ports p l s.advanced = .error (.exc .unknownInstruction) s.advanced := by
  simp [portCheck, Nat.not_lt.mpr absent]

/-- A fitted port whose registers are usable asks for its CPpPriv privilege only. -/
theorem portCheck_fitted (fitted : p.val < ports s.cfg) (usable : s.operandsOk l) :
    portCheck s.cur ports p l s.advanced =
      if (s.privExt s.cur (24 + p.val) && !s.priv s.cur) = true then .error (.exc .privilegeViolation) s.advanced
      else .ok () s.advanced := by
  unfold portCheck
  simp only [view_bind, State.cfg_advanced, fitted, decide_true, Bool.not_true, Bool.false_eq_true, if_false, usable.bind,
    State.privExt_advanced, State.priv_advanced]
  split <;> rfl

theorem portCheck_ok (fitted : p.val < ports s.cfg) (usable : s.operandsOk l)
    (allowed : s.privExt s.cur (24 + p.val) = false ∨ s.priv s.cur = true) :
    portCheck s.cur ports p l s.advanced = .ok () s.advanced := by
  rw [portCheck_fitted fitted usable, if_neg]
  obtain unguarded | priv := allowed
  · simp [unguarded]
  · simp [priv]

theorem portCheck_forbidden (fitted : p.val < ports s.cfg) (usable : s.operandsOk l)
    (guarded : s.privExt s.cur (24 + p.val) = true) (unpriv : s.priv s.cur = false) :
    portCheck s.cur ports p l s.advanced = .error (.exc .privilegeViolation) s.advanced := by
  rw [portCheck_fitted fitted usable, if_pos (by simp [guarded, unpriv])]

end

/-! ### Transfers -/

section
variable {s : State} {p : Fin 8} {ra : Reg} {rb : Option Reg}

/-- A coprocessor read or write that its port check stops takes the check's exception. -/
theorem exec_coprocRead_exc {e : Exc}
    (stop : portCheck s.cur Config.coprocReadPorts p ((coprocRegs ra rb).map wr) s.advanced = .error (.exc e) s.advanced) :
    exec (.coprocRead p ra rb) s = .next (s.takeException s.cur e) :=
  issue_exc (body := fun _ => coprocReadBody p ra rb) s.runs_al ((me_bind _ _).trans (M.bind_error stop))

theorem exec_coprocWrite_exc {e : Exc}
    (stop : portCheck s.cur Config.coprocWritePorts p ((coprocRegs ra rb).map rd) s.advanced = .error (.exc e) s.advanced) :
    exec (.coprocWrite p ra rb) s = .next (s.takeException s.cur e) :=
  issue_exc (body := fun _ => coprocWriteBody p ra rb) s.runs_al ((me_bind _ _).trans (M.bind_error stop))

section
variable (ok : portCheck s.cur Config.coprocReadPorts p ((coprocRegs ra rb).map wr) s.advanced = .ok () s.advanced)
include ok

theorem exec_coprocRead_empty (empty : s.env.cpr[p.val] = []) : exec (.coprocRead p ra rb) s = .next (s.blocked s.cur) := by
  refine issue_block (body := fun _ => coprocReadBody p ra rb) (s' := s.advanced) s.runs_al ((M.bind_ok ok).trans ?_)
  rw [view_bind, State.env_advanced, empty]
  rfl

theorem exec_coprocRead_value {v : DWord} {l : List DWord} (held : s.env.cpr[p.val] = v :: l) :
    exec (.coprocRead p ra rb) s = .next (((s.advanced.modEnv fun e => { e with cpr := e.cpr.set p.val l p.isLt }).setCoproc
      s.cur ra rb v).complete s.cur) := by
  refine issue_ok (body := fun _ => coprocReadBody p ra rb) s.runs_al ((M.bind_ok ok).trans ?_)
  rw [view_bind, State.env_advanced, held]
  rfl

end

section
variable (ok : portCheck s.cur Config.coprocWritePorts p ((coprocRegs ra rb).map rd) s.advanced = .ok () s.advanced)
include ok

theorem exec_coprocWrite_waiting (full : s.env.cpwReady[p.val] = false) :
    exec (.coprocWrite p ra rb) s = .next (s.blocked s.cur) := by
  refine issue_block (body := fun _ => coprocWriteBody p ra rb) (s' := s.advanced) s.runs_al ((M.bind_ok ok).trans ?_)
  rw [view_bind, State.env_advanced, full]
  rfl

theorem exec_coprocWrite_sent (ready : s.env.cpwReady[p.val] = true) :
    exec (.coprocWrite p ra rb) s =
      .next ((s.advanced.emit (.coproc p (s.advanced.coprocValue s.cur ra rb))).complete s.cur) := by
  refine issue_ok (body := fun _ => coprocWriteBody p ra rb) s.runs_al ((M.bind_ok ok).trans ?_)
  rw [view_bind, State.env_advanced, ready]
  rfl

end

end

/-- Settles O35: the port check first, then the state of the port decides between the transfer and a wait. -/
theorem coprocessorPorts : Obligations.CoprocessorPorts := by
  intro s p ra rb
  refine ⟨fun fitted usable allowed => ?_, fun fitted usable allowed => ?_, fun guarded unpriv => ⟨fun fitted usable => ?_, fun
    fitted usable => ?_⟩, fun absent => ?_, fun absent => ?_⟩
  · have ok := portCheck_ok fitted usable allowed
    refine ⟨exec_coprocRead_empty ok, fun v l held => ⟨?_, ?_⟩⟩
    · rintro rfl
      exact exec_coprocRead_value ok held
    · rintro q rfl
      exact exec_coprocRead_value ok held
  · have ok := portCheck_ok fitted usable allowed
    refine ⟨exec_coprocWrite_waiting ok, fun ready => ⟨?_, ?_⟩⟩
    · rintro rfl
      simpa [State.coprocValue] using exec_coprocWrite_sent ok ready
    · rintro q rfl
      simpa [State.coprocValue, joinWords] using exec_coprocWrite_sent ok ready
  · exact exec_coprocRead_exc (portCheck_forbidden fitted usable guarded unpriv)
  · exact exec_coprocWrite_exc (portCheck_forbidden fitted usable guarded unpriv)
  · exact exec_coprocRead_exc (portCheck_absent absent)
  · exact exec_coprocWrite_exc (portCheck_absent absent)

end Sys2Proof.Machine
end

section
/-! PROOFS. Operands that stop an instruction: presence before privilege (40_data_movement.md R460 step 4, 60_exceptions.md R644). -/

namespace Sys2Proof.Machine

/-! ### Presence -/

/-- An operand that is not present is an unknown instruction or is refused. -/
theorem presence_cases {c : Config} {t : Tid} {u : Use} {e : Stop} (h : presence c t u = some e) :
    e = .exc .unknownInstruction ∨ ∃ q, e = .refused q := by
  have need : ∀ b : Bool, (if b then none else some (Stop.exc .unknownInstruction)) = some e → e = .exc .unknownInstruction :=
    fun b hb => by
      cases b with
      | false => exact (Option.some.inj hb).symm
      | true => cases hb
  have refusal : ∀ q, some (Stop.refused q) = some e → ∃ q, e = .refused q := fun q hq => ⟨q, (Option.some.inj hq).symm⟩
  unfold presence at h
  cases hu : u.reg.unit <;> simp only [hu] at h
  case d0 | d1 | a0 | a1 | pc => exact .inl (need _ h)
  case ct | tr =>
    split at h
    · cases h
    · exact .inr (refusal _ h)
  case port =>
    split at h
    · split at h
      · split at h
        · split at h
          · exact .inr (refusal _ h)
          · exact .inl (need false h)
        · cases h
      · exact .inl (need false h)
    · exact .inl (need _ h)
  case tt | fx =>
    split at h
    · exact .inl (need false h)
    · exact .inr (refusal _ h)

/-- An absent data or address register is an unknown instruction. -/
theorem presence_absent {c : Config} {t : Tid} {u : Use}
    (h : (u.reg.isData = true ∧ dataPresent c t u.reg.num = false) ∨ (u.reg.isAddress = true ∧ addrPresent c t u.reg.num = false)) :
    presence c t u = some (.exc .unknownInstruction) := by
  unfold presence
  obtain ⟨unit, absent⟩ | ⟨unit, absent⟩ := h
  · cases hu : u.reg.unit <;> simp [Reg.isData, hu] at unit <;> simp [absent]
  · cases hu : u.reg.unit <;> simp [Reg.isAddress, hu] at unit <;> simp [absent]

/-! ### What stops a list of operands -/

section
variable {s : State} {t : Tid} {l : List Use}

theorem State.operandStop_nil (s : State) (t : Tid) : s.operandStop t [] = none := by
  simp [State.operandStop]

/-- A list whose first operand that is not present is an unknown instruction. -/
theorem State.operandStop_absent {before after : List Use} {u : Use}
    (unrefused : ∀ x ∈ before, ∀ q, presence s.cfg t x ≠ some (.refused q))
    (absent : presence s.cfg t u = some (.exc .unknownInstruction)) :
    s.operandStop t (before ++ u :: after) = some (.exc .unknownInstruction) := by
  have first : (before ++ u :: after).findSome? (presence s.cfg t) = some (.exc .unknownInstruction) := by
    rw [List.findSome?_append]
    match found : before.findSome? (presence s.cfg t) with
    | none => simp [absent]
    | some e =>
      obtain ⟨x, hx, stops⟩ := List.exists_of_findSome?_eq_some found
      obtain rfl | ⟨q, rfl⟩ := presence_cases stops
      · rfl
      · exact absurd stops (unrefused x hx q)
  rw [State.operandStop, first]

/-- Present operands stop an instruction for their privilege only. -/
theorem State.operandStop_present (present : ∀ u ∈ l, presence s.cfg t u = none) :
    s.operandStop t l = if (!s.priv t && l.any (s.needsPriv t)) = true then some (.exc .privilegeViolation) else none := by
  have all : l.findSome? (presence s.cfg t) = none := List.findSome?_eq_none_iff.mpr present
  rw [State.operandStop, all]

/-- Where the operands raise an exception, the traps of presence and privilege raise it too. -/
theorem State.operandTrap_of_stop {e : Exc} (h : s.operandStop t l = some (.exc e)) : s.operandTrap t l = some e := by
  unfold State.operandTrap
  match found : l.findSome? (presence s.cfg t) with
  | some x =>
    rw [State.operandStop, found] at h
    obtain rfl := Option.some.inj h
    obtain ⟨u, hu, stops⟩ := List.exists_of_findSome?_eq_some found
    obtain unknown | ⟨q, refused⟩ := presence_cases stops
    · obtain rfl := Stop.exc.inj unknown
      rw [if_pos]
      exact List.any_eq_true.mpr ⟨u, hu, by rw [stops]⟩
    · cases refused
  | none =>
    have present := List.findSome?_eq_none_iff.mp found
    rw [State.operandStop_present present] at h
    split at h
    · rename_i unpriv
      obtain rfl := Stop.exc.inj (Option.some.inj h)
      dsimp only
      split
      · rename_i absent
        obtain ⟨u, hu, stops⟩ := List.any_eq_true.mp absent
        rw [present u hu] at stops
        cases stops
      · rfl
    · cases h

/-- What stops an instruction for its operands leaves nothing of it done. -/
theorem State.operandStop_early {e : Stop} (h : s.operandStop t l = some e) (x : Exc) : e ≠ .late x := by
  rintro rfl
  match found : l.findSome? (presence s.cfg t) with
  | some y =>
    rw [State.operandStop, found] at h
    obtain rfl := Option.some.inj h
    obtain ⟨u, -, stops⟩ := List.exists_of_findSome?_eq_some found
    obtain unknown | ⟨q, refused⟩ := presence_cases stops
    · cases unknown
    · cases refused
  | none =>
    rw [State.operandStop_present (List.findSome?_eq_none_iff.mp found)] at h
    split at h <;> cases h

end

/-! ### Instructions -/

section
variable {s : State} {e : Stop}

/-- A body that begins with the check of its operands. -/
theorem checked_stops {l : List Use} {rest : Tid → Unit → M Unit} (stop : s.operandStop s.cur l = some e) :
    (me >>= fun t => check t l >>= rest t) s = .error e s := check_bind_stop stop

/-- A SWAP of two specialist units looks at its traps first. -/
theorem swapBody_stops {a b : Reg} {pc : Word} (stop : s.operandStop s.cur [rd a, wr a, rd b, wr b] = some e)
    (trap : (UnitId.isSpecialist a.unit && UnitId.isSpecialist b.unit) = true → ∃ x, e = .exc x) :
    swapBody a b pc s = .error e s := by
  unfold swapBody
  rw [me_bind]
  by_cases special : (UnitId.isSpecialist a.unit && UnitId.isSpecialist b.unit) = true
  · obtain ⟨x, rfl⟩ := trap special
    simp only [special, if_true]
    rw [view_bind, State.operandTrap_of_stop stop]
    rfl
  · simp only [special]
    exact check_bind_stop stop

/-- One iteration of an instruction whose operands stop it. -/
theorem iteration_stops {i : Instr} (pc : Word) (plain : isCoproc i = false)
    (trap : isSpecialSwap i = true → ∃ x, e = .exc x) (stop : s.operandStop s.cur (instrUses i) = some e) :
    (iteration i).2 pc s = .error e s := by
  induction i with
  | repeatForm i ih => exact ih plain trap stop
  | lock0 | lock1 | lock2 | rti | nop | switch | bcc | memToMem | xfr | hardwareLoop =>
    rw [instrUses, State.operandStop_nil] at stop
    cases stop
  | coprocRead | coprocWrite => cases plain
  | swap c a b => exact swapBody_stops stop trap
  | movRd c d =>
    cases d with
    | one d => exact checked_stops stop
    | pair ra rb => exact checked_stops stop
  | _ => exact checked_stops stop

/-- One issue of an instruction whose operands stop it. -/
theorem exec_stops {i : Instr} (plain : isCoproc i = false) (runs : s.runs (instrCond i))
    (trap : isSpecialSwap i = true → ∃ x, e = .exc x) (stop : s.operandStop s.cur (instrUses i) = some e) :
    exec i s = finishIssue s s.cur (.error e s.advanced) := by
  have once : (iteration i).2 (s.pcOf s.cur) s.advanced = .error e s.advanced :=
    iteration_stops _ plain trap (by simpa using stop)
  have none_stops : ∀ j, instrUses j = [] → instrUses i = instrUses j → False := fun j none same => by
    rw [same, none, State.operandStop_nil] at stop
    cases stop
  have issued : ∀ body : Word → M Unit, body (s.pcOf s.cur) s.advanced = .error e s.advanced →
      issue (instrCond i) body s = finishIssue s s.cur (.error e s.advanced) := fun body hb => by
    rw [issue_runs runs, hb]
  cases i with
  | memToMem | xfr | hardwareLoop | switch => exact (none_stops _ rfl rfl).elim
  | repeatForm r =>
    rw [exec_repeatForm, iteration_cond]
    refine issued _ ?_
    have rest : afterwards ((iteration r).2 (s.pcOf s.cur)) (update fun x => x.repAdvance s.cur (isMultiple r) (s.pcOf s.cur))
        s.advanced = .error e s.advanced := by
      have early := State.operandStop_early stop
      unfold afterwards
      rw [show (iteration r).2 (s.pcOf s.cur) s.advanced = .error e s.advanced from once]
      cases e with
      | late x => exact absurd rfl (early x)
      | _ => rfl
    cases r with
    | bcc => exact (none_stops _ rfl rfl).elim
    | _ => exact rest
  | _ =>
    rw [exec_once rfl, iteration_cond]
    exact issued _ once

end

/-! ### Privilege -/

/-- The write classes of the control registers that a bit of TXPRIVEXT controls (10_state.md R40). -/
def controlledRegs : List (BitVec 5 × Nat) :=
  [(0#5, 8), (4#5, 19), (13#5, 10), (16#5, 9), (17#5, 9), (18#5, 9), (19#5, 9), (20#5, 0), (28#5, 12), (30#5, 13), (31#5, 13)]

/-- The column of R40, TXSTATUS aside: TXPRIVEXT always, the others by their bit. -/
theorem ctNeedsPriv_iff (w : Word) (n : BitVec 5) :
    ¬ n = 2#5 ∧ ctNeedsPriv w n = true ↔ n = 29#5 ∨ ∃ b, (n, b) ∈ controlledRegs ∧ bitOf w b = true := by
  have number : ∀ n : BitVec 5, ∃ k : Fin 32, n = BitVec.ofFin k := fun n => ⟨n.toFin, rfl⟩
  obtain ⟨k, rfl⟩ := number n
  fin_cases k <;> simp [controlledRegs, ctNeedsPriv]

/-- The operands that need privilege (10_state.md R34, R40, R57). -/
theorem State.needsPriv_iff (s : State) (t : Tid) (u : Use) :
    s.needsPriv t u = true ↔ (isGlobalReg u.reg = true ∧ s.privExt t 16 = true) ∨ (u.reg = ⟨.pc, 1#5⟩ ∧ s.privExt t 0 = true) ∨
      (u.write = true ∧ (u.reg = ⟨.ct, 29#5⟩ ∨ ∃ p ∈ controlledRegs, u.reg = ⟨.ct, p.1⟩ ∧ s.privExt t p.2 = true)) ∨
      (u.reg.unit = .tr ∧ s.privExt t 17 = true) ∨
      ((u.reg = ⟨.tr, 2#5⟩ ∨ u.reg = ⟨.tr, 3#5⟩) ∧ s.privExt t 0 = true) := by
  obtain ⟨⟨unit, num⟩, write⟩ := u
  have column := ctNeedsPriv_iff (s.th t).ct.txprivext num
  cases unit <;> simp [State.needsPriv, State.pToggle, isGlobalReg]
  case ct =>
    rw [and_assoc, column]
    rfl

/-- Settles O18: the check of the operands is the first thing a body does, and it looks at presence before privilege. -/
theorem operandStopsTrap : Obligations.OperandStopsTrap := by
  refine ⟨fun i s plain runs => ⟨fun e stop => ?_, fun q common stop => ?_⟩, fun s t l => ⟨?_, fun present priv => ?_, fun present
    unpriv => ?_⟩⟩
  · exact exec_stops plain runs (fun _ => ⟨e, rfl⟩) stop
  · exact exec_stops plain runs (fun special => by rw [common] at special; cases special) stop
  · rintro before u after rfl unrefused absent
    exact State.operandStop_absent unrefused (presence_absent absent)
  · rw [State.operandStop_present present, priv]
    rfl
  · have stops : s.operandStop t l = some (.exc .privilegeViolation) ↔ ∃ u ∈ l, s.needsPriv t u = true := by
      rw [State.operandStop_present present, unpriv, ← List.any_eq_true]
      simp
    simp only [State.needsPriv_iff] at stops
    exact stops

end Sys2Proof.Machine
end

section
/-! PROOFS. The control registers: what a write leaves to be read, and turning a thread on and off
(10_state.md R40 to R57, 60_exceptions.md R652 to R655). -/

namespace Sys2Proof.Machine

/-! ### The registers that store a value -/

/-- The control registers a write stores something in, TXENABLE aside. -/
def storedRegs : List (BitVec 5) :=
  [1#5, 2#5, 3#5, 4#5, 13#5, 16#5, 17#5, 18#5, 19#5, 20#5, 28#5, 29#5, 30#5, 31#5]

section
variable (s : State) (t : Tid) (v : Word)

/-- A write of one control register leaves what every other one reads. -/
theorem State.ctRead_ctWrite_of_ne {n m : BitVec 5} (hn : n ∈ storedRegs) (h : m ≠ n) :
    (s.ctWrite t n v).ctRead t m = s.ctRead t m := by
  have number : m.toNat ≠ n.toNat := fun e => h (BitVec.eq_of_toNat_eq e)
  simp only [storedRegs, List.mem_cons, List.not_mem_nil, or_false] at hn
  rcases hn with rfl | rfl | rfl | rfl | rfl | rfl | rfl | rfl | rfl | rfl | rfl | rfl | rfl | rfl
  all_goals
    unfold State.ctRead State.readEnable
    simp only [State.ctWrite, BitVec.toNat_ofNat, Nat.reducePow, Nat.reduceMod, State.setStatus, State.ct_modCt_self,
      State.h_modCt, State.cfg_modCt, State.shared_modCt, State.th_modShared, State.cfg_modShared, State.shared_modShared]
    split <;> first | rfl | exact absurd (by assumption) number

/-- The registers a write replaces whole. -/
theorem State.ctRead_ctWrite_plain {n : BitVec 5} (hn : n ∈ [1#5, 3#5, 4#5, 13#5, 16#5, 17#5, 18#5, 19#5]) :
    (s.ctWrite t n v).ctRead t n = v := by
  simp only [List.mem_cons, List.not_mem_nil, or_false] at hn
  rcases hn with rfl | rfl | rfl | rfl | rfl | rfl | rfl | rfl <;> simp [State.ctRead, State.ctWrite]

theorem State.ctRead_ctWrite_status :
    (s.ctWrite t 2#5 v).ctRead t 2#5 = maskWrite (s.status t) v (statusMask ((s.th t).h.tstate == .off)) := by
  simp [State.ctRead, State.ctWrite, State.setStatus]

theorem State.ctRead_ctWrite_defr :
    (s.ctWrite t 20#5 v).ctRead t 20#5 = maskWrite (s.ctRead t 20#5) v (defrMask s.cfg) := by
  simp [State.ctRead, State.ctWrite]

theorem State.ctRead_ctWrite_divtime :
    (s.ctWrite t 28#5 v).ctRead t 28#5 = maskWrite (s.ctRead t 28#5) v 0x8F3F00FF#32 := by
  simp [State.ctRead, State.ctWrite]

theorem State.ctRead_ctWrite_privext :
    (s.ctWrite t 29#5 v).ctRead t 29#5 = maskWrite (s.ctRead t 29#5) v (privextMask ((s.th t).h.tstate == .off)) := by
  simp [State.ctRead, State.ctWrite]

theorem State.ctRead_ctWrite_cycles :
    (s.ctWrite t 30#5 v).ctRead t 30#5 = 0#32 ∧ (s.ctWrite t 31#5 v).ctRead t 31#5 = 0#32 := by
  simp [State.ctRead, State.ctWrite]

/-! ### TXENABLE -/

/-- The low bits of TXENABLE: ThreadEnable, OFF, TStopped. -/
theorem State.ctRead_enable_bits : bitOf (s.ctRead t 0#5) 0 = (s.th t).ct.enabled ∧
    bitOf (s.ctRead t 0#5) 1 = ((s.th t).h.tstate == .off) ∧ bitOf (s.ctRead t 0#5) 2 = (s.th t).ct.stopped := by
  have read : s.ctRead t 0#5 = s.readEnable t := rfl
  rw [read]
  unfold State.readEnable bitOf
  simp only [BitVec.getLsbD_append]
  exact ⟨bitOf_b1 _, bitOf_b1 _, bitOf_b1 _⟩

theorem State.ctWrite_enable : s.ctWrite t 0#5 v = s.writeEnable t (bitOf v 0) := rfl

theorem State.writeEnable_same {b : Bool} (h : b = (s.th t).ct.enabled) : s.writeEnable t b = s := by
  simp [State.writeEnable, h]

theorem State.writeEnable_on (disabled : (s.th t).ct.enabled = false) (off : (s.th t).h.tstate = .off) :
    s.writeEnable t true = s.turnOn t := by
  simp [State.writeEnable, disabled, off]

theorem State.writeEnable_off (enabled : (s.th t).ct.enabled = true) (on : (s.th t).h.tstate ≠ .off)
    (steady : (s.th t).h.tstate ≠ .cbRestore) : s.writeEnable t false = s.turnOff t := by
  simp [State.writeEnable, enabled, on, steady]

/-- Where a write of ThreadEnable is stored only. -/
theorem State.writeEnable_stored {b : Bool}
    (h : ((s.th t).ct.enabled = true ∧ b = false ∧ ((s.th t).h.tstate = .off ∨ (s.th t).h.tstate = .cbRestore)) ∨
      ((s.th t).ct.enabled = false ∧ b = true ∧ (s.th t).h.tstate ≠ .off)) :
    s.writeEnable t b = s.modCt t fun c => { c with enabled := b } := by
  obtain ⟨enabled, rfl, still⟩ | ⟨disabled, rfl, on⟩ := h
  · simp [State.writeEnable, enabled, still]
  · simp [State.writeEnable, disabled, on]

/-! ### Turning on -/

/-- A thread turned on: ThreadEnable is 1 and TStopped 0; it runs with RPDirty clear, or is in CBRESTORE with RPDirty as it was. -/
theorem State.turnOn_thread : ((s.turnOn t).th t).ct.enabled = true ∧ ((s.turnOn t).th t).ct.stopped = false ∧
    ((s.turnOn t).th t).u = (s.th t).u ∧ (s.turnOn t).status t = s.status t ∧
    (s.cbMarker t = false → ((s.turnOn t).th t).h.tstate = .run ∧ (s.turnOn t).rpDirty t = false) ∧
    (s.cbMarker t = true → ((s.turnOn t).th t).h.tstate = .cbRestore ∧ (s.turnOn t).rpDirty t = s.rpDirty t) := by
  have marker : bitOf (s.th t).ct.txstatus 22 = s.cbMarker t := rfl
  unfold State.turnOn
  by_cases caught : s.cbMarker t = true
  · simp [caught, marker, State.status, State.rpDirty]
  · simp [caught, marker, State.status, State.rpDirty, State.setRpDirty, bitOf_withBit_self]

/-! ### Turning off -/

/-- The quiet state changes no bit of TXSTATUS but CBMarker. -/
theorem State.status_quiesce_and : (s.quiesce t).status t &&& 0xFFBFFFFF#32 = s.status t &&& 0xFFBFFFFF#32 := by
  rw [State.status_quiesce]
  split
  · rfl
  · exact withBit_and (by decide)

@[simp] theorem State.istat_quiesce : (s.quiesce t).istat t = s.istat t := by
  unfold State.istat
  rw [State.status_quiesce]
  split
  · rfl
  · exact bitOf_withBit_of_ne (by decide)

/-- A read pipeline that holds data is marked in the quiet state. -/
theorem State.quiesce_marks (holds : (s.th t).h.rp ≠ []) :
    (s.quiesce t).rpDirty t = true ∧ (s.quiesce t).cbMarker t = true := by
  have full : (s.th t).h.rp.isEmpty = false := by simpa using holds
  obtain ⟨d, ct⟩ := s.ct_quiesce t
  unfold State.rpDirty State.cbMarker State.status
  simp [ct, full, bitOf_withBit_self]

/-- The control unit of a thread that goes OFF, its two enable bits aside. -/
theorem State.ct_turnOff : ((s.turnOff t).th t).ct = { ((s.quiesce t).th t).ct with enabled := false, stopped := true } := by
  simp [State.turnOff, State.goOff]

theorem State.h_turnOff : ((s.turnOff t).th t).h = { ((s.quiesce t).th t).h with tstate := .off } := by
  simp [State.turnOff, State.goOff]

/-- The B or I trigger of a thread turned off is its bit of HWSTATMETA. -/
theorem State.core_turnOff : (s.turnOff t).core =
    { s.core with hwstatmeta := withBit s.core.hwstatmeta (4 * t.val + if s.istat t then 1 else 0) true } := by
  have level : ((s.quiesce t).goOff t true).istat t = s.istat t := by
    rw [← s.istat_quiesce t]
    simp [State.istat, State.status, State.goOff]
  unfold State.turnOff
  obtain ⟨w, e⟩ := ((s.quiesce t).goOff t true).raiseThreadTrigger_eq t
  rw [e, State.core_raiseMeta, level]
  simp [State.goOff]

/-- No linked answer is on its way to a thread turned off. -/
theorem State.pendingLnk_turnOff : (s.turnOff t).pendingLnk t = 0 := by
  unfold State.turnOff
  obtain ⟨w, e⟩ := ((s.quiesce t).goOff t true).raiseThreadTrigger_eq t
  obtain ⟨o, env⟩ := ((s.quiesce t).goOff t true).env_raiseMeta (4 * t.val + if ((s.quiesce t).goOff t true).istat t then 1 else 0) w
  have none_pending := s.pendingLnk_quiesce t
  unfold State.pendingLnk at none_pending ⊢
  rw [e, env]
  exact none_pending

end

/-- Settles O22: one lemma per register for what it stores, and the two ways TXENABLE moves a thread. -/
theorem controlRegisterFields : Obligations.ControlRegisterFields := by
  intro s t v
  refine ⟨fun on => ?_, fun off => ?_, fun n hn => s.ctRead_ctWrite_plain t v hn, s.ctRead_ctWrite_defr t v,
    s.ctRead_ctWrite_divtime t v, (s.ctRead_ctWrite_cycles t v).1, (s.ctRead_ctWrite_cycles t v).2,
    fun n m hn h => s.ctRead_ctWrite_of_ne t v hn h, s.ctRead_enable_bits t, ?_⟩
  · have off : ((s.th t).h.tstate == .off) = false := by simpa using on
    rw [s.ctRead_ctWrite_status t v, s.ctRead_ctWrite_privext t v, off]
    exact ⟨rfl, rfl⟩
  · have off' : ((s.th t).h.tstate == .off) = true := by simpa using off
    rw [s.ctRead_ctWrite_status t v, s.ctRead_ctWrite_privext t v, off']
    exact ⟨rfl, rfl⟩
  · rw [s.ctWrite_enable t v]
    refine ⟨s.writeEnable_same t, fun disabled set off => ?_, fun enabled clear on steady => ?_, s.writeEnable_stored t⟩
    · rw [set, s.writeEnable_on t disabled off]
      exact s.turnOn_thread t
    · rw [clear, s.writeEnable_off t enabled on steady]
      obtain ⟨disabled, stopped, off, units⟩ := s.turnOff_thread t
      refine ⟨disabled, stopped, off, ?_, s.pendingLnk_turnOff t, units, ?_, fun holds => ?_, ?_, ?_⟩
      · rw [s.h_turnOff t, State.h_quiesce]
      · rw [State.status, s.ct_turnOff t]
        exact s.status_quiesce_and t
      · obtain ⟨dirty, marked⟩ := s.quiesce_marks t holds
        rw [State.rpDirty, State.cbMarker, State.status, s.ct_turnOff t]
        exact ⟨dirty, marked⟩
      · have small : 4 * t.val + (if s.istat t then 1 else 0) < 32 := by
          have := t.isLt
          split <;> omega
        rw [s.core_turnOff t]
        exact bitOf_withBit_self small
      · rw [s.core_turnOff t]
        exact bitOf_withBit_of_ne (by split <;> omega)

end Sys2Proof.Machine
end

section
/-! PROOFS. What a data exception leaves in the catch registers (60_exceptions.md R656, 10_state.md R52 to R54). -/

namespace Sys2Proof.Machine

/-! ### TXCATCH0 -/

section
variable (p : Bool) (e : DataExc) (num : BitVec 5) (units : BitVec 11) (read : Bool) (sb : Byte)

theorem catchWord_num : bitsOf (catchWord p e num units read sb) 27 5 = num := by
  unfold catchWord
  iterate 8 rw [bitsOf_append_high (by decide)]
  exact bitsOf_self _

theorem catchWord_units : bitsOf (catchWord p e num units read sb) 16 11 = units := by
  unfold catchWord
  iterate 7 rw [bitsOf_append_high (by decide)]
  rw [bitsOf_append_low (by decide)]
  exact bitsOf_self _

theorem catchWord_priv : bitOf (catchWord p e num units read sb) 9 = p := by
  unfold catchWord
  iterate 2 rw [bitOf_append_high (by decide)]
  rw [bitOf_append_low (by decide)]
  exact bitOf_b1 _

theorem catchWord_read : bitOf (catchWord p e num units read sb) 8 = read := by
  unfold catchWord
  rw [bitOf_append_high (by decide), bitOf_append_low (by decide)]
  exact bitOf_b1 _

theorem catchWord_bitsOf_low {lo n : Nat} (h : lo + n ≤ 8) : bitsOf (catchWord p e num units read sb) lo n = bitsOf sb lo n := by
  unfold catchWord
  exact bitsOf_append_low h

theorem catchWord_bitOf_low {i : Nat} (h : i < 8) : bitOf (catchWord p e num units read sb) i = bitOf sb i := by
  unfold catchWord
  exact bitOf_append_low h

/-- The fields of TXCATCH0 that say why a transfer was caught, whatever stands around them. -/
theorem catchRow_why (caught set : Bool) (wp req : BitVec 2) :
    let row : Word := num ++ units ++ b1 caught ++ b1 set ++ wp ++ req ++ b1 p ++ b1 read ++ sb
    bitsOf row 10 2 = req ∧ bitOf row 14 = set ∧ bitsOf row 12 2 = wp := by
  refine ⟨?_, ?_, ?_⟩
  · iterate 3 rw [bitsOf_append_high (by decide)]
    rw [bitsOf_append_low (by decide)]
    exact bitsOf_self _
  · iterate 5 rw [bitOf_append_high (by decide)]
    rw [bitOf_append_low (by decide)]
    exact bitOf_b1 _
  · iterate 4 rw [bitsOf_append_high (by decide)]
    rw [bitsOf_append_low (by decide)]
    exact bitsOf_self _

/-- The reason field of a fault and its watchpoints. -/
theorem catchWord_fault (r : FReason) (w : BitVec 2) :
    bitsOf (catchWord p (.fault r w) num units read sb) 10 2 = r.code ∧
      bitOf (catchWord p (.fault r w) num units read sb) 14 = false ∧
      bitsOf (catchWord p (.fault r w) num units read sb) 12 2 = w := catchRow_why p num units read sb false false w r.code

/-- The watchpoints that stopped an access, without a reason. -/
theorem catchWord_watch (w : BitVec 2) :
    bitsOf (catchWord p (.watch w) num units read sb) 10 2 = 0#2 ∧
      bitOf (catchWord p (.watch w) num units read sb) 14 = true ∧
      bitsOf (catchWord p (.watch w) num units read sb) 12 2 = w := catchRow_why p num units read sb false true w 0#2

end

/-! ### The lanes of a store -/

theorem widthBytes_cases (w : Width) : widthBytes w = 1 ∨ widthBytes w = 2 ∨ widthBytes w = 4 ∨ widthBytes w = 8 := by
  cases w <;> simp [widthBytes]

/-- The lanes of an aligned access lie within the eight of its double word. -/
theorem lanes_fit {la : Word} {w : Width} (h : la.toNat % widthBytes w = 0) : la.toNat % 8 + widthBytes w ≤ 8 := by
  obtain e | e | e | e := widthBytes_cases w <;> rw [e] at h ⊢ <;> omega

/-- A lane of the mask is set where the access has a byte. -/
theorem bitOf_laneMask {la : Word} {n k : Nat} (hk : k < 8) :
    bitOf (laneMask la n) k = (decide (la.toNat % 8 ≤ k) && decide (k < la.toNat % 8 + n)) := by
  unfold bitOf laneMask
  rw [BitVec.getLsbD_shiftLeft, BitVec.getLsbD_ofNat, Nat.testBit_two_pow_sub_one]
  by_cases low : la.toNat % 8 ≤ k
  · have hlt : ¬ k < la.toNat % 8 := by omega
    have h8 : k - la.toNat % 8 < 8 := by omega
    have iff : (k - la.toNat % 8 < n) ↔ k < la.toNat % 8 + n := by omega
    simp [hk, low, hlt, h8, iff]
  · have hlt : k < la.toNat % 8 := by omega
    simp [hk, low, hlt]

/-- The two words of a double word joined again. -/
theorem joinWords_split (d : DWord) : joinWords (hiWord d) (loWord d) = d :=
  BitVec.extractLsb'_append_extractLsb' (w := 32) (len := 32) (x := d)

/-- The bytes of a store, put into their lanes and taken out again. -/
theorem zextBytes_lanes {n o : Nat} (v : DWord) (h : o + n ≤ 8) :
    zextBytes n ((zextBytes n v <<< (8 * o)) >>> (8 * o)) = zextBytes n v := by
  apply BitVec.eq_of_getLsbD_eq
  intro i hi
  simp only [zextBytes, BitVec.getLsbD_setWidth, BitVec.getLsbD_ushiftRight, BitVec.getLsbD_shiftLeft]
  by_cases hn : i < 8 * n
  · have h64 : 8 * o + i < 64 := by omega
    simp [hi, hn, h64]
  · simp [hn]

/-! ### Taking a data exception -/

/-- What an exception saves it still holds where the thread stops or enters its handler: the catch registers, CBMarker and
CB1Marker. -/
theorem State.takeException_catch (s : State) (t : Tid) (e : Exc) :
    (((s.takeException t e).th t).ct.txcatch0 = ((s.exceptionSaved t e).th t).ct.txcatch0 ∧
      ((s.takeException t e).th t).ct.txcatch1 = ((s.exceptionSaved t e).th t).ct.txcatch1 ∧
      ((s.takeException t e).th t).ct.txcatch2 = ((s.exceptionSaved t e).th t).ct.txcatch2 ∧
      ((s.takeException t e).th t).ct.txcatch3 = ((s.exceptionSaved t e).th t).ct.txcatch3) ∧
    ((s.exceptionSaved t e).cbMarker t = true → (s.takeException t e).cbMarker t = true) ∧
    bitOf ((s.takeException t e).status t) 23 = bitOf ((s.exceptionSaved t e).status t) 23 := by
  rw [State.takeException_eq]
  by_cases owns : (s.exceptionSaved t e).ownsHalt t = true
  · rw [if_pos owns]
    have entered := interruptEntry_spec ((s.exceptionSaved t e).modTh t fun x =>
      { x with tr := { x.tr with haltTrig := true }, h := { x.h with tstate := .halted } }) t
    obtain ⟨a, b, d, ct⟩ := entered.ct
    refine ⟨by rw [ct]; simp, fun marked => entered.cb' (by simpa [State.cbMarker, State.status] using marked), ?_⟩
    rw [entered.st 23 (by decide) (by decide) (by decide)]
    simp [State.status]
  · rw [if_neg owns]
    have off : (((s.exceptionSaved t e).goOff t false).th t).ct =
        { ((s.exceptionSaved t e).th t).ct with enabled := false, stopped := false } := by simp [State.goOff]
    have gone : ∀ q : State, (q.th t).ct = { ((s.exceptionSaved t e).th t).ct with enabled := false, stopped := false } →
        ((q.th t).ct.txcatch0 = ((s.exceptionSaved t e).th t).ct.txcatch0 ∧
          (q.th t).ct.txcatch1 = ((s.exceptionSaved t e).th t).ct.txcatch1 ∧
          (q.th t).ct.txcatch2 = ((s.exceptionSaved t e).th t).ct.txcatch2 ∧
          (q.th t).ct.txcatch3 = ((s.exceptionSaved t e).th t).ct.txcatch3) ∧
        ((s.exceptionSaved t e).cbMarker t = true → q.cbMarker t = true) ∧
        bitOf (q.status t) 23 = bitOf ((s.exceptionSaved t e).status t) 23 := fun q hq => by
      simp [State.cbMarker, State.status, hq]
    refine gone _ ?_
    split <;> simp [State.raisePageTrigger, off]

/-- The catch state saved marks the thread, and at interrupt level marks that too. -/
theorem State.catchSave_marks (p : State) (t : Tid) (d : DataExc) (x : Xfer) :
    (p.catchSave t d x).cbMarker t = true ∧ (p.istat t = true → bitOf ((p.catchSave t d x).status t) 23 = true) := by
  have status : ∃ q : State, q.status t = p.status t ∧ p.catchSave t d x = q.setStatus t
      (if q.istat t then withBit (withBit (q.status t) 22 true) 23 true else withBit (q.status t) 22 true) := by
    refine ⟨_, ?_, rfl⟩
    cases x <;> simp [State.status]
  obtain ⟨q, same, saved⟩ := status
  have level : q.istat t = p.istat t := by rw [State.istat, State.istat, same]
  rw [saved, State.cbMarker, State.status_setStatus, level]
  refine ⟨?_, fun irq => ?_⟩
  · split
    · rw [bitOf_withBit_of_ne (by decide), bitOf_withBit_self (by decide)]
    · rw [bitOf_withBit_self (by decide)]
  · rw [if_pos irq, bitOf_withBit_self (by decide)]

section
variable (p : State) (t : Tid) (d : DataExc) (la : Word)

theorem State.catchSave_load (w : Width) (num : BitVec 5) (units : BitVec 11) (lnk first : Bool) :
    ((p.catchSave t d (.load w la num units lnk first)).th t).ct.txcatch0 =
        catchWord (p.priv t) d num units true (0#3 ++ 0#1 ++ b1 lnk ++ b1 first ++ widthCode w) ∧
      ((p.catchSave t d (.load w la num units lnk first)).th t).ct.txcatch1 = la := by
  simp [State.catchSave, State.setStatus]

theorem State.catchSave_issue (port : ReadPort) :
    ((p.catchSave t d (.issue port la)).th t).ct.txcatch0 = catchWord (p.priv t) d 0#5 0#11 true (0#3 ++ port.num) ∧
      ((p.catchSave t d (.issue port la)).th t).ct.txcatch1 = la := by
  simp [State.catchSave, State.setStatus]

theorem State.catchSave_store (w : Width) (v : DWord) :
    (((p.catchSave t d (.store w la v)).th t).ct.txcatch0 =
        catchWord (p.priv t) d 0#5 0#11 false (laneMask la (widthBytes w)) ∧
      ((p.catchSave t d (.store w la v)).th t).ct.txcatch1 = la) ∧
      joinWords ((p.catchSave t d (.store w la v)).th t).ct.txcatch3 ((p.catchSave t d (.store w la v)).th t).ct.txcatch2 =
        zextBytes (widthBytes w) v <<< (8 * (la.toNat % 8)) := by
  simp [State.catchSave, State.setStatus, joinWords_split]

end

/-- What every caught transfer leaves: its address, its direction, the privilege it had, why it was caught, and the markers. -/
def Caught (s s' : State) (t : Tid) (d : DataExc) (la : Word) (read : Bool) : Prop :=
  s'.cbMarker t = true ∧ (s'.th t).ct.txcatch1 = la ∧ bitOf (s'.th t).ct.txcatch0 9 = s.priv t ∧
  bitOf (s'.th t).ct.txcatch0 8 = read ∧ (s.istat t = true → bitOf (s'.status t) 23 = true) ∧
  (∀ r p, d = .fault r p → bitsOf (s'.th t).ct.txcatch0 10 2 = r.code ∧ bitOf (s'.th t).ct.txcatch0 14 = false ∧
    bitsOf (s'.th t).ct.txcatch0 12 2 = p) ∧
  (∀ p, d = .watch p → bitsOf (s'.th t).ct.txcatch0 10 2 = 0#2 ∧ bitOf (s'.th t).ct.txcatch0 14 = true ∧
    bitsOf (s'.th t).ct.txcatch0 12 2 = p)

/-- The state in which the catch registers of a data exception are written: the exception's reason and the quiet state made. -/
def State.beforeCatch (s : State) (t : Tid) (d : DataExc) (x : Xfer) : State := (s.setReason t (.data d x)).quiesce t

theorem State.beforeCatch_level (s : State) (t : Tid) (d : DataExc) (x : Xfer) :
    (s.beforeCatch t d x).priv t = s.priv t ∧ (s.beforeCatch t d x).istat t = s.istat t :=
  have kept := (exceptionSaved_quiesce s t (.data d x)).st
  ⟨kept 17 (by decide), kept 16 (by decide)⟩

/-- A transfer whose catch word and address are saved is caught. -/
theorem caught_of_saved {s : State} {t : Tid} {d : DataExc} {x : Xfer} {la : Word} {num : BitVec 5} {units : BitVec 11}
    {read : Bool} {sb : Byte}
    (saved : ((((s.beforeCatch t d x).catchSave t d x).th t).ct.txcatch0 =
        catchWord ((s.beforeCatch t d x).priv t) d num units read sb) ∧
      (((s.beforeCatch t d x).catchSave t d x).th t).ct.txcatch1 = la) :
    Caught s (s.takeException t (.data d x)) t d la read ∧
      ((s.takeException t (.data d x)).th t).ct.txcatch0 = catchWord (s.priv t) d num units read sb := by
  obtain ⟨word, addr⟩ := saved
  obtain ⟨priv, level⟩ := s.beforeCatch_level t d x
  obtain ⟨marked, marked1⟩ := (s.beforeCatch t d x).catchSave_marks t d x
  obtain ⟨⟨kept0, kept1, -, -⟩, cb, cb1⟩ := s.takeException_catch t (.data d x)
  have word' : ((s.takeException t (.data d x)).th t).ct.txcatch0 = catchWord (s.priv t) d num units read sb :=
    kept0.trans (priv ▸ word)
  refine ⟨⟨cb marked, kept1.trans addr, ?_, ?_, fun irq => cb1.trans (marked1 (level.trans irq)), ?_, ?_⟩, word'⟩
  all_goals rw [word']
  · exact catchWord_priv ..
  · exact catchWord_read ..
  · rintro r p rfl; exact catchWord_fault ..
  · rintro p rfl; exact catchWord_watch ..

/-- Settles O53: the catch word each kind of transfer saves, read field by field. -/
theorem caughtTransferIsSaved : Obligations.CaughtTransferIsSaved := by
  intro s t d w la
  refine ⟨fun num units lnk first => ?_, fun port => ?_, fun v => ?_⟩
  · have saved := State.catchSave_load (s.beforeCatch t d (.load w la num units lnk first)) t d la w num units lnk first
    obtain ⟨caught, word⟩ := caught_of_saved saved
    refine ⟨caught, ?_⟩
    dsimp only
    rw [word, catchWord_num, catchWord_units, catchWord_bitsOf_low _ _ _ _ _ _ (by decide),
      catchWord_bitOf_low _ _ _ _ _ _ (by decide), catchWord_bitOf_low _ _ _ _ _ _ (by decide)]
    refine ⟨rfl, rfl, ?_, ?_, ?_⟩
    · rw [bitsOf_append_low (by decide)]; exact bitsOf_self _
    · iterate 2 rw [bitOf_append_high (by decide)]
      rw [bitOf_append_low (by decide)]; exact bitOf_b1 _
    · rw [bitOf_append_high (by decide), bitOf_append_low (by decide)]; exact bitOf_b1 _
  · obtain ⟨caught, word⟩ := caught_of_saved (State.catchSave_issue (s.beforeCatch t d (.issue port la)) t d la port)
    refine ⟨caught, ?_⟩
    dsimp only
    rw [word, catchWord_num, catchWord_units, catchWord_bitsOf_low _ _ _ _ _ _ (by decide)]
    refine ⟨rfl, rfl, ?_⟩
    rw [bitsOf_append_low (by decide)]; exact bitsOf_self _
  · obtain ⟨saved, data⟩ := State.catchSave_store (s.beforeCatch t d (.store w la v)) t d la w v
    obtain ⟨caught, word⟩ := caught_of_saved saved
    obtain ⟨⟨-, -, kept2, kept3⟩, -⟩ := s.takeException_catch t (.data d (.store w la v))
    have lanes : joinWords ((s.takeException t (.data d (.store w la v))).th t).ct.txcatch3
        ((s.takeException t (.data d (.store w la v))).th t).ct.txcatch2 =
        zextBytes (widthBytes w) v <<< (8 * (la.toNat % 8)) := by
      rw [kept2, kept3]
      exact data
    refine ⟨caught, fun aligned => ⟨fun k hk => ?_, ?_⟩⟩
    · dsimp only
      rw [word, catchWord_bitOf_low _ _ _ _ _ _ hk, bitOf_laneMask hk]
    · dsimp only
      rw [lanes, zextBytes_lanes v (lanes_fit aligned)]

end Sys2Proof.Machine
end

section
/-! PROOFS. The memory-mapped core registers as a thread loads and stores them
(11_core_registers.md R130 to R195, 61_privilege_platform.md R712, R714). -/

namespace Sys2Proof.Machine

/-! ### Where the registers lie -/

/-- Entries that all lie below an address do not hold it. -/
theorem entryAt_of_le {a base stride count : Nat} [NeZero count] (h : base + stride * count ≤ a) :
    entryAt a base stride count = none := by
  unfold entryAt
  rw [if_neg]
  rintro ⟨-, below, -⟩
  omega

theorem threadBlockReg_above {a : Nat} (h : 0x04900000 ≤ a) : threadBlockReg a = none := by
  unfold threadBlockReg
  rw [if_neg (by omega)]

theorem debugReg_above {a : Nat} (h : 0x04900000 ≤ a) : debugReg a = none := by
  unfold debugReg
  iterate 10 rw [entryAt_of_le (by omega)]
  rfl

theorem triggerControlReg_above {a : Nat} (h : 0x04900000 ≤ a) : triggerControlReg a = none := by
  unfold triggerControlReg
  iterate 10 rw [entryAt_of_le (by omega)]
  rw [if_neg (by omega), if_neg (by omega)]
  rfl

theorem generalReg_above {a : Nat} (h : 0x04900000 ≤ a) : generalReg a = none := by
  unfold generalReg
  split
  all_goals try omega
  iterate 10 rw [entryAt_of_le (by omega)]
  rfl

/-- The rows of the address map that hold the core registers. -/
theorem regionOf_coreRegs {la : Word} (h : regionOf la = .coreRegs) : 0x04800000 ≤ la.toNat ∧ la.toNat < 0x05000000 := by
  unfold regionOf at h
  generalize la.toNat = a at h ⊢
  dsimp only at h
  iterate 7 (obtain ⟨_, h⟩ | ⟨_, h⟩ := ite_eq_iff.mp h; · cases h)
  by_cases below : a < 0x05000000
  · omega
  · rw [if_neg below] at h
    split_ifs at h

/-- A core register lies in the first Mbyte of its region, and at no old address. -/
theorem coreRegAt_bounds {la : Word} {r : CoreReg} (found : coreRegAt la = some r) (region : regionOf la = .coreRegs) :
    currentAddr la.toNat = la.toNat ∧ la.toNat < 0x04900000 := by
  obtain ⟨low, -⟩ := regionOf_coreRegs region
  have current : currentAddr la.toNat = la.toNat := by
    unfold currentAddr
    rw [if_neg (by omega), if_neg (by omega)]
  refine ⟨current, ?_⟩
  by_contra above
  have high : 0x04900000 ≤ la.toNat := by omega
  unfold coreRegAt at found
  dsimp only at found
  rw [current, threadBlockReg_above high, debugReg_above high, triggerControlReg_above high, generalReg_above high] at found
  cases found

/-! ### Privilege -/

/-- TnPIOREG guards the block of an address in the first Mbyte of the core registers. -/
def State.pioGuards (s : State) (t : Tid) (la : Word) : Bool := bitOf (s.th t).mm.pioReg ((la.toNat - 0x04800000) / 0x10000)

section
variable {s : State} {t : Tid} {la : Word} {r : CoreReg}

theorem pioRegRefuses_coreRegs (below : la.toNat < 0x04900000) :
    pioRegRefuses (s.th t).mm.pioReg la .coreRegs = s.pioGuards t la := by
  simp [pioRegRefuses, State.pioGuards, below]

/-- The address checks of an access to a core register are TnPIOREG's. -/
theorem regionRefuses_coreRegs (found : coreRegAt la = some r) (region : regionOf la = .coreRegs) (k : Kind) :
    s.regionRefuses (s.accOf t) la .coreRegs k = (!s.priv t && s.pioGuards t la) := by
  obtain ⟨-, below⟩ := coreRegAt_bounds found region
  simp [State.regionRefuses, State.accOf, privSysrRefuses, pioRegRefuses_coreRegs below]

theorem regRefuses_coreRegs (found : coreRegAt la = some r) (region : regionOf la = .coreRegs) (write : Bool) :
    s.regRefuses (s.accOf t) la r write = (!s.priv t && (s.regNeedsPriv r write || s.pioGuards t la)) := by
  obtain ⟨current, below⟩ := coreRegAt_bounds found region
  simp [State.regRefuses, State.accOf, current, pioRegRefuses_coreRegs below]

end

/-- A load asks for privilege for the registers TnPRIVCORE bit 2 guards. -/
theorem State.regNeedsPriv_load_iff (s : State) (r : CoreReg) : s.regNeedsPriv r false = true ↔
    ∃ u, r ∈ [CoreReg.ama4 u, .ama5 u, .ama6 u] ∧ bitOf (s.th u).mm.privCore 2 = true := by
  cases r <;> simp [State.regNeedsPriv]

/-- The control registers whose memory-mapped write a bit of TXPRIVEXT controls: TXSTATUS too (10_state.md R40). -/
def mappedControlledRegs : List (BitVec 5 × Nat) :=
  [(0#5, 8), (2#5, 9), (4#5, 19), (13#5, 10), (16#5, 9), (17#5, 9), (18#5, 9), (19#5, 9), (20#5, 0), (28#5, 12), (30#5, 13),
    (31#5, 13)]

theorem ctNeedsPriv_mapped_iff (w : Word) (n : BitVec 5) :
    ctNeedsPriv w n = true ↔ n = 29#5 ∨ ∃ b, (n, b) ∈ mappedControlledRegs ∧ bitOf w b = true := by
  by_cases status : n = 2#5
  · subst status
    simp [mappedControlledRegs, ctNeedsPriv]
  · have column := ctNeedsPriv_iff w n
    simpa [controlledRegs, mappedControlledRegs, status] using column

/-- The registers a store asks privilege for: those of a load, the write classes of a thread's own registers, breakpoints, watchpoints
and counters. -/
theorem State.regNeedsPriv_store_iff (s : State) (r : CoreReg) : s.regNeedsPriv r true = true ↔
    (∃ u, r ∈ [CoreReg.ama4 u, .ama5 u, .ama6 u] ∧ bitOf (s.th u).mm.privCore 2 = true) ∨
    (∃ u, (r = .kick u ∧ bitOf (s.th u).mm.privCore 0 = true) ∨ (r = .kicki u ∧ bitOf (s.th u).mm.privCore 1 = true) ∨
      r = .privCore u ∨ r = .ct u 29#5 ∨ ∃ p ∈ mappedControlledRegs, r = .ct u p.1 ∧ s.privExt u p.2 = true) ∨
    (∃ m : Fin 4, r ∈ [CoreReg.codebAddr m, .codebCtrl m]) ∨
    (∃ m : Fin 2, r ∈ [CoreReg.datawAddr m, .datawCtrl m, .datawMatch0 m, .datawMatch1 m, .datawMask0 m, .datawMask1 m,
      .perfIcore m, .perfCount m]) := by
  cases r <;> simp [State.regNeedsPriv]
  case ct u n =>
    rw [ctNeedsPriv_mapped_iff]
    constructor
    · rintro (always | ⟨b, listed, set⟩)
      · exact ⟨u, .inl ⟨rfl, always⟩⟩
      · exact ⟨u, .inr ⟨b, listed, rfl, set⟩⟩
    · rintro ⟨_, ⟨rfl, always⟩ | ⟨b, listed, rfl, set⟩⟩
      · exact .inl always
      · exact .inr ⟨b, listed, set⟩

/-! ### An access from the thread to the register -/

section
variable {s s' : State} {t : Tid} {la : Word} {n : Nat}

/-- An aligned load no watchpoint matches answers what its region answers. -/
theorem memRead_of_readAt {x : Except FReason DWord} (aligned : la.toNat % n = 0) (unwatched : s.unwatched t la none)
    (read : readAt (s.accOf t) la n s = .ok x s') :
    memRead (s.accOf t) la n s = .ok (x.mapError fun q => ⟨.fault q 0#2, la⟩) s' := by
  unfold memRead
  rw [view_bind, aligned_ok aligned]
  dsimp only
  rw [M.bind_ok (watch_none unwatched), if_neg (by decide)]
  refine (M.bind_ok read).trans ?_
  cases x <;> rfl

/-- An aligned store no watchpoint matches answers what its region answers. -/
theorem memWrite_of_writeAt {v : DWord} {x : Except FReason Unit} (aligned : la.toNat % n = 0)
    (unwatched : s.unwatched t la (some (n, v))) (written : writeAt (s.accOf t) la n v s = .ok x s') :
    memWrite (s.accOf t) la n v s = .ok (x.mapError fun q => ⟨.fault q 0#2, la⟩) s' := by
  unfold memWrite
  rw [view_bind, aligned_ok aligned]
  dsimp only
  rw [M.bind_ok (watch_none unwatched), if_neg (by decide)]
  refine (M.bind_ok written).trans ?_
  cases x <;> rfl

end

/-- The core registers answer in every mode of the MMU. -/
theorem rowState_coreRegs (m : MmuMode) : rowState .coreRegs m = .live := by
  cases m <;> rfl

section
variable {s : State} {t : Tid} {la : Word} {r : CoreReg} (found : coreRegAt la = some r) (region : regionOf la = .coreRegs)
include found region

/-- A load of a core register meets TnPIOREG, then the register. -/
theorem readAt_coreReg : readAt (s.accOf t) la 4 s =
    if (!s.priv t && s.pioGuards t la) = true then .ok (.error .general) s else regRead (s.accOf t) la 4 s := by
  unfold readAt
  rw [view_bind, region, regionRefuses_coreRegs found region]
  split
  · rfl
  · rw [view_bind, rowState_coreRegs]
    rfl

theorem writeAt_coreReg (v : DWord) : writeAt (s.accOf t) la 4 v s =
    if (!s.priv t && s.pioGuards t la) = true then .ok (.error .general) s else regStore (s.accOf t) la 4 (loWord v) s := by
  unfold writeAt
  rw [view_bind, region, regionRefuses_coreRegs found region]
  split
  · rfl
  · rw [view_bind, rowState_coreRegs]
    rfl

/-- An unprivileged load that TnPIOREG or the register stops is a General fault. -/
theorem readAt_coreReg_refused (unpriv : s.priv t = false) (guarded : s.pioGuards t la = true ∨ s.regNeedsPriv r false = true) :
    readAt (s.accOf t) la 4 s = .ok (.error .general) s := by
  rw [readAt_coreReg found region]
  split
  · rfl
  · unfold regRead
    rw [found]
    dsimp only
    rw [if_neg (by decide), view_bind, regRefuses_coreRegs found region, if_pos]
    · rfl
    · obtain pio | class' := guarded
      · simp [unpriv, pio]
      · simp [unpriv, class']

theorem writeAt_coreReg_refused (v : DWord) (unpriv : s.priv t = false)
    (guarded : s.pioGuards t la = true ∨ s.regNeedsPriv r true = true) :
    writeAt (s.accOf t) la 4 v s = .ok (.error .general) s := by
  rw [writeAt_coreReg found region]
  split
  · rfl
  · unfold regStore
    rw [found]
    dsimp only
    rw [if_neg (by decide), view_bind, regRefuses_coreRegs found region, if_pos]
    · rfl
    · obtain pio | class' := guarded
      · simp [unpriv, pio]
      · simp [unpriv, class']

section
variable (allowed : s.priv t = true ∨ ¬ (s.pioGuards t la = true ∨ s.regNeedsPriv r false = true))
include allowed

/-- A load that is allowed comes to the register. -/
theorem readAt_coreReg_allowed : readAt (s.accOf t) la 4 s = regRead (s.accOf t) la 4 s ∧
    s.regRefuses (s.accOf t) la r false = false := by
  rw [readAt_coreReg found region, regRefuses_coreRegs found region]
  obtain priv | free := allowed
  · simp [priv]
  · obtain ⟨pio, class'⟩ := not_or.mp free
    simp [pio, class']

theorem readAt_coreReg_absent (absent : s.regFitted r = false) : readAt (s.accOf t) la 4 s = .ok (.ok 0#64) s := by
  obtain ⟨reads, free⟩ := readAt_coreReg_allowed found region allowed
  rw [reads]
  unfold regRead
  rw [found]
  dsimp only
  rw [if_neg (by decide), view_bind, free, if_neg (by decide), view_bind, absent]
  rfl

theorem readAt_coreReg_value (fitted : s.regFitted r = true) (listed : r.reserved = false) (whole : ∀ u, r ≠ .ama5 u) :
    readAt (s.accOf t) la 4 s = .ok (.ok ((s.regValue r).setWidth 64)) s := by
  obtain ⟨reads, free⟩ := readAt_coreReg_allowed found region allowed
  rw [reads]
  unfold regRead
  rw [found]
  dsimp only
  rw [if_neg (by decide), view_bind, free, if_neg (by decide), view_bind, fitted, if_neg (by decide), listed,
    if_neg (by decide), view_bind]
  split
  · exact (whole _ rfl).elim
  · rfl

/-- Bits 26:0 of TnAMAREG5 are free values (11_core_registers.md R133). -/
theorem readAt_coreReg_ama5 {u : Tid} (fitted : s.regFitted r = true) (ama5 : r = .ama5 u) :
    readAt (s.accOf t) la 4 s =
      .ok (.ok ((maskWrite (s.regValue r) (loWord (Config.free s.env.freeCtr)) 0x07FFFFFF#32).setWidth 64))
        (s.modEnv fun v => { v with freeCtr := v.freeCtr + 1 }) := by
  obtain ⟨reads, free⟩ := readAt_coreReg_allowed found region allowed
  subst ama5
  rw [reads]
  unfold regRead
  rw [found]
  dsimp only
  rw [if_neg (by decide), view_bind, free, if_neg (by decide), view_bind, fitted, if_neg (by decide),
    if_neg (by simp [CoreReg.reserved]), view_bind, drawFree_bind]
  rfl

end

section
variable (v : DWord) (allowed : s.priv t = true ∨ ¬ (s.pioGuards t la = true ∨ s.regNeedsPriv r true = true))
include allowed

/-- A store that is allowed comes to the register. -/
theorem writeAt_coreReg_allowed : writeAt (s.accOf t) la 4 v s = regStore (s.accOf t) la 4 (loWord v) s ∧
    s.regRefuses (s.accOf t) la r true = false := by
  rw [writeAt_coreReg found region, regRefuses_coreRegs found region]
  obtain priv | free := allowed
  · simp [priv]
  · obtain ⟨pio, class'⟩ := not_or.mp free
    simp [pio, class']

theorem writeAt_coreReg_absent (absent : s.regFitted r = false) : writeAt (s.accOf t) la 4 v s = .ok (.ok ()) s := by
  obtain ⟨writes, free⟩ := writeAt_coreReg_allowed found region v allowed
  rw [writes]
  unfold regStore
  rw [found]
  dsimp only
  rw [if_neg (by decide), view_bind, free, if_neg (by decide), view_bind, absent]
  rfl

theorem writeAt_coreReg_value (fitted : s.regFitted r = true) (listed : r.reserved = false)
    (taken : s.writeRefusal r (loWord v) = none) :
    writeAt (s.accOf t) la 4 v s = .ok (.ok ()) (s.regWrite r (loWord v)) := by
  obtain ⟨writes, free⟩ := writeAt_coreReg_allowed found region v allowed
  rw [writes]
  unfold regStore
  rw [found]
  dsimp only
  rw [if_neg (by decide), view_bind, free, if_neg (by decide), view_bind, fitted, if_neg (by decide), listed,
    if_neg (by decide), view_bind, taken]
  rfl

end

end

/-! ### The bits a register stores -/

section
variable (s : State) (w : Word)

@[simp] theorem State.core_emptyDcache : s.emptyDcache.core = s.core := rfl
@[simp] theorem State.core_emptyIcache : s.emptyIcache.core = s.core := rfl
@[simp] theorem State.codeb_modCodeb_self (m : Fin 4) (f : CodeBreakpoint → CodeBreakpoint) :
    (s.modCodeb m f).core.codeb[m.val] = f s.core.codeb[m.val] := by simp [State.modCodeb]
@[simp] theorem State.dataw_modDataw_self (m : Fin 2) (f : Watchpoint → Watchpoint) :
    (s.modDataw m f).core.dataw[m.val] = f s.core.dataw[m.val] := by simp [State.modDataw]
@[simp] theorem State.perf_modPerf_self (m : Fin 2) (f : PerfRegs → PerfRegs) :
    (s.modPerf m f).core.perf[m.val] = f s.core.perf[m.val] := by simp [State.modPerf]
@[simp] theorem State.ext_modExt_self (k : Fin 4) (f : ExtBlock → ExtBlock) :
    (s.modExt k f).core.ext[k.val] = f s.core.ext[k.val] := by simp [State.modExt]

/-- The flush registers read back the bit written. -/
theorem State.regWrite_dcacheFlush : (s.regWrite .dcacheFlush w).core.dcacheFlush = w &&& 1#32 := by
  unfold State.regWrite
  dsimp only
  split <;> rfl

theorem State.regWrite_icacheFlush : (s.regWrite .icacheFlush w).core.icacheFlush = w &&& 1#32 := by
  unfold State.regWrite
  dsimp only
  split <;> rfl

theorem State.regWrite_mmuConfig :
    bitsOf ((s.regWrite .mmuConfig w).regValue .mmuConfig) 0 3 = bitsOf w 0 3 := by
  simp only [State.regWrite, State.regValue]
  rw [bitsOf_append_low (by decide)]
  exact bitsOf_self _

/-- SYSC_JTAG_THREAD stores its bit 2 only. -/
theorem State.regWrite_jtagThread :
    (s.regWrite .jtagThread w).regValue .jtagThread = maskWrite (s.regValue .jtagThread) w 4#32 := by
  have four : ∀ i < 32, bitOf 4#32 i = decide (i = 2) := by decide
  apply BitVec.eq_of_getLsbD_eq
  intro i hi
  refine Eq.trans ?_ (bitOf_maskWrite _ _ _ hi).symm
  rw [four i hi]
  simp only [State.regWrite, State.regValue, State.core_modCore]
  change bitOf _ i = _
  obtain low | rfl | high := Nat.lt_trichotomy i 2
  · rw [if_neg (by simpa using low.ne), bitOf_append_low low, bitOf_append_low low]
  · rw [if_pos (by decide), bitOf_append_high (by decide), bitOf_append_low (by decide)]
    exact bitOf_b1 _
  · rw [if_neg (by simpa using high.ne'), bitOf_append_high high.le, bitOf_append_high (by omega), bitOf_append_high high.le,
      bitOf_append_high (lo := b1 s.core.jtagPriv) (by omega)]


end

/-- Settles O46: an access is checked by address, then by class, then the register's own arm of the read or write table answers. -/
theorem coreRegisterAccesses : Obligations.CoreRegisterAccesses := by
  refine ⟨fun s t la r v found region aligned unread unwritten => ?_, by decide, fun s w u k m j e =>
    ⟨?_, s.regWrite_mmuConfig w, s.regWrite_jtagThread w, ?_⟩⟩
  · have load : (∃ u, r ∈ [CoreReg.ama4 u, .ama5 u, .ama6 u] ∧ bitOf (s.th u).mm.privCore 2 = true) ↔
        s.regNeedsPriv r false = true := (s.regNeedsPriv_load_iff r).symm
    have store := (s.regNeedsPriv_store_iff r).symm
    intro a pio ama controlled guarded
    refine ⟨fun unpriv stop => ?_, fun unpriv stop => ?_, fun allowed => ?_, fun allowed => ?_⟩
    · exact memRead_of_readAt aligned unread (readAt_coreReg_refused found region unpriv (stop.imp_right load.mp))
    · exact memWrite_of_writeAt aligned unwritten (writeAt_coreReg_refused found region v unpriv (stop.imp_right store.mp))
    · have free := allowed.imp_right fun no stop => no (Or.imp_right load.mpr stop)
      refine ⟨fun absent => ?_, fun fitted listed whole => ?_, fun u ama5 fitted => ?_⟩
      · exact memRead_of_readAt aligned unread (readAt_coreReg_absent found region free absent)
      · exact memRead_of_readAt aligned unread (readAt_coreReg_value found region free fitted listed whole)
      · refine ⟨_, _, memRead_of_readAt aligned unread (readAt_coreReg_ama5 found region free fitted ama5), ?_⟩
        exact bitsOf_maskWrite_high _ _
    · have free := allowed.imp_right fun no stop => no (Or.imp_right store.mpr stop)
      refine ⟨fun absent => ?_, fun fitted listed taken => ?_⟩
      · exact memWrite_of_writeAt aligned unwritten (writeAt_coreReg_absent found region v free absent)
      · exact memWrite_of_writeAt aligned unwritten (writeAt_coreReg_value found region v free fitted listed taken)
  · have whole : w &&& 0xFFFFFFFF#32 = w := BitVec.and_allOnes
    simp only [List.forall_mem_cons, State.regValue, State.regWrite_dcacheFlush, State.regWrite_icacheFlush]
    simp [State.regWrite, whole, setWidth_bitsOf_low4]
  · simp [State.regWrite]

end Sys2Proof.Machine
end

section
/-! PROOFS. Every step keeps the memory-mapped registers sound (11_core_registers.md R138 to R180). -/

namespace Sys2Proof.Machine

/-- A change of one thread that leaves its memory-mapped registers sound leaves every register sound. -/
theorem State.registersOk_modTh {s : State} {t : Tid} {f : Thread → Thread} (hs : s.registersOk)
    (hf : (s.th t).mm.Ok → (f (s.th t)).mm.Ok) : (s.modTh t f).registersOk := by
  obtain ⟨threads, core⟩ := hs
  refine ⟨fun u => ?_, core⟩
  by_cases hu : u = t
  · subst hu
    rw [State.th_modTh_self]
    exact hf (threads u)
  · rw [State.th_modTh_of_ne hu]
    exact threads u

/-- Every elementary update keeps the memory-mapped registers sound. -/
theorem registersOk_closed : Closed State.registersOk (fun _ _ => True) True where
  pcs := fun _ _ _ _ hs => State.registersOk_modTh hs id
  setReg := fun s t r v _ hs => by
    obtain ⟨threads, core⟩ := hs
    refine ⟨fun u => ?_, ?_⟩
    · rw [State.mm_setReg]; exact threads u
    · rw [State.core_setReg]; exact core
  ct := fun _ _ _ _ hs => State.registersOk_modTh hs id
  enable := fun _ _ _ _ hs => State.registersOk_modTh hs id
  tr := fun _ _ _ _ hs => State.registersOk_modTh hs id
  mm := fun _ _ _ hf hs => State.registersOk_modTh hs hf
  hid := fun _ _ _ _ hs => State.registersOk_modTh hs id
  hidAll := fun s f _ hs => by
    obtain ⟨threads, core⟩ := hs
    refine ⟨fun t => ?_, core⟩
    simpa [State.th] using threads t
  goOff := fun _ _ _ hs => State.registersOk_modTh hs id
  goOn := fun _ _ _ _ hs => State.registersOk_modTh hs id
  shared := fun _ _ _ hs => hs
  lock0 := fun _ _ hs => hs
  lock1 := fun _ _ _ hs => hs
  lock2 := fun _ _ _ hs => hs
  core := fun _ _ hf hs => ⟨hs.1, hf hs.2⟩
  env := fun _ _ _ hs => hs
  mem := fun _ _ _ _ _ hs => hs

/-- A change of the read pipeline keeps the memory-mapped registers sound. -/
theorem registersOk_rpClosed : RpClosed State.registersOk := fun _ _ _ _ hs => State.registersOk_modTh hs id

/-- A vector register has four bits, so the word it reads as has no others. -/
theorem setWidth_vector_and (v : BitVec 4) : v.setWidth 32 &&& 0xFFFFFFF0#32 = 0#32 := by
  revert v; decide

/-- Settles O10, by the closure rules: each elementary update of a step keeps the registers sound; a vector register stores
no more than its four bits. -/
theorem stepKeepsRegistersSound : Obligations.StepKeepsRegistersSound := by
  refine ⟨fun s s' hs hn => ?_, fun s t e m r hr => ?_⟩
  · exact registersOk_closed.step registersOk_rpClosed (fun _ _ hx => hx) hs hn
  · simp only [List.mem_cons, List.not_mem_nil, or_false] at hr
    obtain rfl | rfl | rfl | rfl | rfl := hr <;> exact setWidth_vector_and _

end Sys2Proof.Machine
end

section
/-! PROOFS. Acknowledging triggers (60_exceptions.md R624, R665) and kicks (11_core_registers.md R130, R131). -/

namespace Sys2Proof.Machine

/-! ### Bits -/

theorem bitOf_and {n : Nat} (v w : BitVec n) (i : Nat) : bitOf (v &&& w) i = (bitOf v i && bitOf w i) := BitVec.getLsbD_and

/-- A bit of a field is the word's, counted from the field's start. -/
theorem bitOf_bitsOf {k lo n i : Nat} (w : BitVec k) (hi : i < n) : bitOf (bitsOf w lo n) i = bitOf w (lo + i) := by
  simp [bitOf, bitsOf, hi]

/-- A field is known by its bits. -/
theorem bitsOf_ext {k lo n : Nat} {v w : BitVec k} (h : ∀ i < n, bitOf v (lo + i) = bitOf w (lo + i)) :
    bitsOf v lo n = bitsOf w lo n :=
  BitVec.eq_of_getLsbD_eq fun i hi => (bitOf_bitsOf v hi).trans ((h i hi).trans (bitOf_bitsOf w hi).symm)

/-- A field replaced: its bits are the new value's, the others stay. -/
theorem bitOf_withBits {w : Word} {lo n i : Nat} {v : BitVec n} (hi : i < 32) :
    bitOf (withBits w lo n v) i = if lo ≤ i ∧ i < lo + n then bitOf v (i - lo) else bitOf w i := by
  have mask : bitOf (((BitVec.allOnes n).setWidth 32) <<< lo) i = decide (lo ≤ i ∧ i < lo + n) := by
    by_cases above : lo ≤ i
    · have bound : i - lo < n ↔ i < lo + n := by omega
      simp [bitOf, hi, above, bound]
    · simp [bitOf, above]
  rw [withBits, bitOf_maskWrite _ _ _ hi, mask]
  by_cases inside : lo ≤ i ∧ i < lo + n
  · simp [bitOf, inside, hi]
  · simp [inside]

/-! ### Deferred reasons -/

/-- One reason cleared, if it is taken; the bus error goes with its state in bits 31:24. -/
def clearReason (taken : Nat → Bool) (d : Word) (r : Nat) : Word :=
  if taken r then (if r = 23 then withBits (withBit d 23 false) 24 8 0#8 else withBit d r false) else d

/-- The reasons a written value clears are taken one by one: those it names that are routed to the level. -/
theorem clearReasons_eq (d w : Word) (l : Level) :
    clearReasons d w l = deferredReasons.foldl (clearReason fun r => bitOf w r && routedTo d r l) d := rfl

/-- Bit `i` of TXDEFR goes with reason `min i 23`: bits 31:24 are the state of the bus error, bit 23. -/
theorem bitOf_clearReason {taken : Nat → Bool} {d : Word} {r i : Nat} (hr : r ≤ 23) (hi : i < 32) :
    bitOf (clearReason taken d r) i = (bitOf d i && !(taken r && decide (min i 23 = r))) := by
  unfold clearReason
  cases taken r with
  | false => simp
  | true =>
    by_cases bus : r = 23
    · subst bus
      rw [if_pos rfl, if_pos rfl, bitOf_withBits hi]
      rcases Nat.lt_trichotomy i 23 with below | rfl | above
      · have outside : ¬ (24 ≤ i ∧ i < 24 + 8) := by omega
        have other : min i 23 ≠ 23 := by omega
        rw [if_neg outside, bitOf_withBit_of_ne (by omega)]
        simp [other]
      · rw [if_neg (by decide), bitOf_withBit_self (by decide)]
        simp
      · have inside : 24 ≤ i ∧ i < 24 + 8 := by omega
        have owned : min i 23 = 23 := by omega
        rw [if_pos inside]
        simp [owned, bitOf]
    · rw [if_pos rfl, if_neg bus]
      by_cases same : i = r
      · subst same
        have owned : min i 23 = i := by omega
        rw [bitOf_withBit_self hi]
        simp [owned]
      · have other : min i 23 ≠ r := by omega
        rw [bitOf_withBit_of_ne same]
        simp [other]

/-- After a list of reasons a bit is gone only where its reason is one of the list and taken. -/
theorem bitOf_foldl_clearReason {taken : Nat → Bool} {rs : List Nat} {d : Word} {i : Nat} (hrs : ∀ r ∈ rs, r ≤ 23) (hi : i < 32) :
    bitOf (rs.foldl (clearReason taken) d) i = (bitOf d i && !(taken (min i 23) && decide (min i 23 ∈ rs))) := by
  induction rs generalizing d with
  | nil => simp
  | cons r rs ih =>
    obtain ⟨hr, hrest⟩ := List.forall_mem_cons.mp hrs
    rw [List.foldl_cons, ih hrest, bitOf_clearReason hr hi]
    by_cases same : min i 23 = r
    · subst same
      cases bitOf d i <;> cases taken (min i 23) <;> simp
    · simp [same]

/-- A bit of TXDEFR after an acknowledge. -/
theorem bitOf_clearReasons (d w : Word) (l : Level) {i : Nat} (hi : i < 32) : bitOf (clearReasons d w l) i =
    (bitOf d i && !(bitOf w (min i 23) && routedTo d (min i 23) l && decide (min i 23 ∈ deferredReasons))) := by
  rw [clearReasons_eq, bitOf_foldl_clearReason (by decide) hi]

/-- The bit of a reason goes where the value names it and it is routed to the level. -/
theorem bitOf_clearReasons_reason (d w : Word) (l : Level) {r : Nat} (hr : r ∈ deferredReasons) :
    bitOf (clearReasons d w l) r = (bitOf d r && !(bitOf w r && routedTo d r l)) := by
  have bound : ∀ r ∈ deferredReasons, r ≤ 23 := by decide
  have owned : min r 23 = r := Nat.min_eq_left (bound r hr)
  rw [bitOf_clearReasons d w l (Nat.lt_of_le_of_lt (bound r hr) (by decide)), owned]
  simp [hr]

/-- A bit that goes with no reason stays. -/
theorem bitOf_clearReasons_other (d w : Word) (l : Level) {i : Nat} (hi : i < 32) (other : min i 23 ∉ deferredReasons) :
    bitOf (clearReasons d w l) i = bitOf d i := by
  rw [bitOf_clearReasons d w l hi]
  simp [other]

/-- The state of the bus error goes with its reason. -/
theorem bitsOf_clearReasons_state (d w : Word) (l : Level) : bitsOf (clearReasons d w l) 24 8 =
    if bitOf w 23 && routedTo d 23 l then 0#8 else bitsOf d 24 8 := by
  have bit : ∀ i < 8, bitOf (clearReasons d w l) (24 + i) = (bitOf d (24 + i) && !(bitOf w 23 && routedTo d 23 l)) := by
    intro i hi
    have owned : min (24 + i) 23 = 23 := by omega
    rw [bitOf_clearReasons d w l (by omega), owned]
    simp [deferredReasons]
  cases taken : bitOf w 23 && routedTo d 23 l with
  | false => exact bitsOf_ext fun i hi => by rw [bit i hi, taken]; simp
  | true =>
    refine BitVec.eq_of_getLsbD_eq fun i hi => (bitOf_bitsOf _ hi).trans ?_
    rw [bit i hi, taken]
    simp

/-- ICtrl stays. -/
theorem bitsOf_clearReasons_low (d w : Word) (l : Level) : bitsOf (clearReasons d w l) 0 16 = bitsOf d 0 16 := by
  have low : ∀ i < 16, min i 23 ∉ deferredReasons := by decide
  refine bitsOf_ext fun i hi => ?_
  rw [Nat.zero_add]
  exact bitOf_clearReasons_other d w l (Nat.lt_trans hi (by decide)) (low i hi)

/-! ### Acknowledge -/

section
variable (s : State) (t : Tid) (l : Level) (w : Word)

/-- The latches that an acknowledge selects. -/
def State.ackHit : BitVec 16 := bitsOf w 0 16 &&& s.maskOf t l

theorem State.bitOf_ackHit {i : Nat} (hi : i < 16) : bitOf (s.ackHit t l w) i = (bitOf w i && bitOf (s.maskOf t l) i) := by
  rw [State.ackHit, bitOf_and, bitOf_bitsOf w hi, Nat.zero_add]

theorem State.hwtrig_ackTriggers :
    (s.ackTriggers t l w).shared.hwtrig = s.shared.hwtrig &&& ~~~(s.ackHit t l w &&& 0xFFF0#16) := by
  unfold State.ackTriggers
  dsimp only
  split <;> rfl

theorem State.tr_ackTriggers : ((s.ackTriggers t l w).th t).tr =
    match l with
    | .background => { (s.th t).tr with timerTrig := (s.th t).tr.timerTrig && !bitOf (s.ackHit t l w) 0 }
    | .interrupt =>
      { (s.th t).tr with
        timerTrigI := (s.th t).tr.timerTrigI && !bitOf (s.ackHit t l w) 0
        haltTrig := (s.th t).tr.haltTrig && !bitOf (s.ackHit t l w) 2 } := by
  unfold State.ackTriggers
  dsimp only
  split <;> simp only [State.tr_modCt, State.tr_modTr_self, State.th_modShared] <;> rfl

theorem State.ct_ackTriggers : ((s.ackTriggers t l w).th t).ct =
    { (s.th t).ct with
      txdefr := if bitOf w 3 then clearReasons (s.th t).ct.txdefr w l else (s.th t).ct.txdefr } := by
  unfold State.ackTriggers
  dsimp only
  split <;> simp

theorem State.th_ackTriggers_of_ne {u : Tid} (h : u ≠ t) : (s.ackTriggers t l w).th u = s.th u := by
  unfold State.ackTriggers State.modCt State.modTr
  dsimp only
  split <;> simp [State.th_modTh_of_ne h]

/-- A hardware latch goes where it is selected. -/
theorem State.bitOf_hwtrig_ackTriggers {i : Nat} (lo : 4 ≤ i) (hi : i < 16) : bitOf (s.ackTriggers t l w).shared.hwtrig i =
    (bitOf s.shared.hwtrig i && !(bitOf w i && bitOf (s.maskOf t l) i)) := by
  have latches : ∀ i < 16, 4 ≤ i → bitOf 0xFFF0#16 i = true := by decide
  have selected : bitOf (~~~(s.ackHit t l w &&& 0xFFF0#16)) i = !(bitOf w i && bitOf (s.maskOf t l) i) := by
    rw [← s.bitOf_ackHit t l w hi, ← Bool.and_true (bitOf (s.ackHit t l w) i), ← latches i hi lo, ← bitOf_and]
    simp [bitOf, hi]
  rw [State.hwtrig_ackTriggers, bitOf_and, selected]

/-- A reason of TXDEFR that an acknowledge clears: bit 3 is written, the value names it, and it is routed to the level. -/
def ackClears (d : Word) (r : Nat) : Bool := bitOf w 3 && bitOf w r && (bitOf d (ictrlBit r) == (l == .interrupt))

theorem State.bitOf_txdefr_ackTriggers {r : Nat} (hr : r ∈ deferredReasons) :
    bitOf ((s.ackTriggers t l w).th t).ct.txdefr r =
      (bitOf (s.th t).ct.txdefr r && !ackClears l w (s.th t).ct.txdefr r) := by
  rw [State.ct_ackTriggers, ackClears]
  cases bitOf w 3 with
  | false => simp
  | true => simpa [routedTo] using bitOf_clearReasons_reason (s.th t).ct.txdefr w l hr

theorem State.bitsOf_txdefr_ackTriggers_state : bitsOf ((s.ackTriggers t l w).th t).ct.txdefr 24 8 =
    if ackClears l w (s.th t).ct.txdefr 23 then 0#8 else bitsOf (s.th t).ct.txdefr 24 8 := by
  rw [State.ct_ackTriggers, ackClears]
  cases bitOf w 3 with
  | false => simp
  | true => simpa [routedTo] using bitsOf_clearReasons_state (s.th t).ct.txdefr w l

theorem State.bitsOf_txdefr_ackTriggers_low :
    bitsOf ((s.ackTriggers t l w).th t).ct.txdefr 0 16 = bitsOf (s.th t).ct.txdefr 0 16 := by
  rw [State.ct_ackTriggers]
  dsimp only
  split
  · exact bitsOf_clearReasons_low _ w l
  · rfl

theorem State.bitOf_txdefr_ackTriggers_22 :
    bitOf ((s.ackTriggers t l w).th t).ct.txdefr 22 = bitOf (s.th t).ct.txdefr 22 := by
  rw [State.ct_ackTriggers]
  dsimp only
  split
  · exact bitOf_clearReasons_other _ w l (by decide) (by decide)
  · rfl

end

/-! ### Kicks -/

theorem toNat_addKicks (k n : BitVec 16) : (addKicks k n).toNat = min (k.toNat + n.toNat) 65535 := by
  unfold addKicks
  split
  · simp; omega
  · rw [BitVec.toNat_add]; omega

/-- A kick adds to the counter of its level. -/
theorem State.kickOf_kick (s : State) (n : Tid) (l : Level) (v : Word) :
    (s.kick n l v).kickOf n l = addKicks (s.kickOf n l) (bitsOf v 0 16) := by
  cases l <;> simp [State.kick, State.kickOf]

/-- Settles O59: each latch and each part of TXDEFR by its own rule of the acknowledge, and the saturating sum of a kick. -/
theorem triggersAcknowledgedAndKicked : Obligations.TriggersAcknowledgedAndKicked := by
  intro s t n l w
  dsimp only
  have tr := s.tr_ackTriggers t l w
  have hit0 := s.bitOf_ackHit t l w (i := 0) (by decide)
  have hit2 := s.bitOf_ackHit t l w (i := 2) (by decide)
  have kicked : ((s.kick n l w).kickOf n l).toNat = min ((s.kickOf n l).toNat + w.toNat % 65536) 65535 := by
    rw [State.kickOf_kick, toNat_addKicks]
    simp [bitsOf]
  refine ⟨fun i lo hi => s.bitOf_hwtrig_ackTriggers t l w lo hi, ?timer, ?timerI, ?halt, ?kick, ?kicki, ?control, fun unwritten => ?kept,
    fun r hr => s.bitOf_txdefr_ackTriggers t l w hr, s.bitsOf_txdefr_ackTriggers_state t l w, s.bitsOf_txdefr_ackTriggers_low t l w,
    s.bitOf_txdefr_ackTriggers_22 t l w, fun u other => s.th_ackTriggers_of_ne t l w other, kicked, rfl, rfl⟩
  case control => rw [State.ct_ackTriggers]
  case kept => rw [State.ct_ackTriggers, unwritten]; rfl
  all_goals
    rw [tr]
    cases l <;> simp [hit0, hit2]

end Sys2Proof.Machine
end

section
/-! PROOFS. What every step and every instruction leave of memory: the canonical form (20_memory.md R251, R274), and every byte where nothing
is stored (R262, 40_data_movement.md R460). -/

namespace Sys2Proof.Machine

/-! ### The canonical form -/

/-- The canonical form speaks of the three memories only. -/
theorem Env.Ok.of_sameMemory {e d : Env} (he : e.Ok) (h : Env.sameMemory e d) : d.Ok := by
  obtain ⟨phys, coreCode, coreData, -⟩ := h
  exact ⟨phys ▸ he.phys, coreCode ▸ he.coreCode, coreData ▸ he.coreData⟩

/-- Every elementary update keeps the memories canonical. -/
theorem envOk_closed : Closed (fun s => s.env.Ok) (fun _ _ => True) True where
  pcs := fun _ _ _ _ hs => hs
  setReg := fun s t r v _ hs => by rw [State.env_setReg]; exact hs
  ct := fun _ _ _ _ hs => hs
  enable := fun _ _ _ _ hs => hs
  tr := fun _ _ _ _ hs => hs
  mm := fun _ _ _ _ hs => hs
  hid := fun _ _ _ _ hs => hs
  hidAll := fun _ _ _ hs => hs
  goOff := fun _ _ _ hs => hs
  goOn := fun _ _ _ _ hs => hs
  shared := fun _ _ _ hs => hs
  lock0 := fun _ _ hs => hs
  lock1 := fun _ _ _ hs => hs
  lock2 := fun _ _ _ hs => hs
  core := fun _ _ _ hs => hs
  env := fun _ _ hf hs => hs.of_sameMemory hf
  mem := fun _ _ _ hf _ hs => hf hs

/-- Settles O8, by the closure rules: a step changes memory only by writes that keep its canonical form. -/
theorem stepKeepsMemoryCanonical : Obligations.StepKeepsMemoryCanonical := fun _ _ hs hn =>
  envOk_closed.step (fun _ _ _ _ hx => hx) (fun _ _ hx => ⟨hx.phys, hx.coreCode, hx.coreData⟩) hs hn

/-! ### Every byte of memory -/

theorem SameMemory.of_env {s0 s s' : State} (h : SameMemory s0 s) (same : Env.sameMemory s.env s'.env) : SameMemory s0 s' := by
  obtain ⟨phys, coreCode, coreData, -⟩ := same
  intro a
  rw [phys, coreCode, coreData]
  exact h a

/-- Every elementary update but a write to memory leaves every byte. -/
theorem sameMemory_closed (s0 : State) : Closed (SameMemory s0) (fun _ _ => True) False where
  pcs := fun _ _ _ _ hs => hs
  setReg := fun s t r v _ hs => hs.of_env (by rw [State.env_setReg]; exact ⟨rfl, rfl, rfl, rfl⟩)
  ct := fun _ _ _ _ hs => hs
  enable := fun _ _ _ _ hs => hs
  tr := fun _ _ _ _ hs => hs
  mm := fun _ _ _ _ hs => hs
  hid := fun _ _ _ _ hs => hs
  hidAll := fun _ _ _ hs => hs
  goOff := fun _ _ _ hs => hs
  goOn := fun _ _ _ _ hs => hs
  shared := fun _ _ _ hs => hs
  lock0 := fun _ _ hs => hs
  lock1 := fun _ _ _ hs => hs
  lock2 := fun _ _ _ hs => hs
  core := fun _ _ _ hs => hs
  env := fun _ _ hf hs => hs.of_env hf
  mem := fun stores => stores.elim

theorem sameMemory_rpClosed (s0 : State) : RpClosed (SameMemory s0) := fun _ _ _ _ hs => hs

theorem SameMemory.refl (s : State) : SameMemory s s := fun _ => ⟨rfl, rfl, rfl⟩

/-- Settles O13, by the closure rules: memory may be written only where the instruction may store. -/
theorem execStoringNothingLeavesMemory : Obligations.ExecStoringNothingLeavesMemory := by
  intro i s s' storesNot hn
  have kept := ((sameMemory_closed s).withCur s.cur).exec (fun _ hx => hx.2) ((sameMemory_rpClosed s).withCur s.cur)
    (i := i) (s' := s') (fun _ _ => trivial) (fun stores => by simp [storesNot] at stores) ⟨SameMemory.refl s, rfl⟩ hn
  exact kept.1

end Sys2Proof.Machine
end

section
/-! PROOFS. What a fetch, a plain read, a plain write and an unaligned access answer (20_memory.md R259, R262 to R265, R274). -/

namespace Sys2Proof.Machine

/-! ### Alignment -/

theorem toNat_alignDown (la : Word) (n : Nat) : (alignDown la n).toNat = la.toNat - la.toNat % n := by
  have below : la.toNat % n ≤ la.toNat := Nat.mod_le _ _
  have width := la.isLt
  have low : (BitVec.ofNat 32 (la.toNat % n)).toNat = la.toNat % n := Nat.mod_eq_of_lt (by omega)
  rw [alignDown, BitVec.toNat_sub_of_le (BitVec.le_def.mpr (by omega)), low]

theorem alignDown_mod (la : Word) (n : Nat) : (alignDown la n).toNat % n = 0 := by
  rw [toNat_alignDown]
  exact Nat.mod_eq_zero_of_dvd (Nat.dvd_sub_mod _)

section
variable {s : State} {a : Acc} {la : Word} {n : Nat}

theorem aligned_fault (low : la.toNat % n ≠ 0) (faults : s.privExt a.tid 4 = true) :
    s.aligned a la n = .error ⟨.watch 0#2, la⟩ := by
  unfold State.aligned
  rw [if_neg low, if_pos faults]

/-- Without UnalignedFault an unaligned address stands for the one with its low bits cleared. -/
theorem aligned_down (faults : s.privExt a.tid 4 = false) : s.aligned a la n = s.aligned a (alignDown la n) n := by
  rw [aligned_ok (alignDown_mod la n)]
  unfold State.aligned
  split
  · rename_i aligned
    simp [alignDown, aligned]
  · simp [faults]

theorem memRead_of_misaligned {e : Failed} (h : s.aligned a la n = .error e) : memRead a la n s = .ok (.error e) s := by
  unfold memRead
  rw [view_bind, h]
  rfl

theorem memWrite_of_misaligned {e : Failed} {v : DWord} (h : s.aligned a la n = .error e) :
    memWrite a la n v s = .ok (.error e) s := by
  unfold memWrite
  rw [view_bind, h]
  rfl

/-- An access depends on its address through the aligned address only. -/
theorem memRead_congr {la' : Word} (h : s.aligned a la n = s.aligned a la' n) : memRead a la n s = memRead a la' n s := by
  unfold memRead
  rw [view_bind, view_bind, h]

theorem memWrite_congr {la' : Word} {v : DWord} (h : s.aligned a la n = s.aligned a la' n) :
    memWrite a la n v s = memWrite a la' n v s := by
  unfold memWrite
  rw [view_bind, view_bind, h]

end

/-- Settles O26: an access looks at its address through `State.aligned` only. -/
theorem unalignedAccesses : Obligations.UnalignedAccesses := by
  intro s t la n v _ low
  constructor
  · intro faults
    have fault : s.aligned (s.accOf t) la n = .error ⟨.watch 0#2, la⟩ := aligned_fault low faults
    exact ⟨memRead_of_misaligned fault, memWrite_of_misaligned fault⟩
  · intro clears
    have same : s.aligned (s.accOf t) la n = s.aligned (s.accOf t) (alignDown la n) n := aligned_down clears
    exact ⟨alignDown la n, toNat_alignDown la n, memRead_congr same, memWrite_congr same⟩

/-! ### The rows of the map -/

/-- The core memories answer in every mode of the MMU. -/
theorem rowState_coreMemory {r : Region} (h : r = .coreCode ∨ r = .coreData) (m : MmuMode) : rowState r m = .live := by
  rcases h with rfl | rfl <;> cases m <;> rfl

theorem rowState_bypass {r : Region} (h : r = .local ∨ r = .global) : rowState r .bypass = .live := by
  rcases h with rfl | rfl <;> rfl

section
variable {s : State} {a : Acc} {la : Word} {n : Nat} {v : DWord}

theorem readAt_live (allowed : s.regionRefuses a la (regionOf la) .read = false)
    (live : rowState (regionOf la) (s.mmuMode .data) = .live) : readAt a la n s = liveRead a la n (regionOf la) s := by
  unfold readAt
  rw [view_bind, allowed, if_neg (by decide), view_bind, live]

theorem writeAt_live (allowed : s.regionRefuses a la (regionOf la) .write = false)
    (live : rowState (regionOf la) (s.mmuMode .data) = .live) :
    writeAt a la n v s = liveWrite a la n v (regionOf la) s := by
  unfold writeAt
  rw [view_bind, allowed, if_neg (by decide), view_bind, live]

theorem fetchWord_live (allowed : s.regionRefuses a la (regionOf la) .fetch = false)
    (live : rowState (regionOf la) (s.mmuMode .instruction) = .live) : fetchWord a la s = liveFetch a la (regionOf la) s := by
  unfold fetchWord
  rw [view_bind, allowed, if_neg (by decide), view_bind, live]

end

/-! ### Past the caches, the prefetch and the combiner -/

section
variable {s : State} {a : Acc} {x : Attr} {n : Nat} {v : DWord}

theorem cacheOn_bypass {side : CacheSide} (h : s.mmuMode side = .bypass) : s.cacheOn side = false := by
  simp [State.cacheOn, h]

/-- With its cache out of use a read is one bus read (21_mmu_cache.md R356). -/
theorem cacheRead_uncached {side : CacheSide} (off : s.cacheOn side = false) (backed : s.backed x.pa n = true) :
    cacheRead a side x n s = .ok (Memory.readN s.env.phys x.pa.toNat n) s := by
  unfold cacheRead
  rw [view_bind, view_bind, off, Bool.false_and, if_neg (by decide)]
  exact physRead_backed backed

theorem dataRead_uncached (own : a.past = false) (off : s.cacheOn .data = false) (backed : s.backed x.pa n = true)
    (settled : s.prefetching a.tid x.pa = false) (apart : ByteBuf.overlaps (s.th a.tid).h.wc x.pa.toNat n = false) (hn : n ≤ 8) :
    dataRead a x n s = .ok (Memory.readN s.env.phys x.pa.toNat n) s := by
  unfold dataRead ownRead
  rw [own, if_neg (by decide), view_bind, settled, if_neg (by decide)]
  refine (M.bind_ok (cacheRead_uncached off backed)).trans ?_
  rw [view_bind, M.pure_run, ByteBuf.mergeN_of_disjoint _ n _ _ apart hn, Memory.zextBytes_readN]

theorem cacheUpdate_off {p : Part} {pa : Word} (off : s.cacheOn .data = false) : s.cacheUpdate p pa n v = s := by
  unfold State.cacheUpdate
  rw [off, if_neg (by decide)]

/-- A write that is neither combined nor cached is one bus write. -/
theorem dataWrite_uncached (off : s.cacheOn .data = false) (backed : s.backed x.pa n = true) (plain : x.comb = false)
    (apart : ByteBuf.overlaps (s.th a.tid).h.wc x.pa.toNat n = false) : s.dataWrite a x n v = s.physStore x.pa n v := by
  have sent : s.sendWrite a x.pa n v = s.physStore x.pa n v := by
    unfold State.sendWrite State.flushOverlap State.physWrite
    rw [apart, if_neg (by decide : ¬ false = true), ite_self, if_pos backed]
  have bus : s.combines a x = false := by simp [State.combines, plain]
  have stored : (s.physStore x.pa n v).cacheOn .data = false := off
  unfold State.dataWrite
  dsimp only
  rw [bus, if_neg (by decide : ¬ false = true), sent, cacheUpdate_off stored, ite_self]

end

/-! ### Plain reads and writes -/

section
variable {s : State} {t : Tid} {la : Word} {n : Nat} {v : DWord}

theorem readAt_coreData (h : s.inCoreData la n) :
    readAt (s.accOf t) la n s = .ok (.ok (Memory.readN s.env.coreData (la.toNat - 0x82000000) n)) s := by
  obtain ⟨-, region, fits⟩ := h
  rw [readAt_live (regionRefuses_plain (.inr (.inr region))) (rowState_coreMemory (.inr region) _), region]
  simp [liveRead, view_run, fits]

theorem writeAt_coreData (h : s.inCoreData la n) : writeAt (s.accOf t) la n v s = .ok (.ok ())
    (s.modEnv fun e => { e with coreData := Memory.writeN e.coreData (la.toNat - 0x82000000) v n }) := by
  obtain ⟨-, region, fits⟩ := h
  rw [writeAt_live (regionRefuses_plain (.inr (.inr region))) (rowState_coreMemory (.inr region) _), region]
  simp [liveWrite, coreStore, fits]

/-- The local and global ranges reach memory through translation. -/
theorem liveRead_translated {r : Region} (h : r = .local ∨ r = .global) {a : Acc} {x : Attr} {w : DWord}
    (reached : Machine.translate a la .read s = .ok (.ok x) s) (read : dataRead a x n s = .ok w s) :
    liveRead a la n r s = .ok (.ok w) s := by
  rcases h with rfl | rfl <;>
  · unfold liveRead
    dsimp only
    rw [M.bind_ok reached]
    dsimp only
    rw [M.bind_ok read]
    rfl

theorem liveWrite_translated {r : Region} (h : r = .local ∨ r = .global) {a : Acc} {x : Attr}
    (reached : Machine.translate a la .write s = .ok (.ok x) s) :
    liveWrite a la n v r s = .ok (.ok ()) (s.dataWrite a x n v) := by
  rcases h with rfl | rfl <;>
  · unfold liveWrite
    dsimp only
    rw [M.bind_ok reached]
    rfl

theorem liveFetch_translated {r : Region} (h : r = .local ∨ r = .global) {a : Acc} {x : Attr} {w : DWord}
    (reached : Machine.translate a la .fetch s = .ok (.ok x) s) (read : cacheRead a .instruction x 4 s = .ok w s) :
    liveFetch a la r s = .ok (.ok (loWord w)) s := by
  rcases h with rfl | rfl <;>
  · unfold liveFetch
    dsimp only
    rw [M.bind_ok reached]
    dsimp only
    rw [M.bind_ok read]
    rfl

theorem readAt_bypass (h : s.inBypass t la n) (hn : n ≤ 8) :
    readAt (s.accOf t) la n s = .ok (.ok (Memory.readN s.env.phys la.toNat n)) s := by
  obtain ⟨-, region, mode, backed, settled, apart⟩ := h
  have live : rowState (regionOf la) (s.mmuMode .data) = .live := by rw [mode]; exact rowState_bypass region
  rw [readAt_live (regionRefuses_plain (region.imp_right .inl)) live]
  exact liveRead_translated region (translate_bypass region mode)
    (dataRead_uncached rfl (cacheOn_bypass mode) backed settled apart hn)

theorem writeAt_bypass (h : s.inBypass t la n) : writeAt (s.accOf t) la n v s = .ok (.ok ()) (s.physStore la n v) := by
  obtain ⟨-, region, mode, backed, -, apart⟩ := h
  have live : rowState (regionOf la) (s.mmuMode .data) = .live := by rw [mode]; exact rowState_bypass region
  rw [writeAt_live (regionRefuses_plain (region.imp_right .inl)) live,
    liveWrite_translated region (translate_bypass region mode), dataWrite_uncached (cacheOn_bypass mode) backed rfl apart]

end

/-- Settles O24: no watchpoint matches, the region answers, and behind it no cache, prefetch or combiner stands before memory. -/
theorem plainReads : Obligations.PlainReads := by
  intro s t la n hn unwatched
  have small : n ≤ 8 := by simp only [List.mem_cons, List.not_mem_nil, or_false] at hn; omega
  exact ⟨fun core => memRead_of_readAt core.1 unwatched (readAt_coreData core),
    fun bypass => memRead_of_readAt bypass.1 unwatched (readAt_bypass bypass small)⟩

/-- What a byte reads as after a write of `n` bytes to a canonical memory. -/
theorem Memory.read_writeN {m : Memory} (h : m.wf = true) (a p n : Nat) (v : DWord) : (Memory.writeN m a v n).read p =
    if a ≤ p ∧ p < a + n then v.extractLsb' (8 * (p - a)) 8 else m.read p := by
  split
  · rename_i inside
    have stored := Memory.read_writeN_inside h (a := a) (n := n) (k := p - a) (v := v) (by omega)
    rwa [Nat.add_sub_cancel' inside.1] at stored
  · exact Memory.read_writeN_outside (by omega)

/-- Settles O25: as the reads, and the store of the bus clears the monitors. -/
theorem plainWrites : Obligations.PlainWrites := by
  intro s t la n v _ unwatched
  exact ⟨fun core => memWrite_of_writeAt core.1 unwatched (writeAt_coreData core),
    fun bypass => memWrite_of_writeAt bypass.1 unwatched (writeAt_bypass bypass),
    fun m a p canonical => Memory.read_writeN canonical a p n v⟩

/-! ### Fetch -/

section
variable {s : State} {t : Tid} {la : Word}

/-- A disabled breakpoint matches nothing. -/
theorem tryBreakpoint_disabled {m : Fin 4} (h : bitOf s.core.codeb[m.val].ctrl 31 = false) :
    tryBreakpoint t la m (false, s) = (false, s) := by
  unfold tryBreakpoint
  simp [CodeBreakpoint.hits, h]

theorem breakpoints_disabled (h : ∀ m : Fin 4, bitOf s.core.codeb[m.val].ctrl 31 = false) :
    breakpoints t la s = .ok false s := by
  have tried : (List.finRange 4).foldl (fun r m => tryBreakpoint t la m r) (false, s) = (false, s) :=
    List.foldlRecOn (motive := (· = (false, s))) _ _ rfl fun r hr m _ => by rw [hr]; exact tryBreakpoint_disabled (h m)
  unfold breakpoints
  rw [tried]

/-- With breakpoints off and the prefetch buffer empty a fetch answers the word at PC's aligned address. -/
theorem fetch_of_fetchWord {pc w : Word} (quiet : ∀ m : Fin 4, bitOf s.core.codeb[m.val].ctrl 31 = false)
    (empty : (s.th t).h.fetchBuf = []) (read : fetchWord (s.accOf t) (alignDown pc 4) s = .ok (.ok w) s) :
    fetch t pc s = .ok (.ok w) s := by
  unfold fetch
  dsimp only
  rw [view_bind, M.bind_ok read]
  dsimp only
  rw [view_bind]
  split
  · rw [pure_bind_run, if_neg (by decide), view_bind, empty]
    rfl
  · rw [M.bind_ok (breakpoints_disabled quiet), if_neg (by decide), view_bind, empty]
    rfl

theorem fetchWord_coreCode (region : regionOf la = .coreCode) (allowed : s.priv t = true ∨ bitOf (s.th t).mm.privSysr 4 = false)
    (fits : coreMemFits s.cfg.coreCodeMemSize (la.toNat - 0x80000000) 4 = true) :
    fetchWord (s.accOf t) la s = .ok (.ok (loWord (Memory.readN s.env.coreCode (la.toNat - 0x80000000) 4))) s := by
  have passes : s.regionRefuses (s.accOf t) la .coreCode .fetch = false := by
    rcases allowed with priv | unguarded
    · simp [State.regionRefuses, State.accOf, priv]
    · simp [State.regionRefuses, State.accOf, privSysrRefuses, pioRegRefuses, unguarded]
  rw [fetchWord_live (by rw [region]; exact passes) (rowState_coreMemory (.inl region) _), region]
  simp [liveFetch, view_run, fits]

theorem fetchWord_bypass (region : regionOf la = .local ∨ regionOf la = .global) (mode : s.mmuMode .instruction = .bypass)
    (backed : s.backed la 4 = true) :
    fetchWord (s.accOf t) la s = .ok (.ok (loWord (Memory.readN s.env.phys la.toNat 4))) s := by
  have live : rowState (regionOf la) (s.mmuMode .instruction) = .live := by rw [mode]; exact rowState_bypass region
  rw [fetchWord_live (regionRefuses_plain (region.imp_right .inl)) live]
  exact liveFetch_translated region (translate_bypass region mode) (cacheRead_uncached (cacheOn_bypass mode) backed)

end

/-- Settles O5: the word behind PC's aligned address, which no breakpoint stops and no prefetched word replaces. -/
theorem fetchReadsMemory : Obligations.FetchReadsMemory := by
  intro s t pc quiet empty
  exact ⟨fun region allowed fits => fetch_of_fetchWord quiet empty (fetchWord_coreCode region allowed fits),
    fun region mode backed => fetch_of_fetchWord quiet empty (fetchWord_bypass region mode backed)⟩

end Sys2Proof.Machine
end

section
/-! PROOFS. What every form of store, linked access and return leaves of memory outside the bytes it stores to
(20_memory.md R263, R276, 40_data_movement.md R467, R469, 42_control_flow.md R537, 43_sync_system.md R566, R567). -/

namespace Sys2Proof.Machine

/-! ### An instruction and its repeating form -/

section
variable {P : State → Prop} {W : Tid → Reg → Prop} {S : Prop} (h : Closed P W S)
include h

/-- What one iteration of an instruction leaves, the instruction and its repeating form leave. -/
theorem Closed.exec_forms {i j : Instr} (form : i ∈ [j, .repeatForm j]) (once : onceIssued j = true) {s s' : State} (hs : P s)
    (left : P (endState ((Machine.iteration j).2 (s.pcOf s.cur) s.advanced))) (hn : Machine.exec i s = .next s') : P s' := by
  obtain rfl | rfl : i = j ∨ i = .repeatForm j := by simpa using form
  · rw [exec_once once] at hn
    exact h.issue hs (fun _ => left) hn
  · rw [exec_repeatForm] at hn
    refine h.issue hs (fun advanced => ?_) hn
    unfold Machine.repBody
    rw [me_bind]
    split
    · exact h.repBranch _ _ advanced
    · exact endState_afterwards left (Keeps.update fun _ hx => h.repAdvance _ _ _ hx)

/-- An issue of a multiple transfer leaves what the move of its item leaves. -/
theorem Closed.multiple_item {α : Type} {t : Tid} {pc : Word} {base : Reg} {l : List α} {n : Nat} {move : α → Word → M Unit} {x : α}
    {s : State} (hw : W t base) (item : l[(s.lsmStep t).toNat]? = some x) (moved : P (endState (move x (s.reg t base) s))) :
    P (endState (Machine.multiple t pc base l n move s)) := by
  unfold Machine.multiple
  rw [view_bind, item]
  dsimp only
  rw [view_bind]
  exact endState_afterwards moved (Keeps.update fun _ hx => h.lsmAdvance hw _ _ _ _ hx)

omit h in
/-- Checked operands leave the state as it is. -/
theorem endState_check {β : Type} {t : Tid} {l : List Use} {f : Unit → M β} {s : State} (hs : P s) (rest : P (endState (f () s))) :
    P (endState ((check t l >>= f) s)) := by
  match stop : s.operandStop t l with
  | none => rw [check_bind stop]; exact rest
  | some e => rw [check_bind_stop stop]; exact hs

end

/-! ### Stores -/

/-- Each form of a store of one register runs the body of its width. -/
theorem store_forms {w : Width} {i : Instr} {x : MemArgs} (h : (w, i) ∈ [(Width.byte, Instr.setb x), (.word, .setw x), (.dword, .setd x),
      (.byte, .repeatForm (.setb x)), (.word, .repeatForm (.setw x)), (.dword, .repeatForm (.setd x))]) :
    ∃ j, i ∈ [j, .repeatForm j] ∧ onceIssued j = true ∧ (iteration j).2 = storeBody w x := by
  simp only [List.mem_cons, Prod.mk.injEq, List.not_mem_nil, or_false] at h
  obtain ⟨rfl, rfl⟩ | ⟨rfl, rfl⟩ | ⟨rfl, rfl⟩ | ⟨rfl, rfl⟩ | ⟨rfl, rfl⟩ | ⟨rfl, rfl⟩ := h
  · exact ⟨.setb x, by simp, rfl, rfl⟩
  · exact ⟨.setw x, by simp, rfl, rfl⟩
  · exact ⟨.setd x, by simp, rfl, rfl⟩
  · exact ⟨.setb x, by simp, rfl, rfl⟩
  · exact ⟨.setw x, by simp, rfl, rfl⟩
  · exact ⟨.setd x, by simp, rfl, rfl⟩

/-- A store whose source stops it leaves memory. -/
theorem storeBody_stopped {s s1 : State} {w : Width} {x : MemArgs} {e : Stop}
    (stop : readReg s.cur (s.pcOf s.cur) x.r s.advanced = .error e s1) :
    SameMemory s (endState (storeBody w x (s.pcOf s.cur) s.advanced)) := by
  have read := (sameMemory_closed s).readReg (sameMemory_rpClosed s) s.cur (s.pcOf s.cur) x.r s.advanced (SameMemory.refl s)
  rw [stop] at read
  unfold storeBody
  rw [me_bind, State.cur_advanced]
  refine endState_check (SameMemory.refl s) ?_
  rw [view_bind, view_bind, M.bind_error stop]
  exact read

section
variable {s : State}

theorem msetdBody_out {b r : Reg} {l : List Reg} (item : l[(s.lsmStep s.cur).toNat]? = some r) :
    Out s (s.advanced.storePlace s.cur (s.reg s.cur b) 4 ((s.reg s.cur r).setWidth 64)) 4
      (endState (msetdBody b l (s.pcOf s.cur) s.advanced)) := by
  unfold msetdBody
  rw [me_bind, State.cur_advanced]
  refine endCheck (out_adv _ _ _) ((out_closed _ _ _).multiple_item trivial (by rwa [State.lsmStep_advanced]) ?_)
  rw [view_bind, State.reg_advanced, State.reg_advanced]
  exact out_storeValue (w := .dword) (out_adv _ _ _) (sub_adv s) rfl

theorem msetlBody_out {b : Reg} {p : Reg × Reg} {l : List (Reg × Reg)} (item : l[(s.lsmStep s.cur).toNat]? = some p) :
    Out s (s.advanced.storePlace s.cur (s.reg s.cur b) 8 (joinWords (s.reg s.cur p.2) (s.reg s.cur p.1))) 8
      (endState (msetlBody b l (s.pcOf s.cur) s.advanced)) := by
  unfold msetlBody
  rw [me_bind, State.cur_advanced]
  refine endCheck (out_adv _ _ _) ((out_closed _ _ _).multiple_item trivial (by rwa [State.lsmStep_advanced]) ?_)
  rw [view_bind, State.reg_advanced, State.reg_advanced, State.reg_advanced]
  exact out_storeValue (w := .lword) (out_adv _ _ _) (sub_adv s) rfl

theorem lnksetdBody_out {b r : Reg} :
    Out s ((s.advanced.modH s.cur fun h => { h with link := false }).storePlace s.cur (s.reg s.cur b) 4
      ((s.reg s.cur r).setWidth 64)) 4 (endState (lnksetdBody b r (s.pcOf s.cur) s.advanced)) := by
  unfold lnksetdBody
  rw [me_bind, State.cur_advanced]
  refine endCheck (out_adv _ _ _) ?_
  rw [view_bind, view_bind, State.reg_advanced, State.reg_advanced]
  exact out_linkedPut (w := .dword) (out_adv _ _ _) (sub_adv s) rfl

theorem lnksetlBody_out {b ra rb : Reg} :
    Out s ((s.advanced.modH s.cur fun h => { h with link := false }).storePlace s.cur (s.reg s.cur b) 8
      (joinWords (s.reg s.cur rb) (s.reg s.cur ra))) 8 (endState (lnksetlBody b ra rb (s.pcOf s.cur) s.advanced)) := by
  unfold lnksetlBody
  rw [me_bind, State.cur_advanced]
  refine endCheck (out_adv _ _ _) ?_
  rw [view_bind, view_bind, State.reg_advanced, State.reg_advanced, State.reg_advanced]
  exact out_linkedPut (w := .lword) (out_adv _ _ _) (sub_adv s) rfl

end

/-! ### Linked reads -/

/-- A computation that keeps two properties keeps both. -/
theorem Keeps.and {α : Type} {P Q : State → Prop} {x : M α} (hp : Keeps P x) (hq : Keeps Q x) : Keeps (fun s => P s ∧ Q s) x :=
  fun s hs => ⟨hp s hs.1, hq s hs.2⟩

/-- A computation that leaves the write combiners gives them no byte. -/
theorem CombinersWithin.keeps {α : Type} {s0 : State} {x : M α} (same : ∀ s, Keeps (SameCombiners s) x) :
    Keeps (CombinersWithin s0) x :=
  fun s hs => hs.of_wc (same s s fun _ => rfl)

theorem SameCombiners.of_thr {s0 s s' : State} (h : SameCombiners s0 s) (e : s'.thr = s.thr) : SameCombiners s0 s' := by
  intro t
  unfold State.th
  rw [e]
  exact h t

theorem wc_watch (s0 : State) (a : Acc) (la : Word) (w : Option (Nat × DWord)) : Keeps (SameCombiners s0) (watch a la w) := by
  intro s hs
  unfold watch
  refine hs.of_thr ?_
  simp only [endState]
  (repeat' split) <;> rfl

theorem wc_linkedAttr (s0 : State) (a : Acc) (la : Word) (k : Kind) : Keeps (SameCombiners s0) (linkedAttr a la k) := by
  unfold linkedAttr
  refine Keeps.bind (Keeps.view _) fun refused => Keeps.ite (Keeps.pure _) (Keeps.bind (Keeps.view _) fun mode => ?_)
  cases rowState (regionOf la) mode
  case live =>
    match regionOf la with
    | .directMap | .local | .global => exact wc_translate s0 a la k
    | .invalid | .sysReserved | .custom | .expansion | .sysEvent | .cacheFlush | .tlbFlush | .coreRegs | .mmuTable | .coreCode
    | .coreData | .coreCached => exact Keeps.refuse _
  all_goals exact Keeps.pure _

/-- No byte outside a place written since the first state, and in the combiners none but those they held then: what a drain keeps. -/
def OutDraining (s0 : State) (x : Place) (n : Nat) (s : State) : Prop := Out s0 x n s ∧ CombinersWithin s0 s

/-- What writes no memory and leaves the combiners keeps both. -/
theorem OutDraining.keeps {α : Type} {s0 : State} {x : Place} {n : Nat} {m : M α} (out : Keeps (Out s0 x n) m)
    (same : ∀ s, Keeps (SameCombiners s) m) : Keeps (OutDraining s0 x n) m :=
  out.and (CombinersWithin.keeps same)

theorem OutDraining.flushOverlap {s0 s : State} {x : Place} {n : Nat} (hs : OutDraining s0 x n s) (t : Tid) (pa : Word) (k : Nat) :
    OutDraining s0 x n (s.flushOverlap t pa k) := ite_keeps (P := OutDraining s0 x n) (both_drain t hs) hs

/-- The monitor and LINK set, and the event for the outside. -/
theorem OutDraining.link {s0 s : State} {x : Place} {n : Nat} (hs : OutDraining s0 x n s) (t : Tid) (m : Option Monitor) (b : Bool)
    (e : OutEvent) : OutDraining s0 x n ((s.modH t fun h => { h with mon := m, link := true }).emitIf b e) := by
  refine ⟨(out_closed s0 x n).emitIf b e hs.1, hs.2.of_wc ?_⟩
  have linked : SameCombiners s (s.modH t fun h => { h with mon := m, link := true }) := SameCombiners.modH (fun _ => rfl) rfl
  cases b
  · exact linked
  · exact linked.of_thr rfl

/-- A linked read stores nothing, but the combined writes to its bytes go out before it (R277). -/
theorem linkedRead_out (s0 : State) (x : Place) (n : Nat) (a : Acc) (la : Word) (k : Nat) :
    Keeps (OutDraining s0 x n) (linkedRead a la k) := by
  have hC := out_closed s0 x n
  unfold linkedRead
  refine Keeps.bind (Keeps.view _) fun aligned => ?_
  match aligned with
  | .error _ => exact Keeps.pure _
  | .ok la =>
    refine Keeps.bind (OutDraining.keeps (hC.watch a la none) fun s => wc_watch s a la none) fun w => Keeps.ite (Keeps.pure _) ?_
    refine Keeps.bind (OutDraining.keeps (hC.linkedAttr a la .read) fun s => wc_linkedAttr s a la .read) fun attr => ?_
    match attr with
    | .error _ => exact Keeps.pure _
    | .ok y =>
      refine Keeps.bind (Keeps.update fun s hs => hs.flushOverlap a.tid y.pa k) fun _ => ?_
      refine Keeps.bind (OutDraining.keeps (hC.physRead a false y.pa k) fun s => wc_physRead s a false y.pa k) fun v => ?_
      exact Keeps.bind (Keeps.update fun s hs => hs.link a.tid _ _ _) fun _ => Keeps.pure _

theorem linkedLoad_out (s0 : State) (x : Place) (n : Nat) (t : Tid) (w : Width) (la : Word) (num : BitVec 5) (units : BitVec 11)
    (first : Bool) : Keeps (OutDraining s0 x n) (linkedLoad t w la num units first) := by
  unfold linkedLoad
  refine Keeps.bind (Keeps.view _) fun a => Keeps.bind (linkedRead_out s0 x n a la _) fun v => ?_
  match v with
  | .error _ => exact Keeps.raiseLate _
  | .ok _ => exact Keeps.pure _

theorem OutDraining.advanced (s : State) (x : Place) (n : Nat) : OutDraining s x n s.advanced := ⟨out_adv s x n, sub_adv s⟩

section
variable {s : State}

theorem lnkgetdBody_out {d b : Reg} : Out s .elsewhere 0 (endState (lnkgetdBody d b (s.pcOf s.cur) s.advanced)) := by
  unfold lnkgetdBody
  rw [me_bind]
  refine endCheck (out_adv _ _ _) ?_
  rw [view_bind]
  exact endState_bind (linkedLoad_out s .elsewhere 0 _ _ _ _ _ _ _ (OutDraining.advanced s _ _)).1 fun _ =>
    Keeps.update fun _ hx => (out_closed s _ _).setReg _ _ _ _ trivial hx

theorem lnkgetlBody_out {ra rb b : Reg} : Out s .elsewhere 0 (endState (lnkgetlBody ra rb b (s.pcOf s.cur) s.advanced)) := by
  have hC := out_closed s .elsewhere 0
  unfold lnkgetlBody
  rw [me_bind]
  refine endCheck (out_adv _ _ _) ?_
  rw [view_bind]
  exact endState_bind (linkedLoad_out s .elsewhere 0 _ _ _ _ _ _ _ (OutDraining.advanced s _ _)).1 fun _ =>
    Keeps.update fun _ hx => hC.setReg _ _ _ _ trivial (hC.setReg _ _ _ _ trivial hx)

/-- Each form of a linked read. -/
theorem lnkget_forms {i : Instr} {d ra rb b : Reg} (h : i ∈ [Instr.lnkgetd d b, .lnkgetl ra rb b, .repeatForm (.lnkgetd d b),
      .repeatForm (.lnkgetl ra rb b)]) : i ∈ [Instr.lnkgetd d b, .repeatForm (.lnkgetd d b)] ∨
    i ∈ [Instr.lnkgetl ra rb b, .repeatForm (.lnkgetl ra rb b)] := by
  simp only [List.mem_cons, List.not_mem_nil, or_false] at h ⊢
  tauto

end

/-! ### The return that makes a caught transfer again -/

/-- The access of a caught load (R658): linked where ReqSB bit 3 says so. -/
def caughtLoad (t : Tid) (k la : Word) : M DWord :=
  if bitOf k 3 then linkedLoad t (widthOfCode (bitsOf k 0 2)) la (bitsOf k 27 5) (bitsOf k 16 11) (bitOf k 2)
  else loadValue t (widthOfCode (bitsOf k 0 2)) la (bitsOf k 27 5) (bitsOf k 16 11) (bitOf k 2)

section
variable {P : State → Prop} {S : Prop} (h : Closed P (fun _ _ => True) S) (hr : RpClosed P) {t : Tid} {k la : Word} {s : State}
include h

include hr in
/-- A caught load made again leaves what its access leaves. -/
theorem Closed.replayLoad_of_access (hs : P s) (got : P (endState (caughtLoad t k la s))) :
    P (endState (Machine.replayLoad t k la s)) := by
  unfold Machine.replayLoad
  split
  · match pairOfBits (bitsOf k 16 11) (bitOf k 2) with
    | none => exact hs
    | some (ua, ub) =>
      exact endState_check hs (endState_bind got fun _ => Keeps.update fun _ hx =>
        h.setReg _ _ _ _ trivial (h.setReg _ _ _ _ trivial hx))
  · match unitOfBit (bitsOf k 16 11) with
    | none => exact hs
    | some u => exact endState_check hs (endState_bind got fun _ => h.writeReg hr (fun _ => trivial) _)

/-- A replay leaves what its transfer leaves. -/
theorem Closed.replayNow_of_transfer (hs : P s) (moved : P (endState (Machine.replayTransfer t s))) :
    P (endState (Machine.replayNow t s)) := by
  unfold Machine.replayNow
  match Machine.replayTransfer t s, moved with
  | .ok _ x, hx => exact h.stopIfDisabled t (h.endReplay t hx)
  | .error (.exc _) _, _ => exact hs
  | .error (.late _) _, hx | .error .block _, hx | .error (.refused _) _, hx => exact hx

/-- A return that makes a caught transfer again leaves what the transfer leaves. -/
theorem Closed.rtiBody_of_transfer {pc : Word} (replays : s.replays = true) (hs : P s)
    (moved : P (endState (Machine.replayTransfer s.cur (s.returnFromInterrupt s.cur (pc + 4#32))))) :
    P (endState (Machine.rtiBody pc s)) := by
  have again : (s.istat s.cur && s.cbMarker s.cur) = true := replays
  unfold Machine.rtiBody
  simp only [me_bind, view_bind, update_bind]
  rw [if_pos again]
  exact endState_bind (h.replayNow_of_transfer (h.returnFromInterrupt _ _ hs) moved) fun _ =>
    Keeps.ite (Keeps.update fun _ hx => h.hid _ _ _ ⟨rfl, .inl rfl⟩ hx) (Keeps.pure _)

end

/-- The catch state marks a transfer that is made again: one is caught, and no watchpoint catches it again (R658). -/
def transferMade (c : Word) : Prop := bitsOf c 10 5 ≠ 0#5 ∧ bitOf c 14 = false

section
variable {t : Tid} {s : State}

/-- Without one the replay changes nothing. -/
theorem endState_replayTransfer_unmade (unmade : ¬ transferMade (s.th t).ct.txcatch0) :
    endState (replayTransfer t s) = s := by
  unfold replayTransfer
  rw [view_bind]
  split
  · rfl
  · rename_i caught
    have watched : bitOf (s.th t).ct.txcatch0 14 = true := by simpa [transferMade, caught] using unmade
    rw [if_pos watched]
    rfl

theorem replayTransfer_made (made : transferMade (s.th t).ct.txcatch0) : replayTransfer t s =
    (if !bitOf (s.th t).ct.txcatch0 8 then
      replayStore t (s.th t).ct.txcatch0 (s.th t).ct.txcatch1 (s.th t).ct.txcatch2 (s.th t).ct.txcatch3
    else if bitsOf (s.th t).ct.txcatch0 16 11 ≠ 0#11 then replayLoad t (s.th t).ct.txcatch0 (s.th t).ct.txcatch1
    else replayIssue t (s.th t).ct.txcatch0 (s.th t).ct.txcatch1) s := by
  obtain ⟨caught, unwatched⟩ := made
  unfold replayTransfer
  rw [view_bind, if_neg caught, unwatched, if_neg (by decide)]

/-- A caught read made again leaves what its access leaves, a caught issue what it keeps. -/
theorem Closed.replayTransfer_read {P : State → Prop} {S : Prop} (h : Closed P (fun _ _ => True) S) (hr : RpClosed P) (hs : P s)
    (made : transferMade (s.th t).ct.txcatch0) (read : bitOf (s.th t).ct.txcatch0 8 = true)
    (got : bitsOf (s.th t).ct.txcatch0 16 11 ≠ 0#11 →
      P (endState (caughtLoad t (s.th t).ct.txcatch0 (s.th t).ct.txcatch1 s))) :
    P (endState (Machine.replayTransfer t s)) := by
  rw [replayTransfer_made made, read, if_neg (by decide)]
  split
  · rename_i load
    exact h.replayLoad_of_access hr hs (got load)
  · exact h.replayIssue hr _ _ _ s hs

theorem caughtLoad_plain {s0 : State} {k la : Word} (plain : bitOf k 3 = false) (hs : SameMemory s0 s) :
    SameMemory s0 (endState (caughtLoad t k la s)) := by
  unfold caughtLoad
  rw [plain, if_neg (by decide)]
  exact (sameMemory_closed s0).loadValue _ _ _ _ _ _ s hs

theorem caughtLoad_out {s0 : State} {x : Place} {n : Nat} {k la : Word} (hs : OutDraining s0 x n s) :
    Out s0 x n (endState (caughtLoad t k la s)) := by
  unfold caughtLoad
  split
  · exact (linkedLoad_out s0 x n _ _ _ _ _ _ s hs).1
  · exact (out_closed s0 x n).loadValue _ _ _ _ _ _ s hs.1

/-- The catch state is what it was before the return. -/
theorem State.catch_returnFromInterrupt (s : State) (t : Tid) (v : Word) :
    ((s.returnFromInterrupt t v).th t).ct.txcatch0 = (s.th t).ct.txcatch0 ∧
    ((s.returnFromInterrupt t v).th t).ct.txcatch1 = (s.th t).ct.txcatch1 ∧
    ((s.returnFromInterrupt t v).th t).ct.txcatch2 = (s.th t).ct.txcatch2 ∧
    ((s.returnFromInterrupt t v).th t).ct.txcatch3 = (s.th t).ct.txcatch3 := by
  unfold State.returnFromInterrupt
  dsimp only
  split <;> simp [State.setRpDirty, State.setStatus]

theorem wc_returnFromInterrupt (s : State) (t : Tid) (v : Word) : SameCombiners s (s.returnFromInterrupt t v) := by
  intro u
  unfold State.returnFromInterrupt
  dsimp only
  split <;> simp only [State.h_modH, State.setRpDirty, State.setStatus, State.h_modCt, State.h_modU] <;> split <;> rfl

end

/-- The value of a caught store of width `w`, out of its lanes (60_exceptions.md R658). -/
def caughtData (x : Ctrl) (w : Width) : DWord :=
  zextBytes (widthBytes w) (joinWords x.txcatch3 x.txcatch2 >>> (8 * (x.txcatch1.toNat % 8)))

/-- A caught store made again changes no byte outside its place. -/
theorem replayStore_out {s0 s : State} {t : Tid} {x : Ctrl} {w : Width} (lanes : widthOfLanes x.txcatch1 (bitsOf x.txcatch0 0 8) = some w)
    (hs : ∀ y n, OutDraining s0 y n s) : Out s0 (s.storePlace t x.txcatch1 (widthBytes w) (caughtData x w)) (widthBytes w)
      (endState (replayStore t x.txcatch0 x.txcatch1 x.txcatch2 x.txcatch3 s)) := by
  unfold replayStore
  rw [lanes]
  obtain ⟨out, combiners⟩ := hs (s.storePlace t x.txcatch1 (widthBytes w) (caughtData x w)) (widthBytes w)
  exact out_storeValue out combiners rfl

/-- The state in which the return of the executing thread makes its caught transfer again. -/
def State.returned (s : State) : State := s.advanced.returnFromInterrupt s.cur (s.pcOf s.cur + 4#32)

section
variable (s : State)

theorem State.catch_returned : (s.returned.th s.cur).ct.txcatch0 = (s.th s.cur).ct.txcatch0 ∧
    (s.returned.th s.cur).ct.txcatch1 = (s.th s.cur).ct.txcatch1 ∧ (s.returned.th s.cur).ct.txcatch2 = (s.th s.cur).ct.txcatch2 ∧
    (s.returned.th s.cur).ct.txcatch3 = (s.th s.cur).ct.txcatch3 := by
  have kept := s.advanced.catch_returnFromInterrupt s.cur (s.pcOf s.cur + 4#32)
  rwa [State.ct_advanced] at kept

theorem State.caughtData_returned (w : Width) : caughtData (s.returned.th s.cur).ct w = caughtData (s.th s.cur).ct w := by
  obtain ⟨-, catch1, catch2, catch3⟩ := s.catch_returned
  rw [caughtData, catch1, catch2, catch3, caughtData]

theorem OutDraining.returned (x : Place) (n : Nat) : OutDraining s x n s.returned :=
  ⟨(out_closed s x n).returnFromInterrupt _ _ (out_adv s x n), (sub_adv s).of_wc (wc_returnFromInterrupt _ _ _)⟩

theorem SameMemory.returned : SameMemory s s.returned :=
  (sameMemory_closed s).returnFromInterrupt _ _ (SameMemory.refl s)

end

/-- Each form of a return that makes a transfer again leaves what the transfer leaves. -/
theorem Closed.return_forms {P : State → Prop} {S : Prop} (h : Closed P (fun _ _ => True) S) {i : Instr} {s s' : State}
    (form : i ∈ [Instr.rti, .repeatForm .rti]) (replays : s.replays = true) (hn : Machine.exec i s = .next s') (hs : P s)
    (moved : P (endState (Machine.replayTransfer s.cur s.returned))) : P s' := by
  have again : s.advanced.replays = true := by rwa [State.replays_advanced]
  exact h.exec_forms form rfl hs (h.rtiBody_of_transfer again (h.setPc _ _ hs) moved) hn

section
variable {i : Instr} {s s' : State} (form : i ∈ [Instr.rti, .repeatForm .rti]) (replays : s.replays = true) (hn : exec i s = .next s')
include form replays hn

theorem return_unmade (unmade : ¬ transferMade (s.th s.cur).ct.txcatch0) : SameMemory s s' := by
  obtain ⟨catch0, -⟩ := s.catch_returned
  refine (sameMemory_closed s).return_forms form replays hn (SameMemory.refl s) ?_
  rw [endState_replayTransfer_unmade (by rwa [catch0])]
  exact SameMemory.returned s

section
variable (made : transferMade (s.th s.cur).ct.txcatch0)
include made

theorem return_store (write : bitOf (s.th s.cur).ct.txcatch0 8 = false) {w : Width}
    (lanes : widthOfLanes (s.th s.cur).ct.txcatch1 (bitsOf (s.th s.cur).ct.txcatch0 0 8) = some w) :
    SameOutside s s' (s.returned.storePlace s.cur (s.th s.cur).ct.txcatch1 (widthBytes w) (caughtData (s.th s.cur).ct w))
      (widthBytes w) := by
  obtain ⟨catch0, catch1, -⟩ := s.catch_returned
  rw [← catch0] at made write lanes
  rw [← catch1] at lanes
  refine (out_closed s _ _).return_forms form replays hn (out_self s _ _) ?_
  rw [replayTransfer_made made, write, if_pos (by decide), ← catch1, ← s.caughtData_returned]
  exact replayStore_out lanes (OutDraining.returned s)

theorem return_read (read : bitOf (s.th s.cur).ct.txcatch0 8 = true) : SameOutside s s' .elsewhere 0 := by
  obtain ⟨catch0, -⟩ := s.catch_returned
  rw [← catch0] at made read
  have hC := out_closed s .elsewhere 0
  exact hC.return_forms form replays hn (out_self s _ _) (hC.replayTransfer_read (out_rp _ _ _) (OutDraining.returned s _ _).1 made read
    fun _ => caughtLoad_out (OutDraining.returned s _ _))

theorem return_plainRead (read : bitOf (s.th s.cur).ct.txcatch0 8 = true)
    (plain : bitOf (s.th s.cur).ct.txcatch0 3 = false ∨ bitsOf (s.th s.cur).ct.txcatch0 16 11 = 0#11) : SameMemory s s' := by
  obtain ⟨catch0, -⟩ := s.catch_returned
  rw [← catch0] at made read plain
  have hC := sameMemory_closed s
  exact hC.return_forms form replays hn (SameMemory.refl s) (hC.replayTransfer_read (sameMemory_rpClosed s) (SameMemory.returned s) made
    read fun load => caughtLoad_plain (plain.resolve_right load) (SameMemory.returned s))

end
end

/-! ### Every store -/

/-- Settles O14: each form is one iteration of its instruction, whose body makes one write at the place of the statement, or drains the
write combiner, or leaves memory. -/
theorem storesLeaveOtherBytes : Obligations.StoresLeaveOtherBytes := by
  intro s s'
  refine ⟨?store, ?pair, ?multiple, ?multiplePair, ?linked, ?linkedPair, ?linkedRead, ?back⟩
  case store =>
    intro w i x s1 form hn
    obtain ⟨j, form, once, body⟩ := store_forms form
    exact ⟨fun v read => (out_closed s _ _).exec_forms form once (out_self s _ _) (body ▸ storeBody_out read) hn,
      fun e stop => (sameMemory_closed s).exec_forms form once (SameMemory.refl s) (body ▸ storeBody_stopped stop) hn⟩
  case pair =>
    intro i x form hn
    exact (out_closed s _ _).exec_forms form rfl (out_self s _ _) storePair_out hn
  case multiple =>
    intro i b r l form hn item
    exact (out_closed s _ _).exec_forms form rfl (out_self s _ _) (msetdBody_out item) hn
  case multiplePair =>
    intro i b p l form hn item
    exact (out_closed s _ _).exec_forms form rfl (out_self s _ _) (msetlBody_out item) hn
  case linked =>
    intro i c b r form hn
    exact (out_closed s _ _).exec_forms form rfl (out_self s _ _) lnksetdBody_out hn
  case linkedPair =>
    intro i c b ra rb form hn
    exact (out_closed s _ _).exec_forms form rfl (out_self s _ _) lnksetlBody_out hn
  case linkedRead =>
    intro i d ra rb b form hn
    obtain form | form := lnkget_forms form
    · exact (out_closed s _ _).exec_forms form rfl (out_self s _ _) lnkgetdBody_out hn
    · exact (out_closed s _ _).exec_forms form rfl (out_self s _ _) lnkgetlBody_out hn
  case back =>
    intro i form replays hn
    exact ⟨fun w made write lanes => return_store form replays hn made write lanes,
      fun made read => return_read form replays hn made read,
      fun made read plain => return_plainRead form replays hn made read plain,
      fun unmade => return_unmade form replays hn unmade⟩

end Sys2Proof.Machine
end

section
/-! PROOFS. The walk of the HTP tables with an empty TLB, and the translation it gives (21_mmu_cache.md R334 to R338). -/

namespace Sys2Proof.Machine

/-! ### A TLB changed -/

section
variable (s : State) (side : CacheSide) (t : Tid) (f : Tlb → Tlb)

@[simp] theorem State.cfg_modTlb : (s.modTlb side t f).cfg = s.cfg := rfl
@[simp] theorem State.core_modTlb : (s.modTlb side t f).core = s.core := rfl
@[simp] theorem State.env_modTlb : (s.modTlb side t f).env = s.env := rfl
@[simp] theorem State.tlb_modTlb_self : (s.modTlb side t f).tlb side t = f (s.tlb side t) := by
  unfold State.modTlb State.tlb
  rw [State.h_modH_self]
  cases side <;> rfl

end

/-! ### The walk -/

section
variable {s : State} {a : Acc} {la : Word} {k : Kind} {side : CacheSide}

/-- The entry of a table at a physical address. -/
def State.tableEntry (s : State) (addr : Word) : Word := loWord (Memory.readN s.env.phys addr.toNat 4)

/-- What a walk remembers of an entry it read: a valid one, in its level of the TLB (21_mmu_cache.md R349). -/
def State.remember (s : State) (side : CacheSide) (t : Tid) (first : Bool) (e : TlbEntry) : State :=
  if bitOf e.val 0 then
    s.modTlb side t fun x => if first then { x with l1 := e :: x.l1 } else { x with l2 := e :: x.l2 }
  else s

@[simp] theorem State.cfg_remember (t : Tid) (first : Bool) (e : TlbEntry) : (s.remember side t first e).cfg = s.cfg := by
  unfold State.remember; split <;> rfl
@[simp] theorem State.core_remember (t : Tid) (first : Bool) (e : TlbEntry) : (s.remember side t first e).core = s.core := by
  unfold State.remember; split <;> rfl
@[simp] theorem State.env_remember (t : Tid) (first : Bool) (e : TlbEntry) : (s.remember side t first e).env = s.env := by
  unfold State.remember; split <;> rfl

/-- A remembered first-level entry leaves the second level. -/
@[simp] theorem State.l2_remember_first (t : Tid) (e : TlbEntry) :
    ((s.remember side t true e).tlb side t).l2 = (s.tlb side t).l2 := by
  unfold State.remember
  split
  · rw [State.tlb_modTlb_self]; rfl
  · rfl

/-- An entry the TLB does not hold is read from memory. -/
theorem walkEntry_missed {first : Bool} {addr mask : Word}
    (missed : tlbFind (if first then (s.tlb side a.tid).l1 else (s.tlb side a.tid).l2) addr la = none) (backed : s.backed addr 4 = true) :
    walkEntry a side first addr la mask s =
      .ok (s.tableEntry addr) (s.remember side a.tid first ⟨addr, la &&& mask, mask, s.tableEntry addr⟩) := by
  unfold walkEntry State.remember
  rw [view_bind]
  dsimp only
  rw [missed]
  dsimp only
  rw [M.bind_ok (physRead_backed backed)]
  rw [← State.tableEntry]
  cases bitOf (s.tableEntry addr) 0 <;> rfl

/-- The first-level entry the HTP root registers give an address (21_mmu_cache.md R334). -/
theorem firstLevelAddr_htp {t : Tid} (htp : bitOf s.core.tablePhys 0 = true) :
    firstLevelAddr t la s = .ok (htpFirst (s.rootRegs t la).1 (s.rootRegs t la).2 la) s := by
  unfold firstLevelAddr
  rw [view_bind, if_pos htp, view_bind]
  rfl

/-- The end of a walk whose second-level entry is `e`. -/
def walkEnd (e : Word) (ps : Nat) (la : Word) : Walk :=
  if bitOf e 0 then .mapped e ps ((e &&& 0xFFFFF000#32) + BitVec.ofNat 32 (la.toNat % ps)) else .secondInvalid

theorem walkEnd_invalid {e : Word} {ps : Nat} (invalid : bitOf e 0 = false) : walkEnd e ps la = .secondInvalid := by
  simp [walkEnd, invalid]

theorem walkEnd_valid {e : Word} {ps : Nat} (valid : bitOf e 0 = true) :
    walkEnd e ps la = .mapped e ps ((e &&& 0xFFFFF000#32) + BitVec.ofNat 32 (la.toNat % ps)) := if_pos valid

/-- A walk with an empty TLB reads the two entries from memory (21_mmu_cache.md R335 steps 1 to 3). -/
theorem walk_htp {a1 : Word} {ps : Nat} (htp : bitOf s.core.tablePhys 0 = true)
    (root : htpFirst (s.rootRegs a.tid la).1 (s.rootRegs a.tid la).2 la = some a1) (empty : s.tlb side a.tid = ⟨[], []⟩)
    (backed1 : s.backed a1 4 = true) (valid1 : bitOf (s.tableEntry a1) 0 = true) (size : pageBytesOf true (s.tableEntry a1) = some ps)
    {a2 : Word} (second : a2 = (s.tableEntry a1 &&& 0xFFFFFFC0#32) + BitVec.ofNat 32 (4 * ((la.toNat % 0x400000) / ps)))
    (backed2 : s.backed a2 4 = true) : ∃ s', walk a side la s = .ok (walkEnd (s.tableEntry a2) ps la) s' := by
  have first := walkEntry_missed (s := s) (a := a) (la := la) (side := side) (first := true) (mask := 0xFFC00000#32)
    (by rw [empty]; rfl) backed1
  generalize remembered : s.remember side a.tid true _ = s1 at first
  have empty2 : (s1.tlb side a.tid).l2 = [] := by rw [← remembered, State.l2_remember_first, empty]
  have core1 : s1.core = s.core := by rw [← remembered, State.core_remember]
  have there : s1.backed a2 4 = true := by rw [State.backed, ← remembered, State.cfg_remember]; exact backed2
  have entry2 : s1.tableEntry a2 = s.tableEntry a2 := by rw [State.tableEntry, ← remembered, State.env_remember]; rfl
  have next := walkEntry_missed (s := s1) (a := a) (la := la) (side := side) (first := false)
    (mask := BitVec.ofNat 32 (0x100000000 - ps)) (by rw [if_neg (by decide), empty2]; rfl) there
  rw [entry2] at next
  generalize s1.remember side a.tid false _ = s2 at next
  refine ⟨s2, ?_⟩
  unfold walk walkEnd
  rw [M.bind_ok (firstLevelAddr_htp htp), root]
  dsimp only
  rw [M.bind_ok first, valid1, if_neg (by decide), view_bind, core1, htp, size]
  dsimp only
  rw [← second, M.bind_ok next]
  cases bitOf (s.tableEntry a2) 0 <;> rfl

/-! ### The translation -/

/-- Outside the direct mapped region translation is that of the ranges. -/
theorem translate_range (region : regionOf la = .local ∨ regionOf la = .global) :
    Machine.translate a la k s = translateRange a la k s := by
  unfold Machine.translate
  rcases region with h | h <;> rw [h]

/-- What the end of a walk makes of an access (21_mmu_cache.md R337). -/
def Walk.answer (w : Walk) (k : Kind) (priv glob : Bool) : Except FReason Attr :=
  match w with
  | .firstInvalid | .secondInvalid => .error .page
  | .mapped e _ pa =>
    match permission (bitOf e 1) (bitOf e 2) k priv with
    | some r => .error r
    | none => .ok ⟨pa, bitsOf e 6 2, bitOf e 3, glob, bitOf e 4⟩

theorem Walk.answer_denied {e pa : Word} {ps : Nat} {priv glob : Bool} {r : FReason}
    (denied : permission (bitOf e 1) (bitOf e 2) k priv = some r) : (Walk.mapped e ps pa).answer k priv glob = .error r := by
  simp [Walk.answer, denied]

theorem Walk.answer_granted {e pa : Word} {ps : Nat} {priv glob : Bool}
    (granted : permission (bitOf e 1) (bitOf e 2) k priv = none) :
    (Walk.mapped e ps pa).answer k priv glob = .ok ⟨pa, bitsOf e 6 2, bitOf e 3, glob, bitOf e 4⟩ := by
  simp [Walk.answer, granted]

/-- In active mode translation is the answer of the table walk. -/
theorem translate_active {s' : State} {w : Walk} (region : regionOf la = .local ∨ regionOf la = .global)
    (active : s.mmuMode k.side = .active) (walked : walk a k.side la s = .ok w s') :
    Machine.translate a la k s = .ok (w.answer k a.priv (regionOf la == .global)) s' := by
  rw [translate_range region]
  unfold translateRange
  rw [view_bind, active]
  dsimp only
  rw [M.bind_ok walked]
  cases w with
  | firstInvalid | secondInvalid => rfl
  | mapped e ps pa =>
    unfold Walk.answer
    dsimp only
    cases permission (bitOf e 1) (bitOf e 2) k a.priv <;> rfl

end

/-! ### Permissions -/

section
variable {writable privOnly p : Bool} {k : Kind}

/-- Privilege is looked at before the write permission. -/
theorem permission_general (privileged : privOnly = true) (unpriv : p = false) : permission writable privOnly k p = some .general := by
  simp [permission, privileged, unpriv]

theorem permission_protection (allowed : privOnly = false ∨ p = true) (readOnly : writable = false) :
    permission writable privOnly .write p = some .protection := by
  rcases allowed with h | h <;> simp [permission, h, readOnly]

theorem permission_granted (allowed : privOnly = false ∨ p = true) (suits : writable = true ∨ k ≠ .write) :
    permission writable privOnly k p = none := by
  rcases allowed with h | h <;> rcases suits with g | g <;> simp [permission, h, g]

end

/-- Settles O27: the walk reads the two entries, and its end answers by the bits of the second. -/
theorem tableWalkMaps : Obligations.TableWalkMaps := by
  intro s a la k a1 ps region active htp root empty backed1 e1 valid1 size a2 backed2 e2
  obtain ⟨s', walked⟩ : ∃ s', walk a k.side la s = .ok (walkEnd e2 ps la) s' :=
    walk_htp htp root empty backed1 valid1 size rfl backed2
  have answer := translate_active region active walked
  refine ⟨fun invalid => ⟨s', ?_⟩, fun valid privileged unpriv => ⟨s', ?_⟩,
    fun valid allowed readOnly write => ⟨s', ?_⟩, fun valid allowed suits => ⟨s', ?_⟩⟩
  · rw [answer, walkEnd_invalid invalid]
    rfl
  · rw [answer, walkEnd_valid valid, Walk.answer_denied (permission_general privileged unpriv)]
  · subst write
    rw [answer, walkEnd_valid valid, Walk.answer_denied (permission_protection allowed readOnly)]
  · rw [answer, walkEnd_valid valid, Walk.answer_granted (permission_granted allowed suits)]

end Sys2Proof.Machine
end

section
/-! PROOFS. The data cache prefetch of RAPF (40_data_movement.md R474, 21_mmu_cache.md R346, R367). -/

namespace Sys2Proof.Machine

/-! ### What a prefetch answers -/

/-- A prefetch started for an address that reaches physical memory; one that reaches none has no effect (U23). -/
def State.startPrefetch (s : State) (t : Tid) : Option Attr → State
  | none => s
  | some x => s.modH t fun h => { h with pf := some ⟨lineOf x.pa, x.glob, x.win != 0#2⟩ }

/-- The MMU table region is outside the global range. -/
theorem State.tableAt_glob {s : State} {la : Word} {x : Attr} (h : s.tableAt la = some x) : x.glob = false := by
  unfold State.tableAt at h
  dsimp only at h
  split at h
  · rw [← Option.some.inj h]; rfl
  · cases h

section
variable {s s' : State} {t : Tid} {la : Word}

/-- A prefetch waits for the one outstanding. -/
theorem prefetch_outstanding (outstanding : (s.th t).h.pf ≠ none) : prefetch t la s = .error .block s := by
  unfold prefetch
  rw [view_bind, if_pos (Option.isSome_iff_ne_none.mpr outstanding)]
  rfl

variable (idle : (s.th t).h.pf = none)
include idle

theorem prefetch_walked {r : Except FReason Attr} (walked : regionOf la ∈ [.directMap, .local, .global])
    (live : rowState (regionOf la) (s.mmuMode .data) = .live)
    (reached : Machine.translate (s.accOf t) la .read s = .ok r s') :
    prefetch t la s = .ok () (s'.startPrefetch t r.toOption) := by
  unfold prefetch
  rw [view_bind, idle, if_neg (by decide)]
  dsimp only
  rw [view_bind, view_bind, live]
  simp only [List.mem_cons, List.not_mem_nil, or_false] at walked
  rcases walked with region | region | region <;> rw [region] <;> dsimp only <;> rw [if_pos (by decide), M.bind_ok reached] <;>
    cases r <;> rfl

theorem prefetch_table (region : regionOf la = .mmuTable) (live : rowState (regionOf la) (s.mmuMode .data) = .live) :
    prefetch t la s = .ok () (s.startPrefetch t (s.tableAt la)) := by
  unfold prefetch
  rw [view_bind, idle, if_neg (by decide)]
  dsimp only
  rw [view_bind, view_bind, live, region]
  dsimp only
  rw [if_pos (by decide), view_bind]
  cases s.tableAt la <;> rfl

/-- Of an address that no prefetch reaches, or whose row does not answer, a prefetch has no effect. -/
theorem prefetch_dead (dead : ¬ ((regionOf la ∈ [.directMap, .local, .global] ∨ regionOf la = .mmuTable) ∧
      rowState (regionOf la) (s.mmuMode .data) = .live)) : prefetch t la s = .ok () s := by
  unfold prefetch
  rw [view_bind, idle, if_neg (by decide)]
  dsimp only
  rw [view_bind, view_bind]
  by_cases reaches : regionOf la ∈ [.directMap, .local, .global] ∨ regionOf la = .mmuTable
  · have silent : (rowState (regionOf la) (s.mmuMode .data) == .live) = false := by
      simpa using fun live => dead ⟨reaches, live⟩
    rw [silent]
    simp only [List.mem_cons, List.not_mem_nil, or_false] at reaches
    rcases reaches with (region | region | region) | region <;> rw [region] <;> rfl
  · cases region : regionOf la <;> simp [region] at reaches <;> rfl

end

/-! ### RAPF -/

section
variable {s s1 s2 : State} {c : Cond} {r : Reg} {la : Word} (runs : s.runs c)
  (usable : s.operandsOk [rd r, wr (portReg .rapf)]) (read : readReg s.cur (s.pcOf s.cur) r s.advanced = .ok la s1)
include usable read

theorem issueBody_rapf : issueBody .rapf r (s.pcOf s.cur) s.advanced = prefetch s.cur la s1 := by
  unfold issueBody
  rw [me_bind, State.cur_advanced, usable.bind, M.bind_ok read]
  rfl

include runs

theorem exec_movRapf_ok (done : prefetch s.cur la s1 = .ok () s2) : exec (.movRapf c r) s = .next (s2.complete s.cur) :=
  (exec_once rfl s).trans (issue_ok runs ((issueBody_rapf usable read).trans done))

theorem exec_movRapf_block (waits : prefetch s.cur la s1 = .error .block s2) : exec (.movRapf c r) s = .next (s.blocked s.cur) :=
  (exec_once rfl s).trans (issue_block runs ((issueBody_rapf usable read).trans waits))

end

/-- Settles O33: what the prefetch does with the address that was read, by the row of the address. -/
theorem prefetchPort : Obligations.PrefetchPort := by
  intro s s1 c r la runs usable read walked live
  have done {s2 : State} (h : prefetch s.cur la s1 = .ok () s2) := exec_movRapf_ok runs usable read h
  refine ⟨fun x s2 idle region ⟨_, answers⟩ reached => done (prefetch_walked idle region answers reached),
    fun e s2 idle region ⟨_, answers⟩ reached => done (prefetch_walked idle region answers reached),
    fun idle region ⟨_, answers⟩ => ⟨fun x root => ?_, fun rootless => ?_⟩,
    fun idle dead => done (prefetch_dead idle dead),
    fun outstanding => exec_movRapf_block runs usable read (prefetch_outstanding outstanding)⟩
  · have started := done (prefetch_table idle region answers)
    rw [root, State.startPrefetch, State.tableAt_glob root] at started
    exact started
  · have started := done (prefetch_table idle region answers)
    rw [rootless] at started
    exact started

end Sys2Proof.Machine
end

section
/-! PROOFS. CACHERL, DCACHE, CACHEW and ICACHE (43_sync_system.md R575 to R578, 21_mmu_cache.md R341, R346, R364). -/

namespace Sys2Proof.Machine

/-! ### The value of CACHERL -/

/-- Bits 11:0 of the page mask of R341, for the page sizes of 4 Kbyte to 4 Mbyte. -/
theorem pageMask_field {k : Nat} (hk : k ≤ 10) :
    bitsOf (BitVec.ofNat 32 (0x100000000 - 4096 * 2 ^ k)) 12 12 = BitVec.ofNat 12 (0x1000 - 2 ^ k) := by
  interval_cases k <;> rfl

section
variable (e pa : Word) (ps : Nat)

/-- The value of a mapped page, field by field. -/
theorem cacherlMapped_row : cacherlMapped e ps pa =
    (0#16 ++ bitsOf (BitVec.ofNat 32 (0x100000000 - ps)) 12 12 ++ 1#4) ++ (bitsOf pa 12 20 ++ bitsOf e 0 12) := rfl

theorem cacherlMapped_page : bitsOf (cacherlMapped e ps pa) 12 20 = bitsOf pa 12 20 := by
  rw [cacherlMapped_row, bitsOf_append_low (by decide), bitsOf_append_high (by decide)]
  exact bitsOf_self _

theorem cacherlMapped_entry : bitsOf (cacherlMapped e ps pa) 0 12 = bitsOf e 0 12 := by
  rw [cacherlMapped_row, bitsOf_append_low (by decide), bitsOf_append_low (by decide)]
  exact bitsOf_self _

theorem cacherlMapped_readable : bitsOf (cacherlMapped e ps pa) 32 4 = 1#4 := by
  rw [cacherlMapped_row, bitsOf_append_high (by decide), bitsOf_append_low (by decide)]
  exact bitsOf_self _

theorem cacherlMapped_mask : bitsOf (cacherlMapped e ps pa) 36 12 = bitsOf (BitVec.ofNat 32 (0x100000000 - ps)) 12 12 := by
  rw [cacherlMapped_row, bitsOf_append_high (by decide), bitsOf_append_high (by decide), bitsOf_append_low (by decide)]
  exact bitsOf_self _

theorem cacherlMapped_top : bitsOf (cacherlMapped e ps pa) 48 16 = 0#16 := by
  rw [cacherlMapped_row, bitsOf_append_high (by decide), bitsOf_append_high (by decide), bitsOf_append_high (by decide)]
  exact bitsOf_self _

end

/-- VALID is 0 and FIRST says which level was invalid; the other bits are open. -/
theorem cacherlInvalid_bits (first : Bool) (free : DWord) :
    bitOf (cacherlInvalid first free) 0 = false ∧ bitOf (cacherlInvalid first free) 2 = first := by
  unfold cacherlInvalid bitOf
  cases first <;> simp

section
variable {s s1 : State} {t : Tid} {side : CacheSide} {la : Word}

/-- In active mode CACHERL shows the end of the table walk. -/
theorem cacherlValue_active {w : Walk} (region : regionOf la = .local ∨ regionOf la = .global) (active : s.mmuMode side = .active)
    (walked : walk (s.accOf t) side la s = .ok w s1) :
    (∀ e ps pa, w = .mapped e ps pa → cacherlValue t side la s = .ok (cacherlMapped e ps pa) s1) ∧
    (∀ first, (w, first) ∈ [(Walk.firstInvalid, true), (.secondInvalid, false)] →
      ∃ free s', cacherlValue t side la s = .ok (cacherlInvalid first free) s') := by
  have translated : (s.mmuMode side == .active && (regionOf la == .local || regionOf la == .global)) = true := by
    simpa [active] using region
  unfold cacherlValue
  rw [view_bind, view_bind, if_pos translated, M.bind_ok walked]
  constructor
  · rintro e ps pa rfl
    rfl
  · intro first level
    simp only [List.mem_cons, Prod.mk.injEq, List.not_mem_nil, or_false] at level
    obtain ⟨rfl, rfl⟩ | ⟨rfl, rfl⟩ := level <;> exact ⟨_, _, rfl⟩

/-- Outside the translated ranges, or the active mode, CACHERL still gives a value. -/
theorem cacherlValue_open (untranslated : s.mmuMode side ≠ .active ∨ ¬ (regionOf la = .local ∨ regionOf la = .global)) :
    ∃ v s', cacherlValue t side la s = .ok v s' := by
  have elsewhere : (s.mmuMode side == .active && (regionOf la == .local || regionOf la == .global)) ≠ true := by
    simpa [← not_or, ← not_and_or] using untranslated
  unfold cacherlValue
  rw [view_bind, view_bind, if_neg elsewhere]
  exact ⟨_, _, rfl⟩

end

/-! ### A line removed -/

/-- The lines of a partition that were replaced read as the new ones. -/
theorem State.linesOf_setLines_self (s : State) (side : CacheSide) (p : Part) (l : List CacheLine) :
    (s.setLines side p l).linesOf side p = l := by
  cases side <;> cases p <;> simp [State.setLines, State.linesOf]

/-- A removed line is no longer found in its partition. -/
theorem findLine_invalidateLine (s : State) (side : CacheSide) (p : Part) (line : Nat) :
    findLine ((s.invalidateLine side p line).linesOf side p) line = none := by
  unfold State.invalidateLine
  rw [State.linesOf_setLines_self]
  simp [findLine, dropLine]

section
variable (s : State) (side : CacheSide) (p : Part) (line : Nat)

@[simp] theorem State.cfg_invalidateLine : (s.invalidateLine side p line).cfg = s.cfg := by
  cases side <;> cases p <;> rfl
@[simp] theorem State.core_invalidateLine : (s.invalidateLine side p line).core = s.core := by
  cases side <;> cases p <;> rfl

end

section
variable {s s1 : State} {t : Tid} {side : CacheSide} {la : Word}

theorem mmuMode_config0 (config : s.core.mmuConfig = 0#3) (side : CacheSide) : s.mmuMode side = .bypass := by
  unfold State.mmuMode
  rw [config]
  cases side <;> rfl

/-- An address with a physical address loses its line. -/
theorem dropLinear_found {pa : Word} {glob : Bool} (found : lineAddress t side la s = .ok (some (pa, glob)) s1) :
    dropLinear t side la s = .ok true (s1.invalidateLine side (s1.partOf t glob) (lineOf pa)) := by
  unfold dropLinear
  rw [M.bind_ok found]
  rfl

theorem lineAddress_bypass (region : regionOf la = .local ∨ regionOf la = .global) (bypass : s.mmuMode side = .bypass) :
    lineAddress t side la s = .ok (some (la, regionOf la == .global)) s := by
  have reached := translate_bypass (s := s) (a := s.accOf t) (k := if side = .data then .read else .fetch) region
    (by cases side <;> exact bypass)
  unfold lineAddress
  rw [view_bind]
  dsimp only
  rw [view_bind, bypass]
  rcases region with h | h <;> rw [h] at reached ⊢ <;> dsimp only <;> rw [if_neg (by decide), M.bind_ok reached] <;> rfl

theorem lineAddress_table {x : Attr} (region : regionOf la = .mmuTable) (live : rowState .mmuTable (s.mmuMode side) = .live)
    (root : s.tableAt la = some x) : lineAddress t side la s = .ok (some (x.pa, false)) s := by
  unfold lineAddress
  rw [view_bind]
  dsimp only
  rw [view_bind, region]
  dsimp only
  rw [if_pos live, view_bind, root, ← State.tableAt_glob root]
  rfl

@[simp] theorem State.tableAt_advanced (s : State) (la : Word) : s.advanced.tableAt la = s.tableAt la := by
  simp [State.tableAt, State.tableRoot]

/-- In MMU bypass mode the line of the address itself is removed. -/
theorem dropLinear_bypass (region : regionOf la = .local ∨ regionOf la = .global) (bypass : s.mmuMode side = .bypass) :
    dropLinear t side la s = .ok true (s.invalidateLine side (s.partOf t (regionOf la == .global)) (lineOf la)) :=
  dropLinear_found (lineAddress_bypass region bypass)

end

/-! ### The lines of ICACHE -/

section
variable {s s1 : State} {t : Tid} {la : Word}

/-- A line request of ICACHE: a line that translates and is cacheable. -/
def State.requestLine (s : State) (t : Tid) : Except FReason Attr → State
  | .error _ => s
  | .ok x => if x.win = 0#2 then s else s.modH t fun h => { h with ipf := h.ipf ++ [⟨lineOf x.pa, x.glob, true⟩] }

theorem preloadLine_walked {r : Except FReason Attr} (walked : regionOf la ∈ [.directMap, .local, .global])
    (live : rowState (regionOf la) (s.mmuMode .instruction) = .live)
    (reached : Machine.translate (s.accOf t) la .fetch s = .ok r s1) : preloadLine t la s = .ok () (s1.requestLine t r) := by
  unfold preloadLine
  rw [view_bind, view_bind, live]
  simp only [List.mem_cons, List.not_mem_nil, or_false] at walked
  rcases walked with region | region | region <;> rw [region] <;> dsimp only <;> rw [if_pos (by decide), M.bind_ok reached]
  all_goals
    cases r with
    | error e => rfl
    | ok x => by_cases uncached : x.win = 0#2 <;> simp [State.requestLine, uncached]

/-- In MMU bypass mode no line is cacheable, and the direct mapped region does not answer. -/
theorem preloadLine_bypass (bypass : s.mmuMode .instruction = .bypass) : preloadLine t la s = .ok () s := by
  by_cases ranges : regionOf la = .local ∨ regionOf la = .global
  · have walked : regionOf la ∈ [.directMap, .local, .global] := by rcases ranges with h | h <;> simp [h]
    exact preloadLine_walked walked (by rw [bypass]; exact rowState_bypass ranges) (translate_bypass ranges bypass)
  · unfold preloadLine
    rw [view_bind, view_bind, bypass]
    cases region : regionOf la <;> simp [region] at ranges <;> rfl

theorem preloadLines_bypass (bypass : s.mmuMode .instruction = .bypass) (la : Word) (n : Nat) :
    preloadLines t la n s = .ok () s := by
  induction n generalizing la with
  | zero => rfl
  | succ n ih => exact (M.bind_ok (preloadLine_bypass bypass)).trans (ih _)

theorem preloadLines_one (done : preloadLine t la s = .ok () s1) : preloadLines t la 1 s = .ok () s1 :=
  (M.bind_ok done).trans rfl

end

/-! ### The instructions -/

section
variable {s s1 s2 : State}

theorem exec_cacherl {side : CacheSide} {ra rb b : Reg} {v : DWord} (usable : s.operandsOk [wr ra, wr rb, rd b])
    (shown : cacherlValue s.cur side (s.reg s.cur b) s.advanced = .ok v s1) : exec (.cacherl side ra rb b) s =
      .next (((s1.setReg s.cur ra (loWord v)).setReg s.cur rb (hiWord v)).complete s.cur) := by
  refine (exec_once rfl s).trans (issue_ok s.runs_al ?_)
  refine (me_bind _ _).trans (usable.bind.trans ?_)
  rw [view_bind, State.reg_advanced, State.cur_advanced, M.bind_ok shown]
  rfl

theorem exec_dcache {b : Reg} {x : Bool} (usable : s.operandsOk [rd b])
    (dropped : dropLinear s.cur .data (s.reg s.cur b) s.advanced = .ok x s1) : exec (.dcache b) s = .next (s1.complete s.cur) := by
  refine (exec_once rfl s).trans (issue_ok s.runs_al ?_)
  refine (me_bind _ _).trans (usable.bind.trans ?_)
  rw [view_bind, State.reg_advanced, State.cur_advanced, M.bind_ok dropped]
  rfl

/-- CACHEW drops the TLB entries of an address that lost its line on some side. -/
theorem exec_cachew {b r : Reg} {i : Bool} (usable : s.operandsOk [rd b, rd r])
    (data : dropLinear s.cur .data (s.reg s.cur b) s.advanced = .ok true s1)
    (instruction : dropLinear s.cur .instruction (s.reg s.cur b) s1 = .ok i s2) :
    exec (.cachew b r) s = .next ((s2.dropTlb s.cur (s.reg s.cur b)).complete s.cur) := by
  refine (exec_once rfl s).trans (issue_ok s.runs_al ?_)
  refine (me_bind _ _).trans (usable.bind.trans ?_)
  rw [view_bind, State.reg_advanced, State.cur_advanced, M.bind_ok data, M.bind_ok instruction]
  rfl

theorem exec_icache {base : AuSrc} {off a : Word} {n : Nat} (usable : s.operandsOk (auSrcUses base))
    (read : readAuSrc s.cur (s.pcOf s.cur) base s.advanced = .ok a s.advanced)
    (loaded : preloadLines s.cur (alignDown (a + off) 64) n s.advanced = .ok () s1) :
    exec (.icache base off n) s = .next (s1.complete s.cur) := by
  refine (exec_once rfl s).trans (issue_ok s.runs_al ?_)
  refine (me_bind _ _).trans (usable.bind.trans ?_)
  rw [State.cur_advanced, M.bind_ok read, loaded]

/-- CACHEW in MMU bypass mode: the line of the address leaves both caches. -/
theorem exec_cachew_bypass {b r : Reg} (usable : s.operandsOk [rd b, rd r])
    (region : regionOf (s.reg s.cur b) = .local ∨ regionOf (s.reg s.cur b) = .global) (config : s.core.mmuConfig = 0#3) :
    let part := s.partOf s.cur (regionOf (s.reg s.cur b) == .global)
    let line := lineOf (s.reg s.cur b)
    exec (.cachew b r) s = .next ((((s.advanced.invalidateLine .data part line).invalidateLine .instruction part line).dropTlb
      s.cur (s.reg s.cur b)).complete s.cur) := by
  intro part line
  have data : dropLinear s.cur .data (s.reg s.cur b) s.advanced = .ok true (s.advanced.invalidateLine .data part line) :=
    dropLinear_bypass region (mmuMode_config0 config .data)
  have config1 : (s.advanced.invalidateLine .data part line).core.mmuConfig = 0#3 := by rw [State.core_invalidateLine]; exact config
  have instruction := dropLinear_bypass (t := s.cur) region (mmuMode_config0 config1 .instruction)
  rw [State.partOf, globalPart, State.cfg_invalidateLine] at instruction
  exact exec_cachew usable data instruction

end

/-- Settles O50: each instruction is its body, and each body one shared operation whose answer the lemmas above give. -/
theorem cacheInstructionsComplete : Obligations.CacheInstructionsComplete := by
  intro s s1 side ra rb b r base off a n t la bypass part
  have acc : s.advanced.accOf t = s.accOf t := State.accOf_advanced s t
  refine ⟨fun v usable shown => exec_cacherl usable shown, ?mapped, ?invalid, fun untranslated => cacherlValue_open untranslated,
    fun x usable dropped => exec_dcache usable dropped, ?dcache, ?table, fun usable ⟨region, config⟩ =>
    exec_cachew_bypass usable region config, fun x line => findLine_invalidateLine x side part line, ?icache⟩
  case mapped =>
    intro e ps pa region active walked
    rw [← acc] at walked
    have shown := (cacherlValue_active (s := s.advanced) region active walked).1 e ps pa rfl
    refine ⟨_, shown, cacherlMapped_page e pa ps, cacherlMapped_entry e pa ps, cacherlMapped_readable e pa ps,
      cacherlMapped_top e pa ps, fun k hk size => ?_⟩
    rw [cacherlMapped_mask, size, pageMask_field hk]
  case invalid =>
    intro w first level region active walked
    rw [← acc] at walked
    obtain ⟨free, s', shown⟩ := (cacherlValue_active (s := s.advanced) region active walked).2 first level
    exact ⟨_, s', shown, cacherlInvalid_bits first free⟩
  case dcache =>
    intro usable ⟨region, config⟩
    exact exec_dcache usable (dropLinear_bypass (s := s.advanced) region (mmuMode_config0 config .data))
  case table =>
    intro x usable region live root
    exact exec_dcache usable (dropLinear_found (lineAddress_table (s := s.advanced) (side := .data) region live (by rwa [State.tableAt_advanced])))
  case icache =>
    intro usable read
    refine ⟨fun loaded => exec_icache usable read loaded, fun line hline walked live => ?_, fun config =>
      exec_icache usable read (preloadLines_bypass (s := s.advanced) (mmuMode_config0 config .instruction) _ n)⟩
    subst hline
    rw [← acc]
    constructor
    · intro x reached
      exact exec_icache usable read (preloadLines_one (preloadLine_walked (s := s.advanced) walked live reached))
    · intro e reached
      exact exec_icache usable read (preloadLines_one (preloadLine_walked (s := s.advanced) walked live reached))

end Sys2Proof.Machine
end

section
/-! PROOFS. Decoding and encoding agree on the words that the patterns of 30_encoding.md R426 fix. -/

namespace Sys2Proof

open Machine

/-! ### Codes -/

theorem UnitId.ofCode_code (u : UnitId) : UnitId.ofCode u.code = some u := by cases u <;> rfl

theorem UnitId.code_of_ofCode {c : BitVec 4} {u : UnitId} (named : UnitId.ofCode c = some u) : u.code = c :=
  have all : ∀ c, ∀ u ∈ UnitId.ofCode c, u.code = c := by decide
  all c u named

theorem Cond.ofCode_code (c : Cond) : Cond.ofCode c.code = c := by cases c <;> rfl

theorem Cond.code_ofCode : ∀ c : BitVec 4, (Cond.ofCode c).code = c := by decide

theorem ReadPort.num_of_ofNum {n : BitVec 5} {p : ReadPort} (named : ReadPort.ofNum n = some p) : p.num = n :=
  have all : ∀ n, ∀ p ∈ ReadPort.ofNum n, p.num = n := by decide
  all n p named

/-! ### Words as rows of fields -/

/-- `fieldOf` and `bitsOf` read the same bits. -/
theorem fieldOf_eq_bitsOf (w : Word) (lo n : Nat) : fieldOf w lo n = bitsOf w lo n := rfl

/-- A word whose top byte is not that of `k` is not `k`. -/
theorem ne_of_top {w k : Word} {b : BitVec 8} (top : fieldOf w 24 8 = b) (other : fieldOf k 24 8 ≠ b) : w ≠ k :=
  fun e => other (e ▸ top)

/-- An even word is no odd word. -/
theorem ne_of_even {w k : Word} (even : fieldOf w 0 1 = 0#1) (odd : fieldOf k 0 1 ≠ 0#1) : w ≠ k :=
  fun e => odd (e ▸ even)

theorem fieldOf_switchWord (imm : BitVec 24) :
    fieldOf (0xAF#8 ++ imm) 24 8 = 0xAF#8 ∧ fieldOf (0xAF#8 ++ imm) 0 24 = imm :=
  ⟨BitVec.extractLsb'_append_eq_left, BitVec.extractLsb'_append_eq_right⟩

/-- The word of a branch (R426). -/
def branchWord (c : Cond) (imm : BitVec 19) : Word := 0xA0#8 ++ imm ++ c.code ++ 0#1

theorem fieldOf_branchWord (c : Cond) (imm : BitVec 19) :
    fieldOf (branchWord c imm) 24 8 = 0xA0#8 ∧ fieldOf (branchWord c imm) 5 19 = imm ∧
      fieldOf (branchWord c imm) 1 4 = c.code ∧ fieldOf (branchWord c imm) 0 1 = 0#1 := by
  simp (disch := decide) only [fieldOf_eq_bitsOf, branchWord, bitsOf_append_high, bitsOf_append_low, Nat.reduceSub, bitsOf_self,
    and_self]

/-- The fields of a MOV or SWAP word. -/
theorem fieldOf_moveWord (sw : BitVec 1) (c : Cond) (d s : Reg) :
    fieldOf (moveWord sw c d s) 24 8 = 0xA3#8 ∧ fieldOf (moveWord sw c d s) 19 5 = s.num ∧
      fieldOf (moveWord sw c d s) 14 5 = d.num ∧ fieldOf (moveWord sw c d s) 10 4 = s.unit.code ∧
      fieldOf (moveWord sw c d s) 9 1 = sw ∧ fieldOf (moveWord sw c d s) 5 4 = d.unit.code ∧
      fieldOf (moveWord sw c d s) 1 4 = c.code ∧ fieldOf (moveWord sw c d s) 0 1 = 0#1 := by
  simp (disch := decide) only [fieldOf_eq_bitsOf, moveWord, bitsOf_append_high, bitsOf_append_low, Nat.reduceSub, bitsOf_self,
    and_self]

/-- Two neighbouring fields are one. -/
theorem fieldOf_append (w : Word) {lo mid n m : Nat} (next : mid = lo + n) :
    fieldOf w mid m ++ fieldOf w lo n = fieldOf w lo (m + n) := BitVec.extractLsb'_append_extractLsb'_eq_extractLsb' next

theorem fieldOf_all (w : Word) : fieldOf w 0 32 = w := bitsOf_self w

theorem eq_switchWord {w : Word} (top : fieldOf w 24 8 = 0xAF#8) : w = 0xAF#8 ++ fieldOf w 0 24 := by
  rw [← top, fieldOf_append w (by decide)]
  exact (fieldOf_all w).symm

theorem eq_branchWord {w : Word} (top : fieldOf w 24 8 = 0xA0#8) (even : fieldOf w 0 1 = 0#1) :
    w = branchWord (Cond.ofCode (fieldOf w 1 4)) (fieldOf w 5 19) := by
  unfold branchWord
  rw [Cond.code_ofCode, ← top, ← even]
  iterate 3 rw [fieldOf_append w (by decide)]
  exact (fieldOf_all w).symm

theorem eq_moveWord {w : Word} {us ud : UnitId} (top : fieldOf w 24 8 = 0xA3#8) (even : fieldOf w 0 1 = 0#1)
    (source : UnitId.ofCode (fieldOf w 10 4) = some us) (dest : UnitId.ofCode (fieldOf w 5 4) = some ud) :
    w = moveWord (fieldOf w 9 1) (Cond.ofCode (fieldOf w 1 4)) ⟨ud, fieldOf w 14 5⟩ ⟨us, fieldOf w 19 5⟩ := by
  unfold moveWord
  rw [Cond.code_ofCode, UnitId.code_of_ofCode source, UnitId.code_of_ofCode dest, ← top, ← even]
  dsimp only
  iterate 7 rw [fieldOf_append w (by decide)]
  exact (fieldOf_all w).symm

/-! ### The row of a move -/

/-- Every unit-to-unit move is well formed in its row. -/
theorem wf_moveOf (c : Cond) (d s : Reg) : (moveOf c d s).wf = true := by
  unfold moveOf
  split
  next => rfl
  next notPc =>
    split
    next p _ => cases p <;> rfl
    next notPort =>
      have plain : d.plainDest = true := by simp [Reg.plainDest, notPc, notPort]
      split
      next => exact plain
      next notRd => simp [Instr.wf, plain, notRd]

/-- The word of a unit-to-unit move, whatever its row. -/
theorem encode_moveOf (c : Cond) (d s : Reg) : encode (moveOf c d s) = some (moveWord 0#1 c d s) := by
  obtain ⟨ud, nd⟩ := d
  obtain ⟨us, ns⟩ := s
  unfold moveOf
  split
  next isPc =>
    obtain ⟨rfl, rfl⟩ : ud = .pc ∧ nd = 0#5 := by simpa [Reg.isPc] using isPc
    rfl
  next =>
    split
    next p isPort =>
      obtain ⟨rfl, named⟩ : ud = .port ∧ ReadPort.ofNum nd = some p := by simpa [Reg.outPort] using isPort
      rw [← ReadPort.num_of_ofNum named]
      cases p <;> rfl
    next =>
      split
      next isRd =>
        obtain ⟨rfl, rfl⟩ : us = .port ∧ ns = 0#5 := by simpa [Reg.isRd] using isRd
        rfl
      next => rfl

/-- A plain destination leaves a move to the rows MOV and MOV from RD. -/
theorem moveOf_plain {d : Reg} (plain : d.plainDest = true) (c : Cond) (s : Reg) :
    moveOf c d s = if s.isRd then .movRd c (.one d) else .mov c d s := by
  obtain ⟨notPc, notPort⟩ : d.isPc = false ∧ d.outPort = none := by simpa [Reg.plainDest] using plain
  simp [moveOf, notPc, notPort]

/-! ### The words that are fixed -/

/-- The words that R426 gives an instruction, pattern by pattern. -/
inductive FixedWord : Word → Instr → Prop where
  | rti : FixedWord 0xA3FFFFFF#32 .rti
  | nop : FixedWord 0xA0FFFFFE#32 .nop
  | lock0 : FixedWord 0xA8000000#32 .lock0
  | lock1 : FixedWord 0xA8000001#32 .lock1
  | lock2 : FixedWord 0xA8000003#32 .lock2
  | switch (imm : BitVec 24) : FixedWord (0xAF#8 ++ imm) (.switch .al imm)
  | branch {c : Cond} {imm : BitVec 19} (notNop : branchWord c imm ≠ 0xA0FFFFFE#32) : FixedWord (branchWord c imm) (.bcc c imm)
  | swap (c : Cond) (a b : Reg) : FixedWord (moveWord 1#1 c a b) (.swap c a b)
  | move (c : Cond) (d s : Reg) : FixedWord (moveWord 0#1 c d s) (moveOf c d s)

theorem FixedWord.moveOrSwap (sw : BitVec 1) (c : Cond) (d s : Reg) :
    FixedWord (moveWord sw c d s) (if sw = 1#1 then .swap c d s else moveOf c d s) := by
  obtain rfl | rfl := BitVec.eq_zero_or_eq_one sw
  · exact .move c d s
  · exact .swap c d s

/-- The one branch whose word is NOP's is the one that is no form. -/
theorem branchWord_eq_nop (c : Cond) (imm : BitVec 19) : branchWord c imm = 0xA0FFFFFE#32 ↔ c = .nv ∧ imm = 0x7FFFF#19 := by
  constructor
  · intro same
    obtain ⟨-, offset, cond, -⟩ := fieldOf_branchWord c imm
    rw [same] at offset cond
    exact ⟨by rw [← Cond.ofCode_code c, ← cond]; rfl, by rw [← offset]; rfl⟩
  · rintro ⟨rfl, rfl⟩
    rfl

theorem wf_bcc (c : Cond) (imm : BitVec 19) : (Instr.bcc c imm).wf = true ↔ branchWord c imm ≠ 0xA0FFFFFE#32 := by
  rw [Ne, branchWord_eq_nop]
  simp [Instr.wf, Decidable.imp_iff_not_or]

/-- The words that `encode` gives well-formed instructions are the fixed ones. -/
theorem wf_and_encode_iff (i : Instr) (w : Word) : i.wf = true ∧ encode i = some w ↔ FixedWord w i := by
  constructor
  · rintro ⟨wf, word⟩
    cases i
    case rti => cases word; exact .rti
    case nop => cases word; exact .nop
    case lock0 => cases word; exact .lock0
    case lock1 => cases word; exact .lock1
    case lock2 => cases word; exact .lock2
    case switch c imm =>
      obtain ⟨rfl, rfl⟩ : c = .al ∧ 0xAF#8 ++ imm = w := by simpa [encode] using word
      exact .switch imm
    case bcc c imm => cases word; exact .branch ((wf_bcc c imm).mp wf)
    case swap c a b => cases word; exact .swap c a b
    case mov c d s =>
      cases word
      obtain ⟨plain, notRd⟩ : d.plainDest = true ∧ s.isRd = false := by simpa [Instr.wf] using wf
      have row : moveOf c d s = .mov c d s := by simp [moveOf_plain plain, notRd]
      exact row ▸ .move c d s
    case movRd c d =>
      cases d with
      | pair ra rb => cases word
      | one d =>
        cases word
        have row : moveOf c d ⟨.port, 0#5⟩ = .movRd c (.one d) := moveOf_plain (d := d) wf c _
        exact row ▸ .move c d _
    case movPc c s | movRa c s | movRapf c s | movRabz c s | movRawz c s | movRadz c s | movRabx c s | movRawx c s
        | movRadx c s | movRam8x c s | movRam16x c s | movRam8x32 c s =>
      cases word; exact .move c ⟨_, _⟩ s
    -- the abstract rows have no word (R424)
    all_goals cases word
  · intro fixed
    cases fixed with
    | branch notNop => exact ⟨(wf_bcc _ _).mpr notNop, rfl⟩
    | move c d s => exact ⟨wf_moveOf c d s, encode_moveOf c d s⟩
    | _ => exact ⟨rfl, rfl⟩

/-! ### What the patterns decode -/

theorem decodeFixed_switch {w : Word} (top : fieldOf w 24 8 = 0xAF#8) :
    decodeFixed w = some (.ok (.switch .al (fieldOf w 0 24))) := by
  unfold decodeFixed
  iterate 5 rw [if_neg (ne_of_top top (by decide))]
  rw [if_pos top]

theorem decodeFixed_branch {w : Word} (top : fieldOf w 24 8 = 0xA0#8) (even : fieldOf w 0 1 = 0#1) (notNop : w ≠ 0xA0FFFFFE#32) :
    decodeFixed w = some (.ok (.bcc (Cond.ofCode (fieldOf w 1 4)) (fieldOf w 5 19))) := by
  unfold decodeFixed
  rw [if_neg (ne_of_top top (by decide)), if_neg notNop]
  iterate 3 rw [if_neg (ne_of_top top (by decide))]
  rw [if_neg (by rw [top]; decide), if_pos ⟨top, even⟩]

theorem decodeFixed_move {w : Word} {us ud : UnitId} (top : fieldOf w 24 8 = 0xA3#8) (even : fieldOf w 0 1 = 0#1)
    (source : UnitId.ofCode (fieldOf w 10 4) = some us) (dest : UnitId.ofCode (fieldOf w 5 4) = some ud) :
    decodeFixed w = some (.ok
      (if fieldOf w 9 1 = 1#1 then .swap (Cond.ofCode (fieldOf w 1 4)) ⟨ud, fieldOf w 14 5⟩ ⟨us, fieldOf w 19 5⟩
      else moveOf (Cond.ofCode (fieldOf w 1 4)) ⟨ud, fieldOf w 14 5⟩ ⟨us, fieldOf w 19 5⟩)) := by
  unfold decodeFixed
  rw [if_neg (ne_of_even even (by decide))]
  iterate 4 rw [if_neg (ne_of_top top (by decide))]
  rw [if_neg (by rw [top]; decide), if_neg (by rw [top, even]; decide), if_pos ⟨top, even⟩, source, dest]

theorem decodeFixed_moveWord (sw : BitVec 1) (c : Cond) (d s : Reg) :
    decodeFixed (moveWord sw c d s) = some (.ok (if sw = 1#1 then .swap c d s else moveOf c d s)) := by
  obtain ⟨top, sourceNum, destNum, sourceUnit, swaps, destUnit, cond, even⟩ := fieldOf_moveWord sw c d s
  rw [decodeFixed_move top even (by rw [sourceUnit, UnitId.ofCode_code]) (by rw [destUnit, UnitId.ofCode_code]), sourceNum, destNum,
    swaps, cond, Cond.ofCode_code]

/-- The words that the patterns decode are the fixed ones. -/
theorem decodeFixed_ok_iff (w : Word) (i : Instr) : decodeFixed w = some (.ok i) ↔ FixedWord w i := by
  constructor
  · intro decoded
    unfold decodeFixed at decoded
    split at decoded
    next here => cases decoded; exact here ▸ .rti
    split at decoded
    next here => cases decoded; exact here ▸ .nop
    next notNop =>
    split at decoded
    next here => cases decoded; exact here ▸ .lock0
    split at decoded
    next here => cases decoded; exact here ▸ .lock1
    split at decoded
    next here => cases decoded; exact here ▸ .lock2
    split at decoded
    next top =>
      cases decoded
      have fixed := FixedWord.switch (fieldOf w 0 24)
      rwa [← eq_switchWord top] at fixed
    split at decoded
    next here =>
      obtain ⟨top, even⟩ := here
      cases decoded
      have word := eq_branchWord top even
      have fixed := FixedWord.branch (word ▸ notNop)
      rwa [← word] at fixed
    split at decoded
    next here =>
      obtain ⟨top, even⟩ := here
      split at decoded
      next us ud source dest =>
        cases decoded
        have word := eq_moveWord top even source dest
        have fixed := FixedWord.moveOrSwap (fieldOf w 9 1) (Cond.ofCode (fieldOf w 1 4)) ⟨ud, fieldOf w 14 5⟩ ⟨us, fieldOf w 19 5⟩
        rwa [← word] at fixed
      next => cases decoded
    next => cases decoded
  · intro fixed
    cases fixed with
    | switch imm =>
      obtain ⟨top, trap⟩ := fieldOf_switchWord imm
      rw [decodeFixed_switch top, trap]
    | @branch c imm notNop =>
      obtain ⟨top, offset, cond, even⟩ := fieldOf_branchWord c imm
      rw [decodeFixed_branch top even notNop, offset, cond, Cond.ofCode_code]
    | swap c a b => exact decodeFixed_moveWord 1#1 c a b
    | move c d s => exact decodeFixed_moveWord 0#1 c d s
    | _ => rfl

theorem decodeWith_of_fixed {w : Word} {i : Instr} (fixed : FixedWord w i) (tbl : List (Word × Instr)) :
    decodeWith tbl w = .ok i := by
  unfold decodeWith
  rw [(decodeFixed_ok_iff w i).mpr fixed]

/-- Settles O2: the word is a fixed one, and the fixed words decode before the table is asked. -/
theorem decodeOfEncode : Obligations.DecodeOfEncode :=
  fun tbl i w wf word => decodeWith_of_fixed ((wf_and_encode_iff i w).mp ⟨wf, word⟩) tbl

/-- Settles O3: what the patterns decode is fixed, and the fixed words are the encodings of well-formed instructions. -/
theorem encodeOfDecode : Obligations.EncodeOfDecode :=
  fun w i decoded => (wf_and_encode_iff i w).mpr ((decodeFixed_ok_iff w i).mp decoded)

/-- Settles O1: each word is the encoding of its instruction, which is well formed. -/
theorem sampleWordsDecode : Obligations.SampleWordsDecode := fun tbl =>
  ⟨decodeOfEncode tbl _ _ rfl rfl, decodeOfEncode tbl _ _ rfl rfl, decodeOfEncode tbl _ _ rfl rfl, decodeOfEncode tbl _ _ rfl rfl,
    decodeOfEncode tbl _ _ rfl rfl, decodeOfEncode tbl _ _ rfl rfl, decodeOfEncode tbl _ _ rfl rfl⟩

end Sys2Proof
end

section
/-! PROOFS. A step is its thread's fetched word decoded and run (40_data_movement.md R460 steps 0 to 2, 30_encoding.md R423). -/

namespace Sys2Proof.Machine

/-! ### The executing thread -/

/-- What holds of every state is kept by every update. -/
theorem closed_true : Closed (fun _ => True) (fun _ _ => True) True := by
  constructor <;> intros <;> trivial

/-- A fetch leaves which thread executes. -/
theorem fetch_cur {s s1 : State} {t u : Tid} {pc : Word} {r : Except Exc Word} (fetched : fetch t pc s = .ok r s1)
    (cur : s.cur = u) : s1.cur = u := by
  have kept := (closed_true.withCur u).fetch t pc s ⟨trivial, cur⟩
  rw [fetched] at kept
  exact kept.2

/-! ### From a step to the decoded word -/

section
variable {s s' : State} {t : Tid}

/-- A step of a build that the spec describes is the action that is next. -/
theorem step_thread (legal : configLegal s.cfg = true) (through : s.cfg.dcacheWriteBack = false) (coherent : s.cfg.cacheType = 0#3)
    (next : s.nextAction = (.thread t, s')) (eligible : s'.eligible t = true) : step s = threadStep t s' := by
  simp [step, legal, through, coherent, next, perform, eligible]

/-- A running thread with no interrupt due fetches and runs a word. -/
theorem threadStep_fetchRun (running : (s.th t).h.tstate ≠ .cbRestore) (quiet : s.interruptDue t = false)
    (full : s.privExt t 7 = false) : threadStep t s = fetchRun t (s.modEnv fun e => { e with cur := t }) := by
  have quiet' : (s.modEnv fun e => { e with cur := t }).interruptDue t = false := quiet
  have full' : (s.modEnv fun e => { e with cur := t }).privExt t 7 = false := full
  simp [threadStep, running, quiet', full']

theorem fetchRun_word {w : Word} (fetched : fetch t (s.pcOf t) s = .ok (.ok w) s') : fetchRun t s = runWord t w s' := by
  unfold fetchRun
  rw [fetched]

theorem runWord_instr {w : Word} {i : Instr} (decoded : decodeWith s.cfg.isa w = .ok i) : runWord t w s = exec i s := by
  unfold runWord
  rw [decoded]

theorem runWord_unknown {w : Word} {r : Reject} (rejected : decodeWith s.cfg.isa w = .error r) :
    runWord t w s = .next (s.takeException t .unknownInstruction) := by
  unfold runWord
  rw [rejected]

end

/-- Settles O4: the step is the fetched word run, and the fetch leaves the thread that executes. -/
theorem stepRunsDecodedInstruction : Obligations.StepRunsDecodedInstruction := by
  intro s s0 s1 t w legal through coherent next eligible running quiet full fetched
  have ran : step s = runWord t w s1 := calc
    step s = threadStep t s0 := step_thread legal through coherent next eligible
    _ = fetchRun t (s0.modEnv fun e => { e with cur := t }) := threadStep_fetchRun running quiet full
    _ = runWord t w s1 := fetchRun_word fetched
  exact ⟨fetch_cur fetched rfl, fun i decoded => ran.trans (runWord_instr decoded),
    fun r rejected => ran.trans (runWord_unknown rejected)⟩

end Sys2Proof.Machine
end

section
/-! PROOFS. Branches, NOP, calls, jumps and the software trap (42_control_flow.md R529 to R532, R538). -/

namespace Sys2Proof.Machine

/-! ### Targets -/

/-- A word offset in bytes. -/
theorem shiftLeft_two (v : Word) : v <<< 2 = v * 4#32 := BitVec.shiftLeft_eq_mul_twoPow v 2

theorem branchTarget_eq (pc : Word) (imm : BitVec 19) : branchTarget pc imm = pc + BitVec.ofInt 32 (4 * imm.toInt) := by
  have bytes : imm.signExtend 32 <<< 2 = BitVec.ofInt 32 (4 * imm.toInt) := calc
    imm.signExtend 32 <<< 2 = BitVec.ofInt 32 imm.toInt * BitVec.ofInt 32 4 := shiftLeft_two _
    _ = BitVec.ofInt 32 (4 * imm.toInt) := by rw [← BitVec.ofInt_mul, Int.mul_comm]
  rw [branchTarget, bytes]

/-! ### PC after a jump -/

section
variable (s : State) (t : Tid) (v : Word)

@[simp] theorem State.pcOf_jump : (s.jump t v).pcOf t = v := by simp [State.jump, State.setPc, State.pcOf]

@[simp] theorem State.pcOf_retire : (s.retire t).pcOf t = s.pcOf t := by simp [State.retire, State.pcOf]

@[simp] theorem State.pcOf_turnOff : (s.turnOff t).pcOf t = s.pcOf t := by
  obtain ⟨-, -, -, units⟩ := s.turnOff_thread t
  rw [State.pcOf, units, State.pcOf]

/-- The end of an instruction leaves PC, also where a single step turns the thread off. -/
@[simp] theorem State.pcOf_complete : (s.complete t).pcOf t = s.pcOf t := by
  unfold State.complete State.singleStep
  split <;> simp

end

/-! ### The bodies -/

/-- A transfer that is caught, with the rest of its instruction done (60_exceptions.md R643). -/
theorem afterwards_late_ok {x rest : M Unit} {s s1 s2 : State} {e : Exc} (caught : x s = .error (.late e) s1)
    (done : rest s1 = .ok () s2) : afterwards x rest s = .error (.late e) s2 := by
  unfold afterwards
  rw [caught]
  dsimp only
  rw [done]

section
variable {s s1 s2 : State} {d b : Reg} {imm off v : Word} {e : Exc}

theorem exec_bcc {c : Cond} (runs : s.runs c) (offset : BitVec 19) :
    exec (.bcc c offset) s = .next ((s.advanced.jump s.cur (branchTarget (s.pcOf s.cur) offset)).complete s.cur) :=
  (exec_once rfl s).trans (issue_ok runs rfl)

theorem exec_nop (s : State) : exec .nop s = .next (s.advanced.complete s.cur) :=
  (exec_once rfl s).trans (issue_ok s.runs_al rfl)

theorem callrBody_run (usable : s.operandsOk [wr d]) : callrBody d imm (s.pcOf s.cur) s.advanced =
    afterwards (writeReg s.cur d (s.pcOf s.cur + 4#32)) (update fun x => x.jump s.cur (s.pcOf s.cur + imm * 4#32)) s.advanced := by
  unfold callrBody
  rw [me_bind, State.cur_advanced, usable.bind, shiftLeft_two]

theorem exec_callr_ok (usable : s.operandsOk [wr d]) (linked : writeReg s.cur d (s.pcOf s.cur + 4#32) s.advanced = .ok () s1) :
    exec (.callr d imm) s = .next ((s1.jump s.cur (s.pcOf s.cur + imm * 4#32)).complete s.cur) :=
  (exec_once rfl s).trans (issue_ok s.runs_al ((callrBody_run usable).trans (afterwards_ok linked)))

theorem exec_callr_late (usable : s.operandsOk [wr d])
    (caught : writeReg s.cur d (s.pcOf s.cur + 4#32) s.advanced = .error (.late e) s1) :
    exec (.callr d imm) s = .next (((s1.jump s.cur (s.pcOf s.cur + imm * 4#32)).retire s.cur).takeException s.cur e) :=
  (exec_once rfl s).trans (issue_late s.runs_al ((callrBody_run usable).trans (afterwards_late caught)))

/-- A jump to a base that was read. -/
theorem jumpTo_run {t : Tid} {pc : Word} (read : readReg t pc b s = .ok v s1) :
    (readReg t pc b >>= fun base => update fun x => x.jump t (base + off)) s = .ok () (s1.jump t (v + off)) := M.bind_ok read

theorem exec_jump (usable : s.operandsOk [rd b]) (read : readReg s.cur (s.pcOf s.cur) b s.advanced = .ok v s1) :
    exec (.jump b off) s = .next ((s1.jump s.cur (v + off)).complete s.cur) :=
  (exec_once rfl s).trans (issue_ok s.runs_al ((me_bind _ _).trans (usable.bind.trans (jumpTo_run read))))

theorem callBody_run (usable : s.operandsOk [wr d, rd b]) : callBody d b off (s.pcOf s.cur) s.advanced =
    afterwards (writeReg s.cur d (s.pcOf s.cur + 4#32))
      (readReg s.cur (s.pcOf s.cur) b >>= fun base => update fun x => x.jump s.cur (base + off)) s.advanced := by
  unfold callBody
  rw [me_bind, State.cur_advanced, usable.bind]

theorem exec_call_ok (usable : s.operandsOk [wr d, rd b])
    (linked : writeReg s.cur d (s.pcOf s.cur + 4#32) s.advanced = .ok () s1) (read : readReg s.cur (s.pcOf s.cur) b s1 = .ok v s2) :
    exec (.call d b off) s = .next ((s2.jump s.cur (v + off)).complete s.cur) :=
  (exec_once rfl s).trans (issue_ok s.runs_al ((callBody_run usable).trans ((afterwards_ok linked).trans (jumpTo_run read))))

theorem exec_call_late (usable : s.operandsOk [wr d, rd b])
    (caught : writeReg s.cur d (s.pcOf s.cur + 4#32) s.advanced = .error (.late e) s1)
    (read : readReg s.cur (s.pcOf s.cur) b s1 = .ok v s2) :
    exec (.call d b off) s = .next (((s2.jump s.cur (v + off)).retire s.cur).takeException s.cur e) :=
  (exec_once rfl s).trans (issue_late s.runs_al ((callBody_run usable).trans (afterwards_late_ok caught (jumpTo_run read))))

theorem exec_switch_runs {c : Cond} (runs : s.runs c) (trap : BitVec 24) :
    exec (.switch c trap) s = .next ((s.advanced.retire s.cur).takeException s.cur .switch) :=
  (exec_switch c trap s).trans (issue_late runs rfl)

end

/-- Settles O42: each instruction is its body run, a link that is caught with the jump made. -/
theorem controlTransfersComplete : Obligations.ControlTransfersComplete := by
  intro s c simm d b imm off trap t pc
  refine ⟨fun runs => ?_, exec_nop s, fun s1 usable => ⟨exec_callr_ok usable, fun e => exec_callr_late usable⟩,
    fun v s1 usable => exec_jump usable, fun v s1 s2 usable linked read => exec_call_ok usable linked read,
    fun e v s1 s2 usable caught read => exec_call_late usable caught read,
    fun runs => ⟨exec_switch_runs runs trap, rfl, rfl⟩, fun x v => ⟨?_, x.pcOf_advanced⟩⟩
  · rw [← branchTarget_eq]
    exact exec_bcc runs simm
  · rw [State.pcOf_complete, State.pcOf_jump]

end Sys2Proof.Machine
end

section
/-! PROOFS. The end of an instruction: its completion (40_data_movement.md R460 steps 8 and 9, 61_privilege_platform.md R736), and an
instruction whose condition is false (R460 step 3). -/

namespace Sys2Proof.Machine

/-! ### Completion -/

section
variable (s : State) (t : Tid)

@[simp] theorem State.ct_retire_self : ((s.retire t).th t).ct = { (s.th t).ct with txtactcyc := (s.th t).ct.txtactcyc + 1#24 } := by
  simp [State.retire]

@[simp] theorem State.h_retire_self : ((s.retire t).th t).h = { (s.th t).h with waiting := false } := by
  simp [State.retire]

@[simp] theorem State.privExt_retire (i : Nat) : (s.retire t).privExt t i = s.privExt t i := by simp [State.privExt]

variable {s t}

/-- A thread that does not single step only counts its instruction. -/
theorem State.complete_of_not_stepped (h : s.privExt t 2 = false) : s.complete t = s.retire t := by
  simp [State.complete, State.singleStep, h]

/-- A running thread that single steps is turned off after its instruction. -/
theorem State.complete_of_stepped (h : s.privExt t 2 = true) (running : (s.th t).h.tstate = .run) :
    s.complete t = (s.retire t).turnOff t := by
  simp [State.complete, State.singleStep, h, running]

/-- Completion counts the instruction, and turns off a thread that runs. -/
theorem State.complete_cases (s : State) (t : Tid) :
    s.complete t = s.retire t ∨ (s.th t).h.tstate = .run ∧ s.complete t = (s.retire t).turnOff t := by
  by_cases stepped : s.privExt t 2 = true
  · by_cases running : (s.th t).h.tstate = .run
    · exact .inr ⟨running, State.complete_of_stepped stepped running⟩
    · simp [State.complete, State.singleStep, running]
  · exact .inl (State.complete_of_not_stepped (Bool.eq_false_iff.mpr stepped))

end

/-- Settles O17: completion is the count, then the turn-off of a thread that single steps. -/
theorem completionCounts : Obligations.CompletionCounts := by
  intro s t
  refine ⟨rfl, State.complete_of_not_stepped, fun stepped running => ?_⟩
  have turned := State.complete_of_stepped stepped running
  obtain ⟨enabled, stopped, off, -⟩ := (s.retire t).turnOff_thread t
  refine ⟨turned, ?_, ?_, ?_, s.pcOf_complete t⟩ <;> rw [turned]
  exacts [enabled, stopped, off]

/-! ### A false condition -/

/-- The instructions the spec refuses carry no condition. -/
theorem instrCond_of_refused {i : Instr} (h : ¬ (i ≠ .memToMem ∧ i ≠ .xfr ∧ i ≠ .hardwareLoop)) : instrCond i = .al := by
  have which : i = .memToMem ∨ i = .xfr ∨ i = .hardwareLoop := by tauto
  rcases which with rfl | rfl | rfl <;> rfl

/-- Settles O16: the condition is tested by the issue, before the body; an instruction that has no issue has no condition either. -/
theorem falseConditionOnlyAdvances : Obligations.FalseConditionOnlyAdvances := by
  intro i s
  by_cases described : i ≠ .memToMem ∧ i ≠ .xfr ∧ i ≠ .hardwareLoop
  · obtain ⟨body, issued⟩ := exec_issue i described
    exact ⟨fun whole fails => (issued s).trans (issue_skipped whole fails), fun split => (issued s).trans (issue_split split)⟩
  · obtain ⟨whole, holds⟩ := s.runs_al
    rw [instrCond_of_refused described, whole, holds]
    exact ⟨fun _ fails => absurd fails (by decide), fun split => absurd split (by decide)⟩

end Sys2Proof.Machine
end

section
/-! PROOFS. Register operands of every unit, moves and SWAP (40_data_movement.md R461 to R465, R472, R477). -/

namespace Sys2Proof.Machine

/-! ### What a read of a unit answers -/

section
variable {s : State} {t : Tid}

/-- A level whose mask is zero can show no trigger. -/
theorem State.visTriggers_of_mask {l : Level} (h : s.maskOf t l = 0#16) : s.visTriggers t l = 0#16 := by
  rw [State.visTriggers, h, BitVec.and_zero]

variable {l : Level}

theorem blockingRead_masked (h : s.maskOf t l = 0#16) : blockingRead t l s = .error (.exc .triggerBlockFault) s := by
  unfold blockingRead
  rw [if_pos h]

theorem blockingRead_waits (mask : s.maskOf t l ≠ 0#16) (vis : s.visTriggers t l = 0#16) :
    blockingRead t l s = .error .block s := by
  unfold blockingRead
  rw [if_neg mask, if_pos vis]

theorem blockingRead_passes (vis : s.visTriggers t l ≠ 0#16) :
    blockingRead t l s = .ok (s.triggerValue t l) (s.passTriggerRead t l) := by
  have mask : s.maskOf t l ≠ 0#16 := fun none => vis (State.visTriggers_of_mask none)
  unfold blockingRead
  rw [if_neg mask, if_neg vis]

theorem popRead_oldest {e : RpEntry} {l : List RpEntry} (held : (s.th t).h.rp = e :: l) :
    popRead t s = .ok e.data (s.setRp t l) := by
  unfold popRead
  rw [held]

theorem popRead_dirty (empty : (s.th t).h.rp = []) (dirty : s.rpDirty t = true) : popRead t s = .ok 0#64 s := by
  unfold popRead
  rw [empty]
  exact if_pos dirty

theorem popRead_empty (empty : (s.th t).h.rp = []) (clean : s.rpDirty t = false) :
    popRead t s = .error (.exc .readPipelineFault) s := by
  unfold popRead
  rw [empty]
  exact if_neg (by rw [clean]; decide)

variable {pc : Word}

theorem readReg_rd_ok {v : DWord} {s' : State} (popped : popRead t s = .ok v s') :
    readReg t pc ⟨.port, 0#5⟩ s = .ok (loWord v) s' := M.bind_ok popped

theorem readReg_rd_error {why : Stop} {s' : State} (stops : popRead t s = .error why s') :
    readReg t pc ⟨.port, 0#5⟩ s = .error why s' := M.bind_error stops

end

/-- Settles O20: a read of each unit, by the register it names. -/
theorem unitReads : Obligations.UnitReads := by
  intro s t pc
  refine ⟨fun r general => readReg_general general, rfl, rfl, fun n => rfl, rfl, rfl, rfl, rfl, fun n l which => ?_,
    fun e l held => ⟨popRead_oldest held, readReg_rd_ok (popRead_oldest held)⟩,
    fun empty dirty => ⟨popRead_dirty empty dirty, readReg_rd_ok (popRead_dirty empty dirty)⟩,
    fun empty clean => readReg_rd_error (popRead_empty empty clean)⟩
  have blocking : readReg t pc ⟨.tr, n⟩ = blockingRead t l := by
    simp only [List.mem_cons, List.not_mem_nil, or_false, Prod.mk.injEq] at which
    rcases which with ⟨rfl, rfl⟩ | ⟨rfl, rfl⟩ <;> rfl
  rw [blocking]
  exact ⟨blockingRead_masked, blockingRead_waits, blockingRead_passes⟩

/-! ### What a write of a unit does -/

/-- The low half of a written word. -/
theorem bitsOf_low16 (v : Word) : bitsOf v 0 16 = v.setWidth 16 := BitVec.setWidth_eq_extractLsb' (by decide) |>.symm

section
variable {s : State} {t : Tid} {v : Word}

/-- A control register is written by its field rules, where it is not TXSTATUS or the thread may write it. -/
theorem State.ctWriteOwn_allowed {n : BitVec 5} (h : n ≠ 2#5 ∨ s.privExt t 9 = false ∨ s.priv t = true) :
    s.ctWriteOwn t n v = s.ctWrite t n v := by
  unfold State.ctWriteOwn
  refine if_neg fun low => ?_
  simp only [Bool.and_eq_true, decide_eq_true_eq, Bool.not_eq_true'] at low
  obtain ⟨⟨status, guarded⟩, unpriv⟩ := low
  rcases h with other | free | priv
  · exact other status
  · rw [free] at guarded; cases guarded
  · rw [priv] at unpriv; cases unpriv

/-- TXSTATUS written without its privilege takes its low bits only (R477). -/
theorem State.ctWriteOwn_unprivileged (guarded : s.privExt t 9 = true) (unpriv : s.priv t = false) :
    s.ctWriteOwn t 2#5 v = s.setStatus t (maskWrite (s.status t) v 0x0000001F#32) := by
  unfold State.ctWriteOwn
  rw [guarded, unpriv]
  rfl

theorem writeReg_ct {n : BitVec 5} : writeReg t ⟨.ct, n⟩ v s = .ok () (s.ctWriteOwn t n v) := rfl

theorem writeReg_mask : writeReg t ⟨.tr, 1#5⟩ v s = .ok () (s.modTr t fun x => { x with mask := v.setWidth 16 &&& 0xFFFB#16 }) := by
  rw [← bitsOf_low16]
  rfl

theorem writeReg_maski : writeReg t ⟨.tr, 3#5⟩ v s = .ok () (s.modTr t fun x => { x with maski := v.setWidth 16 }) := by
  rw [← bitsOf_low16]
  rfl

end

/-- Settles O21: a write of each unit, by the register it names. -/
theorem unitWrites : Obligations.UnitWrites := by
  intro s t v
  exact ⟨fun r general => ⟨writeReg_general general, State.reg_setReg_self, fun u q other => State.reg_setReg_of_ne fun same =>
      same ▸ other same⟩, rfl, rfl,
    fun n allowed => writeReg_ct.trans (by rw [State.ctWriteOwn_allowed allowed]),
    fun guarded unpriv => writeReg_ct.trans (by rw [State.ctWriteOwn_unprivileged guarded unpriv]),
    rfl, writeReg_mask, rfl, writeReg_maski, rfl, rfl⟩

/-! ### Moves -/

section
variable {s s1 s2 : State} {c : Cond} {d r : Reg} {v : Word}

theorem moveBody_run (usable : s.operandsOk [rd r, wr d]) (read : readReg s.cur (s.pcOf s.cur) r s.advanced = .ok v s1)
    (written : writeReg s.cur d v s1 = .ok () s2) : moveBody d r (s.pcOf s.cur) s.advanced = .ok () s2 := by
  unfold moveBody
  rw [me_bind, State.cur_advanced, usable.bind, M.bind_ok read, written]

theorem movRdBody_pair {ra rb : Reg} {v : DWord} (usable : s.operandsOk [rd ⟨.port, 0#5⟩, wr ra, wr rb])
    (popped : popRead s.cur s.advanced = .ok v s1) : movRdBody (.pair ra rb) (s.pcOf s.cur) s.advanced =
      .ok () ((s1.setReg s.cur ra (loWord v)).setReg s.cur rb (hiWord v)) :=
  (me_bind _ _).trans (usable.bind.trans (M.bind_ok popped))

theorem movImmBody_run (general : d.isGeneral = true) (usable : s.operandsOk [wr d]) :
    movImmBody d v (s.pcOf s.cur) s.advanced = .ok () (s.advanced.setReg s.cur d v) := by
  unfold movImmBody
  rw [me_bind, State.cur_advanced, usable.bind, writeReg_general general]

end

/-- Settles O19: each move is its body run; MOV from RD to one register and MOV to PC have the body of MOV. -/
theorem movesComplete : Obligations.MovesComplete := by
  intro s c d runs
  refine ⟨fun r v s1 s2 usable read written => ?_, fun ra rb v s1 usable popped =>
    (exec_once rfl s).trans (issue_ok runs (movRdBody_pair usable popped)),
    fun imm general usable => (exec_once rfl s).trans (issue_ok runs (movImmBody_run general usable))⟩
  have moved : issue c (moveBody d r) s = .next (s2.complete s.cur) := issue_ok runs (moveBody_run usable read written)
  refine ⟨(exec_once rfl s).trans moved, ?_, ?_⟩
  · rintro rfl; exact (exec_once rfl s).trans moved
  · rintro rfl; exact (exec_once rfl s).trans moved

/-! ### SWAP -/

/-- Operands that are not absent, of a privileged thread, raise no trap. -/
theorem State.operandTrap_none {s : State} {t : Tid} {l : List Use}
    (known : ∀ u ∈ l, presence s.cfg t u ≠ some (.exc .unknownInstruction)) (priv : s.priv t = true) :
    s.operandTrap t l = none := by
  unfold State.operandTrap
  dsimp only
  rw [if_neg, priv]
  · rfl
  intro absent
  obtain ⟨u, hu, stops⟩ := List.any_eq_true.mp absent
  split at stops
  · rename_i e found
    obtain unknown | ⟨q, refused⟩ := presence_cases found
    · exact known u hu (found.trans (congrArg some unknown))
    · cases refused
  · cases stops

section
variable {s : State} {a b : Reg}

@[simp] theorem State.operandTrap_advanced (u : Tid) (l : List Use) : s.advanced.operandTrap u l = s.operandTrap u l := by
  have same : s.advanced.needsPriv u = s.needsPriv u := by
    funext x; unfold State.needsPriv; split <;> simp
  simp [State.operandTrap, same]

theorem swapBody_run {x y : Word} {s1 s2 s3 s4 : State} (usable : s.operandsOk [rd a, wr a, rd b, wr b])
    (common : ¬ (UnitId.isSpecialist a.unit = true ∧ UnitId.isSpecialist b.unit = true))
    (readA : readReg s.cur (s.pcOf s.cur) a s.advanced = .ok x s1) (readB : readReg s.cur (s.pcOf s.cur) b s1 = .ok y s2)
    (writeA : writeReg s.cur a y s2 = .ok () s3) (writeB : writeReg s.cur b x s3 = .ok () s4) :
    swapBody a b (s.pcOf s.cur) s.advanced = .ok () s4 := by
  unfold swapBody
  rw [me_bind]
  dsimp only
  rw [if_neg (by simpa using common)]
  exact usable.bind.trans ((M.bind_ok readA).trans ((M.bind_ok readB).trans ((M.bind_ok writeA).trans writeB)))

/-- Two specialist units: the trap of an operand, or the violation. -/
theorem swapBody_special (specialA : UnitId.isSpecialist a.unit = true) (specialB : UnitId.isSpecialist b.unit = true) (pc : Word) :
    swapBody a b pc s = .error (.exc ((s.operandTrap s.cur [rd a, wr a, rd b, wr b]).getD .instructionViolation)) s := by
  unfold swapBody
  rw [me_bind]
  dsimp only
  rw [specialA, specialB, if_pos (by decide), view_bind]
  cases s.operandTrap s.cur [rd a, wr a, rd b, wr b] <;> rfl

end

/-- Settles O23: the units of the operands decide which of the two bodies runs. -/
theorem swapsComplete : Obligations.SwapsComplete := by
  intro s c a b runs
  refine ⟨fun x y s1 s2 s3 s4 usable common readA readB writeA writeB =>
    (exec_once rfl s).trans (issue_ok runs (swapBody_run usable common readA readB writeA writeB)), fun specialA specialB => ?_⟩
  have stopped : exec (.swap c a b) s = .next (s.takeException s.cur
      ((s.operandTrap s.cur [rd a, wr a, rd b, wr b]).getD .instructionViolation)) := by
    have body := swapBody_special (s := s.advanced) specialA specialB (s.pcOf s.cur)
    rw [State.cur_advanced, State.operandTrap_advanced] at body
    exact (exec_once rfl s).trans (issue_exc runs body)
  refine ⟨stopped, fun known priv => ?_⟩
  rw [stopped, State.operandTrap_none known priv]
  rfl

/-! ### The instructions the spec refuses -/

/-- An MX port is absent without the DSP extensions and refused with them. -/
theorem presence_mxPort {c : Config} {t : Tid} {p : ReadPort} (mx : isMxPort p = true) :
    presence c t (wr (portReg p)) = some (if isDsp c t then .refused .dspPort else .exc .unknownInstruction) := by
  cases p with
  | ram8x | ram16x | ram8x32 => cases dsp : isDsp c t <;> simp [presence, wr, portReg, ReadPort.num, ReadPort.ofNum, isMxPort, dsp]
  | _ => cases mx

/-- A present source lets the port stop the instruction. -/
theorem State.operandStop_mxPort {s : State} {t : Tid} {r : Reg} {p : ReadPort} (present : presence s.cfg t (rd r) = none)
    (mx : isMxPort p = true) :
    s.operandStop t [rd r, wr (portReg p)] = some (if isDsp s.cfg t then .refused .dspPort else .exc .unknownInstruction) := by
  have first : [rd r, wr (portReg p)].findSome? (presence s.cfg t) =
      some (if isDsp s.cfg t then .refused .dspPort else .exc .unknownInstruction) := by
    simp [present, presence_mxPort mx]
  rw [State.operandStop, first]

/-- Settles O34: three instructions are refused as they stand, the MX ports by the check of their operands. -/
theorem undescribedInstructionsStop : Obligations.UndescribedInstructionsStop := by
  intro s
  refine ⟨rfl, rfl, rfl, fun c r i which runs present => ?_⟩
  have port : ∃ p, isMxPort p = true ∧ instrUses (i c r) = [rd r, wr (portReg p)] ∧ instrCond (i c r) = c ∧
      isCoproc (i c r) = false ∧ isSpecialSwap (i c r) = false := by
    simp only [List.mem_cons, List.not_mem_nil, or_false] at which
    rcases which with rfl | rfl | rfl
    exacts [⟨.ram8x, rfl, rfl, rfl, rfl, rfl⟩, ⟨.ram16x, rfl, rfl, rfl, rfl, rfl⟩, ⟨.ram8x32, rfl, rfl, rfl, rfl, rfl⟩]
  obtain ⟨p, mx, uses, cond, plain, common⟩ := port
  have stop := State.operandStop_mxPort present mx
  rw [← uses] at stop
  have stopped := exec_stops plain (cond.symm ▸ runs) (fun special => by rw [common] at special; cases special) stop
  constructor <;> intro dsp <;> rw [stopped, dsp] <;> rfl

end Sys2Proof.Machine
end

section
/-! PROOFS. Loads, stores and the multiple transfers, performed and caught (40_data_movement.md R464 to R469, 60_exceptions.md R643). -/

namespace Sys2Proof.Machine

/-! ### Transfers -/

/-- A load of a pair whose access is not performed. -/
theorem loadPair_late {t : Tid} {la : Word} {ra rb : Reg} {f : Failed} {s s1 : State}
    (caught : memRead (s.accOf t) la 8 s = .ok (.error f) s1) : loadPair t la ra rb s = .error
      (.late (.data f.exc (.load .lword f.la ra.num (destBit ra.unit ||| destBit rb.unit) false (firstIsOne ra)))) s1 := by
  have value : loadValue t .lword la ra.num (destBit ra.unit ||| destBit rb.unit) (firstIsOne ra) s = .error
      (.late (.data f.exc (.load .lword f.la ra.num (destBit ra.unit ||| destBit rb.unit) false (firstIsOne ra)))) s1 :=
    M.bind_ok caught
  exact M.bind_error value

/-- A transfer that is done, and the base update after it. -/
theorem afterwards_base_ok {x : M Unit} {t : Tid} {m : MemMode} {v : Word} {s s1 : State} (done : x s = .ok () s1) :
    afterwards x (updateBase t m v) s = .ok () (s1.withBase t m v) :=
  (afterwards_ok done).trans (updateBase_run _ _ _ _)

section
variable {s s1 : State}

/-! ### Loads and stores -/

theorem loadBody_run {w : Width} {x : MemArgs} (usable : s.operandsOk (wr x.r :: modeUses x.mem)) :
    loadBody w x (s.pcOf s.cur) s.advanced = afterwards (loadReg s.cur w (s.address s.cur x.mem) x.r)
      (updateBase s.cur x.mem (s.newBase s.cur x.mem)) s.advanced := by
  unfold loadBody
  rw [me_bind, State.cur_advanced, usable.bind, view_bind, view_bind, State.address_advanced, State.newBase_advanced]

theorem loadPairBody_run {x : PairArgs} (usable : s.operandsOk (wr x.ra :: wr x.rb :: modeUses x.mem)) :
    loadPairBody x (s.pcOf s.cur) s.advanced = afterwards (loadPair s.cur (s.address s.cur x.mem) x.ra x.rb)
      (updateBase s.cur x.mem (s.newBase s.cur x.mem)) s.advanced := by
  unfold loadPairBody
  rw [me_bind, State.cur_advanced, usable.bind, view_bind, view_bind, State.address_advanced, State.newBase_advanced]

theorem storeBody_run {w : Width} {x : MemArgs} {v : Word} (usable : s.operandsOk (rd x.r :: modeUses x.mem))
    (read : readReg s.cur (s.pcOf s.cur) x.r s.advanced = .ok v s1) :
    storeBody w x (s.pcOf s.cur) s.advanced = afterwards (storeValue s.cur w (s.address s.cur x.mem) (v.setWidth 64))
      (updateBase s.cur x.mem (s.newBase s.cur x.mem)) s1 := by
  unfold storeBody
  rw [me_bind, State.cur_advanced, usable.bind, view_bind, view_bind, State.address_advanced, State.newBase_advanced,
    M.bind_ok read]

theorem storePairBody_run {x : PairArgs} (usable : s.operandsOk (rd x.ra :: rd x.rb :: modeUses x.mem)) :
    storePairBody x (s.pcOf s.cur) s.advanced =
      afterwards (storeValue s.cur .lword (s.address s.cur x.mem) (s.reg s.cur x.rb ++ s.reg s.cur x.ra))
        (updateBase s.cur x.mem (s.newBase s.cur x.mem)) s.advanced := by
  unfold storePairBody
  rw [me_bind, State.cur_advanced, usable.bind, view_bind, view_bind, view_bind, State.address_advanced, State.newBase_advanced,
    State.reg_advanced, State.reg_advanced, joinWords]

/-- Each load of one register is one issue of the body of its width. -/
theorem exec_load {w : Width} {i : MemArgs → Instr} (which : (w, i) ∈ [(Width.byte, Instr.getb), (.word, .getw), (.dword, .getd)])
    (x : MemArgs) (s : State) : exec (i x) s = issue x.cc (loadBody w x) s := by
  simp only [List.mem_cons, List.not_mem_nil, or_false, Prod.mk.injEq] at which
  rcases which with ⟨rfl, rfl⟩ | ⟨rfl, rfl⟩ | ⟨rfl, rfl⟩ <;> exact exec_once rfl s

/-- Each store of one register is one issue of the body of its width. -/
theorem exec_store {w : Width} {i : MemArgs → Instr} (which : (w, i) ∈ [(Width.byte, Instr.setb), (.word, .setw), (.dword, .setd)])
    (x : MemArgs) (s : State) : exec (i x) s = issue x.cc (storeBody w x) s := by
  simp only [List.mem_cons, List.not_mem_nil, or_false, Prod.mk.injEq] at which
  rcases which with ⟨rfl, rfl⟩ | ⟨rfl, rfl⟩ | ⟨rfl, rfl⟩ <;> exact exec_once rfl s

/-! ### One step of a multiple transfer -/

/-- A transfer of a value that is read of the state first. -/
theorem afterwards_view {α : Type} (g : State → α) (x : α → M Unit) (rest : M Unit) (s : State) :
    afterwards (view g >>= x) rest s = afterwards (x (g s)) rest s := rfl

theorem multiple_run {α : Type} {t : Tid} {pc : Word} {b : Reg} {l : List α} {n : Nat} {move : α → Word → M Unit} {x : α}
    (item : l[(s.lsmStep t).toNat]? = some x) : multiple t pc b l n move s = afterwards (move x (s.reg t b))
      (update fun s' => s'.lsmAdvance t b (s.reg t b + BitVec.ofNat 32 n) (s.lsmStep t).toNat l.length pc) s := by
  unfold multiple
  rw [view_bind, item]
  rfl

/-- A multiple transfer whose operands are usable moves the item LSM_STEP names, at the address in its base. -/
theorem multipleBody_run {α : Type} {uses : List Use} {b : Reg} {l : List α} {n : Nat} {move : Tid → α → Word → M Unit} {x : α}
    (usable : s.operandsOk uses) (item : l[(s.lsmStep s.cur).toNat]? = some x) :
    (me >>= fun t => check t uses >>= fun _ => multiple t (s.pcOf s.cur) b l n (move t)) s.advanced =
      afterwards (move s.cur x (s.reg s.cur b)) (update fun s' =>
        s'.lsmAdvance s.cur b (s.reg s.cur b + BitVec.ofNat 32 n) (s.lsmStep s.cur).toNat l.length (s.pcOf s.cur)) s.advanced := by
  rw [me_bind, State.cur_advanced, usable.bind, multiple_run (by rwa [State.lsmStep_advanced]), State.reg_advanced,
    State.lsmStep_advanced]

variable {b r : Reg} {l : List Reg} {p : Reg × Reg} {lp : List (Reg × Reg)}

theorem mgetdBody_run (usable : s.operandsOk (wr b :: l.map wr)) (item : l[(s.lsmStep s.cur).toNat]? = some r) :
    mgetdBody b l (s.pcOf s.cur) s.advanced = afterwards (loadReg s.cur .dword (s.reg s.cur b) r) (update fun s' =>
      s'.lsmAdvance s.cur b (s.reg s.cur b + 4#32) (s.lsmStep s.cur).toNat l.length (s.pcOf s.cur)) s.advanced :=
  multipleBody_run (n := 4) (b := b) (move := fun t r la => loadReg t .dword la r) usable item

theorem mgetlBody_run (usable : s.operandsOk (wr b :: lp.flatMap fun p => [wr p.1, wr p.2]))
    (item : lp[(s.lsmStep s.cur).toNat]? = some p) :
    mgetlBody b lp (s.pcOf s.cur) s.advanced = afterwards (loadPair s.cur (s.reg s.cur b) p.1 p.2) (update fun s' =>
      s'.lsmAdvance s.cur b (s.reg s.cur b + 8#32) (s.lsmStep s.cur).toNat lp.length (s.pcOf s.cur)) s.advanced := by
  have run := multipleBody_run (n := 8) (b := b) (move := fun t p la => loadPair t la p.1 p.2) usable item
  unfold mgetlBody
  exact run

theorem msetdBody_run (usable : s.operandsOk (wr b :: l.map rd)) (item : l[(s.lsmStep s.cur).toNat]? = some r) :
    msetdBody b l (s.pcOf s.cur) s.advanced =
      afterwards (storeValue s.cur .dword (s.reg s.cur b) ((s.reg s.cur r).setWidth 64)) (update fun s' =>
        s'.lsmAdvance s.cur b (s.reg s.cur b + 4#32) (s.lsmStep s.cur).toNat l.length (s.pcOf s.cur)) s.advanced := by
  rw [← State.reg_advanced s s.cur r]
  exact (multipleBody_run (n := 4) (b := b) (move := fun t r la =>
    view (fun s => s.reg t r) >>= fun v => storeValue t .dword la (v.setWidth 64)) usable item).trans (afterwards_view ..)

theorem msetlBody_run (usable : s.operandsOk (wr b :: lp.flatMap fun p => [rd p.1, rd p.2]))
    (item : lp[(s.lsmStep s.cur).toNat]? = some p) :
    msetlBody b lp (s.pcOf s.cur) s.advanced =
      afterwards (storeValue s.cur .lword (s.reg s.cur b) (s.reg s.cur p.2 ++ s.reg s.cur p.1)) (update fun s' =>
        s'.lsmAdvance s.cur b (s.reg s.cur b + 8#32) (s.lsmStep s.cur).toNat lp.length (s.pcOf s.cur)) s.advanced := by
  rw [← State.reg_advanced s s.cur p.1, ← State.reg_advanced s s.cur p.2]
  have run := multipleBody_run (n := 8) (b := b) (move := fun t p la =>
    view (fun s => joinWords (s.reg t p.2) (s.reg t p.1)) >>= fun v => storeValue t .lword la v) usable item
  unfold msetlBody
  exact run.trans (afterwards_view ..)

end

/-- Settles O28: each load is its transfer and the base update after it. -/
theorem loadsComplete : Obligations.LoadsComplete := by
  intro s s1 v
  refine ⟨fun w i x s2 which runs usable read written => ?_, fun x runs usable read => ?_⟩
  · exact (exec_load which x s).trans
      (issue_ok runs ((loadBody_run usable).trans (afterwards_base_ok (loadReg_ok (by rwa [State.accOf_advanced]) written))))
  · exact (exec_once rfl s).trans
      (issue_ok runs ((loadPairBody_run usable).trans (afterwards_base_ok (loadPair_ok (by rwa [State.accOf_advanced])))))

/-- Settles O29: each store is its transfer and the base update after it. -/
theorem storesComplete : Obligations.StoresComplete := by
  intro s s1 s2
  refine ⟨fun w i x v which runs usable read written => ?_, fun x runs usable written => ?_⟩
  · exact (exec_store which x s).trans
      (issue_ok runs ((storeBody_run usable read).trans (afterwards_base_ok (storeValue_ok written))))
  · exact (exec_once rfl s).trans
      (issue_ok runs ((storePairBody_run usable).trans (afterwards_base_ok (storeValue_ok (by rwa [State.accOf_advanced])))))

/-- Settles O30: a transfer that is caught carries its exception past the rest of the instruction, which is done. -/
theorem dataExceptionsFinishTheInstruction : Obligations.DataExceptionsFinishTheInstruction := by
  intro s s1 f t pc k fails
  refine ⟨fun w i x which runs usable caught => ?load, fun x runs usable caught => ?loadPair,
    fun w i x v s2 which runs usable read caught => ?store, fun x runs usable caught => ?storePair,
    fun b r l item => ⟨fun usable caught => ?mgetd, fun usable caught => ?msetd⟩,
    fun b p l item => ⟨fun usable caught => ?mgetl, fun usable caught => ?msetl⟩⟩
  case load =>
    exact (exec_load which x s).trans (issue_late runs
      ((loadBody_run usable).trans (afterwards_base_late (loadReg_late (by rwa [State.accOf_advanced])))))
  case loadPair =>
    exact (exec_once rfl s).trans (issue_late runs
      ((loadPairBody_run usable).trans (afterwards_base_late (loadPair_late (by rwa [State.accOf_advanced])))))
  case store =>
    exact (exec_store which x s).trans (issue_late runs
      ((storeBody_run usable read).trans (afterwards_base_late (storeValue_late caught))))
  case storePair =>
    exact (exec_once rfl s).trans (issue_late runs
      ((storePairBody_run usable).trans (afterwards_base_late (storeValue_late (by rwa [State.accOf_advanced])))))
  case mgetd =>
    exact (exec_once rfl s).trans (issue_late s.runs_al
      ((mgetdBody_run usable item).trans (afterwards_late (loadReg_late (by rwa [State.accOf_advanced])))))
  case msetd =>
    exact (exec_once rfl s).trans (issue_late s.runs_al
      ((msetdBody_run usable item).trans (afterwards_late (storeValue_late (by rwa [State.accOf_advanced])))))
  case mgetl =>
    exact (exec_once rfl s).trans (issue_late s.runs_al
      ((mgetlBody_run usable item).trans (afterwards_late (loadPair_late (by rwa [State.accOf_advanced])))))
  case msetl =>
    exact (exec_once rfl s).trans (issue_late s.runs_al
      ((msetlBody_run usable item).trans (afterwards_late (storeValue_late (by rwa [State.accOf_advanced])))))

/-! ### What a step leaves of LSM_STEP, PC and the base -/

/-- A field written reads back. -/
theorem bitsOf_withBits_self {w : Word} {lo n : Nat} {v : BitVec n} (fits : lo + n ≤ 32) : bitsOf (withBits w lo n v) lo n = v := by
  apply BitVec.eq_of_getLsbD_eq
  intro i hi
  have field := bitOf_withBits (w := w) (lo := lo) (n := n) (v := v) (i := lo + i) (by omega)
  rw [if_pos ⟨by omega, by omega⟩, Nat.add_sub_cancel_left] at field
  simpa [bitsOf, bitOf, hi] using field

section
variable {x : State} {t : Tid} {b : Reg} {a pc : Word} {i k : Nat}

/-- The last step clears LSM_STEP and leaves the instruction. -/
theorem State.lsmAdvance_last (last : i + 1 = k) :
    (x.lsmAdvance t b a i k pc).lsmStep t = 0#3 ∧ (x.lsmAdvance t b a i k pc).pcOf t = x.pcOf t := by
  unfold State.lsmAdvance
  dsimp only
  rw [if_pos last]
  refine ⟨?_, by simp [State.pcOf, State.setStatus]⟩
  rw [State.lsmStep, State.status_setStatus]
  exact bitsOf_withBits_self (by decide)

/-- An earlier step counts in LSM_STEP and stays at the instruction. -/
theorem State.lsmAdvance_earlier (more : i + 1 ≠ k) (small : i < 7) :
    ((x.lsmAdvance t b a i k pc).lsmStep t).toNat = i + 1 ∧ (x.lsmAdvance t b a i k pc).pcOf t = pc := by
  unfold State.lsmAdvance
  dsimp only
  rw [if_neg more]
  refine ⟨?_, State.pcOf_setPc_self _ _ _⟩
  rw [State.lsmStep, State.status, State.ct_setPc, ← State.status, State.status_setStatus, bitsOf_withBits_self (by decide),
    BitVec.toNat_ofNat]
  omega

/-- The base holds its new value. -/
theorem State.reg_lsmAdvance (hb : regInUnit b = true) : (x.lsmAdvance t b a i k pc).reg t b = a := by
  unfold State.lsmAdvance
  dsimp only
  split <;> simp [State.reg_setReg_self hb]

end

/-- Settles O31: each step is the move of its item and the advance of base and LSM_STEP after it. -/
theorem multiplesStep : Obligations.MultiplesStep := by
  intro s s1 b v t pc i la
  refine ⟨fun l r usable item general read => ?mgetd, fun l p usable item read => ?mgetl, fun l r usable item written => ?msetd,
    fun l p usable item written => ?msetl,
    fun x a k => ⟨State.lsmAdvance_last, State.lsmAdvance_earlier, State.reg_lsmAdvance⟩⟩
  case mgetd =>
    exact (exec_once rfl s).trans (issue_ok s.runs_al ((mgetdBody_run usable item).trans
      (afterwards_ok (loadReg_ok (by rwa [State.accOf_advanced]) (writeReg_general general)))))
  case mgetl =>
    exact (exec_once rfl s).trans (issue_ok s.runs_al ((mgetlBody_run usable item).trans
      (afterwards_ok (loadPair_ok (by rwa [State.accOf_advanced])))))
  case msetd =>
    exact (exec_once rfl s).trans (issue_ok s.runs_al ((msetdBody_run usable item).trans
      (afterwards_ok (storeValue_ok (by rwa [State.accOf_advanced])))))
  case msetl =>
    exact (exec_once rfl s).trans (issue_ok s.runs_al ((msetlBody_run usable item).trans
      (afterwards_ok (storeValue_ok (by rwa [State.accOf_advanced])))))

end Sys2Proof.Machine
end

section
/-! PROOFS. The read address ports that push onto the read pipeline (40_data_movement.md R471, R473). -/

namespace Sys2Proof.Machine

/-! ### What an issued read answers -/

section
variable {s s' : State} {t : Tid} {p : ReadPort} {la : Word}

theorem issueRead_pushes {v : DWord} (room : (s.th t).h.rp.length < s.cfg.readPipelineDepth) (clean : s.rpDirty t = false)
    (read : memRead (s.accOf t) la (portBytes s.cfg p) s = .ok (.ok v) s') :
    issueRead t p la s = .ok () (s'.setRp t ((s'.th t).h.rp ++ [⟨la, p, portExtend s.cfg p v⟩])) := by
  have free : decide (s.cfg.readPipelineDepth ≤ (s.th t).h.rp.length) = false := decide_eq_false (Nat.not_le.mpr room)
  unfold issueRead
  rw [view_bind, view_bind, free, clean, if_neg (by decide)]
  exact M.bind_ok read

/-- A pipeline that is full or dirty takes no further read. -/
theorem issueRead_faults (closed : s.cfg.readPipelineDepth ≤ (s.th t).h.rp.length ∨ s.rpDirty t = true) :
    issueRead t p la s = .error (.exc .readPipelineFault) s := by
  unfold issueRead
  rw [view_bind, view_bind, if_pos (by simpa using closed)]
  rfl

end

/-! ### The ports -/

/-- The ports that push: all but RAPF and the MX ports. -/
theorem writePort_pushes {p : ReadPort} (pushes : p ∈ [ReadPort.ra, .rabz, .rawz, .radz, .rabx, .rawx, .radx]) (t : Tid) (la : Word) :
    writePort t p la = issueRead t p la := by
  simp only [List.mem_cons, List.not_mem_nil, or_false] at pushes
  rcases pushes with rfl | rfl | rfl | rfl | rfl | rfl | rfl <;> rfl

section
variable {s s1 : State} {p : ReadPort} {r : Reg} {la : Word} (usable : s.operandsOk [rd r, wr (portReg p)])
  (read : readReg s.cur (s.pcOf s.cur) r s.advanced = .ok la s1)
include usable read

theorem issueBody_run : issueBody p r (s.pcOf s.cur) s.advanced = writePort s.cur p la s1 := by
  unfold issueBody
  rw [me_bind, State.cur_advanced, usable.bind, M.bind_ok read]

end

/-- A row of the table of ports (R473): the instruction moves to a port that pushes, and the bytes it reads and the value it pushes
are the port's. -/
structure PortRow (c : Config) (v : DWord) (i : Cond → Reg → Instr) (p : ReadPort) (n : Nat) (x : DWord) : Prop where
  issued : ∀ k r s, exec (i k r) s = issue k (issueBody p r) s
  pushes : p ∈ [ReadPort.ra, .rabz, .rawz, .radz, .rabx, .rawx, .radx]
  bytes  : n = portBytes c p
  value  : x = portExtend c p v

theorem portRow_of_mem {c : Config} {v x : DWord} {i : Cond → Reg → Instr} {p : ReadPort} {n : Nat}
    (row : (i, p, n, x) ∈ [(Instr.movRa, ReadPort.ra, raWidth c, zextBytes (raWidth c) v), (.movRabz, .rabz, 1, zextBytes 1 v),
      (.movRawz, .rawz, 2, zextBytes 2 v), (.movRadz, .radz, 4, zextBytes 4 v), (.movRabx, .rabx, 1, sextBytes 1 v),
      (.movRawx, .rawx, 2, sextBytes 2 v), (.movRadx, .radx, 4, sextBytes 4 v)]) : PortRow c v i p n x := by
  simp only [List.mem_cons, List.not_mem_nil, or_false, Prod.mk.injEq] at row
  rcases row with ⟨rfl, rfl, rfl, rfl⟩ | ⟨rfl, rfl, rfl, rfl⟩ | ⟨rfl, rfl, rfl, rfl⟩ | ⟨rfl, rfl, rfl, rfl⟩ | ⟨rfl, rfl, rfl, rfl⟩ |
    ⟨rfl, rfl, rfl, rfl⟩ | ⟨rfl, rfl, rfl, rfl⟩ <;> exact ⟨fun _ _ _ => rfl, by decide, rfl, rfl⟩

/-- Settles O32: the move hands its address to the port, and the state of the pipeline decides between the push and the fault. -/
theorem readPortsPush : Obligations.ReadPortsPush := by
  intro s s1 c r la v i p n x row runs usable read
  obtain ⟨issued, pushes, rfl, rfl⟩ := portRow_of_mem row
  have body : issueBody p r (s.pcOf s.cur) s.advanced = issueRead s.cur p la s1 := by
    rw [issueBody_run usable read, writePort_pushes pushes]
  refine ⟨fun s2 room clean got => ?_, fun closed => ?_⟩
  · exact (issued c r s).trans (issue_ok runs (body.trans (issueRead_pushes room clean got)))
  · exact (issued c r s).trans (issue_exc runs (body.trans (issueRead_faults closed)))

end Sys2Proof.Machine
end

section
/-! PROOFS. What a completed instruction on data and address registers leaves (40_data_movement.md R460, 41_alu.md R502, R503). -/

namespace Sys2Proof.Machine

/-! ### Changes of registers, PC, the count and the flags -/

namespace OnlyRegistersChanged

variable {s x y : State} {t : Tid} {flags : Bool}

theorem trans (first : OnlyRegistersChanged s x t flags) (then' : OnlyRegistersChanged x y t flags) :
    OnlyRegistersChanged s y t flags where
  cfg := then'.cfg.trans first.cfg
  core := then'.core.trans first.core
  env := then'.env.trans first.env
  shared := by
    obtain ⟨_, _, _, _, e1⟩ := first.shared
    obtain ⟨_, _, _, _, e2⟩ := then'.shared
    rw [e2, e1]
    exact ⟨_, _, _, _, rfl⟩
  pcx := fun u => (then'.pcx u).trans (first.pcx u)
  others := fun u other => by
    obtain ⟨pc1, ct1, h1⟩ := first.others u other
    obtain ⟨pc2, ct2, h2⟩ := then'.others u other
    exact ⟨pc2.trans pc1, ct2.trans ct1, h2.trans h1⟩
  trig := fun u => by
    obtain ⟨tr1, mm1⟩ := first.trig u
    obtain ⟨tr2, mm2⟩ := then'.trig u
    exact ⟨tr2.trans tr1, mm2.trans mm1⟩
  ctrl := by
    obtain ⟨n1, v1, e1, high1, same1⟩ := first.ctrl
    obtain ⟨n2, v2, e2, high2, same2⟩ := then'.ctrl
    have status : x.status t = v1 := by rw [State.status, e1]
    rw [status] at high2 same2
    exact ⟨n2, v2, by rw [e2, e1], high2.trans high1, fun plain => (same2 plain).trans (same1 plain)⟩
  hidden := by
    obtain ⟨_, _, e1⟩ := first.hidden
    obtain ⟨b, l, e2⟩ := then'.hidden
    exact ⟨b, l, by rw [e2, e1]⟩

/-- A change of one thread's PC, count, flags, wait and prefetch buffer. -/
theorem modTh {f : Thread → Thread} (pcx : (f (s.th t)).u.pcx = (s.th t).u.pcx)
    (trig : (f (s.th t)).tr = (s.th t).tr ∧ (f (s.th t)).mm = (s.th t).mm)
    (ctrl : ∃ n v, (f (s.th t)).ct = { (s.th t).ct with txtactcyc := n, txstatus := v } ∧
      v &&& 0xFFFFFFE0#32 = s.status t &&& 0xFFFFFFE0#32 ∧ (flags = false → v = s.status t))
    (hidden : ∃ b l, (f (s.th t)).h = { (s.th t).h with waiting := b, fetchBuf := l }) :
    OnlyRegistersChanged s (s.modTh t f) t flags where
  cfg := rfl
  core := rfl
  env := rfl
  shared := ⟨_, _, _, _, rfl⟩
  pcx := fun u => by
    by_cases own : u = t
    · rw [own, State.th_modTh_self, pcx]
    · rw [State.th_modTh_of_ne own]
  others := fun u other => by
    rw [State.pcOf, State.th_modTh_of_ne other]
    exact ⟨rfl, rfl, rfl⟩
  trig := fun u => by
    by_cases own : u = t
    · rw [own, State.th_modTh_self]; exact trig
    · rw [State.th_modTh_of_ne own]; exact ⟨rfl, rfl⟩
  ctrl := by rw [State.th_modTh_self]; exact ctrl
  hidden := by rw [State.th_modTh_self]; exact hidden

theorem sameCtrl (s : State) (t : Tid) (flags : Bool) : ∃ n v, (s.th t).ct = { (s.th t).ct with txtactcyc := n, txstatus := v } ∧
    v &&& 0xFFFFFFE0#32 = s.status t &&& 0xFFFFFFE0#32 ∧ (flags = false → v = s.status t) :=
  ⟨_, _, rfl, rfl, fun _ => rfl⟩

theorem sameHidden (s : State) (t : Tid) : ∃ b l, (s.th t).h = { (s.th t).h with waiting := b, fetchBuf := l } := ⟨_, _, rfl⟩

theorem setPc (s : State) (t : Tid) (v : Word) : OnlyRegistersChanged s (s.setPc t v) t flags :=
  modTh (f := fun x => { x with u := { x.u with pc := v } }) rfl ⟨rfl, rfl⟩ (sameCtrl s t flags) (sameHidden s t)

theorem jump (s : State) (t : Tid) (v : Word) : OnlyRegistersChanged s (s.jump t v) t flags :=
  (setPc s t v).trans
    (modTh (f := fun x => { x with h := { x.h with fetchBuf := [] } }) rfl ⟨rfl, rfl⟩ (sameCtrl _ t flags) ⟨_, _, rfl⟩)

theorem retire (s : State) (t : Tid) : OnlyRegistersChanged s (s.retire t) t flags :=
  modTh rfl ⟨rfl, rfl⟩ ⟨_, _, rfl, rfl, fun _ => rfl⟩ ⟨_, _, rfl⟩

/-- Captured flags are bits 4:0 of TXSTATUS (41_alu.md R503). -/
theorem capture (s : State) (t : Tid) (f : Flags) : OnlyRegistersChanged s (s.capture t f) t true :=
  modTh (f := fun x => { x with ct := { x.ct with txstatus := captureFlags (s.status t) f } }) rfl ⟨rfl, rfl⟩
    ⟨_, _, rfl, withBits_and (by decide), fun plain => absurd plain (by decide)⟩ (sameHidden s t)

theorem setReg (s : State) (t : Tid) (r : Reg) (v : Word) : OnlyRegistersChanged s (s.setReg t r v) t flags where
  cfg := State.cfg_setReg ..
  core := State.core_setReg ..
  env := State.env_setReg ..
  shared := by
    obtain ⟨hwtrig, idlecyc, lock1, lock2, owner⟩ := s.shared_setReg t r v
    refine ⟨(s.setReg t r v).shared.d0, (s.setReg t r v).shared.d1, (s.setReg t r v).shared.a0, (s.setReg t r v).shared.a1, ?_⟩
    dsimp only
    rw [← hwtrig, ← idlecyc, ← lock1, ← lock2, ← owner]
  pcx := fun u => State.pcx_setReg ..
  others := fun u _ => ⟨State.pc_setReg .., State.ct_setReg .., State.h_setReg ..⟩
  trig := fun u => ⟨State.tr_setReg .., State.mm_setReg ..⟩
  ctrl := by rw [State.ct_setReg]; exact sameCtrl s t flags
  hidden := by rw [State.h_setReg]; exact sameHidden s t

/-- The state of the thread is not among what changed. -/
theorem tstate (h : OnlyRegistersChanged s x t flags) : (x.th t).h.tstate = (s.th t).h.tstate := by
  obtain ⟨b, l, e⟩ := h.hidden
  rw [e]

/-- A completion that leaves the thread in its state is no turn-off. -/
theorem complete (h : OnlyRegistersChanged s x t flags) (stays : ((x.complete t).th t).h.tstate = (s.th t).h.tstate) :
    OnlyRegistersChanged s (x.complete t) t flags := by
  obtain counted | ⟨running, off⟩ := x.complete_cases t
  · rw [counted]
    exact h.trans (retire x t)
  · obtain ⟨-, -, turned, -⟩ := (x.retire t).turnOff_thread t
    rw [off, turned, ← h.tstate, running] at stays
    cases stays

end OnlyRegistersChanged

/-! ### Computations on registers -/

/-- The end of a computation on registers: only registers, PC, the count and the flags have changed since `s`, or nothing of the
instruction is done. -/
inductive EndsOnRegisters {α : Type} (s : State) (t : Tid) (flags : Bool) : EStateM.Result Stop State α → Prop
  | done {v : α} {s' : State} (changed : OnlyRegistersChanged s s' t flags) : EndsOnRegisters s t flags (.ok v s')
  | stopped {e : Stop} {s' : State} (early : ∀ y, e ≠ .late y) : EndsOnRegisters s t flags (.error e s')

/-- A computation on registers. -/
def OnRegisters {α : Type} (s : State) (t : Tid) (flags : Bool) (x : M α) : Prop :=
  ∀ now, OnlyRegistersChanged s now t flags → EndsOnRegisters s t flags (x now)

namespace OnRegisters

variable {α β : Type} {s : State} {t : Tid} {flags : Bool}

/-- A computation that always ends, and how. -/
theorem of_ok {x : M α} {f : State → α} {g : State → State} (run : ∀ now, x now = .ok (f now) (g now))
    (step : ∀ now, OnlyRegistersChanged now (g now) t flags) : OnRegisters s t flags x := by
  intro now changed
  rw [run]
  exact .done (changed.trans (step now))

/-- A computation that leaves the state, and that nothing stops late. -/
theorem of_check {x : M α} (run : ∀ now, (∃ v, x now = .ok v now) ∨ ∃ e, x now = .error e now ∧ ∀ y, e ≠ .late y) :
    OnRegisters s t flags x := by
  intro now changed
  obtain ⟨v, ends⟩ | ⟨e, ends, early⟩ := run now <;> rw [ends]
  · exact .done changed
  · exact .stopped early

theorem pure (v : α) : OnRegisters s t flags (Pure.pure v : M α) := of_check fun _ => .inl ⟨v, rfl⟩

theorem update {g : State → State} (step : ∀ now, OnlyRegistersChanged now (g now) t flags) :
    OnRegisters s t flags (Machine.update g) := of_ok (f := fun _ => ()) (fun _ => rfl) step

theorem bind {x : M α} {rest : α → M β} (hx : OnRegisters s t flags x) (hr : ∀ v, OnRegisters s t flags (rest v)) :
    OnRegisters s t flags (x >>= rest) := by
  intro now changed
  rw [M.bind_run]
  have ends := hx now changed
  generalize x now = r at ends ⊢
  cases ends with
  | done changed => exact hr _ _ changed
  | stopped early => exact .stopped early

theorem afterwards {x rest : M Unit} (hx : OnRegisters s t flags x) (hr : OnRegisters s t flags rest) :
    OnRegisters s t flags (Machine.afterwards x rest) := by
  intro now changed
  unfold Machine.afterwards
  have ends := hx now changed
  generalize x now = r at ends ⊢
  cases ends with
  | done changed => exact hr _ changed
  | @stopped e _ early =>
    cases e with
    | late y => exact absurd rfl (early y)
    | _ => exact .stopped early

/-- The thread that executes is not among what changes. -/
theorem me_bind {rest : Tid → M α} (hr : OnRegisters s s.cur flags (rest s.cur)) :
    OnRegisters s s.cur flags (me >>= rest) := by
  intro now changed
  have same : now.cur = s.cur := congrArg Env.cur changed.env
  rw [Machine.me_bind, same]
  exact hr now changed

theorem check (u : Tid) (l : List Use) : OnRegisters s t flags (Machine.check u l) := of_check fun now => by
  match stop : now.operandStop u l with
  | none => exact .inl ⟨(), check_ok stop⟩
  | some e => exact .inr ⟨e, check_stop stop, State.operandStop_early stop⟩

theorem dspCheck (u : Tid) : OnRegisters s t flags (Machine.dspCheck u) := of_check fun now => by
  unfold Machine.dspCheck
  rw [view_bind]
  split
  · exact .inr ⟨_, rfl, fun _ same => by cases same⟩
  · exact .inl ⟨(), rfl⟩

variable {pc : Word}

theorem readReg {r : Reg} (general : r.isGeneral = true) : OnRegisters s t flags (Machine.readReg t pc r) :=
  of_check fun _ => .inl ⟨_, readReg_general general⟩

theorem writeReg {r : Reg} (general : r.isGeneral = true) (v : Word) : OnRegisters s t flags (Machine.writeReg t r v) :=
  of_ok (f := fun _ => ()) (fun _ => writeReg_general general) fun now => .setReg now t r v

theorem readSrc {x : Src} (plain : srcPlain x = true) : OnRegisters s t flags (Machine.readSrc t pc x) := by
  cases x with
  | reg r => exact readReg plain
  | imm v => exact pure v

theorem readAuSrc {u : UnitId} {x : AuSrc} (own : x.okFor u = true) (address : u = .a0 ∨ u = .a1) :
    OnRegisters s t flags (Machine.readAuSrc t pc x) := by
  cases x with
  | reg r =>
    have unit : r.unit = u := by simpa [AuSrc.okFor] using own
    refine readReg ?_
    unfold Reg.isGeneral
    rw [unit]
    rcases address with rfl | rfl <;> rfl
  | imm v => exact pure v
  | cpc => exact pure pc

end OnRegisters

/-! ### The bodies -/

section
variable {s : State} {pc : Word}

theorem aluBody_onRegisters (op : AluOp) {x : AluArgs} (plain : (x.d.isGeneral && x.a.isGeneral && srcPlain x.b) = true) :
    OnRegisters s s.cur x.s (aluBody op x pc) := by
  simp only [Bool.and_eq_true] at plain
  obtain ⟨⟨d, a⟩, b⟩ := plain
  refine .me_bind (.bind (.check _ _) fun _ => .bind (.dspCheck _) fun _ => .bind (.readReg a) fun v =>
    .bind (.readSrc b) fun w => .bind (.writeReg d _) fun _ => ?_)
  cases x.s with
  | true => exact .update fun now => .capture now _ _
  | false => exact .pure ()

theorem testBody_onRegisters (op : AluOp) {x : TestArgs} (plain : (x.a.isGeneral && srcPlain x.b) = true) :
    OnRegisters s s.cur true (testBody op x pc) := by
  simp only [Bool.and_eq_true] at plain
  obtain ⟨a, b⟩ := plain
  exact .me_bind (.bind (.check _ _) fun _ => .bind (.dspCheck _) fun _ => .bind (.readReg a) fun v =>
    .bind (.readSrc b) fun w => .update fun now => .capture now _ _)

theorem auBody_onRegisters (op : AuOp) {x : AuArgs} (plain : x.ok = true) : OnRegisters s s.cur false (auBody op x pc) := by
  simp only [AuArgs.ok, Bool.and_eq_true] at plain
  obtain ⟨⟨d, a⟩, b⟩ := plain
  have unit : x.d.unit = .a0 ∨ x.d.unit = .a1 := by simpa [Reg.isAddress] using d
  have general : x.d.isGeneral = true := by
    unfold Reg.isGeneral
    rcases unit with e | e <;> rw [e]
  exact .me_bind (.bind (.check _ _) fun _ => .bind (.dspCheck _) fun _ => .bind (.readAuSrc a unit) fun v =>
    .bind (.readAuSrc b unit) fun w => .writeReg general _)

variable {d a b : Reg}

theorem moveBody_onRegisters (hd : d.isGeneral = true) (ha : a.isGeneral = true) : OnRegisters s s.cur false (moveBody d a pc) :=
  .me_bind (.bind (.check _ _) fun _ => .bind (.readReg ha) fun v => .writeReg hd v)

theorem movePcBody_onRegisters (ha : a.isGeneral = true) : OnRegisters s s.cur false (moveBody ⟨.pc, 0#5⟩ a pc) :=
  .me_bind (.bind (.check _ _) fun _ => .bind (.readReg ha) fun v => .update fun now => .jump now _ v)

theorem movImmBody_onRegisters {imm : Word} (hd : d.isGeneral = true) : OnRegisters s s.cur false (movImmBody d imm pc) :=
  .me_bind (.bind (.check _ _) fun _ => .writeReg hd imm)

/-- Data and address registers are no specialist units. -/
theorem not_isSpecialist_of_general (ha : a.isGeneral = true) : UnitId.isSpecialist a.unit = false := by
  unfold Reg.isGeneral at ha
  cases unit : a.unit <;> simp [unit] at ha <;> rfl

theorem swapBody_onRegisters (ha : a.isGeneral = true) (hb : b.isGeneral = true) : OnRegisters s s.cur false (swapBody a b pc) := by
  refine .me_bind ?_
  dsimp only
  rw [not_isSpecialist_of_general ha, Bool.false_and, if_neg (by decide)]
  exact .bind (.check _ _) fun _ => .bind (.readReg ha) fun x => .bind (.readReg hb) fun y =>
    .bind (.writeReg ha y) fun _ => .writeReg hb x

theorem callrBody_onRegisters {imm : Word} (hd : d.isGeneral = true) : OnRegisters s s.cur false (callrBody d imm pc) :=
  .me_bind (.bind (.check _ _) fun _ => .afterwards (.writeReg hd _) (.update fun now => .jump now _ _))

theorem jumpBody_onRegisters {off : Word} (hb : b.isGeneral = true) : OnRegisters s s.cur false (jumpBody b off pc) :=
  .me_bind (.bind (.check _ _) fun _ => .bind (.readReg hb) fun _ => .update fun now => .jump now _ _)

theorem callBody_onRegisters {off : Word} (hd : d.isGeneral = true) (hb : b.isGeneral = true) :
    OnRegisters s s.cur false (callBody d b off pc) :=
  .me_bind (.bind (.check _ _) fun _ => .afterwards (.writeReg hd _)
    (.bind (.readReg hb) fun _ => .update fun now => .jump now _ _))

/-- The effects of an instruction on registers. -/
theorem registerInstr_onRegisters {i : Instr} (h : registerInstr i = true) :
    OnRegisters s s.cur (capturesFlags i) ((iteration i).2 pc) := by
  cases i with
  | nop => exact .pure ()
  | bcc c imm => exact .me_bind (.update fun now => .jump now _ _)
  | mov c d a =>
    obtain ⟨hd, ha⟩ := Bool.and_eq_true_iff.mp h
    exact moveBody_onRegisters hd ha
  | movImm c d imm => exact movImmBody_onRegisters (pc := pc) h
  | swap c a b =>
    obtain ⟨ha, hb⟩ := Bool.and_eq_true_iff.mp h
    exact swapBody_onRegisters ha hb
  | movPc c a => exact movePcBody_onRegisters h
  | add | sub | and | or | xor | lsl | lsr | asr | mulw | muld => exact aluBody_onRegisters _ h
  | tst | cmp => exact testBody_onRegisters _ h
  | auAdd | auSub => exact auBody_onRegisters _ h
  | callr d imm => exact callrBody_onRegisters h
  | jump b off => exact jumpBody_onRegisters h
  | call d b off =>
    obtain ⟨hd, hb⟩ := Bool.and_eq_true_iff.mp h
    exact callBody_onRegisters hd hb
  | _ => cases h

/-! ### The count of an exception -/

/-- The number of instructions the thread has counted. -/
def State.counted (s : State) (t : Tid) : BitVec 24 := (s.th t).ct.txtactcyc

theorem State.counted_quiesce (s : State) (t : Tid) : (s.quiesce t).counted t = s.counted t := by
  obtain ⟨d, ct⟩ := s.ct_quiesce t
  rw [State.counted, ct, State.counted]

theorem State.counted_setStatus (s : State) (t : Tid) (v : Word) : (s.setStatus t v).counted t = s.counted t := by
  simp [State.counted, State.setStatus]

theorem State.counted_catchSave (s : State) (t : Tid) (d : DataExc) (x : Xfer) : (s.catchSave t d x).counted t = s.counted t := by
  unfold State.catchSave
  dsimp only
  rw [State.counted_setStatus]
  cases x <;> simp [State.counted]

theorem State.counted_exceptionSaved (s : State) (t : Tid) (e : Exc) : (s.exceptionSaved t e).counted t = s.counted t := by
  have quiet : ((s.setReason t e).quiesce t).counted t = s.counted t :=
    (State.counted_quiesce _ t).trans (State.counted_setStatus ..)
  cases e with
  | data d x => exact (State.counted_catchSave ..).trans quiet
  | _ => exact quiet

/-- An exception counts no instruction. -/
theorem State.counted_takeException (s : State) (t : Tid) (e : Exc) : (s.takeException t e).counted t = s.counted t := by
  rw [State.takeException_eq]
  split
  · obtain ⟨_, _, _, ct⟩ := (interruptEntry_spec ((s.exceptionSaved t e).modTh t fun x =>
      { x with tr := { x.tr with haltTrig := true }, h := { x.h with tstate := .halted } }) t).ct
    rw [State.counted, ct, ← s.counted_exceptionSaved t e]
    simp [State.counted]
  · have off : (((s.exceptionSaved t e).goOff t false).raiseThreadTrigger t).counted t = s.counted t := by
      rw [← s.counted_exceptionSaved t e]
      simp [State.counted, State.goOff]
    dsimp only
    split
    · rw [← off]
      simp [State.counted, State.raisePageTrigger]
    · exact off

/-! ### From the body to the next state -/

/-- Where an issue of a computation on registers leads: the completion of a change of registers, an exception with nothing done, or
a wait. -/
theorem issue_onRegisters {c : Cond} {body : Word → M Unit} {flags : Bool} {s' : State}
    (h : OnRegisters s s.cur flags (body (s.pcOf s.cur))) (issued : issue c body s = .next s') :
    (∃ x, OnlyRegistersChanged s x s.cur flags ∧ s' = x.complete s.cur) ∨ (∃ e, s' = s.takeException s.cur e) ∨
      s' = s.blocked s.cur := by
  have advanced : OnlyRegistersChanged s s.advanced s.cur flags := .setPc s s.cur _
  by_cases split : splitTest (s.status s.cur) c = true
  · rw [issue_split split] at issued
    cases issued
  by_cases holds : condHolds (s.status s.cur) c = true
  · rw [issue_runs ⟨Bool.eq_false_iff.mpr split, holds⟩] at issued
    have ends := h _ advanced
    generalize body (s.pcOf s.cur) s.advanced = r at ends issued
    cases ends with
    | @done _ x changed => exact .inl ⟨x, changed, (Host.Outcome.next.inj issued).symm⟩
    | @stopped why _ early =>
      cases why with
      | exc e => exact .inr (.inl ⟨e, (Host.Outcome.next.inj issued).symm⟩)
      | late e => exact absurd rfl (early e)
      | block => exact .inr (.inr (Host.Outcome.next.inj issued).symm)
      | refused q => cases issued
  · rw [issue_skipped (Bool.eq_false_iff.mpr split) (Bool.eq_false_iff.mpr holds)] at issued
    exact .inl ⟨_, advanced, (Host.Outcome.next.inj issued).symm⟩

end

/-- An instruction on registers is one issue. -/
theorem onceIssued_of_registerInstr {i : Instr} (h : registerInstr i = true) : onceIssued i = true := by
  cases i <;> first | rfl | cases h

/-- Settles O15: of the three ends of a body on registers only the completion counts, and with the thread in its state it is no turn-off. -/
theorem registerInstructionsLeaveTheRest : Obligations.RegisterInstructionsLeaveTheRest := by
  intro i s s' plain run counts stays _
  have uncounted : s'.counted s.cur ≠ s.counted s.cur := fun same => by
    have next : s.counted s.cur + 1#24 = s.counted s.cur := counts.symm.trans same
    simp at next
  rw [exec_once (onceIssued_of_registerInstr plain)] at run
  obtain ⟨x, changed, rfl⟩ | ⟨e, rfl⟩ | rfl := issue_onRegisters (registerInstr_onRegisters plain) run
  · exact changed.complete stays
  · exact absurd (State.counted_takeException ..) uncounted
  · exact absurd (by simp [State.counted, State.blocked]) uncounted

end Sys2Proof.Machine
end

section
/-! PROOFS. Flags and the conditions that test them, and the operations of the data and address units (41_alu.md R501 to R511). -/

namespace Sys2Proof.Machine

/-! ### Signed overflow -/

section
variable {w : Nat}

/-- No word has a signed value out of its range. -/
theorem toInt_ne_of_out_of_range (r : BitVec w) {v : Int} (outside : 2 ^ (w - 1) ≤ v ∨ v < -2 ^ (w - 1)) : r.toInt ≠ v := by
  have least := r.le_toInt
  have most := r.toInt_lt
  omega

variable (a b : BitVec w)

/-- A sum overflows where the signed value of the word is not the sum of the signed values. -/
theorem saddOverflow_eq_toInt_bne : a.saddOverflow b = ((a + b).toInt != a.toInt + b.toInt) := by
  by_cases wraps : a.saddOverflow b = true
  · rw [wraps, eq_comm, bne_iff_ne]
    exact toInt_ne_of_out_of_range _ (by simpa [BitVec.saddOverflow] using wraps)
  · rw [Bool.eq_false_iff.mpr wraps, BitVec.toInt_add_of_not_saddOverflow wraps, bne_self_eq_false]

/-- A difference overflows where the signed value of the word is not the difference of the signed values. -/
theorem ssubOverflow_eq_toInt_bne : a.ssubOverflow b = ((a - b).toInt != a.toInt - b.toInt) := by
  by_cases wraps : a.ssubOverflow b = true
  · rw [wraps, eq_comm, bne_iff_ne]
    exact toInt_ne_of_out_of_range _ (by simpa [BitVec.ssubOverflow] using wraps)
  · rw [Bool.eq_false_iff.mpr wraps, BitVec.toInt_sub_of_not_ssubOverflow wraps, bne_self_eq_false]

/-- A difference overflows where the signs of the operands differ and the sign of the first is lost. -/
theorem ssubOverflow_eq_msb : a.ssubOverflow b = (a.msb != b.msb && (a - b).msb != a.msb) := by
  rw [BitVec.ssubOverflow_eq]
  cases a.msb <;> cases b.msb <;> simp

end

/-! ### The flags by integer formulas -/

section
variable (a b : Word)

theorem addFlags_eq : addFlags a b =
    ⟨a + b == 0#32, (a + b).msb, (a + b).toInt != a.toInt + b.toInt, decide (2 ^ 32 ≤ a.toNat + b.toNat)⟩ := by
  rw [← saddOverflow_eq_toInt_bne, BitVec.saddOverflow_eq]
  rfl

theorem subFlags_eq : subFlags a b =
    ⟨a - b == 0#32, (a - b).msb, (a - b).toInt != a.toInt - b.toInt, decide (a.toNat < b.toNat)⟩ := by
  rw [← ssubOverflow_eq_toInt_bne, ssubOverflow_eq_msb]
  rfl

/-- A difference is zero where the operands are equal. -/
theorem sub_beq_zero : (a - b == 0#32) = (a == b) := by
  rw [Bool.eq_iff_iff, beq_iff_eq, beq_iff_eq, BitVec.sub_eq_iff_eq_add, BitVec.zero_add]

/-- The sign of the difference is that of the integer difference, turned over by an overflow. -/
theorem msb_sub_bne_overflow_iff : ((a - b).msb != ((a - b).toInt != a.toInt - b.toInt)) = true ↔ a.toInt < b.toInt := by
  have wraps : (a - b).toInt = (a.toInt - b.toInt).bmod (2 ^ 32) := BitVec.toInt_sub
  have leastA := a.le_toInt
  have mostA := a.toInt_lt
  have leastB := b.le_toInt
  have mostB := b.toInt_lt
  rw [BitVec.msb_eq_toInt, bne_iff_ne, ne_eq, Bool.eq_iff_iff, decide_eq_true_eq, bne_iff_ne]
  rw [Int.bmod_def] at wraps
  omega

end

/-! ### Conditions as comparisons -/

section
variable (f : Flags)

theorem Flags.test_ne : f.test .ne = !f.test .eq := rfl

theorem Flags.test_hs : f.test .hs = !f.test .lo := rfl

theorem Flags.test_ls : f.test .ls = (f.test .lo || f.test .eq) := rfl

theorem Flags.test_hi : f.test .hi = !f.test .ls := (Bool.not_or _ _).symm

theorem Flags.test_ge : f.test .ge = !f.test .lt := (Bool.not_not _).symm

theorem Flags.test_le : f.test .le = (f.test .eq || f.test .lt) := rfl

theorem Flags.test_gt : f.test .gt = !f.test .le :=
  (congrArg (!f.z && ·) f.test_ge).trans (Bool.not_or _ _).symm

end

section
variable (a b : Word)

theorem subFlags_test_eq : (subFlags a b).test .eq = true ↔ a = b := by
  rw [subFlags_eq, sub_beq_zero]
  exact beq_iff_eq

theorem subFlags_test_lo : (subFlags a b).test .lo = true ↔ a.toNat < b.toNat := by
  rw [subFlags_eq]
  exact decide_eq_true_iff

theorem subFlags_test_lt : (subFlags a b).test .lt = true ↔ a.toInt < b.toInt := by
  rw [subFlags_eq]
  exact msb_sub_bne_overflow_iff a b

end

/-! ### Captured flags read back -/

section
variable (status : Word) (f : Flags)

/-- SCC, which is clear, above the four flags: the field a capture writes. -/
def flagField (f : Flags) : BitVec 5 := 0#1 ++ b1 f.z ++ b1 f.n ++ b1 f.v ++ b1 f.c

theorem captureFlags_eq : captureFlags status f = withBits status 0 5 (flagField f) := rfl

theorem bitOf_flagField : bitOf (flagField f) 4 = false ∧ bitOf (flagField f) 3 = f.z ∧ bitOf (flagField f) 2 = f.n ∧
    bitOf (flagField f) 1 = f.v ∧ bitOf (flagField f) 0 = f.c := by
  obtain ⟨z, n, v, c⟩ := f
  revert z n v c
  decide

/-- The five low bits of a captured status are the field's. -/
theorem bitOf_captureFlags {i : Nat} (low : i < 5) : bitOf (captureFlags status f) i = bitOf (flagField f) i := by
  rw [captureFlags_eq, bitOf_withBits (by omega), if_pos (by omega), Nat.sub_zero]

theorem flagsOf_captureFlags : flagsOf (captureFlags status f) = f := by
  obtain ⟨-, z, n, v, c⟩ := bitOf_flagField f
  rw [flagsOf, bitOf_captureFlags status f (by decide), bitOf_captureFlags status f (by decide),
    bitOf_captureFlags status f (by decide), bitOf_captureFlags status f (by decide), z, n, v, c]

theorem sccOf_captureFlags : sccOf (captureFlags status f) = false := by
  obtain ⟨scc, -⟩ := bitOf_flagField f
  rw [sccOf, bitOf_captureFlags status f (by decide), scc]

/-- The other bits stay. -/
theorem captureFlags_and : captureFlags status f &&& 0xFFFFFFE0#32 = status &&& 0xFFFFFFE0#32 := withBits_and (by decide)

end

/-- Settles O40: EQ, LO and LT are read off the flags of the difference, the other conditions are made of these three. -/
theorem conditionsCompare : Obligations.ConditionsCompare := by
  intro status a b f r
  have eq : r.test .eq = true ↔ a = b := subFlags_test_eq a b
  have lo : r.test .lo = true ↔ a.toNat < b.toNat := subFlags_test_lo a b
  have lt : r.test .lt = true ↔ a.toInt < b.toInt := subFlags_test_lt a b
  have ls : r.test .ls = true ↔ a.toNat ≤ b.toNat := by
    rw [r.test_ls, Bool.or_eq_true, lo, eq, ← BitVec.toNat_inj, Nat.le_iff_lt_or_eq]
  have le : r.test .le = true ↔ a.toInt ≤ b.toInt := by
    rw [r.test_le, Bool.or_eq_true, lt, eq, ← BitVec.toInt_inj, Int.le_iff_eq_or_lt]
  refine ⟨eq, ?_, lo, ?_, ?_, ls, lt, ?_, ?_, le, rfl, rfl, flagsOf_captureFlags status f, sccOf_captureFlags status f,
    captureFlags_and status f⟩
  · rw [r.test_ne, Bool.not_eq_true', ← Bool.not_eq_true, eq]
  · rw [r.test_hs, Bool.not_eq_true', ← Bool.not_eq_true, lo, Nat.not_lt]
  · rw [r.test_hi, Bool.not_eq_true', ← Bool.not_eq_true, ls, Nat.not_le]
  · rw [r.test_ge, Bool.not_eq_true', ← Bool.not_eq_true, lt, Int.not_lt]
  · rw [r.test_gt, Bool.not_eq_true', ← Bool.not_eq_true, le, Int.not_le]

/-! ### Operations of the data units -/

/-- The instruction of each data unit operation. -/
def dataInstr : AluOp → AluArgs → Instr
  | .add => .add
  | .sub => .sub
  | .and => .and
  | .or => .or
  | .xor => .xor
  | .lsl => .lsl
  | .lsr => .lsr
  | .asr => .asr
  | .mulw => .mulw
  | .muld => .muld

theorem exec_dataInstr (op : AluOp) (x : AluArgs) (s : State) : exec (dataInstr op x) s = issue x.cc (aluBody op x) s := by
  cases op <;> exact exec_once rfl s

section
variable {s s1 s2 : State} {a b : Word}

theorem aluBody_run {op : AluOp} {x : AluArgs} {r : Word} {f : Flags} (general : x.d.isGeneral = true)
    (usable : s.operandsOk (aluUses x)) (linear : s.dspModeOn s.cur = false)
    (readA : readReg s.cur (s.pcOf s.cur) x.a s.advanced = .ok a s1) (readB : readSrc s.cur (s.pcOf s.cur) x.b s1 = .ok b s2)
    (result : aluResult op a b = (r, f)) : aluBody op x (s.pcOf s.cur) s.advanced =
      .ok () (if x.s then (s2.setReg s.cur x.d r).capture s.cur f else s2.setReg s.cur x.d r) := by
  rw [aluUses] at usable
  unfold aluBody
  rw [me_bind, State.cur_advanced, usable.bind, dspCheck_bind ((State.dspModeOn_advanced s s.cur).trans linear), M.bind_ok readA,
    M.bind_ok readB, result, M.bind_ok (writeReg_general general)]
  cases x.s <;> rfl

/-- An operation that runs writes its result and, with S, captures its flags. -/
theorem exec_dataInstr_result {x : AluArgs} (general : x.d.isGeneral = true) (runs : s.runs x.cc)
    (usable : s.operandsOk (aluUses x)) (linear : s.dspModeOn s.cur = false)
    (readA : readReg s.cur (s.pcOf s.cur) x.a s.advanced = .ok a s1) (readB : readSrc s.cur (s.pcOf s.cur) x.b s1 = .ok b s2)
    (op : AluOp) {r : Word} {f : Flags} (result : aluResult op a b = (r, f)) : exec (dataInstr op x) s =
      .next ((if x.s then (s2.setReg s.cur x.d r).capture s.cur f else s2.setReg s.cur x.d r).complete s.cur) :=
  (exec_dataInstr op x s).trans (issue_ok runs (aluBody_run general usable linear readA readB result))

theorem testBody_run {op : AluOp} {x : TestArgs} (usable : s.operandsOk (rd x.a :: srcUses x.b))
    (linear : s.dspModeOn s.cur = false)
    (readA : readReg s.cur (s.pcOf s.cur) x.a s.advanced = .ok a s1) (readB : readSrc s.cur (s.pcOf s.cur) x.b s1 = .ok b s2) :
    testBody op x (s.pcOf s.cur) s.advanced = .ok () (s2.capture s.cur (aluResult op a b).2) := by
  unfold testBody
  rw [me_bind, State.cur_advanced, usable.bind, dspCheck_bind ((State.dspModeOn_advanced s s.cur).trans linear), M.bind_ok readA,
    M.bind_ok readB, update_run]

end

/-! ### Results by arithmetic formulas -/

section
variable (a b : Word)

theorem aluResult_add : aluResult .add a b = (a + b,
    ⟨a + b == 0#32, (a + b).msb, (a + b).toInt != a.toInt + b.toInt, decide (2 ^ 32 ≤ a.toNat + b.toNat)⟩) :=
  congrArg (Prod.mk (a + b)) (addFlags_eq a b)

theorem aluResult_sub : aluResult .sub a b = (a - b,
    ⟨a - b == 0#32, (a - b).msb, (a - b).toInt != a.toInt - b.toInt, decide (a.toNat < b.toNat)⟩) :=
  congrArg (Prod.mk (a - b)) (subFlags_eq a b)

/-- A result with the flags the logical operations, shifts and multiplies capture (R503). -/
def flagged (r : Word) : Word × Flags := (r, resultFlags r)

/-- The low bits of a word are its remainder. -/
theorem toNat_bitsOf_zero (n : Nat) : (bitsOf b 0 n).toNat = b.toNat % 2 ^ n := by
  rw [bitsOf, BitVec.extractLsb'_toNat, Nat.shiftRight_zero]

/-- The amount of a shift is in the low five bits of its operand. -/
theorem toNat_shiftAmount : (bitsOf b 0 5).toNat = b.toNat % 32 := toNat_bitsOf_zero b 5

theorem toNat_lowHalf : ((bitsOf a 0 16).setWidth 32).toNat = a.toNat % 65536 := by
  rw [BitVec.toNat_setWidth_of_le (by decide)]
  exact toNat_bitsOf_zero a 16

theorem aluResult_lsl : aluResult .lsl a b = flagged (BitVec.ofNat 32 (a.toNat * 2 ^ (b.toNat % 32))) := by
  refine congrArg flagged (BitVec.eq_of_toNat_eq ?_)
  rw [toNat_shiftAmount, BitVec.toNat_shiftLeft, Nat.shiftLeft_eq, BitVec.toNat_ofNat]

theorem aluResult_lsr : aluResult .lsr a b = flagged (BitVec.ofNat 32 (a.toNat / 2 ^ (b.toNat % 32))) := by
  refine congrArg flagged ?_
  rw [toNat_shiftAmount, ← Nat.shiftRight_eq_div_pow, ← BitVec.toNat_ushiftRight, BitVec.ofNat_toNat, BitVec.setWidth_eq]

theorem aluResult_asr : aluResult .asr a b = flagged (BitVec.ofInt 32 (a.toInt / 2 ^ (b.toNat % 32))) := by
  have power : (2 : Int) ^ (b.toNat % 32) = ((2 ^ (b.toNat % 32) : Nat) : Int) := (Nat.cast_pow 2 _).symm
  refine congrArg flagged ?_
  rw [toNat_shiftAmount, power, ← Int.shiftRight_eq_div_pow, ← BitVec.toInt_sshiftRight, BitVec.ofInt_toInt]

theorem mul_eq_ofNat : a * b = BitVec.ofNat 32 (a.toNat * b.toNat) := by
  apply BitVec.eq_of_toNat_eq
  rw [BitVec.toNat_mul, BitVec.toNat_ofNat]

theorem aluResult_mulw :
    aluResult .mulw a b = flagged (BitVec.ofNat 32 ((a.toNat % 65536) * (b.toNat % 65536))) := by
  refine congrArg flagged ?_
  rw [mul_eq_ofNat, toNat_lowHalf, toNat_lowHalf]

theorem aluResult_muld : aluResult .muld a b = flagged (BitVec.ofNat 32 (a.toNat * b.toNat)) :=
  congrArg flagged (mul_eq_ofNat a b)

end

/-- Settles O36: both are the run of their operation, with the flags by their integer formulas. -/
theorem addSubResults : Obligations.AddSubResults := by
  intro s s1 s2 x a b general runs usable linear readA readB
  have result := exec_dataInstr_result general runs usable linear readA readB
  exact ⟨result .add (aluResult_add a b), result .sub (aluResult_sub a b)⟩

/-- Settles O37: the results are bitwise in the model too. -/
theorem logicResults : Obligations.LogicResults := by
  intro s s1 s2 x a b general runs usable linear readA readB
  have result := exec_dataInstr_result general runs usable linear readA readB
  exact ⟨result .and rfl, result .or rfl, result .xor rfl⟩

/-- Settles O38: each is the run of its operation, with the result by its arithmetic formula. -/
theorem shiftAndMultiplyResults : Obligations.ShiftAndMultiplyResults := by
  intro s s1 s2 x a b general runs usable linear readA readB
  have result := exec_dataInstr_result general runs usable linear readA readB
  exact ⟨result .lsl (aluResult_lsl a b), result .lsr (aluResult_lsr a b), result .asr (aluResult_asr a b),
    result .mulw (aluResult_mulw a b), result .muld (aluResult_muld a b)⟩

/-- Settles O39: TST and CMP are the test bodies of AND and SUB. -/
theorem testAndCompareResults : Obligations.TestAndCompareResults := by
  intro s s1 s2 x a b runs usable linear readA readB
  have ends (op : AluOp) := issue_ok runs (testBody_run (op := op) usable linear readA readB)
  refine ⟨(exec_once rfl s).trans (ends .and), (exec_once rfl s).trans ((ends .sub).trans ?_)⟩
  rw [aluResult_sub, sub_beq_zero]

/-! ### Operations of the address units -/

/-- The value of an address unit source; CPC is the address of the instruction (R511). -/
def State.auValue (s : State) : AuSrc → Word
  | .reg r => s.reg s.cur r
  | .imm v => v
  | .cpc => s.pcOf s.cur

/-- A register of an address unit is a general one. -/
theorem Reg.isGeneral_of_isAddress {r : Reg} (h : r.isAddress = true) : r.isGeneral = true := by
  have unit : r.unit = .a0 ∨ r.unit = .a1 := by simpa [Reg.isAddress] using h
  unfold Reg.isGeneral
  rcases unit with e | e <;> rw [e]

section
variable {s : State} {x : AuArgs}

theorem readAuSrc_run {r : Reg} {y : AuSrc} (own : y.okFor r.unit = true) (address : r.isAddress = true) :
    readAuSrc s.cur (s.pcOf s.cur) y s.advanced = .ok (s.auValue y) s.advanced := by
  cases y with
  | reg q =>
    have unit : q.unit = r.unit := by simpa [AuSrc.okFor] using own
    have general : q.isGeneral = true := Reg.isGeneral_of_isAddress (by rw [Reg.isAddress, unit]; exact address)
    have read : readReg s.cur (s.pcOf s.cur) q s.advanced = .ok (s.reg s.cur q) s.advanced := by
      rw [readReg_general general, State.reg_advanced]
    exact read
  | imm v => rfl
  | cpc => rfl

theorem auBody_run (op : AuOp) (ok : x.ok = true) (usable : s.operandsOk (auUses x)) (linear : s.dspModeOn s.cur = false) :
    auBody op x (s.pcOf s.cur) s.advanced =
      .ok () (s.advanced.setReg s.cur x.d (auResult op (s.auValue x.a) (s.auValue x.b))) := by
  simp only [AuArgs.ok, Bool.and_eq_true] at ok
  obtain ⟨⟨address, ownA⟩, ownB⟩ := ok
  rw [auUses] at usable
  unfold auBody
  rw [me_bind, State.cur_advanced, usable.bind, dspCheck_bind ((State.dspModeOn_advanced s s.cur).trans linear),
    M.bind_ok (readAuSrc_run ownA address), M.bind_ok (readAuSrc_run ownB address),
    writeReg_general (Reg.isGeneral_of_isAddress address)]

end

/-- Settles O41: the body writes the address register and touches no flag. -/
theorem addressUnitResults : Obligations.AddressUnitResults := by
  intro s x ok runs usable linear val
  have value : val = s.auValue := by
    funext y
    cases y <;> rfl
  rw [value]
  exact ⟨(exec_once rfl s).trans (issue_ok runs (auBody_run .add ok usable linear)),
    (exec_once rfl s).trans (issue_ok runs (auBody_run .sub ok usable linear))⟩

end Sys2Proof.Machine
end

section
/-! PROOFS. Return from interrupt: the swap, the state resumed, and the caught transfer made again (42_control_flow.md R537,
60_exceptions.md R637, R658). -/

namespace Sys2Proof.Machine

/-! ### The swap and the state resumed -/

/-- TXSTATUS after a return from interrupt level: ISTAT 0, PSTAT toggled with PToggle. -/
def State.resumedStatus (s : State) (t : Tid) : Word :=
  if s.pToggle t then withBit (withBit (s.status t) 16 false) 17 (!s.priv t) else withBit (s.status t) 16 false

section
variable (s : State) (t u : Tid) (next : Word)

/-- A return changes one thread: PC and PCX, the prefetch buffer, and at interrupt level TXSTATUS, RPDirty and the thread's state. -/
theorem State.returnFromInterrupt_eq : s.returnFromInterrupt t next = s.modTh t fun x =>
    { x with
      u := { x.u with pc := x.u.pcx, pcx := next }
      ct := if s.istat t then
          { x.ct with txstatus := s.resumedStatus t, txdivtime := withBit x.ct.txdivtime 31 false }
        else x.ct
      h := if s.istat t then
          { x.h with fetchBuf := [], tstate := if s.cbMarker t then .cbRestore else x.h.tstate }
        else { x.h with fetchBuf := [] } } := by
  unfold State.returnFromInterrupt
  by_cases level : s.istat t = true
  · simp [level, State.modU, State.modH, State.modCt, State.modTh, State.setStatus, State.setRpDirty, State.th, State.resumedStatus]
  · simp [level, State.modU, State.modH, State.modTh, State.th]

@[simp] theorem State.shared_returnFromInterrupt : (s.returnFromInterrupt t next).shared = s.shared := by
  rw [State.returnFromInterrupt_eq]; rfl
@[simp] theorem State.core_returnFromInterrupt : (s.returnFromInterrupt t next).core = s.core := by
  rw [State.returnFromInterrupt_eq]; rfl
@[simp] theorem State.env_returnFromInterrupt : (s.returnFromInterrupt t next).env = s.env := by
  rw [State.returnFromInterrupt_eq]; rfl
@[simp] theorem State.u_returnFromInterrupt : ((s.returnFromInterrupt t next).th t).u =
    { (s.th t).u with pc := (s.th t).u.pcx, pcx := next } := by simp [State.returnFromInterrupt_eq]
@[simp] theorem State.tr_returnFromInterrupt : ((s.returnFromInterrupt t next).th t).tr = (s.th t).tr := by
  simp [State.returnFromInterrupt_eq]
@[simp] theorem State.mm_returnFromInterrupt : ((s.returnFromInterrupt t next).th t).mm = (s.th t).mm := by
  simp [State.returnFromInterrupt_eq]
theorem State.ct_returnFromInterrupt : ((s.returnFromInterrupt t next).th t).ct = if s.istat t then
    { (s.th t).ct with txstatus := s.resumedStatus t, txdivtime := withBit (s.th t).ct.txdivtime 31 false } else (s.th t).ct := by
  simp [State.returnFromInterrupt_eq]
theorem State.tstate_returnFromInterrupt : ((s.returnFromInterrupt t next).th t).h.tstate =
    if s.istat t && s.cbMarker t then .cbRestore else (s.th t).h.tstate := by
  rw [State.returnFromInterrupt_eq, State.th_modTh_self]
  cases s.istat t <;> simp
variable {u t} in
theorem State.th_returnFromInterrupt_of_ne (other : u ≠ t) : (s.returnFromInterrupt t next).th u = s.th u := by
  rw [State.returnFromInterrupt_eq, State.th_modTh_of_ne other]
@[simp] theorem State.reg_returnFromInterrupt (q : Reg) : (s.returnFromInterrupt t next).reg u q = s.reg u q := by
  refine State.reg_congr ?_ (by simp)
  by_cases same : u = t
  · subst same; simp
  · simp [State.th_returnFromInterrupt_of_ne s next same]

end

/-! ### TXSTATUS of the state resumed -/

section
variable (s : State) (t : Tid)

theorem State.bitOf_resumedStatus_istat : bitOf (s.resumedStatus t) 16 = false := by
  unfold State.resumedStatus
  split
  · rw [bitOf_withBit_of_ne (by decide), bitOf_withBit_self (by decide)]
  · exact bitOf_withBit_self (by decide)

theorem State.bitOf_resumedStatus_priv : bitOf (s.resumedStatus t) 17 = if s.pToggle t then !s.priv t else s.priv t := by
  unfold State.resumedStatus
  split
  · exact bitOf_withBit_self (by decide)
  · exact bitOf_withBit_of_ne (by decide)

/-- The bits other than ISTAT and PSTAT. -/
theorem State.resumedStatus_and : s.resumedStatus t &&& 0xFFFCFFFF#32 = s.status t &&& 0xFFFCFFFF#32 := by
  unfold State.resumedStatus
  split
  · rw [withBit_and (by decide), withBit_and (by decide)]
  · exact withBit_and (by decide)

/-- Whatever level it starts at, a thread returns to background level. -/
theorem State.istat_returnFromInterrupt (next : Word) : (s.returnFromInterrupt t next).istat t = false := by
  unfold State.istat State.status
  rw [State.ct_returnFromInterrupt]
  split
  · exact s.bitOf_resumedStatus_istat t
  · rename_i background
    exact Bool.eq_false_iff.mpr background

variable {s t} in
/-- What a return from interrupt level leaves of TXSTATUS and RPDirty. -/
theorem State.returnFromInterrupt_interrupt (level : s.istat t = true) (next : Word) :
    (s.returnFromInterrupt t next).rpDirty t = false ∧
    (s.returnFromInterrupt t next).priv t = (if s.pToggle t then !s.priv t else s.priv t) ∧
    (s.returnFromInterrupt t next).status t &&& 0xFFFCFFFF#32 = s.status t &&& 0xFFFCFFFF#32 := by
  have control := s.ct_returnFromInterrupt t next
  rw [if_pos level] at control
  unfold State.rpDirty State.priv
  rw [State.status, control]
  exact ⟨bitOf_withBit_self (by decide), s.bitOf_resumedStatus_priv t, s.resumedStatus_and t⟩

/-- Both markers are clear after a replay. -/
theorem State.endReplay_clears : (s.endReplay t).cbMarker t = false ∧ bitOf ((s.endReplay t).status t) 23 = false := by
  have status : (s.endReplay t).status t = withBit (withBit (s.status t) 22 false) 23 false := by
    simp [State.endReplay, State.setStatus, State.status]
  unfold State.cbMarker
  rw [status]
  exact ⟨(bitOf_withBit_of_ne (by decide)).trans (bitOf_withBit_self (by decide)), bitOf_withBit_self (by decide)⟩

/-- A thread still enabled after a replay is not turned off. -/
theorem State.stopIfDisabled_of_enabled (enabled : (s.th t).ct.enabled = true) : s.stopIfDisabled t = s := by
  simp [State.stopIfDisabled, enabled]

end

/-! ### RTI -/

/-- LINK cleared, at the end of a return from interrupt level. -/
def State.unlinked (s : State) (t : Tid) : State := s.modH t fun h => { h with link := false }

section
variable {s s1 : State} {e : Exc}

theorem rtiBody_background (background : s.istat s.cur = false) :
    rtiBody (s.pcOf s.cur) s.advanced = .ok () s.returned := by
  unfold rtiBody
  simp only [me_bind, view_bind, State.cur_advanced, State.istat_advanced, background]
  rfl

theorem rtiBody_uncaught (level : s.istat s.cur = true) (uncaught : s.cbMarker s.cur = false) :
    rtiBody (s.pcOf s.cur) s.advanced = .ok () (s.returned.unlinked s.cur) := by
  unfold rtiBody
  simp only [me_bind, view_bind, State.cur_advanced, State.istat_advanced, State.cbMarker_advanced, level, uncaught]
  rfl

/-- With a caught transfer the replay and the end of LINK follow the return. -/
theorem rtiBody_caught (replays : s.replays = true) : rtiBody (s.pcOf s.cur) s.advanced =
    (replayNow s.cur >>= fun _ => update fun x => x.unlinked s.cur) s.returned := by
  obtain ⟨level, caught⟩ : s.istat s.cur = true ∧ s.cbMarker s.cur = true := by simpa [State.replays] using replays
  unfold rtiBody
  simp only [me_bind, view_bind, State.cur_advanced, State.istat_advanced, State.cbMarker_advanced, level, caught]
  rfl

theorem replayNow_ok {t : Tid} (made : replayTransfer t s = .ok () s1) (enabled : ((s1.endReplay t).th t).ct.enabled = true) :
    replayNow t s = .ok () (s1.endReplay t) := by
  unfold replayNow
  rw [made]
  exact congrArg _ (State.stopIfDisabled_of_enabled _ _ enabled)

theorem replayNow_late {t : Tid} (caught : replayTransfer t s = .error (.late e) s1) : replayNow t s = .error (.late e) s1 := by
  unfold replayNow
  rw [caught]

/-- An exception of the replay finds the return done (log 12). -/
theorem replayNow_exc {t : Tid} (trapped : replayTransfer t s = .error (.exc e) s1) : replayNow t s = .error (.late e) s := by
  unfold replayNow
  rw [trapped]

theorem exec_rti_background (background : s.istat s.cur = false) : exec .rti s = .next (s.returned.complete s.cur) :=
  (exec_once rfl s).trans (issue_ok s.runs_al (rtiBody_background background))

theorem exec_rti_uncaught (level : s.istat s.cur = true) (uncaught : s.cbMarker s.cur = false) :
    exec .rti s = .next ((s.returned.unlinked s.cur).complete s.cur) :=
  (exec_once rfl s).trans (issue_ok s.runs_al (rtiBody_uncaught level uncaught))

theorem exec_rti_replayed (replays : s.replays = true) (replayed : replayNow s.cur s.returned = .ok () s1) :
    exec .rti s = .next ((s1.unlinked s.cur).complete s.cur) :=
  (exec_once rfl s).trans (issue_ok s.runs_al ((rtiBody_caught replays).trans (M.bind_ok replayed)))

theorem exec_rti_late (replays : s.replays = true) (caught : replayNow s.cur s.returned = .error (.late e) s1) :
    exec .rti s = .next ((s1.retire s.cur).takeException s.cur e) :=
  (exec_once rfl s).trans (issue_late s.runs_al ((rtiBody_caught replays).trans (M.bind_error caught)))

end

/-- Settles O43: the state resumed by one equation of the return, then the three ways the body of RTI goes on. -/
theorem returnFromInterrupt : Obligations.ReturnFromInterrupt := by
  intro s t r unlinked
  refine ⟨⟨?pc, ?pcx, State.istat_returnFromInterrupt _ _ _, ?regs, State.shared_returnFromInterrupt _ _ _,
      State.core_returnFromInterrupt _ _ _, State.env_returnFromInterrupt _ _ _, ?others, ?tr, ?mm, ?background, ?interrupt⟩,
    exec_rti_background, exec_rti_uncaught, fun replays s1 => ⟨fun made enabled => ?made, fun e caught => ?caught,
      fun e trapped => ?trapped⟩⟩
  case pc => simp [r, State.pcOf]
  case pcx => simp [r]
  case regs => simp [r]
  case others =>
    intro u other
    exact (State.th_returnFromInterrupt_of_ne _ _ other).trans (State.th_modTh_of_ne other)
  case tr => simp [r]
  case mm => simp [r]
  case background =>
    intro background
    simp [r, State.ct_returnFromInterrupt, State.tstate_returnFromInterrupt, background]
  case interrupt =>
    intro level
    obtain ⟨dirty, priv, status⟩ :=
      State.returnFromInterrupt_interrupt ((s.istat_advanced t).trans level) (s.pcOf t + 4#32)
    refine ⟨dirty, ?_, ?_, ?_⟩
    · rwa [State.pToggle_advanced, State.priv_advanced] at priv
    · rwa [State.status_advanced] at status
    · simp [r, State.tstate_returnFromInterrupt, level]
  case made =>
    obtain ⟨marker, interruptMarker⟩ := s1.endReplay_clears t
    exact ⟨exec_rti_replayed replays (replayNow_ok made enabled), marker, interruptMarker⟩
  case caught => exact exec_rti_late replays (replayNow_late caught)
  case trapped => exact exec_rti_late replays (replayNow_exc trapped)

end Sys2Proof.Machine
end

section
/-! PROOFS. Repeating forms: one iteration, the count in TXRPT, and the repeating branch (42_control_flow.md R535). -/

namespace Sys2Proof.Machine

/-! ### An instruction as its one iteration -/

section
variable {i : Instr} {s s1 : State} {e : Exc} {pc : Word}

/-- An instruction that is not one issue of its iteration stops in that iteration, with nothing of it done. -/
theorem iteration_of_not_onceIssued (single : i.isRepeat = false) (other : onceIssued i ≠ true) :
    ∃ why, (∀ e, why ≠ .late e) ∧ ∀ pc s, (iteration i).2 pc s = .error why s := by
  cases i with
  | memToMem => exact ⟨.refused .memoryToMemoryTransfer, fun _ => Stop.noConfusion, fun _ _ => rfl⟩
  | xfr => exact ⟨.refused .xfr, fun _ => Stop.noConfusion, fun _ _ => rfl⟩
  | hardwareLoop => exact ⟨.refused .hardwareLoop, fun _ => Stop.noConfusion, fun _ _ => rfl⟩
  | switch c trap => exact ⟨.exc .switch, fun _ => Stop.noConfusion, fun _ _ => rfl⟩
  | repeatForm i => cases single
  | _ => exact absurd rfl other

/-- The instruction whose iteration ends runs as that iteration. -/
theorem exec_iteration_ok (single : i.isRepeat = false) (runs : s.runs (instrCond i))
    (one : (iteration i).2 (s.pcOf s.cur) s.advanced = .ok () s1) : exec i s = .next (s1.complete s.cur) := by
  rw [← iteration_cond] at runs
  by_cases once : onceIssued i = true
  · exact (exec_once once s).trans (issue_ok runs one)
  · obtain ⟨why, -, stops⟩ := iteration_of_not_onceIssued single once
    cases (stops _ _).symm.trans one

/-- As `exec_iteration_ok`, of an iteration that is caught with the rest of it done. -/
theorem exec_iteration_late (single : i.isRepeat = false) (runs : s.runs (instrCond i))
    (one : (iteration i).2 (s.pcOf s.cur) s.advanced = .error (.late e) s1) :
    exec i s = .next ((s1.retire s.cur).takeException s.cur e) := by
  rw [← iteration_cond] at runs
  by_cases once : onceIssued i = true
  · exact (exec_once once s).trans (issue_late runs one)
  · obtain ⟨why, early, stops⟩ := iteration_of_not_onceIssued single once
    cases (stops _ _).symm.trans one
    exact absurd rfl (early e)

/-! ### The count -/

/-- An iteration of the instruction is done and TXRPT asks for another. -/
def State.repeats (s : State) (t : Tid) (i : Instr) : Prop :=
  (s.th t).ct.txrpt ≠ 0#32 ∧ (isMultiple i = false ∨ s.lsmStep t = 0#3)

/-- TXRPT counted down, PC at the repeating form. -/
def State.countedDown (s : State) (t : Tid) (pc : Word) : State :=
  (s.modCt t fun c => { c with txrpt := c.txrpt - 1#32 }).setPc t pc

theorem State.repAdvance_of_repeats {t : Tid} (stays : s.repeats t i) : s.repAdvance t (isMultiple i) pc = s.countedDown t pc := by
  obtain ⟨count, done⟩ := stays
  refine if_neg (not_or.mpr ⟨count, ?_⟩)
  rcases done with done | done <;> simp [done]

theorem State.repAdvance_of_not_repeats {t : Tid} (ends : ¬ s.repeats t i) : s.repAdvance t (isMultiple i) pc = s := by
  refine if_pos ?_
  by_cases count : (s.th t).ct.txrpt = 0#32
  · exact .inl count
  · simpa [State.repeats, count] using ends

/-! ### One issue of a repeating form -/

theorem afterwards_exc {x rest : M Unit} (stopped : x s = .error (.exc e) s1) : afterwards x rest s = .error (.exc e) s1 := by
  unfold afterwards; rw [stopped]

/-- A repeating form other than a branch makes one iteration, then counts, also where a transfer of it is caught. -/
theorem repBody_run (plain : ∀ c imm, i ≠ .bcc c imm) :
    repBody i pc s = afterwards ((iteration i).2 pc) (update fun x => x.repAdvance s.cur (isMultiple i) pc) s := by
  unfold repBody
  rw [me_bind]
  split
  · exact absurd rfl (plain _ _)
  · rfl

section
variable (plain : ∀ c imm, i ≠ .bcc c imm) (runs : s.runs (instrCond i))
include plain runs

theorem exec_repeatForm_ok (one : (iteration i).2 (s.pcOf s.cur) s.advanced = .ok () s1) :
    exec (.repeatForm i) s = .next ((s1.repAdvance s.cur (isMultiple i) (s.pcOf s.cur)).complete s.cur) :=
  issue_ok (iteration_cond i ▸ runs) ((repBody_run plain).trans (afterwards_ok one))

theorem exec_repeatForm_late (one : (iteration i).2 (s.pcOf s.cur) s.advanced = .error (.late e) s1) :
    exec (.repeatForm i) s = .next (((s1.repAdvance s.cur (isMultiple i) (s.pcOf s.cur)).retire s.cur).takeException s.cur e) :=
  issue_late (iteration_cond i ▸ runs) ((repBody_run plain).trans (afterwards_late one))

theorem exec_repeatForm_exc (one : (iteration i).2 (s.pcOf s.cur) s.advanced = .error (.exc e) s1) :
    exec (.repeatForm i) s = .next (s.takeException s.cur e) :=
  issue_exc (iteration_cond i ▸ runs) ((repBody_run plain).trans (afterwards_exc one))

end

/-- A repeating branch counts or falls through. -/
theorem exec_repeatForm_bcc {c : Cond} {imm : BitVec 19} (runs : s.runs c) : exec (.repeatForm (.bcc c imm)) s =
    .next ((s.advanced.repBranch s.cur (branchTarget (s.pcOf s.cur) imm)).complete s.cur) := issue_ok runs rfl

theorem State.repBranch_of_zero {t : Tid} {target : Word} (zero : (s.th t).ct.txrpt = 0#32) : s.repBranch t target = s := if_pos zero

theorem State.repBranch_of_ne {t : Tid} {target : Word} (count : (s.th t).ct.txrpt ≠ 0#32) :
    s.repBranch t target = (s.modCt t fun c => { c with txrpt := c.txrpt - 1#32 }).jump t target := if_neg count

end

/-- Settles O44: the issue is the iteration and `repAdvance` after it, whose two cases are `State.repeats` and its negation; a branch is
`repBranch`. -/
theorem repeatsComplete : Obligations.RepeatsComplete := by
  intro s s1 i single runs t pc one stays s2
  have again (stay : stays) : s1.repAdvance t (isMultiple i) pc = s2 := State.repAdvance_of_repeats stay
  have onward (leave : ¬ stays) : s1.repAdvance t (isMultiple i) pc = s1 := State.repAdvance_of_not_repeats leave
  refine ⟨fun c imm branch => ?branch, fun plain => ⟨fun ended => ?ended, fun e caught => ?caught, fun e trapped => ?trapped⟩⟩
  case branch =>
    subst branch
    have issued := exec_repeatForm_bcc (imm := imm) runs
    rw [← branchTarget_eq]
    refine ⟨fun zero => ?_, fun count => ?_⟩
    · rwa [State.repBranch_of_zero (by rwa [State.ct_advanced])] at issued
    · rwa [State.repBranch_of_ne (by rwa [State.ct_advanced])] at issued
  case ended =>
    have issued := exec_repeatForm_ok plain runs ended
    exact ⟨exec_iteration_ok single runs ended, fun stay => again stay ▸ issued, fun leave => onward leave ▸ issued⟩
  case caught =>
    have issued := exec_repeatForm_late plain runs caught
    exact ⟨exec_iteration_late single runs caught, fun stay => again stay ▸ issued, fun leave => onward leave ▸ issued⟩
  case trapped => exact exec_repeatForm_exc plain runs trapped

end Sys2Proof.Machine
end

section
/-! PROOFS. The locks: taking, waiting, releasing, and who may step (43_sync_system.md R560 to R563). -/

namespace Sys2Proof.Machine

/-! ### Owners of a lock -/

section
variable {o : Option Tid} {t : Tid}

theorem freeFor_iff : freeFor o t = true ↔ o = none ∨ o = some t := by simp [freeFor]

theorem freeFor_eq_false_iff : freeFor o t = false ↔ ¬ (o = none ∨ o = some t) := by
  rw [← freeFor_iff, Bool.not_eq_true]

theorem giveUp_of_free (free : o = none ∨ o = some t) : giveUp o t = none := by
  rcases free with rfl | rfl <;> simp [giveUp]

theorem giveUp_of_ne (other : o ≠ some t) : giveUp o t = o := if_neg other

theorem giveUp_ne : giveUp o t ≠ some t := fun held => (giveUp_eq_some.mp held).2 rfl

end

/-! ### LOCK0, LOCK1 and LOCK2 -/

section
variable {s : State}

/-- What a lock instruction does after the check of its privilege. -/
theorem lockCheck_allowed {rest : Tid → M Unit} (allowed : s.privExt s.cur 14 = false ∨ s.priv s.cur = true) :
    (me >>= fun t => lockCheck t >>= fun _ => rest t) s.advanced = rest s.cur s.advanced := by
  have passes : (s.privExt s.cur 14 && !s.priv s.cur) = false := by rcases allowed with h | h <;> simp [h]
  have checked : lockCheck s.cur s.advanced = .ok () s.advanced := by
    unfold lockCheck
    rw [view_bind, State.privExt_advanced, State.priv_advanced, passes]
    rfl
  exact (me_bind _ _).trans (M.bind_ok checked)

theorem lockCheck_forbidden {rest : Tid → M Unit} (guarded : s.privExt s.cur 14 = true) (unpriv : s.priv s.cur = false) :
    (me >>= fun t => lockCheck t >>= fun _ => rest t) s.advanced = .error (.exc .privilegeViolation) s.advanced := by
  have checked : lockCheck s.cur s.advanced = .error (.exc .privilegeViolation) s.advanced := by
    unfold lockCheck
    rw [view_bind, State.privExt_advanced, State.priv_advanced, guarded, unpriv]
    rfl
  exact (me_bind _ _).trans (M.bind_error checked)

theorem exec_lock_forbidden {i : Instr} (lock : i ∈ [Instr.lock0, .lock1, .lock2]) (guarded : s.privExt s.cur 14 = true)
    (unpriv : s.priv s.cur = false) : exec i s = .next (s.takeException s.cur .privilegeViolation) := by
  simp only [List.mem_cons, List.not_mem_nil, or_false] at lock
  rcases lock with rfl | rfl | rfl <;>
    exact (exec_once rfl s).trans (issue_exc s.runs_al (lockCheck_forbidden guarded unpriv))

section
variable (allowed : s.privExt s.cur 14 = false ∨ s.priv s.cur = true)
include allowed

theorem exec_lock0 : exec .lock0 s = .next ((s.advanced.modShared fun x =>
    { x with lock1 := giveUp x.lock1 s.cur, lock2 := giveUp x.lock2 s.cur }).complete s.cur) :=
  issue_ok s.runs_al (lockCheck_allowed allowed)

theorem exec_lock1_taken (free : freeFor s.shared.lock1 s.cur = true) : exec .lock1 s = .next ((s.advanced.modShared fun x =>
    { x with lock1 := some s.cur, lock2 := giveUp x.lock2 s.cur }).complete s.cur) := by
  refine issue_ok (body := lock1Body) s.runs_al ((lockCheck_allowed allowed).trans ?_)
  rw [view_bind, State.shared_advanced, free]
  rfl

theorem exec_lock1_waits (held : freeFor s.shared.lock1 s.cur = false) : exec .lock1 s = .next (s.blocked s.cur) := by
  refine issue_block (body := lock1Body) (s' := s.advanced) s.runs_al ((lockCheck_allowed allowed).trans ?_)
  rw [view_bind, State.shared_advanced, held]
  rfl

theorem exec_lock2_taken (free : (freeFor s.shared.lock1 s.cur && freeFor s.shared.lock2 s.cur) = true) :
    exec .lock2 s = .next ((s.advanced.modShared fun x => { x with lock1 := some s.cur, lock2 := some s.cur }).complete s.cur) := by
  refine issue_ok (body := lock2Body) s.runs_al ((lockCheck_allowed allowed).trans ?_)
  rw [view_bind, State.shared_advanced, free]
  rfl

theorem exec_lock2_waits (held : (freeFor s.shared.lock1 s.cur && freeFor s.shared.lock2 s.cur) = false) :
    exec .lock2 s = .next (s.blocked s.cur) := by
  refine issue_block (body := lock2Body) (s' := s.advanced) s.runs_al ((lockCheck_allowed allowed).trans ?_)
  rw [view_bind, State.shared_advanced, held]
  rfl

end

/-! ### Who may step -/

theorem State.eligible_iff (s : State) (u : Tid) : s.eligible u = true ↔ s.present u = true ∧ (s.th u).h.tstate ≠ .off ∧
    (s.shared.lock2 = none ∨ s.shared.lock2 = some u) ∧ (s.shared.atomicOwner = none ∨ s.shared.atomicOwner = some u) := by
  simp only [State.eligible, Bool.and_eq_true, bne_iff_ne, freeFor_iff, and_assoc]

/-- While a thread holds LOCK2 no other may step. -/
theorem State.eligible_of_lock2 {u v : Tid} (held : s.shared.lock2 = some u) (other : v ≠ u) : s.eligible v = false := by
  have taken : ¬ (s.shared.lock2 = none ∨ s.shared.lock2 = some v) := by simp [held, other.symm]
  refine Bool.eq_false_iff.mpr fun may => taken ?_
  obtain ⟨-, -, free, -⟩ := (s.eligible_iff v).mp may
  exact free

end

/-- Settles O45: after the check of its privilege each lock instruction turns on who owns the locks, and so does what may step. -/
theorem locksTakenAndReleased : Obligations.LocksTakenAndReleased := by
  intro s t mine rel s0
  refine ⟨fun allowed => ⟨exec_lock0 allowed, fun free => exec_lock1_taken allowed (freeFor_iff.mpr free), fun held =>
    exec_lock1_waits allowed (freeFor_eq_false_iff.mpr held), ?taken, ?waits⟩, fun guarded unpriv i lock =>
    exec_lock_forbidden lock guarded unpriv, ?unheld, giveUp_ne, giveUp_ne, ?released, fun u v held other =>
    State.eligible_of_lock2 held other⟩
  case taken =>
    intro free1 free2
    exact exec_lock2_taken allowed (Bool.and_eq_true_iff.mpr ⟨freeFor_iff.mpr free1, freeFor_iff.mpr free2⟩)
  case waits =>
    intro held
    refine exec_lock2_waits allowed (Bool.eq_false_iff.mpr fun free => held ?_)
    obtain ⟨free1, free2⟩ := Bool.and_eq_true_iff.mp free
    exact ⟨freeFor_iff.mp free1, freeFor_iff.mp free2⟩
  case unheld =>
    intro none1 none2
    have same1 : rel s.shared.lock1 = s.shared.lock1 := giveUp_of_ne none1
    have same2 : rel s.shared.lock2 = s.shared.lock2 := giveUp_of_ne none2
    show { s.shared with lock1 := rel s.shared.lock1, lock2 := rel s.shared.lock2 } = s.shared
    rw [same1, same2]
  case released =>
    intro free unowned u present on
    have tstate : (s0.th u).h = (s.th u).h := State.h_advanced s u
    exact (s0.eligible_iff u).mpr ⟨present, tstate ▸ on, .inl (giveUp_of_free free), .inl unowned⟩

end Sys2Proof.Machine
end

section
/-! PROOFS. Linked reads and writes (43_sync_system.md R566 to R569). -/

namespace Sys2Proof.Machine

/-! ### The access -/

section
variable {s : State} {t : Tid} {la : Word} {n : Nat}

theorem State.flushOverlap_of_apart (apart : ByteBuf.overlaps (s.th t).h.wc la.toNat n = false) : s.flushOverlap t la n = s := by
  unfold State.flushOverlap
  rw [apart, if_neg (by decide)]

theorem linkedRead_bypass (unwatched : s.unwatched t la none) (bypass : s.inBypass t la n) :
    linkedRead (s.accOf t) la n s = .ok (.ok (Memory.readN s.env.phys la.toNat n))
      (s.modH t fun h => { h with mon := some ⟨la, n, false⟩, link := true }) := by
  obtain ⟨aligned, region, mode, backed, -, apart⟩ := bypass
  have drained : s.flushOverlap (s.accOf t).tid la n = s := State.flushOverlap_of_apart apart
  unfold linkedRead
  rw [view_bind, aligned_ok aligned]
  dsimp only
  rw [M.bind_ok (watch_none unwatched), if_neg (by decide), M.bind_ok (linkedAttr_bypass rfl region mode)]
  dsimp only
  rw [update_bind, drained, M.bind_ok (physRead_backed backed)]
  rfl

/-- What the bus answers to a linked write of memory that it does not fail by itself. -/
theorem State.linkedStore_backed {x : Attr} {v : DWord} (backed : s.backed x.pa n = true) (plain : x.exm = false) :
    s.linkedStore t x n v false = if s.monitorHolds t x.pa then
      ((s.modH t fun h => { h with mon := none }).physStore x.pa n v).oweToken ⟨t, false, 2#6, true⟩
    else (s.modH t fun h => { h with mon := none }).oweToken ⟨t, false, 4#6, true⟩ := by
  have backed1 : (s.modH t fun h => { h with mon := none }).backed x.pa n = true := backed
  simp [State.linkedStore, backed1, plain, State.emitIf]

theorem linkedWrite_bypass {v : DWord} (unwatched : s.unwatched t la (some (n, v))) (bypass : s.inBypass t la n)
    (faithful : s.cfg.lnkSpuriousFail = false) :
    linkedWrite (s.accOf t) la n v s = .ok (.ok ()) (if s.monitorHolds t la then
      ((s.modH t fun h => { h with mon := none }).physStore la n v).oweToken ⟨t, false, 2#6, true⟩
    else (s.modH t fun h => { h with mon := none }).oweToken ⟨t, false, 4#6, true⟩) := by
  obtain ⟨aligned, region, mode, backed, -, apart⟩ := bypass
  have drained : s.flushOverlap (s.accOf t).tid la n = s := State.flushOverlap_of_apart apart
  unfold linkedWrite
  rw [view_bind, aligned_ok aligned]
  dsimp only
  rw [M.bind_ok (watch_none unwatched), if_neg (by decide), M.bind_ok (linkedAttr_bypass rfl region mode)]
  dsimp only
  rw [update_bind, drained, view_bind, faithful, if_neg (by decide), update_bind,
    State.linkedStore_backed backed rfl, M.pure_run]
  rfl

end

/-! ### LNKGETD and LNKGETL -/

section
variable {s s1 : State} {v : DWord}

theorem linkedLoad_ok {t : Tid} {w : Width} {la : Word} {num : BitVec 5} {units : BitVec 11} {first : Bool}
    (read : linkedRead (s.accOf t) la (widthBytes w) s = .ok (.ok v) s1) :
    linkedLoad t w la num units first s = .ok v s1 := M.bind_ok read

theorem exec_lnkgetd {d b : Reg} (usable : s.operandsOk [wr d, rd b])
    (read : linkedRead (s.accOf s.cur) (s.reg s.cur b) 4 s.advanced = .ok (.ok v) s1) :
    exec (.lnkgetd d b) s = .next ((s1.setReg s.cur d (loWord v)).complete s.cur) := by
  rw [← State.accOf_advanced] at read
  refine (exec_once rfl s).trans (issue_ok s.runs_al ?_)
  refine (me_bind _ _).trans (usable.bind.trans ?_)
  rw [view_bind, State.reg_advanced]
  exact M.bind_ok (linkedLoad_ok read)

theorem exec_lnkgetl {ra rb b : Reg} (usable : s.operandsOk [wr ra, wr rb, rd b])
    (read : linkedRead (s.accOf s.cur) (s.reg s.cur b) 8 s.advanced = .ok (.ok v) s1) :
    exec (.lnkgetl ra rb b) s =
      .next (((s1.setReg s.cur ra (loWord v)).setReg s.cur rb (hiWord v)).complete s.cur) := by
  rw [← State.accOf_advanced] at read
  refine (exec_once rfl s).trans (issue_ok s.runs_al ?_)
  refine (me_bind _ _).trans (usable.bind.trans ?_)
  rw [view_bind, State.reg_advanced]
  exact M.bind_ok (linkedLoad_ok read)

end

/-- Settles O47: each form is its linked read and the registers written after it; in bypass mode nothing stands between the read and memory. -/
theorem linkedReadsComplete : Obligations.LinkedReadsComplete := fun _ =>
  ⟨fun _ _ _ _ usable read => exec_lnkgetd usable read, fun _ _ _ _ _ usable read => exec_lnkgetl usable read,
    fun _ _ _ _ unwatched bypass => linkedRead_bypass unwatched bypass⟩

/-! ### LNKSETD and LNKSETL -/

section
variable {s s1 : State} {t : Tid} {w : Width} {la : Word} {v : DWord}

/-- Without LINK the bus is not asked. -/
theorem linkedPut_unlinked (unlinked : (s.th t).h.link = false) : linkedPut t w la v s =
    .ok () ((s.modH t fun h => { h with link := false }).recordTok ⟨t, false, 4#6, false⟩) := by
  unfold linkedPut
  rw [view_bind, view_bind, unlinked]
  rfl

theorem linkedPut_linked (linked : (s.th t).h.link = true)
    (written : linkedWrite (s.accOf t) la (widthBytes w) v (s.modH t fun h => { h with link := false }) = .ok (.ok ()) s1) :
    linkedPut t w la v s = .ok () s1 := by
  unfold linkedPut
  rw [view_bind, view_bind, linked, update_bind, if_pos rfl, M.bind_ok written]
  rfl

end

section
variable {s s1 : State} {c : Cond} {b : Reg} (runs : s.runs c)
include runs

/-- A linked write is its `linkedPut` of the register or the pair. -/
theorem exec_lnksetd {r : Reg} (usable : s.operandsOk [rd b, rd r])
    (put : linkedPut s.cur .dword (s.reg s.cur b) ((s.reg s.cur r).setWidth 64) s.advanced = .ok () s1) :
    exec (.lnksetd c b r) s = .next (s1.complete s.cur) := by
  refine (exec_once rfl s).trans (issue_ok runs ?_)
  refine (me_bind _ _).trans (usable.bind.trans ?_)
  rw [view_bind, view_bind, State.reg_advanced, State.reg_advanced]
  exact put

theorem exec_lnksetl {ra rb : Reg} (usable : s.operandsOk [rd b, rd ra, rd rb])
    (put : linkedPut s.cur .lword (s.reg s.cur b) (s.reg s.cur rb ++ s.reg s.cur ra) s.advanced = .ok () s1) :
    exec (.lnksetl c b ra rb) s = .next (s1.complete s.cur) := by
  refine (exec_once rfl s).trans (issue_ok runs ?_)
  refine (me_bind _ _).trans (usable.bind.trans ?_)
  rw [view_bind, view_bind, State.reg_advanced, State.reg_advanced, State.reg_advanced]
  exact put

end

/-- Settles O48: a linked write is `linkedPut`, which asks LINK first and the bus after it; in bypass mode the bus answers by the monitor. -/
theorem linkedWritesComplete : Obligations.LinkedWritesComplete := by
  intro s c b r runs t s0 done
  have link : (s.advanced.th t).h.link = (s.th t).h.link := congrArg Hidden.link (State.h_advanced s t)
  have acc : s.advanced.accOf t = s.accOf t := State.accOf_advanced s t
  have unlinked (off : (s.th t).h.link = false) (w : Width) (la : Word) (v : DWord) :
      linkedPut t w la v s.advanced = .ok () (s0.recordTok ⟨t, false, 4#6, false⟩) := linkedPut_unlinked (link.trans off)
  have linked (on : (s.th t).h.link = true) {w : Width} {la : Word} {v : DWord} {s1 : State}
      (written : linkedWrite (s.accOf t) la (widthBytes w) v s0 = .ok (.ok ()) s1) :
      linkedPut t w la v s.advanced = .ok () s1 := linkedPut_linked (link.trans on) (acc ▸ written)
  refine ⟨fun off usable => exec_lnksetd runs usable (unlinked off _ _ _), fun on s1 written usable =>
    exec_lnksetd runs usable (linked on written), fun ra rb usable => ⟨fun off => exec_lnksetl runs usable (unlinked off _ _ _),
    fun on s1 written => exec_lnksetl runs usable (linked on written)⟩, fun x la n v _ unwatched bypass faithful => ?_⟩
  have answered := linkedWrite_bypass unwatched bypass faithful
  exact ⟨fun holds => by rwa [holds] at answered, fun lost => by rwa [lost] at answered⟩

end Sys2Proof.Machine
end

section
/-! PROOFS. DEFR (43_sync_system.md R571): the deferred reasons it returns and clears, and its wait for the linked answers. -/

namespace Sys2Proof.Machine

/-! ### The reasons of a level -/

section
variable {e : Word} {l : Level}

theorem mem_deferredReasons_iff {r : Nat} : r ∈ deferredReasons ↔ r = 23 ∨ (16 ≤ r ∧ r ≤ 21) := by
  simp only [deferredReasons, List.mem_cons, List.not_mem_nil, or_false]
  omega

theorem deferredRaw_eq_false_iff : deferredRaw e l = false ↔ ∀ r ∈ deferredReasons, reasonAt e r l = false := by
  simp only [deferredRaw, List.any_eq_false, Bool.not_eq_true]

/-- The floating point reasons of a level as one field, in the order of their bits. -/
def fpField (e : Word) (l : Level) : BitVec 6 :=
  b1 (reasonAt e 21 l) ++ b1 (reasonAt e 20 l) ++ b1 (reasonAt e 19 l) ++ b1 (reasonAt e 18 l) ++ b1 (reasonAt e 17 l) ++
    b1 (reasonAt e 16 l)

theorem fpReasons_eq (e : Word) (l : Level) : fpReasons e l = (fpField e l).setWidth 32 <<< 16 := rfl

theorem bitOf_append_b1 {n : Nat} (v : BitVec n) (b : Bool) (i : Nat) : bitOf (v ++ b1 b) i = if i = 0 then b else bitOf v (i - 1) := by
  by_cases zero : i = 0
  · rw [if_pos zero, zero, bitOf_append_low Nat.one_pos, bitOf_b1]
  · rw [if_neg zero, bitOf_append_high (Nat.one_le_iff_ne_zero.mpr zero)]

theorem bitOf_fpField {i : Nat} (small : i < 6) : bitOf (fpField e l) i = reasonAt e (16 + i) l := by
  unfold fpField
  interval_cases i <;> simp [bitOf_append_b1, bitOf_b1]

/-- The floating point reasons of a level stand at their own bits. -/
theorem bitOf_fpReasons (e : Word) (l : Level) (k : Nat) :
    bitOf (fpReasons e l) k = (decide (16 ≤ k ∧ k ≤ 21) && reasonAt e k l) := by
  have shifted : bitOf (fpReasons e l) k = (decide (k < 32) && !decide (k < 16) && bitOf (fpField e l) (k - 16)) := by
    simp only [fpReasons_eq, bitOf, BitVec.getLsbD_shiftLeft, BitVec.getLsbD_setWidth]
    by_cases word : k < 32
    · simp [word, Nat.lt_of_le_of_lt (Nat.sub_le k 16) word]
    · simp [word]
  rw [shifted]
  by_cases inside : 16 ≤ k ∧ k ≤ 21
  · have field : bitOf (fpField e l) (k - 16) = reasonAt e k l := by
      rw [bitOf_fpField (by omega), Nat.add_sub_cancel' inside.1]
    simp [inside, field, Nat.lt_of_le_of_lt inside.2 (show 21 < 32 by decide)]
  · by_cases low : k < 16
    · simp [inside, low]
    · have above : bitOf (fpField e l) (k - 16) = false := BitVec.getLsbD_of_ge _ _ (by omega)
      simp [inside, above]

/-- Without a bus error the reasons of a level are those of floating point. -/
theorem fpReasons_eq_zero_iff (noBus : reasonAt e 23 l = false) : fpReasons e l = 0#32 ↔ deferredRaw e l = false := by
  rw [deferredRaw_eq_false_iff]
  constructor
  · intro zero r listed
    rcases mem_deferredReasons_iff.mp listed with rfl | inside
    · exact noBus
    · have bit := bitOf_fpReasons e l r
      rw [zero, decide_eq_true inside, Bool.true_and] at bit
      rw [← bit]
      exact BitVec.getLsbD_zero
  · intro unset
    refine BitVec.eq_of_getLsbD_eq fun k _ => (bitOf_fpReasons e l k).trans ?_
    by_cases inside : 16 ≤ k ∧ k ≤ 21
    · simp [unset k (mem_deferredReasons_iff.mpr (.inr inside))]
    · simp [inside]

/-! ### The value returned -/

theorem deferredValue_bus (bus : reasonAt e 23 l = true) : deferredValue e l = (e &&& 0xFF000000#32) ||| 0x00800008#32 := if_pos bus

theorem deferredValue_fp (noBus : reasonAt e 23 l = false) :
    deferredValue e l = if deferredRaw e l then fpReasons e l ||| 8#32 else 0#32 := by
  unfold deferredValue
  rw [if_neg (Bool.not_eq_true _ ▸ noBus)]
  cases raw : deferredRaw e l with
  | false => exact if_pos ((fpReasons_eq_zero_iff noBus).mpr raw)
  | true => exact if_neg fun zero => Bool.noConfusion (raw.symm.trans ((fpReasons_eq_zero_iff noBus).mp zero))

theorem bitOf_eight (k : Nat) : bitOf (8#32) k = decide (k = 3) := by
  have low : ∀ k < 32, bitOf (8#32) k = decide (k = 3) := by decide
  by_cases word : k < 32
  · exact low k word
  · exact (BitVec.getLsbD_of_ge _ _ (Nat.le_of_not_lt word)).trans (decide_eq_false (by omega)).symm

theorem bitOf_deferredValue_fp (noBus : reasonAt e 23 l = false) (k : Nat) : bitOf (deferredValue e l) k =
    if k = 3 then deferredRaw e l else decide (16 ≤ k ∧ k ≤ 21) && reasonAt e k l := by
  rw [deferredValue_fp noBus]
  cases raw : deferredRaw e l with
  | false =>
    have unset := deferredRaw_eq_false_iff.mp raw
    have zero : bitOf (0#32) k = false := BitVec.getLsbD_zero
    rw [if_neg (by decide), zero]
    by_cases inside : 16 ≤ k ∧ k ≤ 21
    · simp [unset k (mem_deferredReasons_iff.mpr (.inr inside))]
    · simp [inside]
  | true =>
    have split : bitOf (fpReasons e l ||| 8#32) k = (bitOf (fpReasons e l) k || bitOf (8#32) k) := BitVec.getLsbD_or
    rw [if_pos rfl, split, bitOf_fpReasons, bitOf_eight]
    by_cases low : k = 3 <;> simp [low]

/-! ### The reasons cleared -/

/-- A returned bus error goes with its state, and the floating point reasons stay. -/
theorem deferredCleared_bus (bus : reasonAt e 23 l = true) : deferredCleared e l = e &&& 0x007FFFFF#32 := by
  obtain ⟨-, routed⟩ := Bool.and_eq_true_iff.mp bus
  have named : ∀ i < 32, bitOf 0x00800000#32 (min i 23) = decide (min i 23 = 23) ∧
      bitOf 0x007FFFFF#32 i = !decide (min i 23 = 23) := by decide
  have cleared : deferredCleared e l = clearReasons e 0x00800000#32 l := by rw [deferredCleared, if_pos bus]
  rw [cleared]
  refine BitVec.eq_of_getLsbD_eq fun i hi => (bitOf_clearReasons e _ l hi).trans (Eq.trans ?_ (bitOf_and e _ i).symm)
  obtain ⟨bit, kept⟩ := named i hi
  rw [bit, kept]
  by_cases own : min i 23 = 23
  · simp [own, routed, deferredReasons]
  · simp [own]

/-- Without a bus error the floating point reasons routed to the level go. -/
theorem bitOf_deferredCleared_fp (noBus : reasonAt e 23 l = false) (k : Nat) :
    bitOf (deferredCleared e l) k = (bitOf e k && !(decide (16 ≤ k ∧ k ≤ 21) && routedTo e k l)) := by
  have named : ∀ i < 32, (bitOf 0x003F0000#32 (min i 23) && decide (min i 23 ∈ deferredReasons)) = decide (16 ≤ i ∧ i ≤ 21) := by decide
  have cleared : deferredCleared e l = clearReasons e 0x003F0000#32 l := by rw [deferredCleared, if_neg (Bool.not_eq_true _ ▸ noBus)]
  by_cases word : k < 32
  · rw [cleared, bitOf_clearReasons e _ l word, Bool.and_right_comm, named k word]
    by_cases inside : 16 ≤ k ∧ k ≤ 21
    · rw [Nat.min_eq_left (show k ≤ 23 by omega)]
    · simp [inside]
  · have above (w : Word) : bitOf w k = false := BitVec.getLsbD_of_ge _ _ (Nat.le_of_not_lt word)
    rw [above, above, Bool.false_and]

/-- A level with no reason has none to return or clear. -/
theorem deferred_of_none (raw : deferredRaw e l = false) : deferredValue e l = 0#32 ∧ deferredCleared e l = e := by
  have unset := deferredRaw_eq_false_iff.mp raw
  have noBus : reasonAt e 23 l = false := unset 23 (by decide)
  refine ⟨by rw [deferredValue_fp noBus, raw]; rfl, BitVec.eq_of_getLsbD_eq fun k _ => (bitOf_deferredCleared_fp noBus k).trans ?_⟩
  by_cases inside : 16 ≤ k ∧ k ≤ 21
  · have clear : (bitOf e k && routedTo e k l) = false := unset k (mem_deferredReasons_iff.mpr (.inr inside))
    rw [decide_eq_true inside, Bool.true_and]
    show _ = bitOf e k
    cases set : bitOf e k with
    | false => rfl
    | true =>
      rw [set, Bool.true_and] at clear
      rw [clear]
      rfl
  · simp [inside, bitOf]

end

/-! ### The instructions -/

/-- The registers the body of a DEFR checks: the interrupt forms name TXSTATI or TXPOLLI, which ask for privilege. -/
def defrUses (l : Level) (wait : Bool) (d : Reg) : List Use :=
  wr d :: (if l = .interrupt then [rd ⟨.tr, if wait then 2#5 else 6#5⟩] else [])

/-- Each DEFR is one issue of the body of its level and form, which checks the registers the instruction names. -/
theorem exec_defr {i : Reg → Instr} {l : Level} {wait : Bool}
    (form : (i, l, wait) ∈ [(Instr.defrTxstat, Level.background, true), (.defrTxpoll, .background, false),
      (.defrTxstati, .interrupt, true), (.defrTxpolli, .interrupt, false)]) (d : Reg) (s : State) :
    exec (i d) s = issue .al (fun _ => defrBody l wait d) s ∧ instrUses (i d) = defrUses l wait d := by
  simp only [List.mem_cons, List.not_mem_nil, or_false, Prod.mk.injEq] at form
  rcases form with ⟨rfl, rfl, rfl⟩ | ⟨rfl, rfl, rfl⟩ | ⟨rfl, rfl, rfl⟩ | ⟨rfl, rfl, rfl⟩ <;> exact ⟨rfl, rfl⟩

section
variable {s : State} {l : Level} {d : Reg}

theorem defrBody_waits (usable : s.operandsOk (defrUses l true d))
    (owed : s.pendingLnk s.cur ≠ 0) : defrBody l true d s.advanced = .error .block s.advanced := by
  have pending : (true && s.pendingLnk s.cur != 0) = true := bne_iff_ne.mpr owed
  refine (me_bind _ _).trans (usable.bind.trans ?_)
  rw [view_bind, State.cur_advanced, State.pendingLnk_advanced, pending]
  rfl

theorem defrBody_clears (usable : s.operandsOk (defrUses l true d))
    (settled : s.pendingLnk s.cur = 0) : defrBody l true d s.advanced = .ok () ((s.advanced.modCt s.cur fun c =>
      { c with txdefr := deferredCleared (s.th s.cur).ct.txdefr l }).setReg s.cur d (deferredValue (s.th s.cur).ct.txdefr l)) := by
  have pending : (true && s.pendingLnk s.cur != 0) = false := by simp [settled]
  have cleared : (s.advanced.modCt s.cur fun c => { c with txdefr := deferredCleared c.txdefr l }) =
      s.advanced.modCt s.cur fun c => { c with txdefr := deferredCleared (s.th s.cur).ct.txdefr l } :=
    State.modTh_congr (by rw [State.ct_advanced])
  refine (me_bind _ _).trans (usable.bind.trans ?_)
  rw [view_bind, State.cur_advanced, State.pendingLnk_advanced, pending, ← cleared, ← State.ct_advanced]
  rfl

theorem defrBody_polls (usable : s.operandsOk (defrUses l false d)) :
    defrBody l false d s.advanced = .ok () (s.advanced.setReg s.cur d (deferredValue (s.th s.cur).ct.txdefr l)) := by
  refine (me_bind _ _).trans (usable.bind.trans ?_)
  rw [← State.ct_advanced]
  rfl

end

/-- Settles O49: the four forms are one body, whose wait and effects turn on `wait` and the linked answers; what it returns and clears is
told bit by bit. -/
theorem deferredReadsComplete : Obligations.DeferredReadsComplete := by
  intro s d i l wait form usable t e
  obtain ⟨issued, uses⟩ := exec_defr form d s
  rw [uses] at usable
  refine ⟨?waits, ?polls, ?clears, fun bus => ⟨deferredValue_bus bus, deferredCleared_bus bus⟩, fun noBus k =>
    ⟨bitOf_deferredValue_fp noBus k, bitOf_deferredCleared_fp noBus k⟩, deferred_of_none⟩
  case waits =>
    rintro rfl owed
    exact issued.trans (issue_block s.runs_al (defrBody_waits usable owed))
  case polls =>
    rintro rfl
    exact issued.trans (issue_ok s.runs_al (defrBody_polls usable))
  case clears =>
    rintro rfl settled
    exact issued.trans (issue_ok s.runs_al (defrBody_clears usable settled))

end Sys2Proof.Machine
end

section
/-! PROOFS. The triggers a thread sees, their priority and what a trigger read takes (60_exceptions.md R616, R621, R622, R626). -/

namespace Sys2Proof.Machine

/-! ### The raw triggers -/

theorem bitOf_or {n : Nat} (v w : BitVec n) (i : Nat) : bitOf (v ||| w) i = (bitOf v i || bitOf w i) := BitVec.getLsbD_or

/-- A reason counts at the level its ICtrl bit names. -/
theorem reasonAt_iff {d : Word} {r : Nat} {l : Level} :
    reasonAt d r l = true ↔ bitOf d r = true ∧ (bitOf d (ictrlBit r) = true ↔ l = .interrupt) := by
  have routed : routedTo d r l = true ↔ (bitOf d (ictrlBit r) = true ↔ l = .interrupt) := by
    rw [routedTo, beq_iff_eq, Bool.eq_iff_iff, beq_iff_eq]
  rw [reasonAt, Bool.and_eq_true, routed]

theorem deferredRaw_iff {d : Word} {l : Level} : deferredRaw d l = true ↔
    ∃ r ∈ deferredReasons, bitOf d r = true ∧ (bitOf d (ictrlBit r) = true ↔ l = .interrupt) := by
  rw [deferredRaw, List.any_eq_true]
  exact exists_congr fun r => and_congr_right fun _ => reasonAt_iff

/-- The timer latch of a level. -/
def State.timerOf (s : State) (t : Tid) : Level → Bool
  | .background => (s.th t).tr.timerTrig
  | .interrupt => (s.th t).tr.timerTrigI

section
variable (s : State) (t : Tid) (l : Level)

/-- The triggers a thread raises itself, bits 3:0. -/
def State.ownTriggers : BitVec 4 :=
  b1 (deferredRaw (s.th t).ct.txdefr l) ++ b1 (l == .interrupt && (s.th t).tr.haltTrig) ++ b1 (s.kickOf t l != 0#16) ++
    b1 (s.timerOf t l)

/-- The raw triggers are the hardware latches above the thread's own. -/
theorem State.rawTriggers_eq :
    s.rawTriggers t l = (s.shared.hwtrig &&& 0xFFF0#16) ||| (s.ownTriggers t l).setWidth 16 := by
  cases l <;> rfl

theorem State.bitOf_rawTriggers_hw {i : Nat} (lo : 4 ≤ i) (hi : i < 16) :
    bitOf (s.rawTriggers t l) i = bitOf s.shared.hwtrig i := by
  have latched : ∀ i < 16, 4 ≤ i → bitOf 0xFFF0#16 i = true := by decide
  have above : bitOf ((s.ownTriggers t l).setWidth 16) i = false := by
    rw [bitOf, BitVec.getLsbD_setWidth, BitVec.getLsbD_of_ge _ _ lo, Bool.and_false]
  rw [State.rawTriggers_eq, bitOf_or, bitOf_and, latched i hi lo, above, Bool.and_true, Bool.or_false]

theorem State.bitOf_rawTriggers_own {i : Nat} (hi : i < 4) :
    bitOf (s.rawTriggers t l) i = bitOf (s.ownTriggers t l) i := by
  have unlatched : ∀ i < 4, bitOf 0xFFF0#16 i = false := by decide
  have width : i < 16 := by omega
  have own : bitOf ((s.ownTriggers t l).setWidth 16) i = bitOf (s.ownTriggers t l) i := by simp [bitOf, width]
  rw [State.rawTriggers_eq, bitOf_or, bitOf_and, unlatched i hi, own, Bool.and_false, Bool.false_or]

theorem State.bitOf_rawTriggers_deferred :
    bitOf (s.rawTriggers t l) 3 = deferredRaw (s.th t).ct.txdefr l := by
  rw [State.bitOf_rawTriggers_own _ _ _ (by decide), State.ownTriggers]
  simp [bitOf_append_b1, bitOf_b1]

theorem State.bitOf_rawTriggers_halt :
    bitOf (s.rawTriggers t l) 2 = (l == .interrupt && (s.th t).tr.haltTrig) := by
  rw [State.bitOf_rawTriggers_own _ _ _ (by decide), State.ownTriggers]
  simp [bitOf_append_b1]

theorem State.bitOf_rawTriggers_kick : bitOf (s.rawTriggers t l) 1 = (s.kickOf t l != 0#16) := by
  rw [State.bitOf_rawTriggers_own _ _ _ (by decide), State.ownTriggers]
  simp [bitOf_append_b1]

theorem State.bitOf_rawTriggers_timer : bitOf (s.rawTriggers t l) 0 = s.timerOf t l := by
  rw [State.bitOf_rawTriggers_own _ _ _ (by decide), State.ownTriggers]
  simp [bitOf_append_b1]

end

/-- The background mask has no bit 2, and its others are the register's. -/
theorem State.bitOf_maskOf_background (s : State) (t : Tid) (i : Nat) :
    bitOf (s.maskOf t .background) i = (bitOf (s.th t).tr.mask i && decide (i ≠ 2)) := by
  have low : ∀ i < 16, bitOf 0xFFFB#16 i = decide (i ≠ 2) := by decide
  rw [State.maskOf, bitOf_and]
  by_cases width : i < 16
  · rw [low i width]
  · have above : bitOf (s.th t).tr.mask i = false := BitVec.getLsbD_of_ge _ _ (Nat.le_of_not_lt width)
    rw [above, Bool.false_and, Bool.false_and]

/-- Settles O56: the hardware latches and the thread's own four triggers, bit by bit, then the masks. -/
theorem triggerBits : Obligations.TriggerBits := by
  intro s t l
  refine ⟨fun i lo hi => s.bitOf_rawTriggers_hw t l lo hi, ?deferred, ?halt, ?kick, ?kicki, s.bitOf_rawTriggers_timer t .background,
    s.bitOf_rawTriggers_timer t .interrupt, rfl, ?mask2, fun i other => ?mask, fun i => bitOf_and _ _ i⟩
  case deferred => rw [State.bitOf_rawTriggers_deferred]; exact deferredRaw_iff
  case halt => rw [State.bitOf_rawTriggers_halt, Bool.and_eq_true, beq_iff_eq]
  case kick => rw [State.bitOf_rawTriggers_kick, bne_iff_ne]; rfl
  case kicki => rw [State.bitOf_rawTriggers_kick, bne_iff_ne]; rfl
  case mask2 => rw [State.bitOf_maskOf_background]; exact Bool.and_false _
  case mask => rw [State.bitOf_maskOf_background, decide_eq_true other, Bool.and_true]

/-! ### Priority -/

theorem mem_triggerPriority : ∀ i < 16, i ∈ triggerPriority := by decide

/-- A set without a highest trigger is empty: the order names every bit. -/
theorem highestTrigger_eq_none_iff {v : BitVec 16} : highestTrigger v = none ↔ v = 0#16 := by
  rw [highestTrigger, List.find?_eq_none]
  constructor
  · intro unset
    refine BitVec.eq_of_getLsbD_eq fun i hi => ?_
    rw [BitVec.getLsbD_zero]
    exact Bool.eq_false_iff.mpr (unset i (mem_triggerPriority i hi))
  · rintro rfl i -
    simp [bitOf]

/-- The highest trigger is set, and none before it in the order is. -/
theorem highestTrigger_eq_some_iff {v : BitVec 16} {i : Nat} : highestTrigger v = some i ↔
    ∃ before after, triggerPriority = before ++ i :: after ∧ bitOf v i = true ∧ ∀ j ∈ before, bitOf v j = false := by
  rw [highestTrigger, List.find?_eq_some_iff_append]
  constructor
  · rintro ⟨set, before, after, order, unset⟩
    exact ⟨before, after, order, set, by simpa using unset⟩
  · rintro ⟨before, after, order, set, unset⟩
    exact ⟨set, before, after, order, by simpa using unset⟩

/-! ### Trigger reads -/

section
variable (s : State) (t : Tid) (l : Level)

theorem State.triggerValue_low : bitsOf (s.triggerValue t l) 0 16 = s.visTriggers t l := by
  unfold State.triggerValue
  rw [bitsOf_append_low (by decide)]
  exact bitsOf_self _

/-- Above the visible triggers: the deferred status, the kick count or nothing. -/
theorem State.triggerValue_high : bitsOf (s.triggerValue t l) 16 16 =
    if highestTrigger (s.visTriggers t l) = some 3 then deferredStatus (s.th t).ct.txdefr l
    else if bitOf (s.maskOf t l) 1 then s.kickOf t l else 0#16 := by
  unfold State.triggerValue
  rw [bitsOf_append_high (by decide)]
  exact bitsOf_self _

theorem State.kickOf_takeKick : (s.takeKick t l).kickOf t l = s.kickOf t l - 1#16 := by
  cases l <;> simp [State.takeKick, State.kickOf]

theorem State.kickOf_setIrqEnc (n : Nat) : (s.setIrqEnc t n).kickOf t l = s.kickOf t l := by
  cases l <;> simp [State.setIrqEnc, State.kickOf]

theorem State.bitsOf_txdivtime_setIrqEnc (n : Nat) :
    bitsOf ((s.setIrqEnc t n).th t).ct.txdivtime 24 4 = BitVec.ofNat 4 n := by
  refine BitVec.eq_of_getLsbD_eq fun i hi => (bitOf_bitsOf _ hi).trans ?_
  have inside : 24 ≤ 24 + i ∧ 24 + i < 24 + 4 := by omega
  simp only [State.setIrqEnc, State.ct_modCt_self]
  rw [bitOf_withBits (by omega), if_pos inside, Nat.add_sub_cancel_left]
  rfl

/-- A kick taken changes the thread's triggers only. -/
theorem State.th_takeKick : (s.takeKick t l).th t = { s.th t with tr := ((s.takeKick t l).th t).tr } := by
  simp [State.takeKick, State.modTr]

/-- A passed read: the kick where kicks are the highest, then IRQEnc at interrupt level. -/
theorem State.passTriggerRead_of_highest {i : Nat} (highest : highestTrigger (s.visTriggers t l) = some i) :
    s.passTriggerRead t l =
      if l = .interrupt then (if i = 1 then s.takeKick t l else s).setIrqEnc t i else if i = 1 then s.takeKick t l else s := by
  simp [State.passTriggerRead, highest]

end

/-- Settles O58: the two halves of the value, then the passed read as a kick taken and IRQEnc set. -/
theorem triggerReads : Obligations.TriggerReads := by
  intro s t l
  refine ⟨s.triggerValue_low t l, fun deferred => ?_, fun other => ?_, fun i highest => ?_⟩
  · rw [State.triggerValue_high, if_pos deferred]
  · rw [State.triggerValue_high, if_neg other]
  · rw [s.passTriggerRead_of_highest t l highest]
    refine ⟨?kick, ?irqEnc, ?rest⟩
    case kick =>
      have taken : (if i = 1 then s.takeKick t l else s).kickOf t l = if i = 1 then s.kickOf t l - 1#16 else s.kickOf t l := by
        split
        · exact s.kickOf_takeKick t l
        · rfl
      rw [← taken]
      split
      · exact State.kickOf_setIrqEnc _ t l i
      · rfl
    case irqEnc =>
      intro level
      rw [if_pos level]
      exact State.bitsOf_txdivtime_setIrqEnc _ t i
    case rest =>
      rintro rfl
      rw [if_neg (by decide)]
      split
      · exact s.th_takeKick t .background
      · rfl

end Sys2Proof.Machine

namespace Sys2Proof

/-- Settles O57: the highest trigger is the first of the order (`Machine.triggerPriority`) that is set. -/
theorem triggerPriority : Obligations.TriggerPriority :=
  fun _ => ⟨Machine.highestTrigger_eq_none_iff, fun _ => Machine.highestTrigger_eq_some_iff⟩

end Sys2Proof
end

section
/-! PROOFS. Taking an exception or an interrupt: the entry of a handler, or the thread off with its triggers (60_exceptions.md R630,
R633, R640 to R645). -/

namespace Sys2Proof.Machine

/-! ### Registers and memory -/

theorem State.reg_of_not_general {r : Reg} (other : r.isGeneral = false) (s : State) (u : Tid) : s.reg u r = 0#32 := by
  unfold Reg.isGeneral at other
  unfold State.reg
  cases unit : r.unit <;> simp [unit] at other ⊢

/-- Where no register is a destination, every register of every unit reads as before. -/
theorem SameRegisters.reg {s s' : State} {c : Tid} (same : SameRegisters s s' c []) (u : Tid) (r : Reg) : s'.reg u r = s.reg u r := by
  cases general : r.isGeneral with
  | true => exact same u r general fun listed => absurd listed List.not_mem_nil
  | false => rw [State.reg_of_not_general general, State.reg_of_not_general general]

theorem State.reg_takeException (s : State) (t : Tid) (e : Exc) (u : Tid) (r : Reg) : (s.takeException t e).reg u r = s.reg u r :=
  ((sameRegisters_closed s t []).takeException t e fun _ _ _ _ => rfl).reg u r

theorem SameMemory.takeException (s : State) (t : Tid) (e : Exc) : SameMemory s (s.takeException t e) :=
  (sameMemory_closed s).takeException t e (.refl s)

theorem SameMemory.interruptEntry (s : State) (t : Tid) : SameMemory s (s.interruptEntry t) :=
  (sameMemory_closed s).interruptEntry t (.refl s)

/-! ### What an exception saves -/

namespace ExceptionSaved

variable {s p : State} {t : Tid} {e : Exc} (saved : ExceptionSaved s p t e)
include saved

theorem istat : p.istat t = s.istat t := saved.st 16 (by decide)

theorem priv : p.priv t = s.priv t := saved.st 17 (by decide)

/-- A status with the reason fields and the low half of the one saved tells the reason, and the low half is the old one. -/
theorem reason {w : Word} (same : ∀ i < 22, i ≠ 16 → i ≠ 17 → bitOf w i = bitOf (p.status t) i) :
    bitsOf w 18 2 = e.hreason ∧ bitsOf w 20 2 = e.freason ∧ w &&& 0x0000FFFF#32 = s.status t &&& 0x0000FFFF#32 := by
  have fields : bitsOf w 18 4 = e.freason ++ e.hreason :=
    (bitsOf_ext fun i hi => same (18 + i) (by omega) (by omega) (by omega)).trans saved.hr
  have low (i : Nat) (hi : i < 16) : bitOf w i = bitOf (s.status t) i :=
    (same i (by omega) (by omega) (by omega)).trans (saved.st i (by omega))
  obtain ⟨hreason, freason⟩ := reason_fields fields
  exact ⟨hreason, freason, low16_ext low⟩

end ExceptionSaved

/-! ### A thread that handles its own exceptions -/

/-- The state saved with the HALT trigger set and the thread HALTED, from which the handler is entered. -/
def State.exceptionHalted (s : State) (t : Tid) (e : Exc) : State :=
  (s.exceptionSaved t e).modTh t fun x => { x with tr := { x.tr with haltTrig := true }, h := { x.h with tstate := .halted } }

theorem State.takeException_handled {s : State} {t : Tid} (e : Exc) (owns : s.ownsHalt t = true) :
    s.takeException t e = (s.exceptionHalted t e).interruptEntry t := by
  rw [State.takeException_eq, if_pos ((exceptionSaved_spec s t e).owns.trans owns)]
  rfl

theorem State.th_exceptionHalted (s : State) (t : Tid) (e : Exc) : (s.exceptionHalted t e).th t =
    { (s.exceptionSaved t e).th t with
      tr := { ((s.exceptionSaved t e).th t).tr with haltTrig := true }
      h := { ((s.exceptionSaved t e).th t).h with tstate := .halted } } := State.th_modTh_self _ _ _

/-- What of a thread the entry of its handler starts from is still that of the instruction, but for the status saved. -/
theorem State.exceptionHalted_keeps (s : State) (t : Tid) (e : Exc) :
    ((s.exceptionHalted t e).th t).u = (s.th t).u ∧ ((s.exceptionHalted t e).th t).h.rp = (s.th t).h.rp ∧
    (s.exceptionHalted t e).status t = (s.exceptionSaved t e).status t ∧
    (s.exceptionHalted t e).priv t = s.priv t ∧ (s.exceptionHalted t e).pToggle t = s.pToggle t := by
  have saved := exceptionSaved_spec s t e
  have status : (s.exceptionHalted t e).status t = (s.exceptionSaved t e).status t := by
    rw [State.status, State.th_exceptionHalted]; rfl
  refine ⟨?_, ?_, status, ?_, ?_⟩
  · rw [State.th_exceptionHalted, saved.u]
  · rw [State.th_exceptionHalted, saved.h]
  · rw [State.priv, status]; exact saved.priv
  · rw [State.pToggle, State.privExt, State.th_exceptionHalted, saved.pe]; rfl

/-- Settles O51: the state saved, the HALT trigger set, then the interrupt entry. -/
theorem exceptionHandledByThread : Obligations.ExceptionHandledByThread := by
  intro s t e owns
  have saved := exceptionSaved_spec s t e
  have entered := interruptEntry_spec (s.exceptionHalted t e) t
  obtain ⟨units, pipeline, status, priv, pToggle⟩ := s.exceptionHalted_keeps t e
  have handled := State.takeException_handled e owns
  rw [← handled] at entered
  obtain ⟨hreason, freason, low⟩ := saved.reason (w := (s.takeException t e).status t) fun i hi istat pstat =>
    status ▸ entered.st i istat pstat (by omega)
  obtain ⟨_, _, _, control⟩ := entered.ct
  refine ⟨?pc, ?pcx, entered.istat, ?priv, hreason, freason, low, ?halt, ?run, ?link, entered.pend, ?enabled, ?rpt,
    fun holds => ⟨entered.dirty (pipeline ▸ holds), entered.cb (pipeline ▸ holds)⟩, State.reg_takeException s t e,
    SameMemory.takeException s t e⟩
  case pc => rw [entered.pc, units]
  case pcx => rw [entered.pcx, State.pcOf, units]; rfl
  case priv => rw [entered.priv, pToggle, priv]
  case halt => rw [entered.tr, State.th_exceptionHalted]
  case run => rw [entered.h]
  case link => rw [entered.h]
  case enabled => rw [control, ← saved.en, State.th_exceptionHalted]
  case rpt => rw [control, ← saved.rpt, State.th_exceptionHalted]

/-! ### A thread that an exception turns off -/

/-- The P trigger of a page or protection fault (R645). -/
def State.raiseFor (s : State) (t : Tid) (e : Exc) : State := if e.pageTrigger then s.raisePageTrigger t else s

/-- The state saved with the thread OFF, before its triggers go out. -/
def State.exceptionOff (s : State) (t : Tid) (e : Exc) : State := (s.exceptionSaved t e).goOff t false

theorem State.takeException_unhandled {s : State} {t : Tid} (e : Exc) (other : s.ownsHalt t = false) :
    s.takeException t e = ((s.exceptionOff t e).raiseThreadTrigger t).raiseFor t e := by
  rw [State.takeException_eq, (exceptionSaved_spec s t e).owns, if_neg (Bool.eq_false_iff.mp other)]
  rfl

theorem State.th_exceptionOff (s : State) (t : Tid) (e : Exc) : (s.exceptionOff t e).th t =
    { (s.exceptionSaved t e).th t with
      ct := { ((s.exceptionSaved t e).th t).ct with enabled := false, stopped := false }
      h := { ((s.exceptionSaved t e).th t).h with tstate := .off } } := State.th_modTh_self _ _ _

section
variable (s : State) (t : Tid) (e : Exc)

theorem State.th_raiseFor (u : Tid) : (s.raiseFor t e).th u = s.th u := by
  unfold State.raiseFor State.raisePageTrigger
  split
  · exact State.th_raiseMeta _ _ _ _
  · rfl

/-- The bit of HWSTATMETA of the B or I trigger, by the thread's level (R645). -/
def State.levelBit : Nat := 4 * t.val + (if s.istat t then 1 else 0)

theorem State.levelBit_lt : s.levelBit t < 4 * t.val + 2 := by
  unfold State.levelBit
  split <;> omega

theorem State.hwstatmeta_raiseThreadTrigger :
    (s.raiseThreadTrigger t).core.hwstatmeta = withBit s.core.hwstatmeta (s.levelBit t) true := by
  obtain ⟨v, raised⟩ := s.raiseThreadTrigger_eq t
  rw [raised, State.core_raiseMeta]
  rfl

theorem State.hwstatmeta_raiseFor : (s.raiseFor t e).core.hwstatmeta =
    if e.pageTrigger then withBit s.core.hwstatmeta (4 * t.val + 2) true else s.core.hwstatmeta := by
  unfold State.raiseFor State.raisePageTrigger
  split
  · rw [State.core_raiseMeta]
  · rfl

/-- The triggers of an exception: the bit of its level is set, the P bit where it is a page or protection fault. -/
theorem State.bitOf_hwstatmeta_raised :
    bitOf ((s.raiseThreadTrigger t).raiseFor t e).core.hwstatmeta (s.levelBit t) = true ∧
    bitOf ((s.raiseThreadTrigger t).raiseFor t e).core.hwstatmeta (4 * t.val + 2) =
      (e.pageTrigger || bitOf s.core.hwstatmeta (4 * t.val + 2)) := by
  have below := s.levelBit_lt t
  have level := s.hwstatmeta_raiseThreadTrigger t
  have levelSet := bitOf_withBit_self (w := s.core.hwstatmeta) (i := s.levelBit t) (b := true) (by omega)
  rw [State.hwstatmeta_raiseFor, level]
  cases e.pageTrigger with
  | true =>
    rw [if_pos rfl, Bool.true_or, bitOf_withBit_of_ne (by omega)]
    exact ⟨levelSet, bitOf_withBit_self (by omega)⟩
  | false =>
    rw [if_neg (by decide), Bool.false_or]
    exact ⟨levelSet, bitOf_withBit_of_ne (by omega)⟩

end

/-- Settles O52: the state saved, the thread OFF, then its triggers. -/
theorem exceptionTurnsThreadOff : Obligations.ExceptionTurnsThreadOff := by
  intro s t e other
  have saved := exceptionSaved_spec s t e
  have unhandled := State.takeException_unhandled e other
  have thread : (s.takeException t e).th t = (s.exceptionOff t e).th t := by
    rw [unhandled, State.th_raiseFor, State.th_raiseThreadTrigger]
  rw [State.th_exceptionOff] at thread
  have status : (s.takeException t e).status t = (s.exceptionSaved t e).status t := by rw [State.status, thread]; rfl
  have units : ((s.takeException t e).th t).u = (s.th t).u := by rw [thread, saved.u]
  obtain ⟨hreason, freason, low⟩ := saved.reason (w := (s.takeException t e).status t) fun i _ _ _ => by rw [status]
  have levelBit : (s.exceptionOff t e).levelBit t = s.levelBit t := by
    have istat : (s.exceptionOff t e).istat t = s.istat t := by
      rw [State.istat, State.status, State.th_exceptionOff]; exact saved.istat
    rw [State.levelBit, istat]; rfl
  have core : (s.exceptionOff t e).core = s.core := saved.core
  obtain ⟨levelSet, page⟩ := (s.exceptionOff t e).bitOf_hwstatmeta_raised t e
  rw [← unhandled, core] at page
  rw [← unhandled, levelBit] at levelSet
  refine ⟨by rw [thread], by rw [thread], by rw [thread], congrArg Units.pc units, congrArg Units.pcx units, ?istat, ?priv,
    hreason, freason, low, levelSet, fun fault => ?fault, fun unpaged => ?unpaged, by rw [thread, saved.tr],
    State.reg_takeException s t e, SameMemory.takeException s t e⟩
  case istat => rw [State.istat, status]; exact saved.istat
  case priv => rw [State.priv, status]; exact saved.priv
  case fault => rw [page, fault, Bool.true_or]
  case unpaged => rw [page, unpaged, Bool.false_or]

/-! ### Interrupts -/

theorem State.interruptDue_iff {s : State} {t : Tid} : s.interruptDue t = true ↔
    ((s.th t).h.tstate = .run ∨ (s.th t).h.tstate = .halted) ∧ s.istat t = false ∧ s.visTriggers t .interrupt ≠ 0#16 := by
  simp [State.interruptDue, and_assoc]

/-- An interrupt that is due stands in place of the thread's instruction. -/
theorem threadStep_interrupt {s : State} {t : Tid} (due : s.interruptDue t = true) :
    threadStep t s = .next ((s.modEnv fun e => { e with cur := t }).interruptEntry t) := by
  have due' : (s.modEnv fun e => { e with cur := t }).interruptDue t = true := due
  have running : (s.th t).h.tstate ≠ .cbRestore := by
    obtain ⟨run | halted, -⟩ := State.interruptDue_iff.mp due
    · rw [run]; decide
    · rw [halted]; decide
  simp [threadStep, running, due']

/-- Of TXSTATUS an entry changes ISTAT, PSTAT and CBMarker only. -/
theorem Entered.status_and {s p : State} {t : Tid} (entered : Entered s p t) :
    p.status t &&& 0xFFBCFFFF#32 = s.status t &&& 0xFFBCFFFF#32 := by
  have kept : ∀ i < 32, bitOf 0xFFBCFFFF#32 i = true → i ≠ 16 ∧ i ≠ 17 ∧ i ≠ 22 := by decide
  refine BitVec.eq_of_getLsbD_eq fun i hi => (bitOf_and _ _ i).trans (Eq.trans ?_ (bitOf_and _ _ i).symm)
  cases outside : bitOf 0xFFBCFFFF#32 i with
  | false => rw [Bool.and_false, Bool.and_false]
  | true =>
    obtain ⟨istat, pstat, marker⟩ := kept i hi outside
    rw [entered.st i istat pstat marker]

/-- Settles O55: when the entry is due, the step that makes it, and what it leaves. -/
theorem interruptsAreEntered : Obligations.InterruptsAreEntered := by
  intro s t
  have entered := interruptEntry_spec s t
  refine ⟨State.interruptDue_iff, fun s0 legal through coherent next eligible due => ?step, entered.pc, entered.pcx, entered.istat,
    ?run, entered.priv, ?link, entered.pend, entered.status_and, fun holds => ⟨entered.dirty holds, entered.cb holds⟩, entered.tr t,
    entered.shared, entered.reg, SameMemory.interruptEntry s t⟩
  case step => exact (step_thread legal through coherent next eligible).trans (threadStep_interrupt due)
  case run => rw [entered.h]
  case link => rw [entered.h]

end Sys2Proof.Machine
end

section
/-! PROOFS. The replay of a caught transfer (60_exceptions.md R652, R658): what it makes again, and the step of a thread in CBRESTORE. -/

namespace Sys2Proof.Machine

/-! ### The fields of TXCATCH0 -/

/-- The bit of a unit R466 defines names it. -/
theorem unitOfBit_destBit {u : UnitId} (notFx : u ≠ .fx) (notPort : u ≠ .port) (notTt : u ≠ .tt) :
    unitOfBit (destBit u) = some u := by
  cases u <;> first | contradiction | rfl

theorem pairOfBits_pair {p : UnitId × UnitId} (pair : p ∈ [(UnitId.d0, UnitId.d1), (.a0, .a1)]) (first : Bool) :
    pairOfBits (destBit p.1 ||| destBit p.2) first = some (if first then p.2 else p.1, if first then p.1 else p.2) := by
  simp only [List.mem_cons, List.not_mem_nil, or_false] at pair
  rcases pair with rfl | rfl <;> cases first <;> rfl

theorem destBit_ne_zero {u : UnitId} (notPort : u ≠ .port) (notTt : u ≠ .tt) : destBit u ≠ 0#11 := by
  cases u <;> first | contradiction | decide

theorem ReadPort.ofNum_num (p : ReadPort) : ReadPort.ofNum p.num = some p := by cases p <;> rfl

/-- Two aligned accesses of different widths have different lanes. -/
theorem widthOfLanes_laneMask {la : Word} {w : Width} (aligned : la.toNat % widthBytes w = 0) :
    widthOfLanes la (laneMask la (widthBytes w)) = some w := by
  have lanes : ∀ o < 8, o % widthBytes w = 0 → ([Width.byte, .word, .dword, .lword].find? fun v =>
      BitVec.ofNat 8 (2 ^ widthBytes v - 1) <<< o == BitVec.ofNat 8 (2 ^ widthBytes w - 1) <<< o) = some w := by
    cases w <;> decide
  have start : la.toNat % 8 % widthBytes w = 0 := by
    obtain bytes | bytes | bytes | bytes := widthBytes_cases w <;> rw [bytes] at aligned ⊢ <;> omega
  exact lanes (la.toNat % 8) (Nat.mod_lt _ (by decide)) start

/-! ### What a replay makes again -/

section
variable {s s1 : State} {t : Tid}

/-- Nothing is marked. -/
theorem replayTransfer_unmarked (unmarked : bitsOf (s.th t).ct.txcatch0 10 5 = 0#5) : replayTransfer t s = .ok () s := by
  unfold replayTransfer
  rw [view_bind, if_pos unmarked]
  rfl

/-- A transfer a watchpoint stopped is caught again. -/
theorem replayTransfer_watched (watched : bitOf (s.th t).ct.txcatch0 14 = true) :
    replayTransfer t s = .error (.late (.data (.watch (bitsOf (s.th t).ct.txcatch0 12 2)) .again)) s := by
  have marked : bitsOf (s.th t).ct.txcatch0 10 5 ≠ 0#5 := by
    intro unmarked
    have field := bitOf_bitsOf (lo := 10) (n := 5) (i := 4) (s.th t).ct.txcatch0 (by decide)
    rw [unmarked, watched] at field
    exact absurd field (by decide)
  unfold replayTransfer
  rw [view_bind, if_neg marked, if_pos watched]
  rfl

section
variable (made : transferMade (s.th t).ct.txcatch0)
include made

theorem replayTransfer_store (write : bitOf (s.th t).ct.txcatch0 8 = false) : replayTransfer t s =
    replayStore t (s.th t).ct.txcatch0 (s.th t).ct.txcatch1 (s.th t).ct.txcatch2 (s.th t).ct.txcatch3 s := by
  rw [replayTransfer_made made, write, if_pos (by decide)]

theorem replayTransfer_load (read : bitOf (s.th t).ct.txcatch0 8 = true) (load : bitsOf (s.th t).ct.txcatch0 16 11 ≠ 0#11) :
    replayTransfer t s = replayLoad t (s.th t).ct.txcatch0 (s.th t).ct.txcatch1 s := by
  rw [replayTransfer_made made, read, if_neg (by decide), if_pos load]

theorem replayTransfer_issue (read : bitOf (s.th t).ct.txcatch0 8 = true) (issue : bitsOf (s.th t).ct.txcatch0 16 11 = 0#11) :
    replayTransfer t s = replayIssue t (s.th t).ct.txcatch0 (s.th t).ct.txcatch1 s := by
  rw [replayTransfer_made made, read, if_neg (by decide), if_neg (not_not_intro issue)]

end

variable {k la : Word} {v : DWord}

theorem loadValue_ok {w : Width} {num : BitVec 5} {units : BitVec 11} {first : Bool}
    (read : memRead (s.accOf t) la (widthBytes w) s = .ok (.ok v) s1) : loadValue t w la num units first s = .ok v s1 :=
  M.bind_ok read

/-- The access of a caught load performed, linked where bit 3 says so. -/
theorem caughtLoad_ok (read : (if bitOf k 3 then linkedRead (s.accOf t) la (widthBytes (widthOfCode (bitsOf k 0 2))) s
      else memRead (s.accOf t) la (widthBytes (widthOfCode (bitsOf k 0 2))) s) = .ok (.ok v) s1) :
    caughtLoad t k la s = .ok v s1 := by
  unfold caughtLoad
  split at read
  · rename_i linked
    rw [if_pos linked]
    exact linkedLoad_ok read
  · rename_i plain
    rw [if_neg plain]
    exact loadValue_ok read

theorem replayLoad_single {u : UnitId} (single : widthOfCode (bitsOf k 0 2) ≠ .lword) (unit : unitOfBit (bitsOf k 16 11) = some u)
    (usable : s.operandStop t [wr ⟨u, bitsOf k 27 5⟩] = none) (got : caughtLoad t k la s = .ok v s1) :
    replayLoad t k la s = writeReg t ⟨u, bitsOf k 27 5⟩ (loWord v) s1 := by
  unfold replayLoad
  rw [if_neg single, unit]
  exact (check_bind usable).trans (M.bind_ok got)

theorem replayLoad_pair {ua ub : UnitId} (pair : widthOfCode (bitsOf k 0 2) = .lword)
    (units : pairOfBits (bitsOf k 16 11) (bitOf k 2) = some (ua, ub))
    (usable : s.operandStop t [wr ⟨ua, bitsOf k 27 5⟩, wr ⟨ub, bitsOf k 27 5⟩] = none) (got : caughtLoad t k la s = .ok v s1) :
    replayLoad t k la s =
      .ok () ((s1.setReg t ⟨ua, bitsOf k 27 5⟩ (loWord v)).setReg t ⟨ub, bitsOf k 27 5⟩ (hiWord v)) := by
  unfold replayLoad
  rw [if_pos pair, units]
  exact (check_bind usable).trans (M.bind_ok got)

theorem replayStore_ok {lo hi : Word} {w : Width} (lanes : widthOfLanes la (bitsOf k 0 8) = some w)
    (put : memWrite (s.accOf t) la (widthBytes w) (zextBytes (widthBytes w) (joinWords hi lo >>> (8 * (la.toNat % 8)))) s =
      .ok (.ok ()) s1) : replayStore t k la lo hi s = .ok () s1 := by
  unfold replayStore
  rw [lanes]
  exact storeValue_ok put

theorem replayIssue_port {p : ReadPort} (port : bitsOf k 0 5 = p.num)
    (usable : s.operandStop t [wr ⟨.port, p.num⟩] = none) : replayIssue t k la s = writePort t p la s := by
  unfold replayIssue
  rw [port, ReadPort.ofNum_num]
  exact check_bind usable

end

/-! ### The step of a thread in CBRESTORE -/

section
variable {s s1 : State} {t : Tid}

theorem threadStep_replay (restoring : (s.th t).h.tstate = .cbRestore) :
    threadStep t s = replayStep t (s.modEnv fun e => { e with cur := t }) := by
  simp [threadStep, restoring]

theorem replayStep_late {e : Exc} (caught : replayTransfer t s = .error (.late e) s1) :
    replayStep t s = .next (((s1.setRpDirty t false).takeException t e).stopIfDisabled t) := by
  unfold replayStep
  rw [caught]

theorem replayStep_ok (made : replayTransfer t s = .ok () s1) (enabled : (s1.th t).ct.enabled = true) :
    replayStep t s = .next ((s1.endReplay t).setRpDirty t false) := by
  have still : (((s1.endReplay t).setRpDirty t false).th t).ct.enabled = true := by
    simpa [State.endReplay, State.setStatus, State.setRpDirty] using enabled
  unfold replayStep
  rw [made]
  exact congrArg _ (State.stopIfDisabled_of_enabled _ _ still)

/-- The markers, RPDirty and the thread's state when a replay is done. -/
theorem State.replayed_thread (s : State) (t : Tid) : ((s.endReplay t).setRpDirty t false).cbMarker t = false ∧
    bitOf (((s.endReplay t).setRpDirty t false).status t) 23 = false ∧ ((s.endReplay t).setRpDirty t false).rpDirty t = false ∧
    ((s.th t).h.tstate = .cbRestore → (((s.endReplay t).setRpDirty t false).th t).h.tstate = .run) := by
  obtain ⟨marker, interruptMarker⟩ := s.endReplay_clears t
  have status : ((s.endReplay t).setRpDirty t false).status t = (s.endReplay t).status t := by simp [State.status, State.setRpDirty]
  refine ⟨?_, ?_, ?_, fun restoring => ?_⟩
  · rw [State.cbMarker, status]; exact marker
  · rw [status]; exact interruptMarker
  · simp [State.rpDirty, State.setRpDirty, bitOf_withBit_self]
  · simp [State.setRpDirty, State.endReplay, State.setStatus, restoring]

end

/-- Settles O54: the step as the replay, then the replay by the kind of transfer its catch word marks. -/
theorem caughtTransfersAreReplayed : Obligations.CaughtTransfersAreReplayed := by
  intro s s1 t c la num units made reads
  refine ⟨fun x s0 legal through coherent next eligible restoring => ?step, fun transferred enabled => ?done,
    fun e caught => replayStep_late caught, fun u v marked read single unit notFx notPort notTt usable got => ?single,
    ?pair, fun w marked write aligned lanes put => ?store,
    fun p marked read none port usable => ?issue, replayTransfer_unmarked, replayTransfer_watched⟩
  case step => exact (step_thread legal through coherent next eligible).trans (threadStep_replay restoring)
  case done => exact ⟨replayStep_ok transferred enabled, s1.replayed_thread t⟩
  case single =>
    have load : units ≠ 0#11 := unit ▸ destBit_ne_zero notPort notTt
    have named : unitOfBit units = some u := unit ▸ unitOfBit_destBit notFx notPort notTt
    exact (replayTransfer_load marked read load).trans (replayLoad_single single named usable (caughtLoad_ok got))
  case pair =>
    intro p v pair marked read width unit ra rb usable got
    have named : pairOfBits units (bitOf c 2) = _ := unit ▸ pairOfBits_pair pair (bitOf c 2)
    have load : units ≠ 0#11 := by
      intro zero
      rw [zero] at named
      cases named
    have got' : caughtLoad t c la s = .ok v s1 := caughtLoad_ok (by rw [width]; exact got)
    exact (replayTransfer_load marked read load).trans (replayLoad_pair width named usable got')
  case store =>
    have width : widthOfLanes la (bitsOf c 0 8) = some w := lanes ▸ widthOfLanes_laneMask aligned
    exact (replayTransfer_store marked write).trans (replayStore_ok width put)
  case issue => exact (replayTransfer_issue marked read none).trans (replayIssue_port port usable)

end Sys2Proof.Machine
end

section
/-! PROOFS. A tick of the base clock (61_privilege_platform.md R716 to R718): the prescale counter against the divider, and the
roll-over of the timers. -/

namespace Sys2Proof.Machine

/-- A counter that is one below the roll-over is exactly one whose next value is 0. -/
theorem beq_allOnes_iff_succ_eq_zero (w : Word) : (w == 0xFFFFFFFF#32) = true ↔ w + 1#32 = 0#32 := by
  rw [beq_iff_eq]
  bv_omega

/-- The divider's field has 8 bits, so the prescale counter never wraps on its way up to it. -/
theorem timerDivider_le (w : Word) : timerDivider w ≤ 256 := by
  have field := (bitsOf w 0 8).isLt
  unfold timerDivider
  dsimp only
  split <;> omega

section
variable {x : Thread}

/-- A tick below the divider. -/
theorem Thread.timerTick_of_lt (below : x.h.prescale.toNat + 1 < timerDivider x.ct.txdivtime) :
    x.timerTick = { x with h := { x.h with prescale := x.h.prescale + 1#8 } } :=
  if_neg (Nat.not_le.mpr below)

/-- A tick that reaches the divider. -/
theorem Thread.timerTick_of_le (reached : timerDivider x.ct.txdivtime ≤ x.h.prescale.toNat + 1) :
    x.timerTick = { x.countTimers with h := { x.h with prescale := 0#8 } } :=
  if_pos reached

theorem prescale_succ_toNat {p : BitVec 8} {w : Word} (below : p.toNat + 1 < timerDivider w) :
    (p + 1#8).toNat = p.toNat + 1 :=
  BitVec.toNat_add_of_lt (below.trans_le (timerDivider_le w))

/-- The background timer's trigger after a count: kept, or set by the roll-over (R716). -/
theorem Thread.countTimers_timerTrig (x : Thread) :
    x.countTimers.tr.timerTrig = true ↔ x.tr.timerTrig = true ∨ x.countTimers.ct.txtimer = 0#32 :=
  Bool.or_eq_true_iff.trans (or_congr_right (beq_allOnes_iff_succ_eq_zero x.ct.txtimer))

/-- The interrupt timer's trigger after a count: kept, or set by the roll-over (R717). -/
theorem Thread.countTimers_timerTrigI (x : Thread) :
    x.countTimers.tr.timerTrigI = true ↔ x.tr.timerTrigI = true ∨ x.countTimers.ct.txtimeri = 0#32 :=
  Bool.or_eq_true_iff.trans (or_congr_right (beq_allOnes_iff_succ_eq_zero x.ct.txtimeri))

end

/-- Settles O60: the prescale counter either stays below the divider and counts, or reaches it and the timers count. -/
theorem timersTick : Obligations.TimersTick := by
  intro x
  refine ⟨fun below => ?counts, fun reached => ?timersCount⟩
  case counts =>
    have tick := Thread.timerTick_of_lt below
    refine ⟨tick, ?_⟩
    rw [tick]
    exact prescale_succ_toNat below
  case timersCount =>
    rw [Thread.timerTick_of_le reached]
    exact ⟨rfl, rfl, x.countTimers_timerTrig, x.countTimers_timerTrigI, rfl, rfl⟩

end Sys2Proof.Machine
end
